-- ==== Sys2Proof/Word.lean ====
section
/-!
DEFINITION. The machine's words (R5, R6): a byte, a 64-bit scalar word and an instruction word. Their helpers stand in
Decode.lean and Machine/Bits.lean.
-/
namespace Sys2Proof

/-- A byte of memory, of a vector register or of a tile. -/
abbrev Byte := BitVec 8

/-- A 64-bit scalar word (R103). -/
abbrev Word := BitVec 64

/-- An instruction word (R78). -/
abbrev IWord := BitVec 32

end Sys2Proof
end

