-- ==== Sys2Proof/Syntax.lean ====
section
/-!
DEFINITION. The instruction set as syntax: one constructor for each row of the opcode table. The 229 words carry the
fields of their encoding, lowest bit first (so the destination comes first); the 70 events of the part carry the agent
or the outside data they concern; a management command the first 8 bytes of its record (R387), with its operands apart.
-/
namespace Sys2Proof

/-- Owner of a region-table entry as the REGION command names it (R234). -/
inductive RegionOwner where
  | part (p : Nat)
  | commons
  | nobody
deriving DecidableEq, Repr

/-- Operands of CREATE (R387, R234, R338, R388). A core is numbered as in R202, a home group die * 64 + group. -/
structure CreateOps where
  cores : List Nat
  groups : List Nat
  inter : List Nat
  saveRegions : List Nat
  pod : Nat
deriving DecidableEq, Repr

/-- Operands of RESIZE (R387, R342): what is added and what is taken away. -/
structure ResizeOps where
  addCores : List Nat
  delCores : List Nat
  addGroups : List Nat
  delGroups : List Nat
  inter : List Nat
  addSave : List Nat
  delSave : List Nat
deriving DecidableEq, Repr

/-- A scheduling parameter of R301. -/
inductive SchedParam where
  | yield
  | age
  | minrun
  | slice
  | quantum (account : Nat)
  | lage
  | lhold
deriving DecidableEq, Repr

/-- What a host-link access does (R258). -/
inductive HostOp where
  | load
  | store
  | atomic (op : BitVec 4)
  | chorusStore
deriving DecidableEq, Repr

/-- One constructor for each row of the opcode table. -/
inductive Instr where
  | add (d : BitVec 5) (a : BitVec 5) (b : BitVec 5) -- R107
  | sub (d : BitVec 5) (a : BitVec 5) (b : BitVec 5) -- R107
  | and (d : BitVec 5) (a : BitVec 5) (b : BitVec 5) -- R107
  | or (d : BitVec 5) (a : BitVec 5) (b : BitVec 5) -- R107
  | xor (d : BitVec 5) (a : BitVec 5) (b : BitVec 5) -- R107
  | sll (d : BitVec 5) (a : BitVec 5) (b : BitVec 5) -- R107
  | srl (d : BitVec 5) (a : BitVec 5) (b : BitVec 5) -- R107
  | sra (d : BitVec 5) (a : BitVec 5) (b : BitVec 5) -- R107
  | slt (d : BitVec 5) (a : BitVec 5) (b : BitVec 5) -- R107
  | sltn (d : BitVec 5) (a : BitVec 5) (b : BitVec 5) -- R107
  | min (d : BitVec 5) (a : BitVec 5) (b : BitVec 5) -- R107
  | max (d : BitVec 5) (a : BitVec 5) (b : BitVec 5) -- R107
  | minn (d : BitVec 5) (a : BitVec 5) (b : BitVec 5) -- R107
  | maxn (d : BitVec 5) (a : BitVec 5) (b : BitVec 5) -- R107
  | sel (d : BitVec 5) (a : BitVec 5) (b : BitVec 5) -- R107
  | mul (d : BitVec 5) (a : BitVec 5) (b : BitVec 5) -- R107
  | mulh (d : BitVec 5) (a : BitVec 5) (b : BitVec 5) -- R107
  | mulhn (d : BitVec 5) (a : BitVec 5) (b : BitVec 5) -- R107
  | div (d : BitVec 5) (a : BitVec 5) (b : BitVec 5) -- R107
  | divn (d : BitVec 5) (a : BitVec 5) (b : BitVec 5) -- R107
  | rem (d : BitVec 5) (a : BitVec 5) (b : BitVec 5) -- R107
  | remn (d : BitVec 5) (a : BitVec 5) (b : BitVec 5) -- R107
  | clz (d : BitVec 5) (a : BitVec 5) -- R107
  | ctz (d : BitVec 5) (a : BitVec 5) -- R107
  | popc (d : BitVec 5) (a : BitVec 5) -- R107
  | addi (d : BitVec 5) (a : BitVec 5) (i : BitVec 15) -- R110
  | andi (d : BitVec 5) (a : BitVec 5) (i : BitVec 15) -- R110
  | ori (d : BitVec 5) (a : BitVec 5) (i : BitVec 15) -- R110
  | xori (d : BitVec 5) (a : BitVec 5) (i : BitVec 15) -- R110
  | slti (d : BitVec 5) (a : BitVec 5) (i : BitVec 15) -- R110
  | slli (d : BitVec 5) (a : BitVec 5) (n : BitVec 6) -- R110
  | srli (d : BitVec 5) (a : BitVec 5) (n : BitVec 6) -- R110
  | srai (d : BitVec 5) (a : BitVec 5) (n : BitVec 6) -- R110
  | bfx (d : BitVec 5) (a : BitVec 5) (p : BitVec 6) (l : BitVec 6) -- R111
  | bfi (d : BitVec 5) (a : BitVec 5) (p : BitVec 6) (l : BitVec 6) -- R111
  | lui (d : BitVec 5) (i : BitVec 20) -- R112
  | addpc (d : BitVec 5) (i : BitVec 20) -- R112
  | ldb (d : BitVec 5) (a : BitVec 5) (o : BitVec 12) -- R113
  | ldh (d : BitVec 5) (a : BitVec 5) (o : BitVec 12) -- R113
  | ldw (d : BitVec 5) (a : BitVec 5) (o : BitVec 12) -- R113
  | ldd (d : BitVec 5) (a : BitVec 5) (o : BitVec 12) -- R113
  | ldbz (d : BitVec 5) (a : BitVec 5) (o : BitVec 12) -- R113
  | ldhz (d : BitVec 5) (a : BitVec 5) (o : BitVec 12) -- R113
  | ldwz (d : BitVec 5) (a : BitVec 5) (o : BitVec 12) -- R113
  | stb (a : BitVec 5) (b : BitVec 5) (o : BitVec 12) -- R113
  | sth (a : BitVec 5) (b : BitVec 5) (o : BitVec 12) -- R113
  | stw (a : BitVec 5) (b : BitVec 5) (o : BitVec 12) -- R113
  | std (a : BitVec 5) (b : BitVec 5) (o : BitVec 12) -- R113
  | amoadd (d : BitVec 5) (a : BitVec 5) (b : BitVec 5) (w : Bool) (c : BitVec 3) (r : Bool) -- R116
  | amoand (d : BitVec 5) (a : BitVec 5) (b : BitVec 5) (w : Bool) (c : BitVec 3) (r : Bool) -- R116
  | amoor (d : BitVec 5) (a : BitVec 5) (b : BitVec 5) (w : Bool) (c : BitVec 3) (r : Bool) -- R116
  | amoxor (d : BitVec 5) (a : BitVec 5) (b : BitVec 5) (w : Bool) (c : BitVec 3) (r : Bool) -- R116
  | amomin (d : BitVec 5) (a : BitVec 5) (b : BitVec 5) (w : Bool) (c : BitVec 3) (r : Bool) -- R116
  | amomax (d : BitVec 5) (a : BitVec 5) (b : BitVec 5) (w : Bool) (c : BitVec 3) (r : Bool) -- R116
  | amominn (d : BitVec 5) (a : BitVec 5) (b : BitVec 5) (w : Bool) (c : BitVec 3) (r : Bool) -- R116
  | amomaxn (d : BitVec 5) (a : BitVec 5) (b : BitVec 5) (w : Bool) (c : BitVec 3) (r : Bool) -- R116
  | amoswp (d : BitVec 5) (a : BitVec 5) (b : BitVec 5) (w : Bool) (c : BitVec 3) (r : Bool) -- R116
  | amocas (d : BitVec 5) (a : BitVec 5) (b : BitVec 5) (w : Bool) (c : BitVec 3) (r : Bool) -- R116
  | beq (a : BitVec 5) (b : BitVec 5) (o : BitVec 15) -- R118
  | bne (a : BitVec 5) (b : BitVec 5) (o : BitVec 15) -- R118
  | blt (a : BitVec 5) (b : BitVec 5) (o : BitVec 15) -- R118
  | bge (a : BitVec 5) (b : BitVec 5) (o : BitVec 15) -- R118
  | bltn (a : BitVec 5) (b : BitVec 5) (o : BitVec 15) -- R118
  | bgen (a : BitVec 5) (b : BitVec 5) (o : BitVec 15) -- R118
  | jal (d : BitVec 5) (o : BitVec 20) -- R119
  | jalr (d : BitVec 5) (a : BitVec 5) (i : BitVec 15) -- R119
  | qpop (d : BitVec 5) (q : BitVec 3) -- R122
  | qcnt (d : BitVec 5) (q : BitVec 3) -- R122
  | fenceAcq (s : BitVec 3) -- R123
  | fenceRel (s : BitVec 3) -- R123
  | fenceFull (s : BitVec 3) -- R123
  | fenceSv -- R123
  | fenceAlias (s : BitVec 3) -- R123
  | bar (a : BitVec 5) (s : BitVec 3) -- R36
  | exit -- R12
  | syscall (c : BitVec 20) -- R127
  | sret -- R330
  | brk (c : BitVec 20) -- R127
  | launch (q : BitVec 2) (a : BitVec 5) -- R130
  | sysrd (d : BitVec 5) (n : BitVec 12) -- R132
  | syswr (a : BitVec 5) (n : BitVec 12) -- R132
  | pfh (h : BitVec 3) (a : BitVec 5) (o : BitVec 12) -- R135
  | setvl (d : BitVec 5) (a : BitVec 5) -- R29
  | setcfg (d : BitVec 5) (a : BitVec 5) -- R29
  | setvli (d : BitVec 5) (l : BitVec 15) -- R29
  | vld (d : BitVec 6) (a : BitVec 5) (k : BitVec 3) -- R153
  | vlds (d : BitVec 6) (a : BitVec 5) (b : BitVec 5) (k : BitVec 3) -- R153
  | vldx (d : BitVec 6) (a : BitVec 5) (b : BitVec 6) (k : BitVec 3) -- R153
  | vldxo (d : BitVec 6) (a : BitVec 5) (b : BitVec 6) (k : BitVec 3) -- R157
  | vldff (d : BitVec 6) (a : BitVec 5) (f : BitVec 3) (k : BitVec 3) -- R156
  | vldw (d : BitVec 6) (a : BitVec 5) -- R159
  | vst (d : BitVec 6) (a : BitVec 5) (k : BitVec 3) -- R153
  | vsts (d : BitVec 6) (a : BitVec 5) (b : BitVec 5) (k : BitVec 3) -- R153
  | vstx (d : BitVec 6) (a : BitVec 5) (b : BitVec 6) (k : BitVec 3) -- R153
  | vstxo (d : BitVec 6) (a : BitVec 5) (b : BitVec 6) (k : BitVec 3) -- R157
  | vstw (d : BitVec 6) (a : BitVec 5) -- R159
  | vamoAdd (d : BitVec 6) (a : BitVec 5) (b : BitVec 6) (k : BitVec 3) -- R153
  | vamoAnd (d : BitVec 6) (a : BitVec 5) (b : BitVec 6) (k : BitVec 3) -- R153
  | vamoOr (d : BitVec 6) (a : BitVec 5) (b : BitVec 6) (k : BitVec 3) -- R153
  | vamoXor (d : BitVec 6) (a : BitVec 5) (b : BitVec 6) (k : BitVec 3) -- R153
  | vamoMin (d : BitVec 6) (a : BitVec 5) (b : BitVec 6) (k : BitVec 3) -- R153
  | vamoMax (d : BitVec 6) (a : BitVec 5) (b : BitVec 6) (k : BitVec 3) -- R153
  | vamoMinn (d : BitVec 6) (a : BitVec 5) (b : BitVec 6) (k : BitVec 3) -- R153
  | vamoMaxn (d : BitVec 6) (a : BitVec 5) (b : BitVec 6) (k : BitVec 3) -- R153
  | vamoSwp (d : BitVec 6) (a : BitVec 5) (b : BitVec 6) (k : BitVec 3) -- R153
  | kand (d : BitVec 3) (a : BitVec 3) (b : BitVec 3) -- R168
  | kor (d : BitVec 3) (a : BitVec 3) (b : BitVec 3) -- R168
  | kxor (d : BitVec 3) (a : BitVec 3) (b : BitVec 3) -- R168
  | kandn (d : BitVec 3) (a : BitVec 3) (b : BitVec 3) -- R168
  | knot (d : BitVec 3) (a : BitVec 3) -- R168
  | kmv (d : BitVec 3) (a : BitVec 3) -- R168
  | ksbf (d : BitVec 3) (a : BitVec 3) (k : BitVec 3) -- R169
  | ksif (d : BitVec 3) (a : BitVec 3) (k : BitVec 3) -- R169
  | ksof (d : BitVec 3) (a : BitVec 3) (k : BitVec 3) -- R169
  | kpop (q : BitVec 2) (a : BitVec 3) (k : BitVec 3) -- R169
  | kfirst (q : BitVec 2) (a : BitVec 3) (k : BitVec 3) -- R169
  | kld (d : BitVec 3) (a : BitVec 5) -- R170
  | kst (d : BitVec 3) (a : BitVec 5) -- R170
  | vredsum (d : BitVec 6) (f : BitVec 3) (i : Bool) (b : BitVec 6) (k : BitVec 3) -- R171
  | vfredsum (d : BitVec 6) (f : BitVec 3) (i : Bool) (b : BitVec 6) (k : BitVec 3) -- R171
  | vredmin (d : BitVec 6) (f : BitVec 3) (i : Bool) (b : BitVec 6) (k : BitVec 3) -- R171
  | vredmax (d : BitVec 6) (f : BitVec 3) (i : Bool) (b : BitVec 6) (k : BitVec 3) -- R171
  | vfredmin (d : BitVec 6) (f : BitVec 3) (i : Bool) (b : BitVec 6) (k : BitVec 3) -- R171
  | vfredmax (d : BitVec 6) (f : BitVec 3) (i : Bool) (b : BitVec 6) (k : BitVec 3) -- R171
  | vargmax (d : BitVec 6) (f : BitVec 3) (i : Bool) (b : BitVec 6) (k : BitVec 3) -- R171
  | vargmin (d : BitVec 6) (f : BitVec 3) (i : Bool) (b : BitVec 6) (k : BitVec 3) -- R171
  | vgsum (d : BitVec 6) (f : BitVec 3) (b : BitVec 6) (k : BitVec 3) -- R171
  | vfgsum (d : BitVec 6) (f : BitVec 3) (b : BitVec 6) (k : BitVec 3) -- R171
  | vscan (d : BitVec 6) (f : BitVec 3) (i : Bool) (b : BitVec 6) (k : BitVec 3) -- R67
  | vfscan (d : BitVec 6) (f : BitVec 3) (i : Bool) (b : BitVec 6) (k : BitVec 3) -- R67
  | vcomp (d : BitVec 6) (b : BitVec 6) (k : BitVec 3) -- R173
  | vexpand (d : BitVec 6) (b : BitVec 6) (k : BitVec 3) -- R173
  | vslup (d : BitVec 6) (a : BitVec 5) (b : BitVec 6) (k : BitVec 3) -- R174
  | vsldn (d : BitVec 6) (a : BitVec 5) (b : BitVec 6) (k : BitVec 3) -- R174
  | vsl1up (d : BitVec 6) (a : BitVec 5) (b : BitVec 6) (k : BitVec 3) -- R174
  | vsl1dn (d : BitVec 6) (a : BitVec 5) (b : BitVec 6) (k : BitVec 3) -- R174
  | vgath (d : BitVec 6) (a : BitVec 6) (b : BitVec 6) (k : BitVec 3) -- R175
  | vbsll (d : BitVec 6) (a : BitVec 5) (b : BitVec 6) -- R176
  | vbsrl (d : BitVec 6) (a : BitVec 5) (b : BitVec 6) -- R176
  | vbfsh (d : BitVec 6) (a : BitVec 5) (b : BitVec 6) -- R176
  | vxbeg -- R177
  | vexit (c : BitVec 3) (a : BitVec 6) (b : BitVec 6) (k : BitVec 3) (f : BitVec 3) -- R178
  | vopa (z : BitVec 2) (a : BitVec 6) (b : BitVec 6) (f : BitVec 3) -- R186
  | vops (z : BitVec 2) (a : BitVec 6) (b : BitVec 6) (f : BitVec 3) -- R186
  | zclr (z : BitVec 2) -- R189
  | zld (z : BitVec 2) (a : BitVec 5) (b : BitVec 5) -- R190
  | zst (z : BitVec 2) (a : BitVec 5) (b : BitVec 5) -- R190
  | zrdv (z : BitVec 2) (d : BitVec 6) (b : BitVec 5) (f : BitVec 3) -- R191
  | zwrv (z : BitVec 2) (a : BitVec 6) (b : BitVec 5) (f : BitVec 3) -- R192
  | vhad (d : BitVec 6) (a : BitVec 6) (k : BitVec 3) (f : BitVec 3) -- R194
  | vhadC (a : BitVec 6) (k : BitVec 3) (f : BitVec 3) -- R195
  | vcvtq (d : BitVec 6) (a : BitVec 6) (b : BitVec 6) (q : BitVec 3 × BitVec 3) -- R197 (q: format slot, mask field)
  | vcvtqC (d : BitVec 6) (b : BitVec 6) (q : BitVec 3 × BitVec 3) -- R197 (q: format slot, mask field)
  | vrand (d : BitVec 6) (a : BitVec 5) (b : BitVec 5) (k : BitVec 3) -- R198
  | vsend (d : BitVec 6) (b : BitVec 6) (k : BitVec 3) -- R207
  | vwait (a : BitVec 6) (s : BitVec 5) (b : BitVec 6) (k : BitVec 3) (q : BitVec 2) -- R211
  | vchorSum (d : BitVec 6) (a : BitVec 5) (b : BitVec 5) (f : BitVec 3) -- R204
  | vchorMin (d : BitVec 6) (a : BitVec 5) (b : BitVec 5) (f : BitVec 3) -- R204
  | vchorMax (d : BitVec 6) (a : BitVec 5) (b : BitVec 5) (f : BitVec 3) -- R204
  | vchorArgmax (d : BitVec 6) (a : BitVec 5) (b : BitVec 5) (f : BitVec 3) -- R204
  | vchorArgmin (d : BitVec 6) (a : BitVec 5) (b : BitVec 5) (f : BitVec 3) -- R204
  | vchorAnd (d : BitVec 6) (a : BitVec 5) (b : BitVec 5) (f : BitVec 3) -- R204
  | vchorOr (d : BitVec 6) (a : BitVec 5) (b : BitVec 5) (f : BitVec 3) -- R204
  | vchorXor (d : BitVec 6) (a : BitVec 5) (b : BitVec 5) (f : BitVec 3) -- R204
  | vclaim (d : BitVec 5) (a : BitVec 5) (b : BitVec 5) -- R42
  | rclaim (d : BitVec 5) (a : BitVec 5) -- R199
  | rfree (d : BitVec 5) (a : BitVec 5) -- R200
  | cpdim (c : BitVec 5) (a : BitVec 5) (b : BitVec 5) (n : BitVec 3) -- R213
  | cpgo (a : BitVec 5) (b : BitVec 5) (n : BitVec 3) -- R214
  | cpstat (q : BitVec 2) -- R217
  | bopen (n : BitVec 16) -- R219
  | bseal (q : BitVec 2) -- R221
  | babort -- R220
  | pwlease (c : BitVec 2) -- R226
  | pwdrop (c : BitVec 2) -- R226
  | lend -- R291
  | lmark (t : BitVec 5) (i : BitVec 5) (f : BitVec 6) (l : BitVec 6) (p : BitVec 3) -- R218
  | oshape (q : BitVec 2) (a : BitVec 5) -- R222
  | oseal (a : BitVec 5) -- R349
  | ounseal (q : BitVec 2) (a : BitVec 5) (b : BitVec 5) -- R224
  | orel (a : BitVec 5) -- R223
  | vmv (d : BitVec 6) (a : BitVec 6) (k : BitVec 3) -- R160
  | vbcast (d : BitVec 6) (b : BitVec 5) (k : BitVec 3) -- R160
  | vext (q : BitVec 2) (a : BitVec 6) (b : BitVec 5) -- R160
  | vins (d : BitVec 6) (a : BitVec 5) (b : BitVec 5) -- R160
  | vid (d : BitVec 6) (k : BitVec 3) -- R160
  | viota (d : BitVec 6) (a : BitVec 3) (k : BitVec 3) -- R160
  | vrelease (d : BitVec 6) -- R161
  | vsel (d : BitVec 6) (a : BitVec 6) (b : BitVec 6) (k : BitVec 3) -- R166
  | vadd (d : BitVec 6) (a : BitVec 6) (b : BitVec 6) (k : BitVec 3) (f : BitVec 3) (x : Bool) -- R163
  | vsub (d : BitVec 6) (a : BitVec 6) (b : BitVec 6) (k : BitVec 3) (f : BitVec 3) (x : Bool) -- R163
  | vmul (d : BitVec 6) (a : BitVec 6) (b : BitVec 6) (k : BitVec 3) (f : BitVec 3) (x : Bool) -- R163
  | vmulh (d : BitVec 6) (a : BitVec 6) (b : BitVec 6) (k : BitVec 3) (f : BitVec 3) (x : Bool) -- R163
  | vdiv (d : BitVec 6) (a : BitVec 6) (b : BitVec 6) (k : BitVec 3) (f : BitVec 3) (x : Bool) -- R163
  | vrem (d : BitVec 6) (a : BitVec 6) (b : BitVec 6) (k : BitVec 3) (f : BitVec 3) (x : Bool) -- R163
  | vmin (d : BitVec 6) (a : BitVec 6) (b : BitVec 6) (k : BitVec 3) (f : BitVec 3) (x : Bool) -- R163
  | vmax (d : BitVec 6) (a : BitVec 6) (b : BitVec 6) (k : BitVec 3) (f : BitVec 3) (x : Bool) -- R163
  | vand (d : BitVec 6) (a : BitVec 6) (b : BitVec 6) (k : BitVec 3) (f : BitVec 3) (x : Bool) -- R163
  | vor (d : BitVec 6) (a : BitVec 6) (b : BitVec 6) (k : BitVec 3) (f : BitVec 3) (x : Bool) -- R163
  | vxor (d : BitVec 6) (a : BitVec 6) (b : BitVec 6) (k : BitVec 3) (f : BitVec 3) (x : Bool) -- R163
  | vsll (d : BitVec 6) (a : BitVec 6) (b : BitVec 6) (k : BitVec 3) (f : BitVec 3) (x : Bool) -- R163
  | vsrl (d : BitVec 6) (a : BitVec 6) (b : BitVec 6) (k : BitVec 3) (f : BitVec 3) (x : Bool) -- R163
  | vsra (d : BitVec 6) (a : BitVec 6) (b : BitVec 6) (k : BitVec 3) (f : BitVec 3) (x : Bool) -- R163
  | vsadd (d : BitVec 6) (a : BitVec 6) (b : BitVec 6) (k : BitVec 3) (f : BitVec 3) (x : Bool) -- R163
  | vssub (d : BitVec 6) (a : BitVec 6) (b : BitVec 6) (k : BitVec 3) (f : BitVec 3) (x : Bool) -- R163
  | vabsd (d : BitVec 6) (a : BitVec 6) (b : BitVec 6) (k : BitVec 3) (f : BitVec 3) (x : Bool) -- R163
  | vcmp (d : BitVec 3) (c : BitVec 3) (a : BitVec 6) (b : BitVec 6) (k : BitVec 3) (f : BitVec 3) (x : Bool) -- R165
  | vcvt (d : BitVec 6) (a : BitVec 6) (k : BitVec 3) (f : BitVec 3) -- R167
  | vfadd (d : BitVec 6) (a : BitVec 6) (b : BitVec 6) (k : BitVec 3) (f : BitVec 3) (x : Bool) -- R164
  | vfsub (d : BitVec 6) (a : BitVec 6) (b : BitVec 6) (k : BitVec 3) (f : BitVec 3) (x : Bool) -- R164
  | vfmul (d : BitVec 6) (a : BitVec 6) (b : BitVec 6) (k : BitVec 3) (f : BitVec 3) (x : Bool) -- R164
  | vfma (d : BitVec 6) (a : BitVec 6) (b : BitVec 6) (k : BitVec 3) (f : BitVec 3) (x : Bool) -- R164
  | vfnma (d : BitVec 6) (a : BitVec 6) (b : BitVec 6) (k : BitVec 3) (f : BitVec 3) (x : Bool) -- R164
  | vfms (d : BitVec 6) (a : BitVec 6) (b : BitVec 6) (k : BitVec 3) (f : BitVec 3) (x : Bool) -- R164
  | vfdiv (d : BitVec 6) (a : BitVec 6) (b : BitVec 6) (k : BitVec 3) (f : BitVec 3) (x : Bool) -- R164
  | vfsqrt (d : BitVec 6) (a : BitVec 6) (k : BitVec 3) (f : BitVec 3) -- R164
  | vfrsqrt (d : BitVec 6) (a : BitVec 6) (k : BitVec 3) (f : BitVec 3) -- R75
  | vfexp2 (d : BitVec 6) (a : BitVec 6) (k : BitVec 3) (f : BitVec 3) -- R75
  | vflog2 (d : BitVec 6) (a : BitVec 6) (k : BitVec 3) (f : BitVec 3) -- R75
  | vfexp (d : BitVec 6) (a : BitVec 6) (k : BitVec 3) (f : BitVec 3) -- R75
  | vfmin (d : BitVec 6) (a : BitVec 6) (b : BitVec 6) (k : BitVec 3) (f : BitVec 3) (x : Bool) -- R72
  | vfmax (d : BitVec 6) (a : BitVec 6) (b : BitVec 6) (k : BitVec 3) (f : BitVec 3) (x : Bool) -- R72
  | vfsgn (d : BitVec 6) (a : BitVec 6) (b : BitVec 6) (k : BitVec 3) (f : BitVec 3) -- R164
  | vfcls (d : BitVec 6) (a : BitVec 6) (k : BitVec 3) (f : BitVec 3) -- R164
  | vfcmp (d : BitVec 3) (c : BitVec 3) (a : BitVec 6) (b : BitVec 6) (k : BitVec 3) (f : BitVec 3) (x : Bool) -- R165
  | pfx (p : Bool) (m : BitVec 3) (e : Bool) (r : BitVec 6) (o : BitVec 4) (u : BitVec 4) -- R88
  | cp (g : BitVec 12) (h : BitVec 12) -- R95
  | vbind (d : BitVec 6) (a : BitVec 5) -- R227
  | vunbind (d : BitVec 6) -- R227
  | vectorCommit (h : Nat) -- R19
  | retirementPush (h : Nat) -- R91
  | waitPointRelease (h : Nat) -- R45
  | barrierRouteReturn (pkg : Nat) -- R389
  | vwaitTimeout (h : Nat) -- R211
  | ounsealTimeout (h : Nat) -- R224
  | copyCommand (h : Nat) -- R214
  | copyCommandRetire (h : Nat) -- R216
  | vsendArrival (core : Nat) -- R208
  | fifoHeadWrite (bank : Nat) (x : BitVec 64) -- R245
  | bankmodeWrite (x : BitVec 64) -- R241
  | loopConfirmation (h : Nat) -- R291
  | replayComplete (h : Nat) -- R294
  | departure (h : Nat) (j : Nat) (cause : BitVec 8) -- R296
  | handBack (h : Nat) -- R297
  | bundleCommit (b : Nat) -- R356
  | bundleFlip (b : Nat) (line : Nat) -- R357
  | serialRetire (b : Nat) -- R357
  | bundleBudgetExpiry (b : Nat) -- R363
  | staleClear (h : Nat) -- R360
  | trap (cause : BitVec 8) (code : BitVec 20) (addr : BitVec 64) (elem : Nat) -- R325
  | dirtyLineError (core : Nat) (line : Nat) -- R334
  | threadPlacement (p : Nat) (core : Nat) -- R307
  | octetPass (core : Nat) (oct : Nat) -- R33
  | yieldWindowExpiry (core : Nat) (oct : Nat) -- R33
  | levelAgeing (p : Nat) (core : Nat) -- R304
  | slicePreemption (p : Nat) (core : Nat) -- R310
  | migrationSave (h : Nat) -- R311
  | save (h : Nat) -- R335
  | resumption (h : Nat) -- R340
  | taskCompletion (p : Nat) (task : Nat) -- R316
  | launchPortRecord (vd : Nat) (port : Nat) (off : Nat) (data : List (BitVec 8)) -- R302
  | launchAccept (n : Nat) -- R130
  | leaseGrant (die : Nat) -- R318
  | leaseRevoke (die : Nat) -- R319
  | leaseLapse (h : Nat) (cls : Nat) -- R226
  | cueRun (die : Nat) (part : Nat) -- R378
  | cueTimer (die : Nat) (slot : Nat) -- R374
  | thermalSample (die : Nat) (t16 : Nat) (power : Nat) -- R392
  | budgetWindow (die : Nat) -- R383
  | energyInterval (die : Nat) (uj : Nat) -- R385
  | backgroundClear (line : Nat) -- R255
  | linkTraining (port : Nat) (pvers : BitVec 16) (pfeat : BitVec 32) -- R389
  | flitRetransmit (port : Nat) (cycles : Nat) -- R389
  | softError (die : Nat) (kind : Nat) (loc : Nat) (owner : Option Nat) -- R374
  | thermalShutdown (die : Nat) (t16 : Nat) -- R392
  | powerOn -- R393
  | mgmtRegisterWrite (vd : Option Nat) (die : Nat) (off : Nat) (x : BitVec 64) -- R375
  | create (head : BitVec 64) (ops : CreateOps) -- R387
  | resize (head : BitVec 64) (ops : ResizeOps) -- R342
  | destroy (head : BitVec 64) (dst : Nat) -- R387
  | region (head : BitVec 64) (owner : RegionOwner) (place : Nat) (die : Nat) -- R234
  | vdev (head : BitVec 64) (idx : Nat) -- R387
  | troot (head : BitVec 64) (root : Nat) -- R235
  | inval (record : List (BitVec 8)) -- R394
  | aperture (head : BitVec 64) (off : Nat) (haddr : Nat) (size : Nat) (atomics : Bool) -- R232
  | nlctl (head : BitVec 64) (cls : Nat) (x : BitVec 64) -- R254
  | sched (head : BitVec 64) (param : SchedParam) (x : Nat) -- R301
  | loadcue (head : BitVec 64) (die : Nat) (pa : Nat) -- R379
  | budget (head : BitVec 64) (die : Nat) (x : Nat) -- R383
  | snapshot (head : BitVec 64) (pa : Nat) -- R386
  | msgring (head : BitVec 64) (base : Nat) (slots : Nat) -- R391
  | attest (head : BitVec 64) (pa : Nat) (nonce : List (BitVec 8)) -- R390
  | ctxpool (head : BitVec 64) (base : Nat) (n : Nat) -- R327
  | svclaunch (head : BitVec 64) (va : BitVec 64) -- R228
  | commons (groups : BitVec 64 × List Nat) (inter : List Nat) -- R234
  | hostLinkAccess (vd : Nat) (op : HostOp) (addr : BitVec 64) (data : List (BitVec 8)) -- R258
  | routeLost (port : Nat) (pkg : Nat) (retrained : Bool) -- R389
  | dramReadRetry (die : Nat) (channel : Nat) (cycles : Nat) -- R266
  | leaseAgeing (die : Nat) -- R318
deriving DecidableEq, Repr

end Sys2Proof
end

