-- ==== Sys2Proof/Machine/FieldRules.lean ====
section
/-!
DEFINITION. The conditions of R85 that a word's own fields decide: scope codes, hint codes, condition codes, prefix and
pair-word fields, system-register numbers and the other ranges of R81 and R83.
-/
namespace Sys2Proof.Machine

/-- The system-register numbers of R131. -/
def sysKnown (n : BitVec 12) : Bool :=
  [0x000, 0x001, 0x002, 0x003, 0x010, 0x011, 0x012, 0x013, 0x014, 0x015, 0x016, 0x020, 0x021, 0x030, 0x040, 0x041,
    0x042, 0x043, 0x044, 0x045, 0x050, 0x051, 0x060, 0x070, 0x080, 0x090, 0x0A0, 0x0B0, 0x0C0].contains n.toNat

/-- The registers whose Write column of R131 is "any" or "handler". -/
def sysWritable (n : BitVec 12) : Bool :=
  [0x010, 0x011, 0x013, 0x014, 0x016, 0x030, 0x041, 0x042, 0x051, 0x080, 0x090].contains n.toNat

/-- The registers that only a trap handler writes (R131). -/
def sysHandlerOnly (n : BitVec 12) : Bool :=
  [0x010, 0x011, 0x013, 0x014, 0x016, 0x041].contains n.toNat

/-- One half of a pair word (R94): operation, kind and operand are allocated and fit together. -/
def halfOk (op : BitVec 4) (kind : BitVec 2) (opnd : BitVec 6) : Bool :=
  if op == 0#4 then kind == 0#2 && opnd == 0#6
  else match kind.toNat with
    | 0 => true
    | 1 => opnd.toNat < 32
    | 2 => decide (op.toNat ≤ 8) || decide (14 ≤ op.toNat)
    | _ => false

/-- The operation, kind and operand fields of a half. -/
def halfOp (h : BitVec 12) : BitVec 4 := BitVec.ofNat 4 (h.toNat / 2 ^ 8)
def halfKind (h : BitVec 12) : BitVec 2 := BitVec.ofNat 2 (h.toNat / 2 ^ 6)
def halfOpnd (h : BitVec 12) : BitVec 6 := BitVec.ofNat 6 h.toNat

/-- An atomic's AR bit and scope (R115). -/
def amoScopeOk (c : BitVec 3) (ar : Bool) : Bool := if ar then c != 7#3 else c == 0#3

/-- With x = 1 the vb field names a scalar, so its bit 5 is 0 (R146). -/
def xOk (b : BitVec 6) (x : Bool) : Bool := !x || decide (b.toNat < 32)

/-- The conditions of R85 on an instruction's field values; an event has no word and meets them. -/
def fieldsOk : Instr → Bool
  | .bfx _ _ p l | .bfi _ _ p l => decide (p.toNat + l.toNat + 1 ≤ 64)
  | .amoadd _ _ _ _ c r | .amoand _ _ _ _ c r | .amoor _ _ _ _ c r | .amoxor _ _ _ _ c r | .amomin _ _ _ _ c r
  | .amomax _ _ _ _ c r | .amominn _ _ _ _ c r | .amomaxn _ _ _ _ c r | .amoswp _ _ _ _ c r
  | .amocas _ _ _ _ c r => amoScopeOk c r
  | .fenceAcq s | .fenceRel s | .fenceFull s | .fenceAlias s => s != 7#3
  | .bar _ s => s != 0#3 && s != 6#3 && s != 7#3
  | .sysrd _ n => sysKnown n
  | .syswr _ n => sysWritable n
  | .pfh h _ _ => h != 7#3
  | .ksbf d a _ | .ksif d a _ | .ksof d a _ => d != a
  | .vexit c _ _ _ _ => c != 7#3
  | .vrand _ _ b _ => b != 31#5
  | .cpdim _ _ _ n => decide (n.toNat ≤ 5)
  | .cpgo _ _ n => decide (1 ≤ n.toNat) && decide (n.toNat ≤ 6)
  | .pwlease c | .pwdrop c => c != 3#2
  | .lmark t i f l p => t != i && t != 0#5 && i != 0#5 && decide (f.toNat ≤ l.toNat) && p != 7#3
  | .vadd _ _ b _ _ x | .vsub _ _ b _ _ x | .vmul _ _ b _ _ x | .vmulh _ _ b _ _ x | .vdiv _ _ b _ _ x
  | .vrem _ _ b _ _ x | .vmin _ _ b _ _ x | .vmax _ _ b _ _ x | .vand _ _ b _ _ x | .vor _ _ b _ _ x
  | .vxor _ _ b _ _ x | .vsll _ _ b _ _ x | .vsrl _ _ b _ _ x | .vsra _ _ b _ _ x | .vsadd _ _ b _ _ x
  | .vssub _ _ b _ _ x | .vabsd _ _ b _ _ x | .vfadd _ _ b _ _ x | .vfsub _ _ b _ _ x | .vfmul _ _ b _ _ x
  | .vfma _ _ b _ _ x | .vfnma _ _ b _ _ x | .vfms _ _ b _ _ x | .vfdiv _ _ b _ _ x | .vfmin _ _ b _ _ x
  | .vfmax _ _ b _ _ x => xOk b x
  | .vcmp _ c _ b _ _ x => c != 6#3 && c != 7#3 && xOk b x
  | .vfcmp _ c _ b _ _ x => c != 7#3 && xOk b x
  | .pfx p m e r o u => decide (u.toNat ≤ 12) && decide (o.toNat ≤ 12) && (p || m == 0#3) && (e || r == 0#6)
  | .cp g h =>
    halfOk (halfOp g) (halfKind g) (halfOpnd g) && halfOk (halfOp h) (halfKind h) (halfOpnd h) &&
      !(halfOp g == 0#4 && halfOp h == 0#4)
  | _ => true

end Sys2Proof.Machine
end

