-- ==== Sys2Proof/WellFormed.lean ====
section
/-!
DEFINITION. Well-formed instructions: what R85 asks of a word's fields beyond its major, its function code and its zero
fields. The conditions themselves stand in Machine/FieldRules.lean.
-/
namespace Sys2Proof

/-- The instruction's fields lie in the ranges their roles allow (R81, R85). Events carry no word and are well formed. -/
def Instr.wf (i : Instr) : Bool := Machine.fieldsOk i

end Sys2Proof
end

