-- ==== Sys2Proof/Decode.lean ====
section
/-!
DEFINITION. The decoder and the encoder, both written from the field layouts of R79 and the function maps of R83. A word
decodes to an instruction exactly when its major and function code are allocated, every unused field is 0 and every
other condition of R85 that a word alone decides holds (Instr.wf); any other word decodes to none and falls under R85.
-/
namespace Sys2Proof

/-- The n-bit field of w whose lowest bit is lo. -/
def fld (w : IWord) (lo n : Nat) : BitVec n := BitVec.ofNat n (w.toNat / 2 ^ lo)

/-- The one-bit field of w at lo. -/
def bitAt (w : IWord) (lo : Nat) : Bool := w.toNat / 2 ^ lo % 2 == 1

/-- The n-bit field at lo holds v. -/
def fieldIs (w : IWord) (lo n v : Nat) : Bool := w.toNat / 2 ^ lo % 2 ^ n == v

/-- The words of major 0x01 (R83). -/
def decodeMaj01 (w : IWord) : Option Instr :=
  if fieldIs w 22 10 0 then some (.add (fld w 7 5) (fld w 12 5) (fld w 17 5)) else
  if fieldIs w 22 10 1 then some (.sub (fld w 7 5) (fld w 12 5) (fld w 17 5)) else
  if fieldIs w 22 10 2 then some (.and (fld w 7 5) (fld w 12 5) (fld w 17 5)) else
  if fieldIs w 22 10 3 then some (.or (fld w 7 5) (fld w 12 5) (fld w 17 5)) else
  if fieldIs w 22 10 4 then some (.xor (fld w 7 5) (fld w 12 5) (fld w 17 5)) else
  if fieldIs w 22 10 5 then some (.sll (fld w 7 5) (fld w 12 5) (fld w 17 5)) else
  if fieldIs w 22 10 6 then some (.srl (fld w 7 5) (fld w 12 5) (fld w 17 5)) else
  if fieldIs w 22 10 7 then some (.sra (fld w 7 5) (fld w 12 5) (fld w 17 5)) else
  if fieldIs w 22 10 8 then some (.slt (fld w 7 5) (fld w 12 5) (fld w 17 5)) else
  if fieldIs w 22 10 9 then some (.sltn (fld w 7 5) (fld w 12 5) (fld w 17 5)) else
  if fieldIs w 22 10 10 then some (.min (fld w 7 5) (fld w 12 5) (fld w 17 5)) else
  if fieldIs w 22 10 11 then some (.max (fld w 7 5) (fld w 12 5) (fld w 17 5)) else
  if fieldIs w 22 10 12 then some (.minn (fld w 7 5) (fld w 12 5) (fld w 17 5)) else
  if fieldIs w 22 10 13 then some (.maxn (fld w 7 5) (fld w 12 5) (fld w 17 5)) else
  if fieldIs w 22 10 14 then some (.sel (fld w 7 5) (fld w 12 5) (fld w 17 5)) else
  if fieldIs w 22 10 16 then some (.mul (fld w 7 5) (fld w 12 5) (fld w 17 5)) else
  if fieldIs w 22 10 17 then some (.mulh (fld w 7 5) (fld w 12 5) (fld w 17 5)) else
  if fieldIs w 22 10 18 then some (.mulhn (fld w 7 5) (fld w 12 5) (fld w 17 5)) else
  if fieldIs w 22 10 20 then some (.div (fld w 7 5) (fld w 12 5) (fld w 17 5)) else
  if fieldIs w 22 10 21 then some (.divn (fld w 7 5) (fld w 12 5) (fld w 17 5)) else
  if fieldIs w 22 10 22 then some (.rem (fld w 7 5) (fld w 12 5) (fld w 17 5)) else
  if fieldIs w 22 10 23 then some (.remn (fld w 7 5) (fld w 12 5) (fld w 17 5)) else
  if fieldIs w 17 15 1024 then some (.clz (fld w 7 5) (fld w 12 5)) else
  if fieldIs w 17 15 1056 then some (.ctz (fld w 7 5) (fld w 12 5)) else
  if fieldIs w 17 15 1088 then some (.popc (fld w 7 5) (fld w 12 5)) else
  none

/-- The words of major 0x02 (R83). -/
def decodeMaj02 (w : IWord) : Option Instr :=
  some (.addi (fld w 7 5) (fld w 12 5) (fld w 17 15))

/-- The words of major 0x03 (R83). -/
def decodeMaj03 (w : IWord) : Option Instr :=
  some (.andi (fld w 7 5) (fld w 12 5) (fld w 17 15))

/-- The words of major 0x04 (R83). -/
def decodeMaj04 (w : IWord) : Option Instr :=
  some (.ori (fld w 7 5) (fld w 12 5) (fld w 17 15))

/-- The words of major 0x05 (R83). -/
def decodeMaj05 (w : IWord) : Option Instr :=
  some (.xori (fld w 7 5) (fld w 12 5) (fld w 17 15))

/-- The words of major 0x06 (R83). -/
def decodeMaj06 (w : IWord) : Option Instr :=
  some (.slti (fld w 7 5) (fld w 12 5) (fld w 17 15))

/-- The words of major 0x07 (R83). -/
def decodeMaj07 (w : IWord) : Option Instr :=
  if fieldIs w 23 9 0 then some (.slli (fld w 7 5) (fld w 12 5) (fld w 17 6)) else
  if fieldIs w 23 9 1 then some (.srli (fld w 7 5) (fld w 12 5) (fld w 17 6)) else
  if fieldIs w 23 9 2 then some (.srai (fld w 7 5) (fld w 12 5) (fld w 17 6)) else
  none

/-- The words of major 0x08 (R83). -/
def decodeMaj08 (w : IWord) : Option Instr :=
  if fieldIs w 29 3 0 then some (.bfx (fld w 7 5) (fld w 12 5) (fld w 17 6) (fld w 23 6)) else
  none

/-- The words of major 0x09 (R83). -/
def decodeMaj09 (w : IWord) : Option Instr :=
  if fieldIs w 29 3 0 then some (.bfi (fld w 7 5) (fld w 12 5) (fld w 17 6) (fld w 23 6)) else
  none

/-- The words of major 0x0A (R83). -/
def decodeMaj0A (w : IWord) : Option Instr :=
  some (.lui (fld w 7 5) (fld w 12 20))

/-- The words of major 0x0B (R83). -/
def decodeMaj0B (w : IWord) : Option Instr :=
  some (.addpc (fld w 7 5) (fld w 12 20))

/-- The words of major 0x10 (R83). -/
def decodeMaj10 (w : IWord) : Option Instr :=
  if fieldIs w 29 3 0 then some (.ldb (fld w 7 5) (fld w 12 5) (fld w 17 12)) else
  if fieldIs w 29 3 1 then some (.ldh (fld w 7 5) (fld w 12 5) (fld w 17 12)) else
  if fieldIs w 29 3 2 then some (.ldw (fld w 7 5) (fld w 12 5) (fld w 17 12)) else
  if fieldIs w 29 3 3 then some (.ldd (fld w 7 5) (fld w 12 5) (fld w 17 12)) else
  if fieldIs w 29 3 4 then some (.ldbz (fld w 7 5) (fld w 12 5) (fld w 17 12)) else
  if fieldIs w 29 3 5 then some (.ldhz (fld w 7 5) (fld w 12 5) (fld w 17 12)) else
  if fieldIs w 29 3 6 then some (.ldwz (fld w 7 5) (fld w 12 5) (fld w 17 12)) else
  none

/-- The words of major 0x11 (R83). -/
def decodeMaj11 (w : IWord) : Option Instr :=
  if fieldIs w 29 3 0 then some (.stb (fld w 7 5) (fld w 12 5) (fld w 17 12)) else
  if fieldIs w 29 3 1 then some (.sth (fld w 7 5) (fld w 12 5) (fld w 17 12)) else
  if fieldIs w 29 3 2 then some (.stw (fld w 7 5) (fld w 12 5) (fld w 17 12)) else
  if fieldIs w 29 3 3 then some (.std (fld w 7 5) (fld w 12 5) (fld w 17 12)) else
  none

/-- The words of major 0x12 (R83). -/
def decodeMaj12 (w : IWord) : Option Instr :=
  if fieldIs w 27 1 1 && fieldIs w 22 4 0 then some (.amoadd (fld w 7 5) (fld w 12 5) (fld w 17 5) (bitAt w 26) (fld w 28 3) (bitAt w 31)) else
  if fieldIs w 27 1 1 && fieldIs w 22 4 1 then some (.amoand (fld w 7 5) (fld w 12 5) (fld w 17 5) (bitAt w 26) (fld w 28 3) (bitAt w 31)) else
  if fieldIs w 27 1 1 && fieldIs w 22 4 2 then some (.amoor (fld w 7 5) (fld w 12 5) (fld w 17 5) (bitAt w 26) (fld w 28 3) (bitAt w 31)) else
  if fieldIs w 27 1 1 && fieldIs w 22 4 3 then some (.amoxor (fld w 7 5) (fld w 12 5) (fld w 17 5) (bitAt w 26) (fld w 28 3) (bitAt w 31)) else
  if fieldIs w 27 1 1 && fieldIs w 22 4 4 then some (.amomin (fld w 7 5) (fld w 12 5) (fld w 17 5) (bitAt w 26) (fld w 28 3) (bitAt w 31)) else
  if fieldIs w 27 1 1 && fieldIs w 22 4 5 then some (.amomax (fld w 7 5) (fld w 12 5) (fld w 17 5) (bitAt w 26) (fld w 28 3) (bitAt w 31)) else
  if fieldIs w 27 1 1 && fieldIs w 22 4 6 then some (.amominn (fld w 7 5) (fld w 12 5) (fld w 17 5) (bitAt w 26) (fld w 28 3) (bitAt w 31)) else
  if fieldIs w 27 1 1 && fieldIs w 22 4 7 then some (.amomaxn (fld w 7 5) (fld w 12 5) (fld w 17 5) (bitAt w 26) (fld w 28 3) (bitAt w 31)) else
  if fieldIs w 27 1 1 && fieldIs w 22 4 8 then some (.amoswp (fld w 7 5) (fld w 12 5) (fld w 17 5) (bitAt w 26) (fld w 28 3) (bitAt w 31)) else
  if fieldIs w 27 1 1 && fieldIs w 22 4 9 then some (.amocas (fld w 7 5) (fld w 12 5) (fld w 17 5) (bitAt w 26) (fld w 28 3) (bitAt w 31)) else
  none

/-- The words of major 0x18 (R83). -/
def decodeMaj18 (w : IWord) : Option Instr :=
  some (.beq (fld w 7 5) (fld w 12 5) (fld w 17 15))

/-- The words of major 0x19 (R83). -/
def decodeMaj19 (w : IWord) : Option Instr :=
  some (.bne (fld w 7 5) (fld w 12 5) (fld w 17 15))

/-- The words of major 0x1A (R83). -/
def decodeMaj1A (w : IWord) : Option Instr :=
  some (.blt (fld w 7 5) (fld w 12 5) (fld w 17 15))

/-- The words of major 0x1B (R83). -/
def decodeMaj1B (w : IWord) : Option Instr :=
  some (.bge (fld w 7 5) (fld w 12 5) (fld w 17 15))

/-- The words of major 0x1C (R83). -/
def decodeMaj1C (w : IWord) : Option Instr :=
  some (.bltn (fld w 7 5) (fld w 12 5) (fld w 17 15))

/-- The words of major 0x1D (R83). -/
def decodeMaj1D (w : IWord) : Option Instr :=
  some (.bgen (fld w 7 5) (fld w 12 5) (fld w 17 15))

/-- The words of major 0x1E (R83). -/
def decodeMaj1E (w : IWord) : Option Instr :=
  some (.jal (fld w 7 5) (fld w 12 20))

/-- The words of major 0x1F (R83). -/
def decodeMaj1F (w : IWord) : Option Instr :=
  some (.jalr (fld w 7 5) (fld w 12 5) (fld w 17 15))

/-- The words of major 0x20 (R83). -/
def decodeMaj20 (w : IWord) : Option Instr :=
  if fieldIs w 15 17 0 then some (.qpop (fld w 7 5) (fld w 12 3)) else
  if fieldIs w 15 17 128 then some (.qcnt (fld w 7 5) (fld w 12 3)) else
  none

/-- The words of major 0x21 (R83). -/
def decodeMaj21 (w : IWord) : Option Instr :=
  if fieldIs w 28 4 0 && fieldIs w 7 18 0 then some (.fenceAcq (fld w 25 3)) else
  if fieldIs w 28 4 0 && fieldIs w 7 18 32768 then some (.fenceRel (fld w 25 3)) else
  if fieldIs w 28 4 0 && fieldIs w 7 18 65536 then some (.fenceFull (fld w 25 3)) else
  if fieldIs w 7 25 98304 then some .fenceSv else
  if fieldIs w 28 4 0 && fieldIs w 7 18 131072 then some (.fenceAlias (fld w 25 3)) else
  none

/-- The words of major 0x22 (R83). -/
def decodeMaj22 (w : IWord) : Option Instr :=
  if fieldIs w 20 12 0 && fieldIs w 7 5 0 then some (.bar (fld w 12 5) (fld w 17 3)) else
  none

/-- The words of major 0x23 (R83). -/
def decodeMaj23 (w : IWord) : Option Instr :=
  if fieldIs w 7 25 0 then some .exit else
  if fieldIs w 7 5 1 then some (.syscall (fld w 12 20)) else
  if fieldIs w 7 25 2 then some .sret else
  if fieldIs w 7 5 3 then some (.brk (fld w 12 20)) else
  none

/-- The words of major 0x24 (R83). -/
def decodeMaj24 (w : IWord) : Option Instr :=
  if fieldIs w 17 15 0 && fieldIs w 9 3 0 then some (.launch (fld w 7 2) (fld w 12 5)) else
  none

/-- The words of major 0x25 (R83). -/
def decodeMaj25 (w : IWord) : Option Instr :=
  if fieldIs w 29 3 0 && fieldIs w 12 5 0 then some (.sysrd (fld w 7 5) (fld w 17 12)) else
  if fieldIs w 29 3 1 && fieldIs w 7 5 0 then some (.syswr (fld w 12 5) (fld w 17 12)) else
  none

/-- The words of major 0x26 (R83). -/
def decodeMaj26 (w : IWord) : Option Instr :=
  if fieldIs w 29 3 0 && fieldIs w 10 2 0 then some (.pfh (fld w 7 3) (fld w 12 5) (fld w 17 12)) else
  none

/-- The words of major 0x28 (R83). -/
def decodeMaj28 (w : IWord) : Option Instr :=
  if fieldIs w 17 15 0 then some (.setvl (fld w 7 5) (fld w 12 5)) else
  if fieldIs w 17 15 32 then some (.setcfg (fld w 7 5) (fld w 12 5)) else
  none

/-- The words of major 0x29 (R83). -/
def decodeMaj29 (w : IWord) : Option Instr :=
  if fieldIs w 12 5 0 then some (.setvli (fld w 7 5) (fld w 17 15)) else
  none

/-- The words of major 0x2A (R83). -/
def decodeMaj2A (w : IWord) : Option Instr :=
  if fieldIs w 27 5 0 && fieldIs w 18 6 0 then some (.vld (fld w 7 6) (fld w 13 5) (fld w 24 3)) else
  if fieldIs w 27 5 1 && fieldIs w 23 1 0 then some (.vlds (fld w 7 6) (fld w 13 5) (fld w 18 5) (fld w 24 3)) else
  if fieldIs w 27 5 2 then some (.vldx (fld w 7 6) (fld w 13 5) (fld w 18 6) (fld w 24 3)) else
  if fieldIs w 27 5 3 then some (.vldxo (fld w 7 6) (fld w 13 5) (fld w 18 6) (fld w 24 3)) else
  if fieldIs w 27 5 4 && fieldIs w 21 3 0 then some (.vldff (fld w 7 6) (fld w 13 5) (fld w 18 3) (fld w 24 3)) else
  if fieldIs w 18 14 2560 then some (.vldw (fld w 7 6) (fld w 13 5)) else
  none

/-- The words of major 0x2B (R83). -/
def decodeMaj2B (w : IWord) : Option Instr :=
  if fieldIs w 27 5 0 && fieldIs w 18 6 0 then some (.vst (fld w 7 6) (fld w 13 5) (fld w 24 3)) else
  if fieldIs w 27 5 1 && fieldIs w 23 1 0 then some (.vsts (fld w 7 6) (fld w 13 5) (fld w 18 5) (fld w 24 3)) else
  if fieldIs w 27 5 2 then some (.vstx (fld w 7 6) (fld w 13 5) (fld w 18 6) (fld w 24 3)) else
  if fieldIs w 27 5 3 then some (.vstxo (fld w 7 6) (fld w 13 5) (fld w 18 6) (fld w 24 3)) else
  if fieldIs w 18 14 2560 then some (.vstw (fld w 7 6) (fld w 13 5)) else
  none

/-- The words of major 0x2C (R83). -/
def decodeMaj2C (w : IWord) : Option Instr :=
  if fieldIs w 27 5 0 then some (.vamoAdd (fld w 7 6) (fld w 13 5) (fld w 18 6) (fld w 24 3)) else
  if fieldIs w 27 5 1 then some (.vamoAnd (fld w 7 6) (fld w 13 5) (fld w 18 6) (fld w 24 3)) else
  if fieldIs w 27 5 2 then some (.vamoOr (fld w 7 6) (fld w 13 5) (fld w 18 6) (fld w 24 3)) else
  if fieldIs w 27 5 3 then some (.vamoXor (fld w 7 6) (fld w 13 5) (fld w 18 6) (fld w 24 3)) else
  if fieldIs w 27 5 4 then some (.vamoMin (fld w 7 6) (fld w 13 5) (fld w 18 6) (fld w 24 3)) else
  if fieldIs w 27 5 5 then some (.vamoMax (fld w 7 6) (fld w 13 5) (fld w 18 6) (fld w 24 3)) else
  if fieldIs w 27 5 6 then some (.vamoMinn (fld w 7 6) (fld w 13 5) (fld w 18 6) (fld w 24 3)) else
  if fieldIs w 27 5 7 then some (.vamoMaxn (fld w 7 6) (fld w 13 5) (fld w 18 6) (fld w 24 3)) else
  if fieldIs w 27 5 8 then some (.vamoSwp (fld w 7 6) (fld w 13 5) (fld w 18 6) (fld w 24 3)) else
  none

/-- The words of major 0x30 (R83). -/
def decodeMaj30 (w : IWord) : Option Instr :=
  if fieldIs w 22 10 0 && fieldIs w 16 3 0 && fieldIs w 10 3 0 then some (.kand (fld w 7 3) (fld w 13 3) (fld w 19 3)) else
  if fieldIs w 22 10 64 && fieldIs w 16 3 0 && fieldIs w 10 3 0 then some (.kor (fld w 7 3) (fld w 13 3) (fld w 19 3)) else
  if fieldIs w 22 10 128 && fieldIs w 16 3 0 && fieldIs w 10 3 0 then some (.kxor (fld w 7 3) (fld w 13 3) (fld w 19 3)) else
  if fieldIs w 22 10 192 && fieldIs w 16 3 0 && fieldIs w 10 3 0 then some (.kandn (fld w 7 3) (fld w 13 3) (fld w 19 3)) else
  if fieldIs w 16 16 16384 && fieldIs w 10 3 0 then some (.knot (fld w 7 3) (fld w 13 3)) else
  if fieldIs w 16 16 20480 && fieldIs w 10 3 0 then some (.kmv (fld w 7 3) (fld w 13 3)) else
  none

/-- The words of major 0x31 (R83). -/
def decodeMaj31 (w : IWord) : Option Instr :=
  if fieldIs w 28 4 0 && fieldIs w 16 9 0 && fieldIs w 10 3 0 then some (.ksbf (fld w 7 3) (fld w 13 3) (fld w 25 3)) else
  if fieldIs w 28 4 1 && fieldIs w 16 9 0 && fieldIs w 10 3 0 then some (.ksif (fld w 7 3) (fld w 13 3) (fld w 25 3)) else
  if fieldIs w 28 4 2 && fieldIs w 16 9 0 && fieldIs w 10 3 0 then some (.ksof (fld w 7 3) (fld w 13 3) (fld w 25 3)) else
  if fieldIs w 28 4 3 && fieldIs w 16 9 0 && fieldIs w 9 4 0 then some (.kpop (fld w 7 2) (fld w 13 3) (fld w 25 3)) else
  if fieldIs w 28 4 4 && fieldIs w 16 9 0 && fieldIs w 9 4 0 then some (.kfirst (fld w 7 2) (fld w 13 3) (fld w 25 3)) else
  none

/-- The words of major 0x32 (R83). -/
def decodeMaj32 (w : IWord) : Option Instr :=
  if fieldIs w 18 14 0 && fieldIs w 10 3 0 then some (.kld (fld w 7 3) (fld w 13 5)) else
  if fieldIs w 18 14 512 && fieldIs w 10 3 0 then some (.kst (fld w 7 3) (fld w 13 5)) else
  none

/-- The words of major 0x33 (R83). -/
def decodeMaj33 (w : IWord) : Option Instr :=
  if fieldIs w 27 5 0 && fieldIs w 17 1 0 then some (.vredsum (fld w 7 6) (fld w 13 3) (bitAt w 16) (fld w 18 6) (fld w 24 3)) else
  if fieldIs w 27 5 1 && fieldIs w 17 1 0 then some (.vfredsum (fld w 7 6) (fld w 13 3) (bitAt w 16) (fld w 18 6) (fld w 24 3)) else
  if fieldIs w 27 5 2 && fieldIs w 17 1 0 then some (.vredmin (fld w 7 6) (fld w 13 3) (bitAt w 16) (fld w 18 6) (fld w 24 3)) else
  if fieldIs w 27 5 3 && fieldIs w 17 1 0 then some (.vredmax (fld w 7 6) (fld w 13 3) (bitAt w 16) (fld w 18 6) (fld w 24 3)) else
  if fieldIs w 27 5 4 && fieldIs w 17 1 0 then some (.vfredmin (fld w 7 6) (fld w 13 3) (bitAt w 16) (fld w 18 6) (fld w 24 3)) else
  if fieldIs w 27 5 5 && fieldIs w 17 1 0 then some (.vfredmax (fld w 7 6) (fld w 13 3) (bitAt w 16) (fld w 18 6) (fld w 24 3)) else
  if fieldIs w 27 5 6 && fieldIs w 17 1 0 then some (.vargmax (fld w 7 6) (fld w 13 3) (bitAt w 16) (fld w 18 6) (fld w 24 3)) else
  if fieldIs w 27 5 7 && fieldIs w 17 1 0 then some (.vargmin (fld w 7 6) (fld w 13 3) (bitAt w 16) (fld w 18 6) (fld w 24 3)) else
  if fieldIs w 27 5 8 && fieldIs w 16 2 0 then some (.vgsum (fld w 7 6) (fld w 13 3) (fld w 18 6) (fld w 24 3)) else
  if fieldIs w 27 5 9 && fieldIs w 16 2 0 then some (.vfgsum (fld w 7 6) (fld w 13 3) (fld w 18 6) (fld w 24 3)) else
  if fieldIs w 27 5 10 && fieldIs w 17 1 0 then some (.vscan (fld w 7 6) (fld w 13 3) (bitAt w 16) (fld w 18 6) (fld w 24 3)) else
  if fieldIs w 27 5 11 && fieldIs w 17 1 0 then some (.vfscan (fld w 7 6) (fld w 13 3) (bitAt w 16) (fld w 18 6) (fld w 24 3)) else
  if fieldIs w 27 5 12 && fieldIs w 13 5 0 then some (.vcomp (fld w 7 6) (fld w 18 6) (fld w 24 3)) else
  if fieldIs w 27 5 13 && fieldIs w 13 5 0 then some (.vexpand (fld w 7 6) (fld w 18 6) (fld w 24 3)) else
  none

/-- The words of major 0x34 (R83). -/
def decodeMaj34 (w : IWord) : Option Instr :=
  if fieldIs w 27 5 0 then some (.vslup (fld w 7 6) (fld w 13 5) (fld w 18 6) (fld w 24 3)) else
  if fieldIs w 27 5 1 then some (.vsldn (fld w 7 6) (fld w 13 5) (fld w 18 6) (fld w 24 3)) else
  if fieldIs w 27 5 2 then some (.vsl1up (fld w 7 6) (fld w 13 5) (fld w 18 6) (fld w 24 3)) else
  if fieldIs w 27 5 3 then some (.vsl1dn (fld w 7 6) (fld w 13 5) (fld w 18 6) (fld w 24 3)) else
  none

/-- The words of major 0x35 (R83). -/
def decodeMaj35 (w : IWord) : Option Instr :=
  if fieldIs w 28 4 0 then some (.vgath (fld w 7 6) (fld w 13 6) (fld w 19 6) (fld w 25 3)) else
  none

/-- The words of major 0x36 (R83). -/
def decodeMaj36 (w : IWord) : Option Instr :=
  if fieldIs w 24 8 0 then some (.vbsll (fld w 7 6) (fld w 13 5) (fld w 18 6)) else
  if fieldIs w 24 8 8 then some (.vbsrl (fld w 7 6) (fld w 13 5) (fld w 18 6)) else
  if fieldIs w 24 8 16 then some (.vbfsh (fld w 7 6) (fld w 13 5) (fld w 18 6)) else
  none

/-- The words of major 0x37 (R83). -/
def decodeMaj37 (w : IWord) : Option Instr :=
  if fieldIs w 7 25 0 then some .vxbeg else
  if fieldIs w 31 1 1 && fieldIs w 7 3 0 then some (.vexit (fld w 10 3) (fld w 13 6) (fld w 19 6) (fld w 25 3) (fld w 28 3)) else
  none

/-- The words of major 0x38 (R83). -/
def decodeMaj38 (w : IWord) : Option Instr :=
  if fieldIs w 24 8 0 then some (.vopa (fld w 7 2) (fld w 9 6) (fld w 15 6) (fld w 21 3)) else
  if fieldIs w 24 8 1 then some (.vops (fld w 7 2) (fld w 9 6) (fld w 15 6) (fld w 21 3)) else
  if fieldIs w 9 23 65536 then some (.zclr (fld w 7 2)) else
  if fieldIs w 20 12 48 && fieldIs w 14 1 0 then some (.zld (fld w 7 2) (fld w 9 5) (fld w 15 5)) else
  if fieldIs w 20 12 64 && fieldIs w 14 1 0 then some (.zst (fld w 7 2) (fld w 9 5) (fld w 15 5)) else
  if fieldIs w 24 8 5 && fieldIs w 20 1 0 then some (.zrdv (fld w 7 2) (fld w 9 6) (fld w 15 5) (fld w 21 3)) else
  if fieldIs w 24 8 6 && fieldIs w 20 1 0 then some (.zwrv (fld w 7 2) (fld w 9 6) (fld w 15 5) (fld w 21 3)) else
  none

/-- The words of major 0x39 (R83). -/
def decodeMaj39 (w : IWord) : Option Instr :=
  if fieldIs w 31 1 0 && fieldIs w 19 6 0 then some (.vhad (fld w 7 6) (fld w 13 6) (fld w 25 3) (fld w 28 3)) else
  if fieldIs w 31 1 1 && fieldIs w 19 6 0 && fieldIs w 7 6 0 then some (.vhadC (fld w 13 6) (fld w 25 3) (fld w 28 3)) else
  none

/-- The words of major 0x3A (R83). -/
def decodeMaj3A (w : IWord) : Option Instr :=
  if fieldIs w 31 1 0 then some (.vcvtq (fld w 7 6) (fld w 13 6) (fld w 19 6) (fld w 28 3, fld w 25 3)) else
  if fieldIs w 31 1 1 && fieldIs w 13 6 0 then some (.vcvtqC (fld w 7 6) (fld w 19 6) (fld w 28 3, fld w 25 3)) else
  none

/-- The words of major 0x3B (R83). -/
def decodeMaj3B (w : IWord) : Option Instr :=
  if fieldIs w 27 5 0 && fieldIs w 23 1 0 then some (.vrand (fld w 7 6) (fld w 13 5) (fld w 18 5) (fld w 24 3)) else
  if fieldIs w 27 5 2 && fieldIs w 13 5 0 then some (.vsend (fld w 7 6) (fld w 18 6) (fld w 24 3)) else
  if fieldIs w 29 3 1 then some (.vwait (fld w 7 6) (fld w 13 5) (fld w 18 6) (fld w 24 3) (fld w 27 2)) else
  if fieldIs w 27 5 8 && fieldIs w 23 1 0 then some (.vchorSum (fld w 7 6) (fld w 13 5) (fld w 18 5) (fld w 24 3)) else
  if fieldIs w 27 5 9 && fieldIs w 23 1 0 then some (.vchorMin (fld w 7 6) (fld w 13 5) (fld w 18 5) (fld w 24 3)) else
  if fieldIs w 27 5 10 && fieldIs w 23 1 0 then some (.vchorMax (fld w 7 6) (fld w 13 5) (fld w 18 5) (fld w 24 3)) else
  if fieldIs w 27 5 11 && fieldIs w 23 1 0 then some (.vchorArgmax (fld w 7 6) (fld w 13 5) (fld w 18 5) (fld w 24 3)) else
  if fieldIs w 27 5 12 && fieldIs w 23 1 0 then some (.vchorArgmin (fld w 7 6) (fld w 13 5) (fld w 18 5) (fld w 24 3)) else
  if fieldIs w 27 5 13 && fieldIs w 23 1 0 then some (.vchorAnd (fld w 7 6) (fld w 13 5) (fld w 18 5) (fld w 24 3)) else
  if fieldIs w 27 5 14 && fieldIs w 23 1 0 then some (.vchorOr (fld w 7 6) (fld w 13 5) (fld w 18 5) (fld w 24 3)) else
  if fieldIs w 27 5 15 && fieldIs w 23 1 0 then some (.vchorXor (fld w 7 6) (fld w 13 5) (fld w 18 5) (fld w 24 3)) else
  none

/-- The words of major 0x3C (R83). -/
def decodeMaj3C (w : IWord) : Option Instr :=
  if fieldIs w 22 10 0 then some (.vclaim (fld w 7 5) (fld w 12 5) (fld w 17 5)) else
  if fieldIs w 17 15 32 then some (.rclaim (fld w 7 5) (fld w 12 5)) else
  if fieldIs w 17 15 64 then some (.rfree (fld w 7 5) (fld w 12 5)) else
  if fieldIs w 25 7 2 then some (.cpdim (fld w 7 5) (fld w 12 5) (fld w 17 5) (fld w 22 3)) else
  if fieldIs w 25 7 4 && fieldIs w 7 5 0 then some (.cpgo (fld w 12 5) (fld w 17 5) (fld w 22 3)) else
  if fieldIs w 9 23 393216 then some (.cpstat (fld w 7 2)) else
  none

/-- The words of major 0x3D (R83). -/
def decodeMaj3D (w : IWord) : Option Instr :=
  if fieldIs w 28 4 0 && fieldIs w 7 5 0 then some (.bopen (fld w 12 16)) else
  if fieldIs w 14 18 0 && fieldIs w 7 5 1 then some (.bseal (fld w 12 2)) else
  if fieldIs w 7 25 2 then some .babort else
  if fieldIs w 14 18 0 && fieldIs w 7 5 3 then some (.pwlease (fld w 12 2)) else
  if fieldIs w 14 18 0 && fieldIs w 7 5 4 then some (.pwdrop (fld w 12 2)) else
  if fieldIs w 7 25 5 then some .lend else
  none

/-- The words of major 0x3E (R83). -/
def decodeMaj3E (w : IWord) : Option Instr :=
  some (.lmark (fld w 7 5) (fld w 12 5) (fld w 17 6) (fld w 23 6) (fld w 29 3))

/-- The words of major 0x3F (R83). -/
def decodeMaj3F (w : IWord) : Option Instr :=
  if fieldIs w 17 15 0 && fieldIs w 9 3 0 then some (.oshape (fld w 7 2) (fld w 12 5)) else
  if fieldIs w 17 15 32 && fieldIs w 7 5 0 then some (.oseal (fld w 12 5)) else
  if fieldIs w 22 10 2 && fieldIs w 9 3 0 then some (.ounseal (fld w 7 2) (fld w 12 5) (fld w 17 5)) else
  if fieldIs w 17 15 96 && fieldIs w 7 5 0 then some (.orel (fld w 12 5)) else
  none

/-- The words of major 0x40 (R83). -/
def decodeMaj40 (w : IWord) : Option Instr :=
  if fieldIs w 28 4 0 && fieldIs w 19 6 0 then some (.vmv (fld w 7 6) (fld w 13 6) (fld w 25 3)) else
  none

/-- The words of major 0x41 (R83). -/
def decodeMaj41 (w : IWord) : Option Instr :=
  if fieldIs w 28 4 8 && fieldIs w 24 1 0 && fieldIs w 13 6 0 then some (.vbcast (fld w 7 6) (fld w 19 5) (fld w 25 3)) else
  none

/-- The words of major 0x42 (R83). -/
def decodeMaj42 (w : IWord) : Option Instr :=
  if fieldIs w 24 8 128 && fieldIs w 9 4 0 then some (.vext (fld w 7 2) (fld w 13 6) (fld w 19 5)) else
  none

/-- The words of major 0x43 (R83). -/
def decodeMaj43 (w : IWord) : Option Instr :=
  if fieldIs w 24 8 128 && fieldIs w 18 1 0 then some (.vins (fld w 7 6) (fld w 13 5) (fld w 19 5)) else
  none

/-- The words of major 0x44 (R83). -/
def decodeMaj44 (w : IWord) : Option Instr :=
  if fieldIs w 28 4 0 && fieldIs w 13 12 0 then some (.vid (fld w 7 6) (fld w 25 3)) else
  none

/-- The words of major 0x45 (R83). -/
def decodeMaj45 (w : IWord) : Option Instr :=
  if fieldIs w 28 4 0 && fieldIs w 16 9 0 then some (.viota (fld w 7 6) (fld w 13 3) (fld w 25 3)) else
  none

/-- The words of major 0x46 (R83). -/
def decodeMaj46 (w : IWord) : Option Instr :=
  if fieldIs w 13 19 0 then some (.vrelease (fld w 7 6)) else
  none

/-- The words of major 0x47 (R83). -/
def decodeMaj47 (w : IWord) : Option Instr :=
  if fieldIs w 28 4 0 then some (.vsel (fld w 7 6) (fld w 13 6) (fld w 19 6) (fld w 25 3)) else
  none

/-- The words of major 0x48 (R83). -/
def decodeMaj48 (w : IWord) : Option Instr :=
  some (.vadd (fld w 7 6) (fld w 13 6) (fld w 19 6) (fld w 25 3) (fld w 28 3) (bitAt w 31))

/-- The words of major 0x49 (R83). -/
def decodeMaj49 (w : IWord) : Option Instr :=
  some (.vsub (fld w 7 6) (fld w 13 6) (fld w 19 6) (fld w 25 3) (fld w 28 3) (bitAt w 31))

/-- The words of major 0x4A (R83). -/
def decodeMaj4A (w : IWord) : Option Instr :=
  some (.vmul (fld w 7 6) (fld w 13 6) (fld w 19 6) (fld w 25 3) (fld w 28 3) (bitAt w 31))

/-- The words of major 0x4B (R83). -/
def decodeMaj4B (w : IWord) : Option Instr :=
  some (.vmulh (fld w 7 6) (fld w 13 6) (fld w 19 6) (fld w 25 3) (fld w 28 3) (bitAt w 31))

/-- The words of major 0x4C (R83). -/
def decodeMaj4C (w : IWord) : Option Instr :=
  some (.vdiv (fld w 7 6) (fld w 13 6) (fld w 19 6) (fld w 25 3) (fld w 28 3) (bitAt w 31))

/-- The words of major 0x4D (R83). -/
def decodeMaj4D (w : IWord) : Option Instr :=
  some (.vrem (fld w 7 6) (fld w 13 6) (fld w 19 6) (fld w 25 3) (fld w 28 3) (bitAt w 31))

/-- The words of major 0x4E (R83). -/
def decodeMaj4E (w : IWord) : Option Instr :=
  some (.vmin (fld w 7 6) (fld w 13 6) (fld w 19 6) (fld w 25 3) (fld w 28 3) (bitAt w 31))

/-- The words of major 0x4F (R83). -/
def decodeMaj4F (w : IWord) : Option Instr :=
  some (.vmax (fld w 7 6) (fld w 13 6) (fld w 19 6) (fld w 25 3) (fld w 28 3) (bitAt w 31))

/-- The words of major 0x50 (R83). -/
def decodeMaj50 (w : IWord) : Option Instr :=
  some (.vand (fld w 7 6) (fld w 13 6) (fld w 19 6) (fld w 25 3) (fld w 28 3) (bitAt w 31))

/-- The words of major 0x51 (R83). -/
def decodeMaj51 (w : IWord) : Option Instr :=
  some (.vor (fld w 7 6) (fld w 13 6) (fld w 19 6) (fld w 25 3) (fld w 28 3) (bitAt w 31))

/-- The words of major 0x52 (R83). -/
def decodeMaj52 (w : IWord) : Option Instr :=
  some (.vxor (fld w 7 6) (fld w 13 6) (fld w 19 6) (fld w 25 3) (fld w 28 3) (bitAt w 31))

/-- The words of major 0x53 (R83). -/
def decodeMaj53 (w : IWord) : Option Instr :=
  some (.vsll (fld w 7 6) (fld w 13 6) (fld w 19 6) (fld w 25 3) (fld w 28 3) (bitAt w 31))

/-- The words of major 0x54 (R83). -/
def decodeMaj54 (w : IWord) : Option Instr :=
  some (.vsrl (fld w 7 6) (fld w 13 6) (fld w 19 6) (fld w 25 3) (fld w 28 3) (bitAt w 31))

/-- The words of major 0x55 (R83). -/
def decodeMaj55 (w : IWord) : Option Instr :=
  some (.vsra (fld w 7 6) (fld w 13 6) (fld w 19 6) (fld w 25 3) (fld w 28 3) (bitAt w 31))

/-- The words of major 0x56 (R83). -/
def decodeMaj56 (w : IWord) : Option Instr :=
  some (.vsadd (fld w 7 6) (fld w 13 6) (fld w 19 6) (fld w 25 3) (fld w 28 3) (bitAt w 31))

/-- The words of major 0x57 (R83). -/
def decodeMaj57 (w : IWord) : Option Instr :=
  some (.vssub (fld w 7 6) (fld w 13 6) (fld w 19 6) (fld w 25 3) (fld w 28 3) (bitAt w 31))

/-- The words of major 0x58 (R83). -/
def decodeMaj58 (w : IWord) : Option Instr :=
  some (.vabsd (fld w 7 6) (fld w 13 6) (fld w 19 6) (fld w 25 3) (fld w 28 3) (bitAt w 31))

/-- The words of major 0x59 (R83). -/
def decodeMaj59 (w : IWord) : Option Instr :=
  some (.vcmp (fld w 7 3) (fld w 10 3) (fld w 13 6) (fld w 19 6) (fld w 25 3) (fld w 28 3) (bitAt w 31))

/-- The words of major 0x5A (R83). -/
def decodeMaj5A (w : IWord) : Option Instr :=
  if fieldIs w 31 1 0 && fieldIs w 19 6 0 then some (.vcvt (fld w 7 6) (fld w 13 6) (fld w 25 3) (fld w 28 3)) else
  none

/-- The words of major 0x60 (R83). -/
def decodeMaj60 (w : IWord) : Option Instr :=
  some (.vfadd (fld w 7 6) (fld w 13 6) (fld w 19 6) (fld w 25 3) (fld w 28 3) (bitAt w 31))

/-- The words of major 0x61 (R83). -/
def decodeMaj61 (w : IWord) : Option Instr :=
  some (.vfsub (fld w 7 6) (fld w 13 6) (fld w 19 6) (fld w 25 3) (fld w 28 3) (bitAt w 31))

/-- The words of major 0x62 (R83). -/
def decodeMaj62 (w : IWord) : Option Instr :=
  some (.vfmul (fld w 7 6) (fld w 13 6) (fld w 19 6) (fld w 25 3) (fld w 28 3) (bitAt w 31))

/-- The words of major 0x63 (R83). -/
def decodeMaj63 (w : IWord) : Option Instr :=
  some (.vfma (fld w 7 6) (fld w 13 6) (fld w 19 6) (fld w 25 3) (fld w 28 3) (bitAt w 31))

/-- The words of major 0x64 (R83). -/
def decodeMaj64 (w : IWord) : Option Instr :=
  some (.vfnma (fld w 7 6) (fld w 13 6) (fld w 19 6) (fld w 25 3) (fld w 28 3) (bitAt w 31))

/-- The words of major 0x65 (R83). -/
def decodeMaj65 (w : IWord) : Option Instr :=
  some (.vfms (fld w 7 6) (fld w 13 6) (fld w 19 6) (fld w 25 3) (fld w 28 3) (bitAt w 31))

/-- The words of major 0x66 (R83). -/
def decodeMaj66 (w : IWord) : Option Instr :=
  some (.vfdiv (fld w 7 6) (fld w 13 6) (fld w 19 6) (fld w 25 3) (fld w 28 3) (bitAt w 31))

/-- The words of major 0x67 (R83). -/
def decodeMaj67 (w : IWord) : Option Instr :=
  if fieldIs w 31 1 0 && fieldIs w 19 6 0 then some (.vfsqrt (fld w 7 6) (fld w 13 6) (fld w 25 3) (fld w 28 3)) else
  none

/-- The words of major 0x68 (R83). -/
def decodeMaj68 (w : IWord) : Option Instr :=
  if fieldIs w 31 1 0 && fieldIs w 19 6 0 then some (.vfrsqrt (fld w 7 6) (fld w 13 6) (fld w 25 3) (fld w 28 3)) else
  none

/-- The words of major 0x69 (R83). -/
def decodeMaj69 (w : IWord) : Option Instr :=
  if fieldIs w 31 1 0 && fieldIs w 19 6 0 then some (.vfexp2 (fld w 7 6) (fld w 13 6) (fld w 25 3) (fld w 28 3)) else
  none

/-- The words of major 0x6A (R83). -/
def decodeMaj6A (w : IWord) : Option Instr :=
  if fieldIs w 31 1 0 && fieldIs w 19 6 0 then some (.vflog2 (fld w 7 6) (fld w 13 6) (fld w 25 3) (fld w 28 3)) else
  none

/-- The words of major 0x6B (R83). -/
def decodeMaj6B (w : IWord) : Option Instr :=
  if fieldIs w 31 1 0 && fieldIs w 19 6 0 then some (.vfexp (fld w 7 6) (fld w 13 6) (fld w 25 3) (fld w 28 3)) else
  none

/-- The words of major 0x6C (R83). -/
def decodeMaj6C (w : IWord) : Option Instr :=
  some (.vfmin (fld w 7 6) (fld w 13 6) (fld w 19 6) (fld w 25 3) (fld w 28 3) (bitAt w 31))

/-- The words of major 0x6D (R83). -/
def decodeMaj6D (w : IWord) : Option Instr :=
  some (.vfmax (fld w 7 6) (fld w 13 6) (fld w 19 6) (fld w 25 3) (fld w 28 3) (bitAt w 31))

/-- The words of major 0x6E (R83). -/
def decodeMaj6E (w : IWord) : Option Instr :=
  if fieldIs w 31 1 0 then some (.vfsgn (fld w 7 6) (fld w 13 6) (fld w 19 6) (fld w 25 3) (fld w 28 3)) else
  none

/-- The words of major 0x6F (R83). -/
def decodeMaj6F (w : IWord) : Option Instr :=
  if fieldIs w 31 1 0 && fieldIs w 19 6 0 then some (.vfcls (fld w 7 6) (fld w 13 6) (fld w 25 3) (fld w 28 3)) else
  none

/-- The words of major 0x70 (R83). -/
def decodeMaj70 (w : IWord) : Option Instr :=
  some (.vfcmp (fld w 7 3) (fld w 10 3) (fld w 13 6) (fld w 19 6) (fld w 25 3) (fld w 28 3) (bitAt w 31))

/-- The words of major 0x7C (R83). -/
def decodeMaj7C (w : IWord) : Option Instr :=
  if fieldIs w 26 6 0 then some (.pfx (bitAt w 7) (fld w 8 3) (bitAt w 11) (fld w 12 6) (fld w 18 4) (fld w 22 4)) else
  none

/-- The words of major 0x7D (R83). -/
def decodeMaj7D (w : IWord) : Option Instr :=
  if fieldIs w 7 1 0 then some (.cp (fld w 8 12) (fld w 20 12)) else
  none

/-- The words of major 0x7E (R83). -/
def decodeMaj7E (w : IWord) : Option Instr :=
  if fieldIs w 18 14 0 then some (.vbind (fld w 7 6) (fld w 13 5)) else
  if fieldIs w 13 19 16384 then some (.vunbind (fld w 7 6)) else
  none

/-- The instruction a word's fields name, before the conditions of R85 on their values. -/
def decodeFields (w : IWord) : Option Instr :=
  match w.toNat % 128 with
  | 0x01 => decodeMaj01 w
  | 0x02 => decodeMaj02 w
  | 0x03 => decodeMaj03 w
  | 0x04 => decodeMaj04 w
  | 0x05 => decodeMaj05 w
  | 0x06 => decodeMaj06 w
  | 0x07 => decodeMaj07 w
  | 0x08 => decodeMaj08 w
  | 0x09 => decodeMaj09 w
  | 0x0A => decodeMaj0A w
  | 0x0B => decodeMaj0B w
  | 0x10 => decodeMaj10 w
  | 0x11 => decodeMaj11 w
  | 0x12 => decodeMaj12 w
  | 0x18 => decodeMaj18 w
  | 0x19 => decodeMaj19 w
  | 0x1A => decodeMaj1A w
  | 0x1B => decodeMaj1B w
  | 0x1C => decodeMaj1C w
  | 0x1D => decodeMaj1D w
  | 0x1E => decodeMaj1E w
  | 0x1F => decodeMaj1F w
  | 0x20 => decodeMaj20 w
  | 0x21 => decodeMaj21 w
  | 0x22 => decodeMaj22 w
  | 0x23 => decodeMaj23 w
  | 0x24 => decodeMaj24 w
  | 0x25 => decodeMaj25 w
  | 0x26 => decodeMaj26 w
  | 0x28 => decodeMaj28 w
  | 0x29 => decodeMaj29 w
  | 0x2A => decodeMaj2A w
  | 0x2B => decodeMaj2B w
  | 0x2C => decodeMaj2C w
  | 0x30 => decodeMaj30 w
  | 0x31 => decodeMaj31 w
  | 0x32 => decodeMaj32 w
  | 0x33 => decodeMaj33 w
  | 0x34 => decodeMaj34 w
  | 0x35 => decodeMaj35 w
  | 0x36 => decodeMaj36 w
  | 0x37 => decodeMaj37 w
  | 0x38 => decodeMaj38 w
  | 0x39 => decodeMaj39 w
  | 0x3A => decodeMaj3A w
  | 0x3B => decodeMaj3B w
  | 0x3C => decodeMaj3C w
  | 0x3D => decodeMaj3D w
  | 0x3E => decodeMaj3E w
  | 0x3F => decodeMaj3F w
  | 0x40 => decodeMaj40 w
  | 0x41 => decodeMaj41 w
  | 0x42 => decodeMaj42 w
  | 0x43 => decodeMaj43 w
  | 0x44 => decodeMaj44 w
  | 0x45 => decodeMaj45 w
  | 0x46 => decodeMaj46 w
  | 0x47 => decodeMaj47 w
  | 0x48 => decodeMaj48 w
  | 0x49 => decodeMaj49 w
  | 0x4A => decodeMaj4A w
  | 0x4B => decodeMaj4B w
  | 0x4C => decodeMaj4C w
  | 0x4D => decodeMaj4D w
  | 0x4E => decodeMaj4E w
  | 0x4F => decodeMaj4F w
  | 0x50 => decodeMaj50 w
  | 0x51 => decodeMaj51 w
  | 0x52 => decodeMaj52 w
  | 0x53 => decodeMaj53 w
  | 0x54 => decodeMaj54 w
  | 0x55 => decodeMaj55 w
  | 0x56 => decodeMaj56 w
  | 0x57 => decodeMaj57 w
  | 0x58 => decodeMaj58 w
  | 0x59 => decodeMaj59 w
  | 0x5A => decodeMaj5A w
  | 0x60 => decodeMaj60 w
  | 0x61 => decodeMaj61 w
  | 0x62 => decodeMaj62 w
  | 0x63 => decodeMaj63 w
  | 0x64 => decodeMaj64 w
  | 0x65 => decodeMaj65 w
  | 0x66 => decodeMaj66 w
  | 0x67 => decodeMaj67 w
  | 0x68 => decodeMaj68 w
  | 0x69 => decodeMaj69 w
  | 0x6A => decodeMaj6A w
  | 0x6B => decodeMaj6B w
  | 0x6C => decodeMaj6C w
  | 0x6D => decodeMaj6D w
  | 0x6E => decodeMaj6E w
  | 0x6F => decodeMaj6F w
  | 0x70 => decodeMaj70 w
  | 0x7C => decodeMaj7C w
  | 0x7D => decodeMaj7D w
  | 0x7E => decodeMaj7E w
  | _ => none

/-- The instruction of a word, or none for a word of R85. -/
def decode (w : IWord) : Option Instr := (decodeFields w).filter Instr.wf

/-- Whether a word is read only in service mode (R85, last point). -/
def Instr.serviceOnly : Instr → Bool
  | .vbind .. | .vunbind .. => true
  | _ => false

/-- A little-endian 32-bit word from the first four bytes of a list (R5), with the bytes that follow it. -/
def takeWord : List Byte → Option (IWord × List Byte)
  | b0 :: b1 :: b2 :: b3 :: rest =>
    some (BitVec.ofNat 32 (b0.toNat + b1.toNat * 2 ^ 8 + b2.toNat * 2 ^ 16 + b3.toNat * 2 ^ 24), rest)
  | _ => none

/-- The four bytes of an instruction word, lowest address first (R5, R78). -/
def wordBytes (w : IWord) : List Byte :=
  [BitVec.ofNat 8 w.toNat, BitVec.ofNat 8 (w.toNat / 2 ^ 8), BitVec.ofNat 8 (w.toNat / 2 ^ 16),
    BitVec.ofNat 8 (w.toNat / 2 ^ 24)]

/-- Decodes the first instruction of a list of bytes, with the bytes that follow it. -/
def decodeBytes (bs : List Byte) : Option (Instr × List Byte) :=
  match takeWord bs with
  | some (w, rest) => (decode w).map fun i => (i, rest)
  | none => none

/-- The instruction the decoder reads from a table row's bits: every row of the table is one 32-bit word. -/
def decodeTableWord (nbits w : Nat) : Option Instr :=
  if nbits = 32 then (decodeBytes (wordBytes (BitVec.ofNat 32 w))).map Prod.fst else none

/-- A word laid out: its fixed bits and its fields, each a value with the place of its lowest bit. -/
def layWord (fixed : Nat) (fields : List (Nat × Nat)) : Nat :=
  fields.foldl (fun n f => n + f.1 * 2 ^ f.2) fixed

/-- The word of an instruction, as a number: the sum of its fields at their places (R79, R83). An event has no word. -/
def encodeNat : Instr → Option Nat
  | .add d a b => some (layWord 0x00000001 [(d.toNat, 7), (a.toNat, 12), (b.toNat, 17)])
  | .sub d a b => some (layWord 0x00400001 [(d.toNat, 7), (a.toNat, 12), (b.toNat, 17)])
  | .and d a b => some (layWord 0x00800001 [(d.toNat, 7), (a.toNat, 12), (b.toNat, 17)])
  | .or d a b => some (layWord 0x00C00001 [(d.toNat, 7), (a.toNat, 12), (b.toNat, 17)])
  | .xor d a b => some (layWord 0x01000001 [(d.toNat, 7), (a.toNat, 12), (b.toNat, 17)])
  | .sll d a b => some (layWord 0x01400001 [(d.toNat, 7), (a.toNat, 12), (b.toNat, 17)])
  | .srl d a b => some (layWord 0x01800001 [(d.toNat, 7), (a.toNat, 12), (b.toNat, 17)])
  | .sra d a b => some (layWord 0x01C00001 [(d.toNat, 7), (a.toNat, 12), (b.toNat, 17)])
  | .slt d a b => some (layWord 0x02000001 [(d.toNat, 7), (a.toNat, 12), (b.toNat, 17)])
  | .sltn d a b => some (layWord 0x02400001 [(d.toNat, 7), (a.toNat, 12), (b.toNat, 17)])
  | .min d a b => some (layWord 0x02800001 [(d.toNat, 7), (a.toNat, 12), (b.toNat, 17)])
  | .max d a b => some (layWord 0x02C00001 [(d.toNat, 7), (a.toNat, 12), (b.toNat, 17)])
  | .minn d a b => some (layWord 0x03000001 [(d.toNat, 7), (a.toNat, 12), (b.toNat, 17)])
  | .maxn d a b => some (layWord 0x03400001 [(d.toNat, 7), (a.toNat, 12), (b.toNat, 17)])
  | .sel d a b => some (layWord 0x03800001 [(d.toNat, 7), (a.toNat, 12), (b.toNat, 17)])
  | .mul d a b => some (layWord 0x04000001 [(d.toNat, 7), (a.toNat, 12), (b.toNat, 17)])
  | .mulh d a b => some (layWord 0x04400001 [(d.toNat, 7), (a.toNat, 12), (b.toNat, 17)])
  | .mulhn d a b => some (layWord 0x04800001 [(d.toNat, 7), (a.toNat, 12), (b.toNat, 17)])
  | .div d a b => some (layWord 0x05000001 [(d.toNat, 7), (a.toNat, 12), (b.toNat, 17)])
  | .divn d a b => some (layWord 0x05400001 [(d.toNat, 7), (a.toNat, 12), (b.toNat, 17)])
  | .rem d a b => some (layWord 0x05800001 [(d.toNat, 7), (a.toNat, 12), (b.toNat, 17)])
  | .remn d a b => some (layWord 0x05C00001 [(d.toNat, 7), (a.toNat, 12), (b.toNat, 17)])
  | .clz d a => some (layWord 0x08000001 [(d.toNat, 7), (a.toNat, 12)])
  | .ctz d a => some (layWord 0x08400001 [(d.toNat, 7), (a.toNat, 12)])
  | .popc d a => some (layWord 0x08800001 [(d.toNat, 7), (a.toNat, 12)])
  | .addi d a i => some (layWord 0x00000002 [(d.toNat, 7), (a.toNat, 12), (i.toNat, 17)])
  | .andi d a i => some (layWord 0x00000003 [(d.toNat, 7), (a.toNat, 12), (i.toNat, 17)])
  | .ori d a i => some (layWord 0x00000004 [(d.toNat, 7), (a.toNat, 12), (i.toNat, 17)])
  | .xori d a i => some (layWord 0x00000005 [(d.toNat, 7), (a.toNat, 12), (i.toNat, 17)])
  | .slti d a i => some (layWord 0x00000006 [(d.toNat, 7), (a.toNat, 12), (i.toNat, 17)])
  | .slli d a n => some (layWord 0x00000007 [(d.toNat, 7), (a.toNat, 12), (n.toNat, 17)])
  | .srli d a n => some (layWord 0x00800007 [(d.toNat, 7), (a.toNat, 12), (n.toNat, 17)])
  | .srai d a n => some (layWord 0x01000007 [(d.toNat, 7), (a.toNat, 12), (n.toNat, 17)])
  | .bfx d a p l => some (layWord 0x00000008 [(d.toNat, 7), (a.toNat, 12), (p.toNat, 17), (l.toNat, 23)])
  | .bfi d a p l => some (layWord 0x00000009 [(d.toNat, 7), (a.toNat, 12), (p.toNat, 17), (l.toNat, 23)])
  | .lui d i => some (layWord 0x0000000A [(d.toNat, 7), (i.toNat, 12)])
  | .addpc d i => some (layWord 0x0000000B [(d.toNat, 7), (i.toNat, 12)])
  | .ldb d a o => some (layWord 0x00000010 [(d.toNat, 7), (a.toNat, 12), (o.toNat, 17)])
  | .ldh d a o => some (layWord 0x20000010 [(d.toNat, 7), (a.toNat, 12), (o.toNat, 17)])
  | .ldw d a o => some (layWord 0x40000010 [(d.toNat, 7), (a.toNat, 12), (o.toNat, 17)])
  | .ldd d a o => some (layWord 0x60000010 [(d.toNat, 7), (a.toNat, 12), (o.toNat, 17)])
  | .ldbz d a o => some (layWord 0x80000010 [(d.toNat, 7), (a.toNat, 12), (o.toNat, 17)])
  | .ldhz d a o => some (layWord 0xA0000010 [(d.toNat, 7), (a.toNat, 12), (o.toNat, 17)])
  | .ldwz d a o => some (layWord 0xC0000010 [(d.toNat, 7), (a.toNat, 12), (o.toNat, 17)])
  | .stb a b o => some (layWord 0x00000011 [(a.toNat, 7), (b.toNat, 12), (o.toNat, 17)])
  | .sth a b o => some (layWord 0x20000011 [(a.toNat, 7), (b.toNat, 12), (o.toNat, 17)])
  | .stw a b o => some (layWord 0x40000011 [(a.toNat, 7), (b.toNat, 12), (o.toNat, 17)])
  | .std a b o => some (layWord 0x60000011 [(a.toNat, 7), (b.toNat, 12), (o.toNat, 17)])
  | .amoadd d a b w c r => some (layWord 0x08000012 [(d.toNat, 7), (a.toNat, 12), (b.toNat, 17), (w.toNat, 26), (c.toNat, 28), (r.toNat, 31)])
  | .amoand d a b w c r => some (layWord 0x08400012 [(d.toNat, 7), (a.toNat, 12), (b.toNat, 17), (w.toNat, 26), (c.toNat, 28), (r.toNat, 31)])
  | .amoor d a b w c r => some (layWord 0x08800012 [(d.toNat, 7), (a.toNat, 12), (b.toNat, 17), (w.toNat, 26), (c.toNat, 28), (r.toNat, 31)])
  | .amoxor d a b w c r => some (layWord 0x08C00012 [(d.toNat, 7), (a.toNat, 12), (b.toNat, 17), (w.toNat, 26), (c.toNat, 28), (r.toNat, 31)])
  | .amomin d a b w c r => some (layWord 0x09000012 [(d.toNat, 7), (a.toNat, 12), (b.toNat, 17), (w.toNat, 26), (c.toNat, 28), (r.toNat, 31)])
  | .amomax d a b w c r => some (layWord 0x09400012 [(d.toNat, 7), (a.toNat, 12), (b.toNat, 17), (w.toNat, 26), (c.toNat, 28), (r.toNat, 31)])
  | .amominn d a b w c r => some (layWord 0x09800012 [(d.toNat, 7), (a.toNat, 12), (b.toNat, 17), (w.toNat, 26), (c.toNat, 28), (r.toNat, 31)])
  | .amomaxn d a b w c r => some (layWord 0x09C00012 [(d.toNat, 7), (a.toNat, 12), (b.toNat, 17), (w.toNat, 26), (c.toNat, 28), (r.toNat, 31)])
  | .amoswp d a b w c r => some (layWord 0x0A000012 [(d.toNat, 7), (a.toNat, 12), (b.toNat, 17), (w.toNat, 26), (c.toNat, 28), (r.toNat, 31)])
  | .amocas d a b w c r => some (layWord 0x0A400012 [(d.toNat, 7), (a.toNat, 12), (b.toNat, 17), (w.toNat, 26), (c.toNat, 28), (r.toNat, 31)])
  | .beq a b o => some (layWord 0x00000018 [(a.toNat, 7), (b.toNat, 12), (o.toNat, 17)])
  | .bne a b o => some (layWord 0x00000019 [(a.toNat, 7), (b.toNat, 12), (o.toNat, 17)])
  | .blt a b o => some (layWord 0x0000001A [(a.toNat, 7), (b.toNat, 12), (o.toNat, 17)])
  | .bge a b o => some (layWord 0x0000001B [(a.toNat, 7), (b.toNat, 12), (o.toNat, 17)])
  | .bltn a b o => some (layWord 0x0000001C [(a.toNat, 7), (b.toNat, 12), (o.toNat, 17)])
  | .bgen a b o => some (layWord 0x0000001D [(a.toNat, 7), (b.toNat, 12), (o.toNat, 17)])
  | .jal d o => some (layWord 0x0000001E [(d.toNat, 7), (o.toNat, 12)])
  | .jalr d a i => some (layWord 0x0000001F [(d.toNat, 7), (a.toNat, 12), (i.toNat, 17)])
  | .qpop d q => some (layWord 0x00000020 [(d.toNat, 7), (q.toNat, 12)])
  | .qcnt d q => some (layWord 0x00400020 [(d.toNat, 7), (q.toNat, 12)])
  | .fenceAcq s => some (layWord 0x00000021 [(s.toNat, 25)])
  | .fenceRel s => some (layWord 0x00400021 [(s.toNat, 25)])
  | .fenceFull s => some (layWord 0x00800021 [(s.toNat, 25)])
  | .fenceSv => some (layWord 0x00C00021 [])
  | .fenceAlias s => some (layWord 0x01000021 [(s.toNat, 25)])
  | .bar a s => some (layWord 0x00000022 [(a.toNat, 12), (s.toNat, 17)])
  | .exit => some (layWord 0x00000023 [])
  | .syscall c => some (layWord 0x000000A3 [(c.toNat, 12)])
  | .sret => some (layWord 0x00000123 [])
  | .brk c => some (layWord 0x000001A3 [(c.toNat, 12)])
  | .launch q a => some (layWord 0x00000024 [(q.toNat, 7), (a.toNat, 12)])
  | .sysrd d n => some (layWord 0x00000025 [(d.toNat, 7), (n.toNat, 17)])
  | .syswr a n => some (layWord 0x20000025 [(a.toNat, 12), (n.toNat, 17)])
  | .pfh h a o => some (layWord 0x00000026 [(h.toNat, 7), (a.toNat, 12), (o.toNat, 17)])
  | .setvl d a => some (layWord 0x00000028 [(d.toNat, 7), (a.toNat, 12)])
  | .setcfg d a => some (layWord 0x00400028 [(d.toNat, 7), (a.toNat, 12)])
  | .setvli d l => some (layWord 0x00000029 [(d.toNat, 7), (l.toNat, 17)])
  | .vld d a k => some (layWord 0x0000002A [(d.toNat, 7), (a.toNat, 13), (k.toNat, 24)])
  | .vlds d a b k => some (layWord 0x0800002A [(d.toNat, 7), (a.toNat, 13), (b.toNat, 18), (k.toNat, 24)])
  | .vldx d a b k => some (layWord 0x1000002A [(d.toNat, 7), (a.toNat, 13), (b.toNat, 18), (k.toNat, 24)])
  | .vldxo d a b k => some (layWord 0x1800002A [(d.toNat, 7), (a.toNat, 13), (b.toNat, 18), (k.toNat, 24)])
  | .vldff d a f k => some (layWord 0x2000002A [(d.toNat, 7), (a.toNat, 13), (f.toNat, 18), (k.toNat, 24)])
  | .vldw d a => some (layWord 0x2800002A [(d.toNat, 7), (a.toNat, 13)])
  | .vst d a k => some (layWord 0x0000002B [(d.toNat, 7), (a.toNat, 13), (k.toNat, 24)])
  | .vsts d a b k => some (layWord 0x0800002B [(d.toNat, 7), (a.toNat, 13), (b.toNat, 18), (k.toNat, 24)])
  | .vstx d a b k => some (layWord 0x1000002B [(d.toNat, 7), (a.toNat, 13), (b.toNat, 18), (k.toNat, 24)])
  | .vstxo d a b k => some (layWord 0x1800002B [(d.toNat, 7), (a.toNat, 13), (b.toNat, 18), (k.toNat, 24)])
  | .vstw d a => some (layWord 0x2800002B [(d.toNat, 7), (a.toNat, 13)])
  | .vamoAdd d a b k => some (layWord 0x0000002C [(d.toNat, 7), (a.toNat, 13), (b.toNat, 18), (k.toNat, 24)])
  | .vamoAnd d a b k => some (layWord 0x0800002C [(d.toNat, 7), (a.toNat, 13), (b.toNat, 18), (k.toNat, 24)])
  | .vamoOr d a b k => some (layWord 0x1000002C [(d.toNat, 7), (a.toNat, 13), (b.toNat, 18), (k.toNat, 24)])
  | .vamoXor d a b k => some (layWord 0x1800002C [(d.toNat, 7), (a.toNat, 13), (b.toNat, 18), (k.toNat, 24)])
  | .vamoMin d a b k => some (layWord 0x2000002C [(d.toNat, 7), (a.toNat, 13), (b.toNat, 18), (k.toNat, 24)])
  | .vamoMax d a b k => some (layWord 0x2800002C [(d.toNat, 7), (a.toNat, 13), (b.toNat, 18), (k.toNat, 24)])
  | .vamoMinn d a b k => some (layWord 0x3000002C [(d.toNat, 7), (a.toNat, 13), (b.toNat, 18), (k.toNat, 24)])
  | .vamoMaxn d a b k => some (layWord 0x3800002C [(d.toNat, 7), (a.toNat, 13), (b.toNat, 18), (k.toNat, 24)])
  | .vamoSwp d a b k => some (layWord 0x4000002C [(d.toNat, 7), (a.toNat, 13), (b.toNat, 18), (k.toNat, 24)])
  | .kand d a b => some (layWord 0x00000030 [(d.toNat, 7), (a.toNat, 13), (b.toNat, 19)])
  | .kor d a b => some (layWord 0x10000030 [(d.toNat, 7), (a.toNat, 13), (b.toNat, 19)])
  | .kxor d a b => some (layWord 0x20000030 [(d.toNat, 7), (a.toNat, 13), (b.toNat, 19)])
  | .kandn d a b => some (layWord 0x30000030 [(d.toNat, 7), (a.toNat, 13), (b.toNat, 19)])
  | .knot d a => some (layWord 0x40000030 [(d.toNat, 7), (a.toNat, 13)])
  | .kmv d a => some (layWord 0x50000030 [(d.toNat, 7), (a.toNat, 13)])
  | .ksbf d a k => some (layWord 0x00000031 [(d.toNat, 7), (a.toNat, 13), (k.toNat, 25)])
  | .ksif d a k => some (layWord 0x10000031 [(d.toNat, 7), (a.toNat, 13), (k.toNat, 25)])
  | .ksof d a k => some (layWord 0x20000031 [(d.toNat, 7), (a.toNat, 13), (k.toNat, 25)])
  | .kpop q a k => some (layWord 0x30000031 [(q.toNat, 7), (a.toNat, 13), (k.toNat, 25)])
  | .kfirst q a k => some (layWord 0x40000031 [(q.toNat, 7), (a.toNat, 13), (k.toNat, 25)])
  | .kld d a => some (layWord 0x00000032 [(d.toNat, 7), (a.toNat, 13)])
  | .kst d a => some (layWord 0x08000032 [(d.toNat, 7), (a.toNat, 13)])
  | .vredsum d f i b k => some (layWord 0x00000033 [(d.toNat, 7), (f.toNat, 13), (i.toNat, 16), (b.toNat, 18), (k.toNat, 24)])
  | .vfredsum d f i b k => some (layWord 0x08000033 [(d.toNat, 7), (f.toNat, 13), (i.toNat, 16), (b.toNat, 18), (k.toNat, 24)])
  | .vredmin d f i b k => some (layWord 0x10000033 [(d.toNat, 7), (f.toNat, 13), (i.toNat, 16), (b.toNat, 18), (k.toNat, 24)])
  | .vredmax d f i b k => some (layWord 0x18000033 [(d.toNat, 7), (f.toNat, 13), (i.toNat, 16), (b.toNat, 18), (k.toNat, 24)])
  | .vfredmin d f i b k => some (layWord 0x20000033 [(d.toNat, 7), (f.toNat, 13), (i.toNat, 16), (b.toNat, 18), (k.toNat, 24)])
  | .vfredmax d f i b k => some (layWord 0x28000033 [(d.toNat, 7), (f.toNat, 13), (i.toNat, 16), (b.toNat, 18), (k.toNat, 24)])
  | .vargmax d f i b k => some (layWord 0x30000033 [(d.toNat, 7), (f.toNat, 13), (i.toNat, 16), (b.toNat, 18), (k.toNat, 24)])
  | .vargmin d f i b k => some (layWord 0x38000033 [(d.toNat, 7), (f.toNat, 13), (i.toNat, 16), (b.toNat, 18), (k.toNat, 24)])
  | .vgsum d f b k => some (layWord 0x40000033 [(d.toNat, 7), (f.toNat, 13), (b.toNat, 18), (k.toNat, 24)])
  | .vfgsum d f b k => some (layWord 0x48000033 [(d.toNat, 7), (f.toNat, 13), (b.toNat, 18), (k.toNat, 24)])
  | .vscan d f i b k => some (layWord 0x50000033 [(d.toNat, 7), (f.toNat, 13), (i.toNat, 16), (b.toNat, 18), (k.toNat, 24)])
  | .vfscan d f i b k => some (layWord 0x58000033 [(d.toNat, 7), (f.toNat, 13), (i.toNat, 16), (b.toNat, 18), (k.toNat, 24)])
  | .vcomp d b k => some (layWord 0x60000033 [(d.toNat, 7), (b.toNat, 18), (k.toNat, 24)])
  | .vexpand d b k => some (layWord 0x68000033 [(d.toNat, 7), (b.toNat, 18), (k.toNat, 24)])
  | .vslup d a b k => some (layWord 0x00000034 [(d.toNat, 7), (a.toNat, 13), (b.toNat, 18), (k.toNat, 24)])
  | .vsldn d a b k => some (layWord 0x08000034 [(d.toNat, 7), (a.toNat, 13), (b.toNat, 18), (k.toNat, 24)])
  | .vsl1up d a b k => some (layWord 0x10000034 [(d.toNat, 7), (a.toNat, 13), (b.toNat, 18), (k.toNat, 24)])
  | .vsl1dn d a b k => some (layWord 0x18000034 [(d.toNat, 7), (a.toNat, 13), (b.toNat, 18), (k.toNat, 24)])
  | .vgath d a b k => some (layWord 0x00000035 [(d.toNat, 7), (a.toNat, 13), (b.toNat, 19), (k.toNat, 25)])
  | .vbsll d a b => some (layWord 0x00000036 [(d.toNat, 7), (a.toNat, 13), (b.toNat, 18)])
  | .vbsrl d a b => some (layWord 0x08000036 [(d.toNat, 7), (a.toNat, 13), (b.toNat, 18)])
  | .vbfsh d a b => some (layWord 0x10000036 [(d.toNat, 7), (a.toNat, 13), (b.toNat, 18)])
  | .vxbeg => some (layWord 0x00000037 [])
  | .vexit c a b k f => some (layWord 0x80000037 [(c.toNat, 10), (a.toNat, 13), (b.toNat, 19), (k.toNat, 25), (f.toNat, 28)])
  | .vopa z a b f => some (layWord 0x00000038 [(z.toNat, 7), (a.toNat, 9), (b.toNat, 15), (f.toNat, 21)])
  | .vops z a b f => some (layWord 0x01000038 [(z.toNat, 7), (a.toNat, 9), (b.toNat, 15), (f.toNat, 21)])
  | .zclr z => some (layWord 0x02000038 [(z.toNat, 7)])
  | .zld z a b => some (layWord 0x03000038 [(z.toNat, 7), (a.toNat, 9), (b.toNat, 15)])
  | .zst z a b => some (layWord 0x04000038 [(z.toNat, 7), (a.toNat, 9), (b.toNat, 15)])
  | .zrdv z d b f => some (layWord 0x05000038 [(z.toNat, 7), (d.toNat, 9), (b.toNat, 15), (f.toNat, 21)])
  | .zwrv z a b f => some (layWord 0x06000038 [(z.toNat, 7), (a.toNat, 9), (b.toNat, 15), (f.toNat, 21)])
  | .vhad d a k f => some (layWord 0x00000039 [(d.toNat, 7), (a.toNat, 13), (k.toNat, 25), (f.toNat, 28)])
  | .vhadC a k f => some (layWord 0x80000039 [(a.toNat, 13), (k.toNat, 25), (f.toNat, 28)])
  | .vcvtq d a b (f, k) => some (layWord 0x0000003A [(d.toNat, 7), (a.toNat, 13), (b.toNat, 19), (k.toNat, 25), (f.toNat, 28)])
  | .vcvtqC d b (f, k) => some (layWord 0x8000003A [(d.toNat, 7), (b.toNat, 19), (k.toNat, 25), (f.toNat, 28)])
  | .vrand d a b k => some (layWord 0x0000003B [(d.toNat, 7), (a.toNat, 13), (b.toNat, 18), (k.toNat, 24)])
  | .vsend d b k => some (layWord 0x1000003B [(d.toNat, 7), (b.toNat, 18), (k.toNat, 24)])
  | .vwait a s b k q => some (layWord 0x2000003B [(a.toNat, 7), (s.toNat, 13), (b.toNat, 18), (k.toNat, 24), (q.toNat, 27)])
  | .vchorSum d a b f => some (layWord 0x4000003B [(d.toNat, 7), (a.toNat, 13), (b.toNat, 18), (f.toNat, 24)])
  | .vchorMin d a b f => some (layWord 0x4800003B [(d.toNat, 7), (a.toNat, 13), (b.toNat, 18), (f.toNat, 24)])
  | .vchorMax d a b f => some (layWord 0x5000003B [(d.toNat, 7), (a.toNat, 13), (b.toNat, 18), (f.toNat, 24)])
  | .vchorArgmax d a b f => some (layWord 0x5800003B [(d.toNat, 7), (a.toNat, 13), (b.toNat, 18), (f.toNat, 24)])
  | .vchorArgmin d a b f => some (layWord 0x6000003B [(d.toNat, 7), (a.toNat, 13), (b.toNat, 18), (f.toNat, 24)])
  | .vchorAnd d a b f => some (layWord 0x6800003B [(d.toNat, 7), (a.toNat, 13), (b.toNat, 18), (f.toNat, 24)])
  | .vchorOr d a b f => some (layWord 0x7000003B [(d.toNat, 7), (a.toNat, 13), (b.toNat, 18), (f.toNat, 24)])
  | .vchorXor d a b f => some (layWord 0x7800003B [(d.toNat, 7), (a.toNat, 13), (b.toNat, 18), (f.toNat, 24)])
  | .vclaim d a b => some (layWord 0x0000003C [(d.toNat, 7), (a.toNat, 12), (b.toNat, 17)])
  | .rclaim d a => some (layWord 0x0040003C [(d.toNat, 7), (a.toNat, 12)])
  | .rfree d a => some (layWord 0x0080003C [(d.toNat, 7), (a.toNat, 12)])
  | .cpdim c a b n => some (layWord 0x0400003C [(c.toNat, 7), (a.toNat, 12), (b.toNat, 17), (n.toNat, 22)])
  | .cpgo a b n => some (layWord 0x0800003C [(a.toNat, 12), (b.toNat, 17), (n.toNat, 22)])
  | .cpstat q => some (layWord 0x0C00003C [(q.toNat, 7)])
  | .bopen n => some (layWord 0x0000003D [(n.toNat, 12)])
  | .bseal q => some (layWord 0x000000BD [(q.toNat, 12)])
  | .babort => some (layWord 0x0000013D [])
  | .pwlease c => some (layWord 0x000001BD [(c.toNat, 12)])
  | .pwdrop c => some (layWord 0x0000023D [(c.toNat, 12)])
  | .lend => some (layWord 0x000002BD [])
  | .lmark t i f l p => some (layWord 0x0000003E [(t.toNat, 7), (i.toNat, 12), (f.toNat, 17), (l.toNat, 23), (p.toNat, 29)])
  | .oshape q a => some (layWord 0x0000003F [(q.toNat, 7), (a.toNat, 12)])
  | .oseal a => some (layWord 0x0040003F [(a.toNat, 12)])
  | .ounseal q a b => some (layWord 0x0080003F [(q.toNat, 7), (a.toNat, 12), (b.toNat, 17)])
  | .orel a => some (layWord 0x00C0003F [(a.toNat, 12)])
  | .vmv d a k => some (layWord 0x00000040 [(d.toNat, 7), (a.toNat, 13), (k.toNat, 25)])
  | .vbcast d b k => some (layWord 0x80000041 [(d.toNat, 7), (b.toNat, 19), (k.toNat, 25)])
  | .vext q a b => some (layWord 0x80000042 [(q.toNat, 7), (a.toNat, 13), (b.toNat, 19)])
  | .vins d a b => some (layWord 0x80000043 [(d.toNat, 7), (a.toNat, 13), (b.toNat, 19)])
  | .vid d k => some (layWord 0x00000044 [(d.toNat, 7), (k.toNat, 25)])
  | .viota d a k => some (layWord 0x00000045 [(d.toNat, 7), (a.toNat, 13), (k.toNat, 25)])
  | .vrelease d => some (layWord 0x00000046 [(d.toNat, 7)])
  | .vsel d a b k => some (layWord 0x00000047 [(d.toNat, 7), (a.toNat, 13), (b.toNat, 19), (k.toNat, 25)])
  | .vadd d a b k f x => some (layWord 0x00000048 [(d.toNat, 7), (a.toNat, 13), (b.toNat, 19), (k.toNat, 25), (f.toNat, 28), (x.toNat, 31)])
  | .vsub d a b k f x => some (layWord 0x00000049 [(d.toNat, 7), (a.toNat, 13), (b.toNat, 19), (k.toNat, 25), (f.toNat, 28), (x.toNat, 31)])
  | .vmul d a b k f x => some (layWord 0x0000004A [(d.toNat, 7), (a.toNat, 13), (b.toNat, 19), (k.toNat, 25), (f.toNat, 28), (x.toNat, 31)])
  | .vmulh d a b k f x => some (layWord 0x0000004B [(d.toNat, 7), (a.toNat, 13), (b.toNat, 19), (k.toNat, 25), (f.toNat, 28), (x.toNat, 31)])
  | .vdiv d a b k f x => some (layWord 0x0000004C [(d.toNat, 7), (a.toNat, 13), (b.toNat, 19), (k.toNat, 25), (f.toNat, 28), (x.toNat, 31)])
  | .vrem d a b k f x => some (layWord 0x0000004D [(d.toNat, 7), (a.toNat, 13), (b.toNat, 19), (k.toNat, 25), (f.toNat, 28), (x.toNat, 31)])
  | .vmin d a b k f x => some (layWord 0x0000004E [(d.toNat, 7), (a.toNat, 13), (b.toNat, 19), (k.toNat, 25), (f.toNat, 28), (x.toNat, 31)])
  | .vmax d a b k f x => some (layWord 0x0000004F [(d.toNat, 7), (a.toNat, 13), (b.toNat, 19), (k.toNat, 25), (f.toNat, 28), (x.toNat, 31)])
  | .vand d a b k f x => some (layWord 0x00000050 [(d.toNat, 7), (a.toNat, 13), (b.toNat, 19), (k.toNat, 25), (f.toNat, 28), (x.toNat, 31)])
  | .vor d a b k f x => some (layWord 0x00000051 [(d.toNat, 7), (a.toNat, 13), (b.toNat, 19), (k.toNat, 25), (f.toNat, 28), (x.toNat, 31)])
  | .vxor d a b k f x => some (layWord 0x00000052 [(d.toNat, 7), (a.toNat, 13), (b.toNat, 19), (k.toNat, 25), (f.toNat, 28), (x.toNat, 31)])
  | .vsll d a b k f x => some (layWord 0x00000053 [(d.toNat, 7), (a.toNat, 13), (b.toNat, 19), (k.toNat, 25), (f.toNat, 28), (x.toNat, 31)])
  | .vsrl d a b k f x => some (layWord 0x00000054 [(d.toNat, 7), (a.toNat, 13), (b.toNat, 19), (k.toNat, 25), (f.toNat, 28), (x.toNat, 31)])
  | .vsra d a b k f x => some (layWord 0x00000055 [(d.toNat, 7), (a.toNat, 13), (b.toNat, 19), (k.toNat, 25), (f.toNat, 28), (x.toNat, 31)])
  | .vsadd d a b k f x => some (layWord 0x00000056 [(d.toNat, 7), (a.toNat, 13), (b.toNat, 19), (k.toNat, 25), (f.toNat, 28), (x.toNat, 31)])
  | .vssub d a b k f x => some (layWord 0x00000057 [(d.toNat, 7), (a.toNat, 13), (b.toNat, 19), (k.toNat, 25), (f.toNat, 28), (x.toNat, 31)])
  | .vabsd d a b k f x => some (layWord 0x00000058 [(d.toNat, 7), (a.toNat, 13), (b.toNat, 19), (k.toNat, 25), (f.toNat, 28), (x.toNat, 31)])
  | .vcmp d c a b k f x => some (layWord 0x00000059 [(d.toNat, 7), (c.toNat, 10), (a.toNat, 13), (b.toNat, 19), (k.toNat, 25), (f.toNat, 28), (x.toNat, 31)])
  | .vcvt d a k f => some (layWord 0x0000005A [(d.toNat, 7), (a.toNat, 13), (k.toNat, 25), (f.toNat, 28)])
  | .vfadd d a b k f x => some (layWord 0x00000060 [(d.toNat, 7), (a.toNat, 13), (b.toNat, 19), (k.toNat, 25), (f.toNat, 28), (x.toNat, 31)])
  | .vfsub d a b k f x => some (layWord 0x00000061 [(d.toNat, 7), (a.toNat, 13), (b.toNat, 19), (k.toNat, 25), (f.toNat, 28), (x.toNat, 31)])
  | .vfmul d a b k f x => some (layWord 0x00000062 [(d.toNat, 7), (a.toNat, 13), (b.toNat, 19), (k.toNat, 25), (f.toNat, 28), (x.toNat, 31)])
  | .vfma d a b k f x => some (layWord 0x00000063 [(d.toNat, 7), (a.toNat, 13), (b.toNat, 19), (k.toNat, 25), (f.toNat, 28), (x.toNat, 31)])
  | .vfnma d a b k f x => some (layWord 0x00000064 [(d.toNat, 7), (a.toNat, 13), (b.toNat, 19), (k.toNat, 25), (f.toNat, 28), (x.toNat, 31)])
  | .vfms d a b k f x => some (layWord 0x00000065 [(d.toNat, 7), (a.toNat, 13), (b.toNat, 19), (k.toNat, 25), (f.toNat, 28), (x.toNat, 31)])
  | .vfdiv d a b k f x => some (layWord 0x00000066 [(d.toNat, 7), (a.toNat, 13), (b.toNat, 19), (k.toNat, 25), (f.toNat, 28), (x.toNat, 31)])
  | .vfsqrt d a k f => some (layWord 0x00000067 [(d.toNat, 7), (a.toNat, 13), (k.toNat, 25), (f.toNat, 28)])
  | .vfrsqrt d a k f => some (layWord 0x00000068 [(d.toNat, 7), (a.toNat, 13), (k.toNat, 25), (f.toNat, 28)])
  | .vfexp2 d a k f => some (layWord 0x00000069 [(d.toNat, 7), (a.toNat, 13), (k.toNat, 25), (f.toNat, 28)])
  | .vflog2 d a k f => some (layWord 0x0000006A [(d.toNat, 7), (a.toNat, 13), (k.toNat, 25), (f.toNat, 28)])
  | .vfexp d a k f => some (layWord 0x0000006B [(d.toNat, 7), (a.toNat, 13), (k.toNat, 25), (f.toNat, 28)])
  | .vfmin d a b k f x => some (layWord 0x0000006C [(d.toNat, 7), (a.toNat, 13), (b.toNat, 19), (k.toNat, 25), (f.toNat, 28), (x.toNat, 31)])
  | .vfmax d a b k f x => some (layWord 0x0000006D [(d.toNat, 7), (a.toNat, 13), (b.toNat, 19), (k.toNat, 25), (f.toNat, 28), (x.toNat, 31)])
  | .vfsgn d a b k f => some (layWord 0x0000006E [(d.toNat, 7), (a.toNat, 13), (b.toNat, 19), (k.toNat, 25), (f.toNat, 28)])
  | .vfcls d a k f => some (layWord 0x0000006F [(d.toNat, 7), (a.toNat, 13), (k.toNat, 25), (f.toNat, 28)])
  | .vfcmp d c a b k f x => some (layWord 0x00000070 [(d.toNat, 7), (c.toNat, 10), (a.toNat, 13), (b.toNat, 19), (k.toNat, 25), (f.toNat, 28), (x.toNat, 31)])
  | .pfx p m e r o u => some (layWord 0x0000007C [(p.toNat, 7), (m.toNat, 8), (e.toNat, 11), (r.toNat, 12), (o.toNat, 18), (u.toNat, 22)])
  | .cp g h => some (layWord 0x0000007D [(g.toNat, 8), (h.toNat, 20)])
  | .vbind d a => some (layWord 0x0000007E [(d.toNat, 7), (a.toNat, 13)])
  | .vunbind d => some (layWord 0x0800007E [(d.toNat, 7)])
  | .vectorCommit .. => none
  | .retirementPush .. => none
  | .waitPointRelease .. => none
  | .barrierRouteReturn .. => none
  | .vwaitTimeout .. => none
  | .ounsealTimeout .. => none
  | .copyCommand .. => none
  | .copyCommandRetire .. => none
  | .vsendArrival .. => none
  | .fifoHeadWrite .. => none
  | .bankmodeWrite .. => none
  | .loopConfirmation .. => none
  | .replayComplete .. => none
  | .departure .. => none
  | .handBack .. => none
  | .bundleCommit .. => none
  | .bundleFlip .. => none
  | .serialRetire .. => none
  | .bundleBudgetExpiry .. => none
  | .staleClear .. => none
  | .trap .. => none
  | .dirtyLineError .. => none
  | .threadPlacement .. => none
  | .octetPass .. => none
  | .yieldWindowExpiry .. => none
  | .levelAgeing .. => none
  | .slicePreemption .. => none
  | .migrationSave .. => none
  | .save .. => none
  | .resumption .. => none
  | .taskCompletion .. => none
  | .launchPortRecord .. => none
  | .launchAccept .. => none
  | .leaseGrant .. => none
  | .leaseRevoke .. => none
  | .leaseLapse .. => none
  | .cueRun .. => none
  | .cueTimer .. => none
  | .thermalSample .. => none
  | .budgetWindow .. => none
  | .energyInterval .. => none
  | .backgroundClear .. => none
  | .linkTraining .. => none
  | .flitRetransmit .. => none
  | .softError .. => none
  | .thermalShutdown .. => none
  | .powerOn => none
  | .mgmtRegisterWrite .. => none
  | .create .. => none
  | .resize .. => none
  | .destroy .. => none
  | .region .. => none
  | .vdev .. => none
  | .troot .. => none
  | .inval .. => none
  | .aperture .. => none
  | .nlctl .. => none
  | .sched .. => none
  | .loadcue .. => none
  | .budget .. => none
  | .snapshot .. => none
  | .msgring .. => none
  | .attest .. => none
  | .ctxpool .. => none
  | .svclaunch .. => none
  | .commons .. => none
  | .hostLinkAccess .. => none
  | .routeLost .. => none
  | .dramReadRetry .. => none
  | .leaseAgeing .. => none

/-- The instruction word of an instruction; none for an event. -/
def encode (i : Instr) : Option IWord := (encodeNat i).map (BitVec.ofNat 32)

end Sys2Proof
end

