-- ==== Sys2Proof/Config.lean ====
section
/-!
DEFINITION. What the manual leaves open: constants with no body, so that nothing can be proved of their values. A claim
that mentions one holds whatever it is.
-/
namespace Sys2Proof.Config

/-- A fresh free choice for each value of State.freeCtr: the winner of colliding stores and the order of colliding
vamo elements (R157), which byte a copy that overlaps itself reads (R214), and the other choices that a log entry calls free.
DESIGN CHOICE, logs 6, 7, 13, 14, 28, 40, 68 and 70. -/
opaque freeNat : Nat → Nat

/-- The private half of the Ed448 identity key, by its 57 bytes (R386, R390). Log 10. -/
opaque identitySecret : Nat → Byte

/-- The digest of the firmware stage n that the security island verified and extended into M(n) (R390). Log 10. -/
opaque firmwareDigest : Nat → List Byte

/-- The share of one interval's energy that the threads' activity and firmware's weights give a thread (R385): the index of a fresh
free value, the die, the energy in microjoules, the thread's number. Log 11. -/
opaque energyShare : Nat → Nat → Nat → Nat → Nat

/-- The certificate chain of the identity key, as the management window shows it (R390). Log 10. -/
opaque certificates : Nat → Byte

/-- The firmware image at power-on, its rollback number, its signature, and Axyar's firmware key (R390). Log 10. -/
opaque firmwareImage : List Byte
opaque firmwareRollback : Nat
opaque firmwareSignature : List Byte
opaque firmwareKey : List Byte

end Sys2Proof.Config
end

