-- ==== Sys2Proof/Machine/Bits.lean ====
section
/-!
DEFINITION. Bit-field, sign and byte-order helpers (R5, R101), and tables with natural-number keys.
-/
namespace Sys2Proof.Machine

/-- The n-bit field of a natural number whose lowest bit is lo. -/
def bitsN (x lo n : Nat) : Nat := x / 2 ^ lo % 2 ^ n

/-- The n-bit field of a word whose lowest bit is lo (R5). -/
def fieldW (x : Word) (lo n : Nat) : Nat := bitsN x.toNat lo n

/-- Bit i of a natural number. -/
def bitN (x i : Nat) : Bool := x / 2 ^ i % 2 == 1

/-- A natural number as a scalar word, modulo 2^64. -/
def word (x : Nat) : Word := BitVec.ofNat 64 x

/-- An integer as a scalar word, modulo 2^64. -/
def wordI (x : Int) : Word := BitVec.ofInt 64 x

/-- The low n bits of x read as two's complement. -/
def signed (n x : Nat) : Int :=
  let y := x % 2 ^ n
  if n == 0 then 0 else if y < 2 ^ (n - 1) then (y : Int) else (y : Int) - (2 ^ n : Nat)

/-- The n-bit two's-complement pattern of an integer. -/
def patternI (n : Nat) (x : Int) : Nat := (x % ((2 ^ n : Nat) : Int)).toNat

/-- A natural number's n bytes, lowest first (R5). -/
def leBytes : Nat → Nat → List Byte
  | 0, _ => []
  | n + 1, x => BitVec.ofNat 8 x :: leBytes n (x / 256)

/-- The number that bytes hold, lowest first (R5). -/
def leNat : List Byte → Nat
  | [] => 0
  | b :: r => b.toNat + 256 * leNat r

/-- One as a natural number when the condition holds. -/
def boolN (b : Bool) : Nat := if b then 1 else 0

/-- A word as the union of fields given as value and lowest bit. -/
def packN : List (Nat × Nat) → Nat
  | [] => 0
  | (v, lo) :: r => v * 2 ^ lo + packN r

/-- The number of one bits among the low n bits. -/
def onesN : Nat → Nat → Nat
  | 0, _ => 0
  | n + 1, x => x % 2 + onesN n (x / 2)

/-- The smallest i below n with bit i set, counting from k; n + k when there is none. -/
def firstOne : Nat → Nat → Nat → Nat
  | 0, k, _ => k
  | n + 1, k, x => if x % 2 == 1 then k else firstOne n (k + 1) (x / 2)

/-- The numbers below n, in rising order. -/
def upTo (n : Nat) : List Nat := List.range n

/-- A table's entry at a key. -/
def tget {α : Type} : List (Nat × α) → Nat → Option α
  | [], _ => none
  | (k, v) :: r, i => if k = i then some v else tget r i

/-- A table with the entry at a key set; keys stay in rising order. -/
def tset {α : Type} : List (Nat × α) → Nat → α → List (Nat × α)
  | [], i, x => [(i, x)]
  | (k, v) :: r, i, x => if i < k then (i, x) :: (k, v) :: r else if i = k then (i, x) :: r else (k, v) :: tset r i x

/-- A table without the entry at a key. -/
def tdel {α : Type} : List (Nat × α) → Nat → List (Nat × α)
  | [], _ => []
  | (k, v) :: r, i => if k = i then tdel r i else (k, v) :: tdel r i

/-- A table's entry, or a value given for an absent one. -/
def tgetD {α : Type} (t : List (Nat × α)) (i : Nat) (x : α) : α := (tget t i).getD x

/-- The list with place i replaced; unchanged when the place does not exist. -/
def setNth {α : Type} : List α → Nat → α → List α
  | [], _, _ => []
  | _ :: r, 0, x => x :: r
  | y :: r, i + 1, x => y :: setNth r i x

/-- The list with place i set to x, filled up with z where it was shorter. -/
def setAt {α : Type} (z : α) : List α → Nat → α → List α
  | [], 0, x => [x]
  | [], i + 1, x => z :: setAt z [] i x
  | _ :: r, 0, x => x :: r
  | y :: r, i + 1, x => y :: setAt z r i x

/-- The lowest number below n that a list does not hold. -/
def lowestFree (l : List Nat) : Nat → Nat → Option Nat
  | 0, _ => none
  | n + 1, k => if l.contains k then lowestFree l n (k + 1) else some k

/-- A list of words padded or cut to length n. -/
def padTo {α : Type} (n : Nat) (x : α) (l : List α) : List α := (l ++ List.replicate (n - l.length) x).take n

/-- A rising list of numbers with one inserted once. -/
def insertN : List Nat → Nat → List Nat
  | [], i => [i]
  | k :: r, i => if i < k then i :: k :: r else if i = k then k :: r else k :: insertN r i

/-- A list without repeats, in rising order. -/
def sortN (l : List Nat) : List Nat := l.foldl insertN []

end Sys2Proof.Machine
end

