-- ==== Sys2Proof/Machine/State.lean ====
section
/-!
DEFINITION. The state of one Birni Lemevo package as plain data: memory, threads, cores, dies, partitions, virtual
devices, tasks and the agents' own records, with the state right after reset. Byte stores (DRAM, vector registers,
masks, tiles, core-store banks) are lists of cells in one canonical form: addresses strictly rising, no zero byte
listed, an unlisted byte reading as zero (Machine/Mem.lean).
-/
namespace Sys2Proof.Machine

/-- A byte store in canonical form. -/
abbrev Memory := List Host.Cell

/-- A table with natural-number keys, in rising key order. -/
abbrev Table (α : Type) := List (Nat × α)

/-- Where a thread's record stands in its life (R9-R12, R307, R335, R332). -/
inductive Residence where
  | waiting | placed | resident | saved | retired | ended
deriving DecidableEq, Repr

/-- The wait points of R18, the holds of R106, R215 and R362, and a push into a full FIFO (R91). -/
inductive Wait where
  | queueFull | qpop (q : Nat) | popS | fence (kind : Nat) | bar | drain | lease (cls : Nat) | exit | lend | replay | hold | push
deriving DecidableEq, Repr

/-- A page as a walk finds it (R235): its first virtual and physical address, its size, what its leaf admits, its PLACE. -/
structure Page where
  va : Nat
  pa : Nat
  size : Nat
  r : Bool
  w : Bool
  x : Bool
  place : Nat
deriving DecidableEq, Repr

/-- A region-table entry (R234, R338): its owner and its placement (0, 1, 2 with a die, 4 for the commons, 8 for SAVE). -/
structure Region where
  owner : RegionOwner
  place : Nat
  die : Nat
deriving DecidableEq, Repr

/-- The translations of a virtual device at one moment (R235, R294): its table root, the memory that holds its tables, and the region
table. -/
structure Tables where
  root : Option Nat
  mem : List Host.Cell
  clear : List (Nat × Nat)
  regions : Table Region
deriving DecidableEq, Repr

/-- One entry of the vector instruction queue (R16, R328). `pushed` fields beyond the image layout: `vill`, `strip`
(the strip it belongs to, R143), `zero` (the window a lend clears, R297), `met` (the
elements a vwait has found met, R211; the COUNT of the region that a vexit closed, R179; the VL before the cut in a region that closes, R178), `region` (it stands in an exit region, R177), `bundle` (the
bundle its stores belong to, R219), `heavy` (its power class, judged at dispatch, R226), `failed` (re-dispatched by sret
and found illegal, R330), `since` (when it began to issue, R211), `at_` (when it was dispatched), `tag` (its queue-register
reservation, R121). -/
structure QEntry where
  word : IWord
  pc : Word
  feat : BitVec 19
  popDone : Bool
  ops : List Word
  anchor : Option (BitVec 6)
  vcfg : BitVec 14
  vl : Nat
  vlmax : Nat
  vill : Bool
  strip : Nat
  region : Bool
  bundle : Option Nat
  heavy : Option Nat
  failed : Bool
  since : Option Nat
  at_ : Nat
  tag : Nat
  zero : Option (BitVec 6 × BitVec 6)
  met : Nat
deriving DecidableEq, Repr

/-- A place of a queue register (R121): an entry, or a reservation not yet delivered; `tag` says whose it is. -/
structure QSlot where
  tag : Nat
  val : Option Word
deriving DecidableEq, Repr

/-- The prefix-pending state (R92): the features lent, whether a pop into S was taken, and whether sret restored them. -/
structure Pending where
  feat : BitVec 19
  popDone : Bool
  fromSret : Bool
deriving DecidableEq, Repr

/-- A record of the staging nest (R213). -/
structure Dim where
  count : Word
  ss : Word
  ds : Word
deriving DecidableEq, Repr

/-- The command a copy engine has moved and not yet retired (R214-R216). `tails`: the FIFO banks it appends to, each with
the TAIL it gives them at its retirement (R246); `banks`: the SCRATCH banks it writes or reads, each with the address of its last byte
there (R365). -/
structure CopyRun where
  seq : Nat
  cause : Nat
  landed : Nat
  tails : List (Nat × Nat)
  banks : List (Nat × Nat)
deriving DecidableEq, Repr

/-- A copy command that a save has stopped (R229, R336): its snapshot of the nest, its destination and source, its SEQ, the
bytes that have landed, from which its six indices follow, and the TAIL of each FIFO bank that those give (R246). -/
structure CopyStop where
  dims : List Dim
  dst : Word
  src : Word
  seq : Nat
  moved : Nat
  tails : List (Nat × Nat)
deriving DecidableEq, Repr

/-- An arrival at a barrier (R36, R38): where its `bar` stands, whether the handler made it, its scope, instance and count, and
whether its generation has completed. -/
structure Arrival where
  pc : Word
  handler : Bool
  scope : Nat
  inst : Nat
  count : Nat
  done : Bool
deriving DecidableEq, Repr

/-- A power lease of one class (R226, R321). -/
structure Lease where
  held : Bool
  req : Bool
  revoked : Bool
  granted : Nat
  last : Nat
deriving DecidableEq, Repr

/-- The stage of a loop marking (R287-R298); `performed`: the replay is complete and its thread has not yet been released
at its barrier point (R293). -/
inductive LoopStage where
  | none | rehearsal | refused | replay | performed | coreRun
deriving DecidableEq, Repr

/-- One body instruction as iteration 0 dispatched or executed it (R289). -/
structure BodyRec where
  word : IWord
  pc : Word
  ops : List Word
  feat : BitVec 19
deriving DecidableEq, Repr

/-- A loop marking, its capture, its replay and its hand-back (R287-R298). `open_`: the marking is open; `iter`: the
iteration; `lends`: lend has been reached in this iteration; `cause0`: the refusal cause among 0x01-0x03 found at lmark;
`lendPc`: where lend stands; `idx`, `disagree`: the place in the body and whether a later iteration differed from the
first; `ret`, `retPend`, `retAnchor`, `retQueue`, `retVl`, `retVstop`, `retChain`: the return point and what the thread held there; `depart`: a departure not yet
delivered; `capDie`: the die whose Understudy holds the capture; `vtrap`: a vector-side trap waits for the replay (R293);
`flags`: the replayed iterations' flags; `conf`: the translations in force at
confirmation, which the replay's accesses use while `pinned` (R294); `late`: the iteration whose requests are held, and since when (R295). -/
structure Loop where
  stage : LoopStage
  open_ : Bool
  trip : Nat
  tReg : BitVec 5
  iReg : BitVec 5
  vF : BitVec 6
  vL : BitVec 6
  d : Nat
  head : Word
  init : List Word
  iter : Nat
  lends : Bool
  body : List BodyRec
  vcfg : BitVec 14
  vl : Nat
  vlmax : Nat
  ret : Word
  retPend : Option Pending
  retAnchor : Option (BitVec 6)
  retQueue : List QEntry
  retVl : Nat
  retVstop : BitVec 21
  retChain : Bool
  capDie : Nat
  vtrap : Bool
  flags : BitVec 6
  cause0 : Nat
  lendPc : Option Word
  idx : Nat
  disagree : Bool
  depart : Option (Nat × BitVec 8)
  conf : Option Tables
  pinned : Bool
  late : Option (Nat × Nat)
deriving DecidableEq, Repr

/-- A stream binding of service mode (R227): the group it binds, of `lmul` registers from `vd`, its descriptor, and the next group
of the stream. -/
structure Bind where
  vd : BitVec 6
  lmul : Nat
  kind : Nat
  base : Word
  stride : Word
  count : Nat
  next : Nat
deriving DecidableEq, Repr

/-- A bundle tag (R353): the bundle, its lead home and its serial. -/
structure Tag where
  bundle : Nat
  lead : Nat
  serial : Nat
deriving DecidableEq, Repr

/-- A bank's content kept in a save image (R243, R336). -/
structure SavedBank where
  bank : Nat
  mode : Nat
  bytes : Memory
  head : Nat
  tail : Nat
  refs : List (Nat × Nat)
deriving DecidableEq, Repr

/-- A thread's record (R9, R11). A register belongs to the group in which it was written last (R144); the bit string of the groups from
register n on starts at cell n * 16384 of `vregs`, and `vspan` names, for a register that does not itself begin its group, the one that
does (64 for a released one, log 9); `cfgDirty`: the handler has written VCFG or VL (R141);
`considered`: one more than the effective level at which the scheduler has last considered the waiting thread, 0 for none (R306). Mask k's bit e is bit e mod 8 of cell k * 2048 + e / 8 of `masks`; tile z's image byte i is cell z * 16384 + i of `tiles` (R189). -/
structure Thread where
  res : Residence
  part : Nat
  vdev : Nat
  task : Nat
  tid : Nat
  core : Nat
  slot : Nat
  entered : Nat
  considered : Nat
  residentAt : Nat
  saveSlot : Option Nat
  migrateAt : Option Nat
  migrated : Bool
  regs : List Word
  pc : Word
  wait : Option Wait
  pend : Option Pending
  anchor : Option (BitVec 6)
  queue : List QEntry
  retq : List (BitVec 4)
  qregs : List (List QSlot)
  nextTag : Nat
  tokens : List Nat
  vregs : Memory
  vlive : BitVec 64
  vspan : Table Nat
  masks : Memory
  tiles : Memory
  tdirty : BitVec 4
  ch : Memory
  chValid : Bool
  chPend : Bool
  chFmt : BitVec 8
  chCount : Nat
  vcfg : Word
  vl : Nat
  vlmax : Nat
  vstart : Nat
  vstop : BitVec 21
  avl : Word
  strip : Nat
  octets : BitVec 8
  stripOct : Nat
  carried : Bool
  flags : BitVec 6
  hintdrop : BitVec 48
  overlaps : BitVec 16
  lastOverlap : BitVec 8
  tcause : Word
  tpc : Word
  tvec : Word
  taddr : Word
  telem : Word
  tqimg : Word
  grbase : Word
  trapPc : Word
  vstopPast : Option (BitVec 21)
  cfgDirty : Bool
  imgq : List QEntry
  svc : Bool
  handler : Bool
  undstat : Word
  undEnable : Bool
  replayed : BitVec 32
  loop : Loop
  leases : List Lease
  stall : BitVec 32
  bopen : Bool
  bdead : Bool
  blines : BitVec 7
  bname : BitVec 16
  bcause : BitVec 8
  bserial : BitVec 24
  bcur : Option Nat
  seen : List Tag
  stale : Option Nat
  localReq : Word
  remote : Word
  offpkg : Word
  nest : List Dim
  ceng : List QEntry
  crun : Option CopyRun
  cstop : Option CopyStop
  cseq : Nat
  faddr : BitVec 48
  faulted : Bool
  arrivals : List Arrival
  binds : List Bind
  savedBanks : List SavedBank
deriving DecidableEq, Repr

/-- An octet being drained from a slot (R33): when it was marked, when its yield window ends, and, once the victim has opened a strip after the
mark, that strip's number. -/
structure Drain where
  oct : Nat
  victim : Nat
  since : Nat
  until_ : Nat
  opened : Option Nat
deriving DecidableEq, Repr

/-- A dirty line of a core's scalar data cache, with the bytes its home still holds (R247, R334). -/
structure DirtyLine where
  line : Nat
  old : List (BitVec 8)
deriving DecidableEq, Repr

/-- A core: LPR (R23), BANKMODE (R240), banks 0-11 (byte i of bank b is cell b * 65536 + i), FIFO counters (R245),
references recorded against banks (R350), and the scalar data cache's dirty lines. -/
structure Core where
  own : BitVec 16
  next : BitVec 16
  drains : List Drain
  bankMode : BitVec 24
  bankOwn : BitVec 12
  banks : Memory
  fifoHead : Table Nat
  fifoTail : Table Nat
  refs : List (Nat × Nat × Nat)
  dirty : List DirtyLine
deriving DecidableEq, Repr

/-- An event copied into a Prompter (R374); `seq`: its place in the order in which events entered the die's queues (R378). -/
structure Event where
  code : BitVec 8
  slot : Nat
  seq : Nat
  f : List Word
deriving DecidableEq, Repr

/-- A cue slot (R375, R379). `trigAt`: when its last delivered trigger was delivered (R380); `timer`: its last TIMER. -/
structure CueSlot where
  enable : Bool
  part : Nat
  event : BitVec 8
  loaded : Bool
  holdoff : BitVec 16
  period : BitVec 16
  tgtTask : BitVec 32
  tgtTid : BitVec 22
  tgtThread : Bool
  tgtHost : Bool
  runs : BitVec 24
  qdrop : BitVec 16
  bdrop : BitVec 16
  tdrop : BitVec 8
  prog : List IWord
  st : Table Word
  trigAt : Option Nat
  timer : Nat
deriving DecidableEq, Repr

/-- A lease request in a die's queue (R318). -/
structure LeaseReq where
  h : Nat
  cls : Nat
  at_ : Nat
deriving DecidableEq, Repr

/-- A compute die: stage manager (R317-R319), Prompter (R374-R383). Event queues are keyed by partition, 31 for
firmware (R382); `evseq`: how many events have entered them; `evnext`: from which queue on the next run is looked for;
`used` counts cue instructions in the budget window that began at `windowAt` (R383). -/
structure Die where
  budget : Nat
  leaseQ : List LeaseReq
  slots : Table CueSlot
  evq : Table (List Event)
  evseq : Nat
  evnext : Nat
  used : Table Nat
  windowAt : Nat
  temp : Nat
  thermalAt : Nat
  energyAt : Nat
  towerAt : Table Nat
deriving DecidableEq, Repr

/-- Scheduling parameters (R301). -/
structure Params where
  yield : Nat
  age : Nat
  minrun : Nat
  slice : Nat
  quantum : Table Nat
  lage : Nat
  lhold : Nat
deriving DecidableEq, Repr

/-- A registered draw-range claim (R199). -/
structure Claim where
  key : Word
  prefix_ : Word
  base : Nat
  count : Nat
  task : Nat
deriving DecidableEq, Repr

/-- A declared coherence object (R348). `sealing`: the thread whose `oseal` has raised the seal counts and still waits (R349). -/
structure Obj where
  task : Nat
  lines : List Nat
  isSealed : Bool
  sealing : Option Nat
  refs : Nat
deriving DecidableEq, Repr

/-- A host-aperture entry (R232, R387). -/
structure Aperture where
  off : Nat
  haddr : Nat
  size : Nat
  atomics : Bool
deriving DecidableEq, Repr

/-- A partition's share in this package (R387, R388, R301, R306, R199, R202, R348, R384, R386, R383). -/
structure Partition where
  cores : List Nat
  groups : List Nat
  inter : List Nat
  saveRegions : List Nat
  pod : Nat
  params : Params
  deficit : Table Int
  pointer : Table Nat
  nextTask : Nat
  registry : Table Claim
  chorus : Memory
  chorusWritten : List Nat
  objects : Table Obj
  meters : Table Nat
  partEnergy : Nat
  snapSeq : Nat
  budget : Table Nat
  apertures : List Aperture
deriving DecidableEq, Repr

/-- A launch port's status (R302). -/
structure Port where
  task : Nat
  cause : Nat
  seq : Nat
  busy : Bool
  err : Bool
  lost : Nat
deriving DecidableEq, Repr

/-- A host-message ring (R391). -/
structure Ring where
  base : Nat
  slots : Nat
  written : Nat
  lost : Nat
deriving DecidableEq, Repr

/-- A virtual device (R387): table root, context pool, launch ports, near-layer controls, message ring. -/
structure VDev where
  troot : Option Nat
  pool : Option (Nat × Nat)
  ports : List Port
  nlctl : Table Word
  ring : Option Ring
deriving DecidableEq, Repr

/-- A live task (R8, R129, R315). `finish`: when the latest of its threads finished. `order`: its place among the tasks of its
account and level, lowest first (R306, R309). `inst`: its placement scope instance, a level and a number (R35). -/
structure Task where
  part : Nat
  num : Nat
  vdev : Nat
  place : Nat
  inst : Nat
  threads : Nat
  entry : Word
  lanes : Nat
  prio : Nat
  account : Nat
  done : Word
  hostmsg : Bool
  cue : Bool
  cueslot : Nat
  svc : Bool
  retired : Nat
  ended : Nat
  firstTid : Option (Nat × Nat)
  start : Nat
  finish : Nat
  lanecyc : Nat
  order : Nat
deriving DecidableEq, Repr

/-- Where a submitted launch record came from (R130, R302, R387). -/
inductive Source where
  | thread (h q tag : Nat)
  | port (vd n : Nat)
  | management (vd : Nat)
deriving DecidableEq, Repr

/-- A submitted launch record not yet accepted or refused. -/
structure Submission where
  src : Source
  vdev : Nat
  core : Option Nat
  bytes : List (BitVec 8)
deriving DecidableEq, Repr

/-- An open barrier generation (R36). -/
structure BarGen where
  part : Nat
  task : Nat
  scope : Nat
  inst : Nat
  count : Nat
  arrived : List Nat
deriving DecidableEq, Repr

/-- A bundle's stages (R219, R353-R358). -/
inductive BundleStage where
  | open_ | sealing | committed | aborted
deriving DecidableEq, Repr

/-- A line of a bundle (R354): the bytes its pending version changes, and whether its home has flipped it. -/
structure BLine where
  line : Nat
  bytes : List (Nat × BitVec 8)
  flipped : Bool
deriving DecidableEq, Repr

/-- A bundle (R353-R358); `cause`: why it aborted. -/
structure Bundle where
  h : Nat
  name : BitVec 16
  lead : Option Nat
  serial : Nat
  lines : List BLine
  stage : BundleStage
  opened : Nat
  cause : Nat
deriving DecidableEq, Repr

/-- Records of one vsend to one target, in flight (R208, R209): the thread that sent them, the target, what the records hold, and
whether the bank they were on their way to has left FIFO mode (R241). -/
structure Msg where
  h : Nat
  lost : Bool
  core : Nat
  slot : Nat
  source : Nat
  sew : Nat
  data : List Word
deriving DecidableEq, Repr

/-- A link port (R389). Ports 0 and 1 are the host link's, 2 to 37 the pod link's. -/
structure Link where
  state : Nat
  ver : Nat
  lvers : BitVec 16
  pvers : BitVec 16
  lfeat : BitVec 32
  pfeat : BitVec 32
deriving DecidableEq, Repr

/-- A share of a pod partition in another package (R388): package, partition there, pod number, its slots, its home
groups and its interleave set. -/
structure Share where
  pkg : Nat
  part : Nat
  pod : Nat
  slots : Nat
  groups : List Nat
  inter : List Nat
deriving DecidableEq, Repr

/-- A host message as delivered (R391). -/
structure HostMsg where
  vdev : Nat
  kind : Nat
  part : Nat
  value : Word
deriving DecidableEq, Repr

/-- Bring-up (R393) and shutdown (R392). -/
inductive Phase where
  | off | up | shutdown
deriving DecidableEq, Repr

/-- Who moves next when no event is on the agenda (the model's own, log 1). -/
inductive Turn where
  | scalar | vector | copy | device
deriving DecidableEq, Repr

/-- The package. `agenda`, `turn`, `cur`, `ticks`, `freeCtr`, `nextH` and `nextB` are the model's own: the events to come
first, who moves otherwise, the thread whose scalar stream moves, the durations of the steps to come, the index of the
next free value, and fresh numbers for threads and bundles. `mem` and `regions` span the pod: a region's key is bits 55:30 of its
physical addresses. `shutBy`: the die and the sensor reading of a shutdown, as the host link reports it (R392).
`served`: the line requests that each tower, two on each die, has served since its last energy interval, by
(die × 2 + tower) × 2^14 + partition × 512 + account (R385). `xlates`: the translation caches (R238), by core number, and by 1,024 + die number: virtual device and page. -/
structure State where
  time : Nat
  phase : Phase
  pkg : Nat
  mem : Memory
  clearPend : List (Nat × Nat)
  memErr : List Nat
  owned : List (Nat × Nat)
  regions : Table Region
  commonsGroups : List Nat
  commonsInter : List Nat
  parts : Table Partition
  vdevs : Table VDev
  threads : Table Thread
  cores : Table Core
  dies : Table Die
  served : Table Nat
  tasks : List Task
  subs : List Submission
  bars : List BarGen
  podLost : List Nat
  bundles : Table Bundle
  serials : Table Nat
  msgs : List Msg
  hostMem : Memory
  links : Table Link
  shares : List Share
  hostOut : List HostMsg
  shutBy : Option (Nat × Nat)
  mgmt : Port
  meas : List (List (BitVec 8))
  rollback : Nat
  agenda : List Instr
  turn : Turn
  cur : Nat
  ticks : List Nat
  freeCtr : Nat
  xlates : Table (List (Nat × Page))
  nextH : Nat
  nextB : Nat
deriving DecidableEq, Repr

/-- Why a step can stop. -/
inductive Fault where
  /-- An instruction word is executed although no current thread runs. `exec` raises it outside any run (the step
  executes words of a running thread only). Safe: the hardware has no such step. -/
  | noThread
deriving DecidableEq, Repr

/-- Why an instruction has no meaning. -/
inductive Refusal where
  /-- The instruction is not modelled. Raised by no arm of exec at present. Safe. -/
  | notModelled (mnemonic : String)
deriving DecidableEq, Repr

/-- A launch port at reset (R302). -/
def Port.reset : Port := { task := 0, cause := 0, seq := 0, busy := false, err := false, lost := 0 }

/-- The state right after reset: power is applied, bring-up has not run (R393), every register is at its reset value. -/
def State.reset : State where
  time := 0
  phase := .off
  pkg := 0
  mem := []
  clearPend := []
  memErr := []
  owned := []
  regions := []
  commonsGroups := []
  commonsInter := []
  parts := []
  vdevs := []
  threads := []
  cores := []
  dies := []
  served := []
  tasks := []
  subs := []
  bars := []
  podLost := []
  bundles := []
  serials := []
  msgs := []
  hostMem := []
  links := []
  shares := []
  hostOut := []
  shutBy := none
  mgmt := Port.reset
  meas := List.replicate 8 (List.replicate 64 0)
  rollback := 0
  agenda := []
  turn := .scalar
  cur := 0
  ticks := []
  freeCtr := 0
  xlates := []
  nextH := 0
  nextB := 0

end Sys2Proof.Machine
end

