-- ==== Sys2Proof/Machine/Mem.lean ====
section
/-!
DEFINITION. Byte stores in canonical form: reading and writing a byte, ranges of bytes, and copies between stores. An
unlisted byte reads as zero: DRAM after bring-up (R393), registers, masks and tiles at thread start (R11), banks on
entering SCRATCH mode (R241); for host memory the value is the model's (log 3).
-/
namespace Sys2Proof.Machine

/-- The byte at an address; zero where the store lists none. -/
def mget : Memory → Nat → Byte
  | [], _ => 0
  | (k, v) :: r, a => if a < k then 0 else if k = a then v else mget r a

/-- The store with the byte at an address set; a zero byte is not listed. -/
def mset : Memory → Nat → Byte → Memory
  | [], a, b => if b = 0 then [] else [(a, b)]
  | (k, v) :: r, a, b =>
    if a < k then (if b = 0 then (k, v) :: r else (a, b) :: (k, v) :: r)
    else if k = a then (if b = 0 then r else (a, b) :: r)
    else (k, v) :: mset r a b

/-- Canonical form: addresses strictly rising from lo, no zero byte listed. -/
def memOk : Nat → Memory → Bool
  | _, [] => true
  | lo, (k, v) :: r => decide (lo ≤ k) && v != 0 && memOk (k + 1) r

/-- The canonical form of a byte store. -/
def Memory.wf (m : Memory) : Bool := memOk 0 m

/-- The n bytes from an address. -/
def mgetN (m : Memory) (a : Nat) : Nat → List Byte
  | 0 => []
  | n + 1 => mget m a :: mgetN m (a + 1) n

/-- The store with bytes written from an address upward. -/
def msetN (m : Memory) (a : Nat) : List Byte → Memory
  | [] => m
  | b :: r => msetN (mset m a b) (a + 1) r

/-- The number held by n bytes from an address, lowest first (R5). -/
def mnat (m : Memory) (a n : Nat) : Nat := leNat (mgetN m a n)

/-- The store without the bytes of [lo, hi). -/
def mclear (m : Memory) (lo hi : Nat) : Memory := m.filter fun c => decide (c.1 < lo) || decide (hi ≤ c.1)

/-- The cells of [lo, hi), moved down by lo. -/
def mslice (m : Memory) (lo hi : Nat) : Memory :=
  (m.filter fun c => decide (lo ≤ c.1) && decide (c.1 < hi)).map fun c => (c.1 - lo, c.2)

/-- The store with the cells of another written lo above their addresses. -/
def mpaste (m : Memory) (lo : Nat) (src : Memory) : Memory := src.foldl (fun m c => mset m (lo + c.1) c.2) m

/-- The lines (of 128 bytes) that the n bytes from an address touch. -/
def linesOf (a n : Nat) : List Nat :=
  if n = 0 then [] else (upTo ((a + n - 1) / 128 - a / 128 + 1)).map fun i => a / 128 + i

end Sys2Proof.Machine
end

