-- ==== Sys2Proof/Machine/Xlate.lean ====
section
/-!
DEFINITION. Address spaces: windows (R230), physical addresses (R231), page walks with the region-table test (R234,
R235), translation caches (R238, R239), packages of the pod (R388), homes (R236, R237) and the bank modes an access meets (R242, R245).
-/
namespace Sys2Proof.Machine

/-- The engines of a thread (R84). -/
inductive Eng where
  | S | V | M | C
deriving DecidableEq, Repr

/-- What an access does (R235). -/
inductive Kind where
  | load | store | atomic | fetch
deriving DecidableEq, Repr

/-- Where a virtual address leads. -/
inductive Loc where
  | dram (pa place : Nat)
  | bank (core b off : Nat)
  | fifo (core b : Nat) (tail : Bool)
  | counter (i : Nat)
  | chorus (off : Nat)
  | host (ha : Nat)
deriving DecidableEq, Repr

/-- An idle core (R23, R240 at reset). -/
def Core.idle : Core where
  own := 0
  next := 0
  drains := []
  bankMode := 0
  bankOwn := 0
  banks := []
  fifoHead := []
  fifoTail := []
  refs := []
  dirty := []

/-- An idle die; its stage manager's budget is 576 (R317). -/
def Die.idle : Die where
  budget := 576
  leaseQ := []
  slots := []
  evq := []
  evseq := 0
  evnext := 0
  used := []
  windowAt := 0
  temp := 0
  thermalAt := 0
  energyAt := 0
  towerAt := []

def State.coreAt (s : State) (c : Nat) : Core := tgetD s.cores c Core.idle
def State.setCore (s : State) (c : Nat) (x : Core) : State := { s with cores := tset s.cores c x }
def State.dieAt (s : State) (d : Nat) : Die := tgetD s.dies d Die.idle
def State.setDie (s : State) (d : Nat) (x : Die) : State := { s with dies := tset s.dies d x }
def State.th (s : State) (h : Nat) : Option Thread := tget s.threads h
def State.setTh (s : State) (h : Nat) (t : Thread) : State := { s with threads := tset s.threads h t }
def State.partAt (s : State) (p : Nat) : Option Partition := tget s.parts p
def State.setPart (s : State) (p : Nat) (x : Partition) : State := { s with parts := tset s.parts p x }
def State.vdevAt (s : State) (v : Nat) : Option VDev := tget s.vdevs v
def State.setVdev (s : State) (v : Nat) (x : VDev) : State := { s with vdevs := tset s.vdevs v x }

/-- The mode of a core's bank (R240): 0 CACHE, 1 SCRATCH, 2 FIFO. -/
def Core.mode (c : Core) (b : Nat) : Nat := bitsN c.bankMode.toNat (2 * b) 2

/-- The slot that owns a bank (R240). -/
def Core.bankOwner (c : Core) (b : Nat) : Nat := bitsN c.bankOwn.toNat b 1

/-- A core's inbox: its lowest-numbered FIFO bank (R246). -/
def Core.inbox (c : Core) : Option Nat := (upTo 12).find? fun b => c.mode b == 2

/-- A line whose bytes read as zero until it is next written (R255). -/
def State.clearPending (s : State) (line : Nat) : Bool := s.clearPend.any fun r => decide (r.1 ≤ line) && decide (line < r.2)

/-- A byte of DRAM as its home serves it: the committed version, zero where clear-pending (R255, R354). -/
def State.physByte (s : State) (pa : Nat) : Byte := if s.clearPending (pa / 128) then 0 else mget s.mem pa

/-- n bytes of DRAM. -/
def State.physBytes (s : State) (pa n : Nat) : List Byte := (upTo n).map fun i => s.physByte (pa + i)

/-- The package that a physical address names (R231). -/
def pkgOf (pa : Nat) : Nat := pa / 2 ^ 45

/-- The key of a region of this package (R231). -/
def State.regionKey (s : State) (r : Nat) : Nat := s.pkg * 2 ^ 15 + r

/-- The region-table entry of a physical address; none where there is no memory (R231, R234). -/
def State.regionOf (s : State) (pa : Nat) : Option Region :=
  if pkgOf pa < 1152 ∧ bitsN pa 30 15 < 768 then tget s.regions (pa / 2 ^ 30) else none

/-- The shares of a partition's pod allotment in other packages (R388). -/
def State.podShares (s : State) (p : Nat) : List Share :=
  match s.partAt p with
  | some x => if x.pod = 0 then [] else s.shares.filter fun a => a.pod == x.pod && a.pkg != s.pkg
  | none => []

/-- The partition's number in a package: its own, or that of its pod partition's share there (R235, R388). -/
def State.partIn (s : State) (p pkg : Nat) : Option Nat :=
  if pkg = s.pkg then some p else ((s.podShares p).find? fun a => a.pkg == pkg).map (·.part)

/-- The region is the partition's own, or one of its pod partition's shares' (R235, R388). -/
def State.ownRegion (s : State) (p pa : Nat) : Bool :=
  match s.regionOf pa, s.partIn p (pkgOf pa) with
  | some r, some q => r.owner == .part q
  | _, _ => false

/-- A leaf's region-table test (R235): owner and placement are (partition, PLACE, DIE), or the commons and 4; the partition is
that of the package the address names. -/
def State.regionMatches (s : State) (p pa place die : Nat) : Bool :=
  match s.regionOf pa with
  | some r =>
    if place = 4 then r.owner == .commons && r.place == 4
    else s.ownRegion p pa && r.place == place && (place != 2 || r.die == die)
  | none => false

/-- The walk of R235 with n levels left, from table t; none is the page fault. -/
def State.walkFrom (s : State) (p va : Nat) : Nat → Nat → Option Page
  | 0, _ => none
  | n + 1, t =>
    let l := 3 - n
    if s.ownRegion p t then
      let pte := leNat (s.physBytes (t + 8 * bitsN va (39 - 9 * l) 9) 8)
      let rwxpd := bitsN pte 2 3 + 8 * bitsN pte 6 6
      if bitN pte 0 == false || bitN pte 5 || bitsN pte 56 8 != 0 then none
      else if bitN pte 1 == false then
        if n = 0 ∨ rwxpd ≠ 0 then none else s.walkFrom p va n (bitsN pte 12 44 * 4096)
      else
        let size := 2 ^ (12 + 9 * n)
        let base := bitsN pte 12 44 * 4096
        let place := bitsN pte 6 3
        let die := bitsN pte 9 3
        if l = 0 ∨ base % size ≠ 0 then none
        else if bitN pte 3 && !bitN pte 2 then none
        else if ¬ (place ≤ 2 ∨ place = 4) ∨ (place ≠ 2 ∧ die ≠ 0) then none
        else if s.regionMatches p base place die then
          some { va := va - va % size, pa := base, size := size, r := bitN pte 2, w := bitN pte 3, x := bitN pte 4, place := place }
        else none
    else none

/-- The walk of a virtual device's tables (R235), as they stand or as they stood. -/
def State.walkIn (s : State) (x : Tables) (p va : Nat) : Option Page :=
  match x.root with
  | some t => ({ s with mem := x.mem, clearPend := x.clear, regions := x.regions } : State).walkFrom p va 4 t
  | none => none

/-- A virtual device's tables as they stand. -/
def State.tables (s : State) (vd : Nat) : Tables :=
  { root := (s.vdevAt vd).bind (·.troot), mem := s.mem, clear := s.clearPend, regions := s.regions }

/-- The walk of a virtual device's table root (R235). -/
def State.walk (s : State) (p vd va : Nat) : Option Page := s.walkIn (s.tables vd) p va

/-- The page holds the address of the virtual device. -/
def Page.holds (g : Page) (va : Nat) : Bool := decide (g.va ≤ va) && decide (va < g.va + g.size)

/-- The physical address of a virtual one in its page. -/
def Page.at_ (g : Page) (va : Nat) : Nat := g.pa + (va - g.va)

/-- The page of an address that a core's translation cache, or else its die's, holds (R238). -/
def State.cachedPage (s : State) (core vd va : Nat) : Option Page :=
  let f := fun (k : Nat) => ((tgetD s.xlates k []).find? fun x => x.1 == vd && x.2.holds va).map (·.2)
  (f core).orElse fun _ => f (1024 + core / 128)

/-- The page a thread's access uses (R235, R239, R294): for a replayed access, that of the tables at its loop's confirmation; else
the walk's, or, until an invalidation, one that a translation cache of its core or die still holds: which, is free (log 13). -/
def State.pageFor (s : State) (t : Thread) (va : Nat) : Option Page :=
  match t.loop.pinned, t.loop.conf with
  | true, some x => s.walkIn x t.part va
  | _, _ =>
    let w := s.walk t.part t.vdev va
    match s.cachedPage t.core t.vdev va with
    | none => w
    | some g => if w = some g then w else if Config.freeNat s.freeCtr % 2 = 0 then some g else w

/-- A translation enters a cache of n entries; the oldest makes room (R238). -/
def keepPage (n vd : Nat) (g : Page) (l : List (Nat × Page)) : List (Nat × Page) :=
  if l.contains (vd, g) then l
  else
    let l := l.filter fun x => !(x.1 == vd && x.2.va == g.va)
    (if l.length < n then l else l.drop 1) ++ [(vd, g)]

/-- The translation that an access used stands in its core's cache and in its die's (R238). -/
def State.cachePage (s : State) (t : Thread) (va : Nat) : State :=
  if t.loop.pinned ∨ 0xFF0000000000 ≤ va then s
  else match s.pageFor t va with
  | none => s
  | some g =>
    let x := tset s.xlates t.core (keepPage 128 t.vdev g (tgetD s.xlates t.core []))
    { s with xlates := tset x (1024 + t.core / 128) (keepPage 16384 t.vdev g (tgetD x (1024 + t.core / 128) [])) }

/-- The leaf admits the access (R235). -/
def Page.admits (g : Page) : Kind → Bool
  | .load => g.r
  | .store | .atomic => g.w
  | .fetch => g.x

/-- The host-aperture entry that maps n bytes at an offset of the host window (R232). DESIGN CHOICE: bytes that two entries map between
them are mapped by none, so their access is a page fault (log 77). -/
def State.aperture (s : State) (p off n : Nat) : Option Aperture :=
  match s.partAt p with
  | some x => x.apertures.find? fun a => decide (a.off ≤ off) && decide (off + n ≤ a.off + a.size)
  | none => none

/-- The host-link ports that are up (R389). -/
def State.hostPorts (s : State) : List Link := (s.links.filter fun l => decide (l.1 < 2) && l.2.state == 2).map (·.2)

/-- The host link runs a feature bit: a port is up, and every one that is runs it (R389). -/
def State.hostFeature (s : State) (b : Nat) : Bool :=
  !s.hostPorts.isEmpty && s.hostPorts.all fun l => bitN (l.lfeat &&& l.pfeat).toNat b

/-- Some pod-link port that is up runs a feature bit (R389). -/
def State.podFeature (s : State) (b : Nat) : Bool :=
  s.links.any fun l => decide (2 ≤ l.1) && l.2.state == 2 && bitN (l.2.lfeat &&& l.2.pfeat).toNat b

/-- An address's home can be reached: it lies in this package, or a pod port is up and the route to its package is not lost
(R389). -/
def State.routed (s : State) (pa : Nat) : Bool :=
  pkgOf pa == s.pkg || ((s.links.any fun l => decide (2 ≤ l.1) && l.2.state == 2) && !s.podLost.contains (pkgOf pa))

/-- The home of an address serves a partition's agents (R343): its region is the partition's, or of the commons. -/
def State.homeServes (s : State) (p pa : Nat) : Bool :=
  s.ownRegion p pa || (s.regionOf pa).any fun r => r.owner == .commons

/-- Windows (R230, R232, R242, R245, R389): the location, or the trap cause. -/
def State.window (s : State) (core p : Nat) (eng : Eng) (kind : Kind) (va n : Nat) : Except Nat Loc :=
  let scalar := eng == .S
  if va < 0xFF00000C0000 then
    let b := (va - 0xFF0000000000) / 0x10000
    let off := va % 0x10000
    let m := (s.coreAt core).mode b
    if m = 1 ∧ (kind = .load ∨ kind = .store) then .ok (.bank core b off)
    else if m = 2 ∧ (kind = .load ∨ (kind = .store ∧ eng = .C)) then .ok (.bank core b off)
    else .error 5
  else if 0xFF0000100000 ≤ va ∧ va < 0xFF00001000C0 then
    let b := (va - 0xFF0000100000) / 16
    let tail := va % 16 = 8
    if scalar ∧ n = 8 ∧ (kind = .load ∨ (kind = .store ∧ ¬ tail ∧ (s.coreAt core).mode b = 2)) then .ok (.fifo core b tail)
    else .error 5
  else if 0xFF0000200000 ≤ va ∧ va < 0xFF0000200018 then
    if scalar ∧ n = 8 ∧ kind = .load then .ok (.counter ((va - 0xFF0000200000) / 8)) else .error 5
  else if 0xFF0100000000 ≤ va ∧ va < 0xFF0100040000 then
    if scalar ∧ n ≤ 8 ∧ (kind = .load ∨ kind = .store) then .ok (.chorus (va - 0xFF0100000000)) else .error 5
  else if 0xFF8000000000 ≤ va then
    if kind = .fetch then .error 5
    else match s.aperture p (va - 0xFF8000000000) n with
      | none => .error 4
      | some a => if kind = .atomic ∧ (a.atomics = false ∨ ¬ s.hostFeature 0) then .error 5 else .ok (.host (a.haddr + (va - 0xFF8000000000 - a.off)))
  else .error 5

/-- Steps 1 and 3 of R105 for one access of n bytes that crosses no page: the location, or the trap cause. -/
def State.locate (s : State) (t : Thread) (eng : Eng) (kind : Kind) (va n : Nat) : Except Nat Loc :=
  if 2 ^ 48 ≤ va then .error 5
  else if 0xFF0000000000 ≤ va then s.window t.core t.part eng kind va n
  else match s.pageFor t va with
    | none => .error 4
    | some g =>
      if g.admits kind ∧ s.homeServes t.part (g.at_ va) then .ok (.dram (g.at_ va) g.place) else .error 5

/-- The interleave set that places a region's lines, of its owner in its own package (R234, R236). -/
def State.interOf (s : State) (pa : Nat) (r : Region) : List Nat :=
  match r.owner with
  | .part p =>
    if pkgOf pa = s.pkg then ((s.partAt p).map (·.inter)).getD []
    else ((s.shares.find? fun a => a.pkg == pkgOf pa && a.part == p).map (·.inter)).getD []
  | .commons => if pkgOf pa = s.pkg then s.commonsInter else []
  | .nobody => []

/-- The home groups of a region's owner (R234), as die * 64 + group. -/
def State.groupsOf (s : State) (pa : Nat) (r : Region) : List Nat :=
  match r.owner with
  | .part p =>
    if pkgOf pa = s.pkg then ((s.partAt p).map (·.groups)).getD []
    else ((s.shares.find? fun a => a.pkg == pkgOf pa && a.part == p).map (·.groups)).getD []
  | .commons => if pkgOf pa = s.pkg then s.commonsGroups else []
  | .nobody => []

/-- log2 of an interleave set's size: 1, 2, 4 or 8 dies (R234). -/
def interLog (n : Nat) : Nat := if n ≤ 1 then 0 else if n ≤ 2 then 1 else if n ≤ 4 then 2 else 3

/-- The home die of a line (R236), in its package. DESIGN CHOICE: while no COMMONS command has given the commons an interleave set or
groups, a commons line has die 0, and in `homeSlice` group 0, as its home (log 78). -/
def State.homeDie (s : State) (pa : Nat) : Nat :=
  match s.regionOf pa with
  | none => 0
  | some r =>
    if r.place = 2 then r.die
    else
      let set := s.interOf pa r
      let n := interLog set.length
      let lo := if r.place = 1 then 16 else 12
      set.getD (bitsN pa lo n ^^^ bitsN pa (lo + n) n) 0

/-- The home slice of a line (R237), as (die * 64 + group) * 4 + slice; those of another package stand above this one's. -/
def State.homeSlice (s : State) (pa : Nat) : Nat :=
  match s.regionOf pa with
  | none => 0
  | some r =>
    let d := s.homeDie pa
    let gs := (s.groupsOf pa r).filter fun g => g / 64 == d
    let slot := bitsN pa 7 10 % (4 * max gs.length 1)
    let far := if pkgOf pa = s.pkg then 0 else (pkgOf pa + 1) * 2048
    far + gs.getD (slot / 4) 0 * 4 + slot % 4

end Sys2Proof.Machine
end

