-- ==== Sys2Proof/Machine/Access.lean ====
section
/-!
DEFINITION. Accesses at the homes and in the windows: reads and writes of DRAM with clear-pending lines (R255), copy
ownership (R215), sealed lines (R349), pending versions of bundles with proof and tags (R353-R362), dirty lines of the
scalar caches (R247, R248, R334), banks and FIFO counters (R244, R245).
-/
namespace Sys2Proof.Machine

/-- The outcome of an access: done, a trap cause of R105, or held at the home for now (R215, R362). -/
inductive Acc (α : Type) where
  | ok (x : α)
  | trap (cause : Nat)
  | hold
deriving DecidableEq, Repr

def Acc.bind {α β : Type} (x : Acc α) (f : α → Acc β) : Acc β :=
  match x with
  | .ok a => f a
  | .trap c => .trap c
  | .hold => .hold

/-- How a store is made (R219, R220): plainly, as a store of a bundle, or discarded because its bundle is dead. -/
inductive StoreMode where
  | plain | bundle (b : Nat) | discard
deriving DecidableEq, Repr

/-- The thread whose copy engine owns the line (R215). -/
def State.ownerOf (s : State) (line : Nat) : Option Nat := tget s.owned line

/-- The bundle with a pending version of the line, and that version (R354). -/
def State.pendingOf (s : State) (line : Nat) : Option (Nat × Bundle × BLine) :=
  s.bundles.findSome? fun b =>
    if b.2.stage = .aborted then none
    else (b.2.lines.find? fun l => l.line == line && !l.flipped).map fun l => (b.1, b.2, l)

/-- The committed bundles whose tags the line carries (R357): one for each flip whose serial has not retired. -/
def State.tagsOf (s : State) (line : Nat) : List (Nat × Bundle) :=
  s.bundles.filter fun b => b.2.stage == .committed && b.2.lines.any fun l => l.line == line && l.flipped

/-- A bundle of the thread has committed and a home has not flipped one of its lines yet (R357). -/
def State.unflipped (s : State) (h : Nat) : Bool :=
  s.bundles.any fun b => b.2.h == h && b.2.stage == .committed && b.2.lines.any fun l => !l.flipped

/-- Records that the thread's vsends have sent are still on their way (R208, R258). -/
def State.sending (s : State) (h : Nat) : Bool := s.msgs.any fun m => m.h == h

/-- A line's seal count (R349): the objects that cover it and are sealed, or whose `oseal` has raised the counts. -/
def State.sealCount (s : State) (line : Nat) : Nat :=
  (s.parts.map fun p => (p.2.objects.filter fun o => (o.2.isSealed || o.2.sealing.isSome) && o.2.lines.contains line).length).foldl (· + ·) 0

/-- The mark of a line removed and its 128 bytes zeroed, before any write to it (R255). -/
def State.unmark (s : State) (line : Nat) : State :=
  if s.clearPending line then
    { s with
      mem := mclear s.mem (line * 128) (line * 128 + 128)
      clearPend := s.clearPend.flatMap fun r =>
        if r.1 ≤ line ∧ line < r.2 then
          (if r.1 < line then [(r.1, line)] else []) ++ (if line + 1 < r.2 then [(line + 1, r.2)] else [])
        else [r] }
  else s

/-- Bytes written at a home; they lie in one line. -/
def State.writePhys (s : State) (pa : Nat) (bytes : List Byte) : State :=
  let s := s.unmark (pa / 128)
  { s with mem := msetN s.mem pa bytes }

/-- The line's dirty records dropped, but for those of one core: it is written back and recalled (R248). -/
def State.recall (s : State) (keep : Option Nat) (line : Nat) : State :=
  { s with cores := s.cores.map fun c =>
      if keep = some c.1 then c else (c.1, { c.2 with dirty := c.2.dirty.filter fun d => d.line != line }) }

/-- A line's pending version becomes committed at its home (R357). -/
def State.flipLine (s : State) (b line : Nat) : State :=
  match tget s.bundles b with
  | none => s
  | some bu =>
    match bu.lines.find? fun l => l.line == line && !l.flipped with
    | none => s
    | some l =>
      let s := l.bytes.foldl (fun s x => s.writePhys x.1 [x.2]) (s.recall none line)
      { s with bundles := tset s.bundles b { bu with lines := bu.lines.map fun m => if m.line = line then { m with flipped := true } else m } }

/-- A bundle's tag (R353). -/
def Bundle.tag (b : Nat) (bu : Bundle) : Tag := { bundle := b, lead := bu.lead.getD 0, serial := bu.serial }

/-- The tag is live: its serial has not retired (R353, R357). -/
def State.tagLive (s : State) (g : Tag) : Bool := (tget s.bundles g.bundle).isSome

/-- A tag enters a seen set of 64; a live tag that leaves it sets the stale condition (R360). -/
def State.see (s : State) (h : Nat) (g : Tag) : State :=
  match s.th h with
  | none => s
  | some t =>
    if t.seen.contains g then s
    else if t.seen.length < 64 then s.setTh h { t with seen := t.seen ++ [g] }
    else
      let lost := (t.seen.take 1).any s.tagLive
      s.setTh h { t with seen := t.seen.drop 1 ++ [g], stale := if lost then some s.time else t.stale }

/-- A thread's read of the line carries proof of the pending version (R359). -/
def State.proof (s : State) (h b : Nat) (bu : Bundle) : Bool :=
  bu.stage == .committed &&
    match s.th h with
    | some t => t.seen.contains (bu.tag b) || t.stale.isSome
    | none => false

/-- Bytes with a pending version's bytes over them. -/
def overlay (pa : Nat) (bytes : List Byte) (l : BLine) : List Byte :=
  (bytes.zip (upTo bytes.length)).map fun x => ((l.bytes.find? fun y => y.1 == pa + x.2).map (·.2)).getD x.1

/-- The tags that a read of one line brings to a reader (R360): those of its committed version, and a pending version's by
proof, whose line the home then flips (R359). -/
def State.meetTags (s : State) (h line : Nat) : State :=
  let s := (s.tagsOf line).foldl (fun s x => s.see h (x.2.tag x.1)) s
  match s.pendingOf line with
  | some (b, bu, _) => if bu.h ≠ h ∧ s.proof h b bu then (s.flipLine b line).see h (bu.tag b) else s
  | none => s

/-- What a thread reads in a line after its tags are met: its own bundle's pending bytes, else the committed version. -/
def State.lineBytes (s : State) (h pa n : Nat) : List Byte :=
  match s.pendingOf (pa / 128) with
  | some (_, bu, l) => if bu.h = h then overlay pa (s.physBytes pa n) l else s.physBytes pa n
  | none => s.physBytes pa n

/-- A thread's read of n bytes within one line at its home or in its core's cache (R359, R360, R248). -/
def State.readDram (s : State) (h : Nat) (keep : Option Nat) (pa n : Nat) : State × List Byte :=
  let s := (s.recall keep (pa / 128)).meetTags h (pa / 128)
  (s, s.lineBytes h pa n)

/-- A bundle aborts (R220, R358): its pending versions are discarded; its thread records the cause while it is open. -/
def State.abortBundle (s : State) (b cause : Nat) : State :=
  match tget s.bundles b with
  | none => s
  | some bu =>
    if bu.stage = .committed ∨ bu.stage = .aborted then s
    else
      let s := { s with bundles := tset s.bundles b { bu with stage := .aborted, lines := [], cause := cause } }
      match s.th bu.h with
      | none => s
      | some t =>
        if t.bopen ∧ t.bcur = some b then s.setTh bu.h { t with bdead := true, bcause := BitVec.ofNat 8 cause } else s

/-- The pending lines that a home slice holds (R354). -/
def State.pendingAt (s : State) (slice : Nat) : Nat :=
  ((s.bundles.map fun b => (b.2.lines.filter fun l => !l.flipped && s.homeSlice (l.line * 128) == slice).length)).foldl (· + ·) 0

/-- A bundle store to one line (R353-R355). -/
def State.bundleStore (s : State) (b pa place : Nat) (bytes : List Byte) : Acc State :=
  let line := pa / 128
  match tget s.bundles b with
  | none => .ok s
  | some bu =>
    if bu.stage = .aborted then .ok s
    else if place = 4 ∨ (pkgOf pa ≠ s.pkg ∧ ¬ s.podFeature 0) then .trap 5
    else if 0 < s.sealCount line then .trap 5
    else if (s.ownerOf line).isSome then .hold
    else
      let cells := (bytes.zip (upTo bytes.length)).map fun x => (pa + x.2, x.1)
      match s.pendingOf line with
      | some (b', bu', _) =>
        if b' = b then
          let put := fun (l : BLine) => if l.line = line then
              { l with bytes := cells.foldl (fun m c => tset m c.1 c.2) l.bytes } else l
          .ok { s with bundles := tset s.bundles b { bu with lines := bu.lines.map put } }
        else if bu'.stage = .committed then .hold
        else .ok (s.abortBundle b 3)
      | none =>
        if 64 ≤ bu.lines.length then .ok (s.abortBundle b 2)
        else if 256 ≤ s.pendingAt (s.homeSlice pa) then .hold
        else
          let s := (s.recall none line).unmark line
          let slice := s.homeSlice pa
          let bu1 := match bu.lead with
            | some _ => bu
            | none => { bu with lead := some slice, serial := tgetD s.serials slice 0 }
          let s := match bu.lead with
            | some _ => s
            | none => { s with serials := tset s.serials slice ((tgetD s.serials slice 0 + 1) % 2 ^ 48) }
          let bu2 := { bu1 with lines := bu1.lines ++ [{ line := line, bytes := cells, flipped := false }] }
          let s := { s with bundles := tset s.bundles b bu2 }
          match s.th bu.h with
          | none => .ok s
          | some t => .ok (if t.bcur = some b then s.setTh bu.h { t with blines := BitVec.ofNat 7 bu2.lines.length } else s)

/-- A scalar cache holds the line (R247, R345, R354): a PLACE 0-2 page with its home in this package, and no live tag. -/
def State.cacheable (s : State) (pa place : Nat) : Bool :=
  place != 4 && pkgOf pa == s.pkg && (s.pendingOf (pa / 128)).isNone && (s.tagsOf (pa / 128)).isEmpty

/-- The core's dirty record of a line it is about to write (R247, R334). -/
def State.markDirty (s : State) (core line : Nat) : State :=
  let c := s.coreAt core
  if c.dirty.any fun d => d.line == line then s
  else s.setCore core { c with dirty := c.dirty ++ [{ line := line, old := s.physBytes (line * 128) 128 }] }

/-- A plain store to one line at its home (R248, R255, R349, R362): `self`, the thread whose own copy command writes;
`cache`, the core whose scalar cache takes the line. -/
def State.plainStore (s : State) (self cache : Option Nat) (pa place : Nat) (bytes : List Byte) : Acc State :=
  let line := pa / 128
  if 0 < s.sealCount line then .trap 5
  else if (s.ownerOf line).isSome ∧ s.ownerOf line ≠ self then .hold
  else if (s.pendingOf line).isSome then .hold
  else
    let s := s.recall cache line
    let s := match cache with
      | some c => if s.cacheable pa place then s.markDirty c line else s
      | none => s
    .ok (s.writePhys pa bytes)

/-- A read error stands in one of the lines (R105 step 4, R333). -/
def State.lineError (s : State) (pa n : Nat) : Bool := (linesOf pa n).any fun l => s.memErr.contains l

/-- The FIFO counters of a bank (R245). -/
def Core.head (c : Core) (b : Nat) : Nat := tgetD c.fifoHead b 0
def Core.tail (c : Core) (b : Nat) : Nat := tgetD c.fifoTail b 0

/-- Bytes of the chorus group table; bytes 2,056 and up of a slot read as 0 (R233). -/
def Partition.chorusBytes (p : Partition) (off n : Nat) : List Byte :=
  (upTo n).map fun i => if (off + i) % 4096 < 2056 then mget p.chorus (off + i) else 0

/-- The partition with bytes stored into its chorus group table; bytes 2,056 and up of a slot are discarded (R233). -/
def Partition.storeChorus (p : Partition) (off : Nat) (bytes : List Byte) : Partition :=
  let cells := (bytes.zip (upTo bytes.length)).filter fun x => decide ((off + x.2) % 4096 < 2056)
  { p with
    chorus := cells.foldl (fun m x => mset m (off + x.2) x.1) p.chorus
    chorusWritten := (upTo bytes.length).foldl (fun l i => insertN l ((off + i) / 4096)) p.chorusWritten }

/-- A V-engine read of the thread's own core's inbox comes while its own records are on their way there (R158, R210). -/
def State.inboxComing (s : State) (h : Nat) (eng : Eng) (core b : Nat) : Bool :=
  eng == .V && (s.coreAt core).inbox == some b && s.msgs.any fun m => m.h == h && m.core == core && !m.lost

/-- A read of n bytes that lie in one line or one aligned piece of a window, after its checks. HEAD and TAIL of a bank that is
not in FIFO mode have no stated value: a free one (log 46). -/
def State.readLoc (s : State) (h : Nat) (t : Thread) (eng : Eng) (loc : Loc) (n : Nat) : Acc (State × List Byte) :=
  match loc with
  | .dram pa _ =>
    if ¬ s.routed pa ∨ ((s.ownerOf (pa / 128)).isSome ∧ ¬ (eng = .C ∧ s.ownerOf (pa / 128) = some h)) then .hold
    else if s.lineError pa n then .trap 6
    else .ok (s.readDram h (if eng = .S then some t.core else none) pa n)
  | .bank c b off =>
    if s.inboxComing h eng c b then .hold else .ok (s, mgetN (s.coreAt c).banks (b * 65536 + off) n)
  | .fifo c b tail =>
    if (s.coreAt c).mode b = 2 then .ok (s, leBytes n (if tail then (s.coreAt c).tail b else (s.coreAt c).head b))
    else .ok ({ s with freeCtr := s.freeCtr + 1 }, leBytes n (Config.freeNat s.freeCtr % 2 ^ 64))
  | .counter i => .ok (s, leBytes n ((if i = 0 then t.localReq else if i = 1 then t.remote else t.offpkg).toNat))
  | .chorus off => .ok (s, ((s.partAt t.part).map fun p => p.chorusBytes off n).getD (List.replicate n 0))
  | .host ha => .ok (s, mgetN s.hostMem ha n)

/-- A plain store to a location, after its checks. -/
def State.plainLoc (s : State) (h : Nat) (t : Thread) (eng : Eng) (loc : Loc) (bytes : List Byte) : Acc State :=
  match loc with
  | .dram pa place =>
    if ¬ s.routed pa then .hold
    else s.plainStore (if eng = .C then some h else none) (if eng = .S then some t.core else none) pa place bytes
  | .bank c b off => let x := s.coreAt c; .ok (s.setCore c { x with banks := msetN x.banks (b * 65536 + off) bytes })
  | .fifo c b _ =>
    let x := s.coreAt c
    let v := leNat bytes
    if v % 16 = 0 ∧ x.head b ≤ v ∧ v ≤ x.tail b then .ok (s.setCore c { x with fifoHead := tset x.fifoHead b v }) else .trap 5
  | .counter _ => .trap 5
  | .chorus off =>
    match s.partAt t.part with
    | some p => .ok (s.setPart t.part (p.storeChorus off bytes))
    | none => .ok s
  | .host ha => .ok { s with hostMem := msetN s.hostMem ha bytes }

/-- A store to one line or one aligned piece of a window, after its checks. After a successful bseal, a release at POD scope
(R262, R356), the thread's plain stores are held until every home of the bundle has flipped. -/
def State.storeLoc (s : State) (h : Nat) (t : Thread) (eng : Eng) (mode : StoreMode) (loc : Loc) (bytes : List Byte) : Acc State :=
  match mode with
  | .discard => .ok s
  | .bundle b =>
    match loc with
    | .dram pa place => if ¬ s.routed pa then .hold else s.bundleStore b pa place bytes
    | _ => .trap 5
  | .plain => if s.unflipped h then .hold else s.plainLoc h t eng loc bytes

/-- The checks of R105 (R154) on one access of n bytes, n a power of two, before memory is read: the location, or the
trap. -/
def State.checkAccess (s : State) (t : Thread) (eng : Eng) (kind : Kind) (va n : Nat) : Except Nat Loc :=
  if 2 ^ 48 ≤ va then .error 5
  else if va % n ≠ 0 then .error 3
  else s.locate t eng kind va n

end Sys2Proof.Machine
end

