-- ==== Sys2Proof/Machine/Ops.lean ====
section
/-!
DEFINITION. Named operations on threads, cores and dies: scalar registers (R103), queue registers (R121), token FIFOs
(R88-R91), system-wide events (R374), octets (R33, R308), leases (R226), banks (R243), the end of a thread (R12, R332), taking a trap
(R325, R328) and the return from one (R330).
-/
namespace Sys2Proof.Machine

/-- A scalar register; s0 reads as zero (R103). -/
def Thread.reg (t : Thread) (n : BitVec 5) : Word := if n = 0 then 0 else t.regs.getD n.toNat 0

/-- A write of a scalar register; one to s0 is discarded (R103). -/
def Thread.setReg (t : Thread) (n : BitVec 5) (x : Word) : Thread :=
  if n = 0 then t else { t with regs := setAt 0 t.regs n.toNat x }

/-- Single fields of a thread's record written. -/
def Thread.setPc (t : Thread) (x : Word) : Thread := { t with pc := x }
def Thread.setPend (t : Thread) (x : Option Pending) : Thread := { t with pend := x }
def Thread.setLoop (t : Thread) (x : Loop) : Thread := { t with loop := x }
def Thread.setVstop (t : Thread) (x : BitVec 21) : Thread := { t with vstop := x }
def Thread.setWait (t : Thread) (x : Option Wait) : Thread := { t with wait := x }
def Thread.setRetq (t : Thread) (x : List (BitVec 4)) : Thread := { t with retq := x }
def Thread.setQueue (t : Thread) (x : List QEntry) : Thread := { t with queue := x }
def Thread.setAnchor (t : Thread) (x : Option (BitVec 6)) : Thread := { t with anchor := x }
def Thread.setVregs (t : Thread) (x : Memory) : Thread := { t with vregs := x }
def Thread.setMasks (t : Thread) (x : Memory) : Thread := { t with masks := x }
def Thread.setTiles (t : Thread) (x : Memory) : Thread := { t with tiles := x }
def Thread.setVlive (t : Thread) (x : BitVec 64) : Thread := { t with vlive := x }
def Thread.setTdirty (t : Thread) (x : BitVec 4) : Thread := { t with tdirty := x }
def Thread.setFlags (t : Thread) (x : BitVec 6) : Thread := { t with flags := x }
def Thread.setVstart (t : Thread) (x : Nat) : Thread := { t with vstart := x }
def Thread.setVl (t : Thread) (x : Nat) : Thread := { t with vl := x }
def Thread.setVcfg (t : Thread) (x : Word) : Thread := { t with vcfg := x }
def Thread.setTag (t : Thread) (x : Nat) : Thread := { t with nextTag := x }

/-- A thread's record changed. -/
def State.modTh (s : State) (h : Nat) (f : Thread → Thread) : State :=
  match s.th h with
  | some t => s.setTh h (f t)
  | none => s

/-- The depth of a queue register (R121). -/
def qDepth (q : Nat) : Nat := if q < 4 then 8 else if q < 6 then 16 else 4

/-- The places of a queue register, oldest first. -/
def Thread.q (t : Thread) (q : Nat) : List QSlot := t.qregs.getD q []

def Thread.setQ (t : Thread) (q : Nat) (l : List QSlot) : Thread := { t with qregs := setAt [] t.qregs q l }

/-- The entries present in a queue register (R122). -/
def Thread.qCount (t : Thread) (q : Nat) : Nat := ((t.q q).filter fun x => x.val.isSome).length

/-- A reservation at the end of a queue register. -/
def Thread.reserve (t : Thread) (q tag : Nat) : Thread := t.setQ q (t.q q ++ [{ tag := tag, val := none }])

/-- The delivery of the entry reserved under a tag. -/
def Thread.deliver (t : Thread) (q tag : Nat) (x : Word) : Thread :=
  t.setQ q ((t.q q).map fun e => if e.tag = tag ∧ e.val = none then { e with val := some x } else e)

/-- The reservation under a tag given up (R330). -/
def Thread.unreserve (t : Thread) (tag : Nat) : Thread :=
  { t with qregs := t.qregs.map fun l => l.filter fun e => !(e.tag == tag && e.val.isNone) }

/-- An entry that arrives unreserved in q4-q7: a full queue loses its oldest entry and bit 63 of the new one is set
(R209, R216, R312, R380). -/
def Thread.post (t : Thread) (q : Nat) (x : Word) : Thread :=
  let l := t.q q
  if l.length < qDepth q then t.setQ q (l ++ [{ tag := 0, val := some x }])
  else t.setQ q (l.drop 1 ++ [{ tag := 0, val := some (x ||| word (2 ^ 63)) }])

/-- The tokens in a FIFO, by its code (R88). -/
def Thread.token (t : Thread) (f : Nat) : Nat := t.tokens.getD (f - 1) 0

def Thread.setToken (t : Thread) (f n : Nat) : Thread := { t with tokens := setAt 0 t.tokens (f - 1) n }

/-- Prefix features as bits 25:7 of the prefix word (R88, R328). -/
def featP (f : BitVec 19) : Bool := bitN f.toNat 0
def featMask (f : BitVec 19) : Nat := bitsN f.toNat 1 3
def featD (f : BitVec 19) : Bool := bitN f.toNat 4
def featDreg (f : BitVec 19) : Nat := bitsN f.toNat 5 6
def featPop (f : BitVec 19) : Nat := bitsN f.toNat 11 4
def featPush (f : BitVec 19) : Nat := bitsN f.toNat 15 4

/-- The engines a FIFO code joins (R88): sv sm sc vs vm vc ms mv mc cs cv cm. -/
def fifoFrom (c : Nat) : Eng := if c ≤ 3 then .S else if c ≤ 6 then .V else if c ≤ 9 then .M else .C
def fifoTo (c : Nat) : Eng :=
  match c with
  | 4 | 7 | 10 => .S
  | 1 | 8 | 11 => .V
  | 2 | 5 | 12 => .M
  | _ => .C

/-- A task of a partition. -/
def State.task (s : State) (p n : Nat) : Option Task := s.tasks.find? fun k => k.part == p && k.num == n

def State.modTask (s : State) (p n : Nat) (f : Task → Task) : State :=
  { s with tasks := s.tasks.map fun k => if k.part = p ∧ k.num = n then f k else k }

/-- A meter of an account counted upward; it stops at all ones (R384). -/
def State.meter (s : State) (p account i n : Nat) : State :=
  match s.partAt p with
  | none => s
  | some x =>
    let k := account * 24 + i
    s.setPart p { x with meters := tset x.meters k (min (tgetD x.meters k 0 + n) (2 ^ 64 - 1)) }

/-- The account of a thread's task. -/
def State.accountOf (s : State) (t : Thread) : Nat := ((s.task t.part t.task).map (·.account)).getD 0

/-- A saturating count of n bits. -/
def satBits {n : Nat} (x : BitVec n) : BitVec n := if x = BitVec.allOnes n then x else x + 1

/-- The budget of a partition's cue instructions on a die, or firmware's (R383). -/
def State.cueBudget (s : State) (die p : Nat) : Nat :=
  if p = 31 then 240000 else ((s.partAt p).map fun x => tgetD x.budget die 108000).getD 0

/-- A die whose budget window is over begins the next one, its USED counts at 0 (R383). -/
def Die.rolled (d : Die) (now : Nat) : Die :=
  if d.windowAt + 600000 ≤ now then { d with used := [], windowAt := now / 600000 * 600000 } else d

/-- An event queued for one slot that receives it: dropped over the budget (R383) or at a full queue (R382). -/
def State.queueEvent (s : State) (die slot : Nat) (e : Event) : State :=
  let d := (s.dieAt die).rolled s.time
  match tget d.slots slot with
  | none => s
  | some c =>
    let q := tgetD d.evq c.part []
    if s.cueBudget die c.part ≤ tgetD d.used c.part 0 + 32 then
      s.setDie die { d with slots := tset d.slots slot { c with bdrop := satBits c.bdrop } }
    else if 64 ≤ q.length then s.setDie die { d with slots := tset d.slots slot { c with qdrop := satBits c.qdrop } }
    else s.setDie die { d with evq := tset d.evq c.part (q ++ [{ e with seq := d.evseq }]), evseq := d.evseq + 1 }

/-- Whom an event concerns (R374). -/
inductive EvPart where
  | part (p : Nat) | all | firmware
deriving DecidableEq, Repr

/-- A tap (R374), where `on`: the event is queued for every slot of the die that is enabled, attached and entitled. -/
def State.tapIf (s : State) (on : Bool) (die code : Nat) (p : EvPart) (f : List Nat) : State :=
  (s.dieAt die).slots.foldl (fun s c =>
    let hit := on && c.2.enable && c.2.event.toNat == code && (c.2.part == 31 || match p with
      | .part q => c.2.part == q
      | .all => true
      | .firmware => false)
    if hit then s.queueEvent die c.1 { code := BitVec.ofNat 8 code, slot := c.1, seq := 0, f := f.map word } else s) s

/-- A tap (R374). -/
def State.tap (s : State) (die code : Nat) (p : EvPart) (f : List Nat) : State := s.tapIf true die code p f

/-- A saturating 64-bit count. -/
def satInc (x : Word) (n : Nat) : Word := if x.toNat + n < 2 ^ 64 then x + word n else BitVec.allOnes 64

/-- The line requests that a tower serves, counted for the account that made them (R385): the lower half of a die's home groups,
with their channels, are its first tower's (log 11). -/
def State.noteServed (s : State) (die group p acc n : Nat) : State :=
  let k := (die * 2 + group % 64 / 32) * 2 ^ 14 + p * 512 + acc
  { s with served := if n = 0 then s.served else tset s.served k (tgetD s.served k 0 + n) }

/-- The partition that a home group's events belong to (R374): its owner, and for a group of the commons the requesting agent's. -/
def State.groupOwner (s : State) (group p : Nat) : Nat := ((s.parts.find? fun x => x.2.groups.contains group).map (·.1)).getD p

/-- The address of the entry that a walk of va reads n levels below level l, whose table is t (R235); none where an entry above it
ends the walk. -/
def State.entryOf (s : State) (va : Nat) : Nat → Nat → Nat → Option Nat
  | 0, l, t => some (t + 8 * bitsN va (39 - 9 * l) 9)
  | n + 1, l, t =>
    let pte := leNat (s.physBytes (t + 8 * bitsN va (39 - 9 * l) 9) 8)
    if bitN pte 0 && !bitN pte 1 then s.entryOf va n (l + 1) (bitsN pte 12 44 * 4096) else none

/-- The request of class PW that a page walk, drawn by some line request, may make at one of its four levels (R235, R253): metered (R384), served by its home's
tower (R385), and a HOMEQ event of the table line's home group (R374). Whether it is made, and whether it waits in a bank queue, are
free values, as is the address walked (log 14). -/
def State.countWalk (s : State) (h f reqs level : Nat) : State :=
  match s.th h with
  | none => s
  | some t =>
    let entry := ((s.vdevAt t.vdev).bind (·.troot)).bind fun r => s.entryOf (f / 2 ^ 16 % 2 ^ 48) level 0 r
    let pa := entry.getD 0
    let n := if entry.isSome ∧ f / 2 ^ level % 2 = 1 ∧ reqs ≠ 0 then 1 else 0
    let far := pkgOf pa != s.pkg
    let group := s.homeSlice pa / 4
    let s := s.meter t.part (s.accountOf t) 11 (128 * n)
    let s := s.noteServed (s.homeDie pa) group t.part (s.accountOf t) (if far then 0 else n)
    s.tapIf (n != 0 && !far && f / 2 ^ (4 + level) % 2 == 1) (s.homeDie pa) 1 (.part (s.groupOwner group t.part))
      [f / 2 ^ 64 % 6145, group, 4, t.core]

/-- n line requests of a thread, one or none, in a traffic class (0 DV to 5 HL, R253) to a home group: the counters of the counter
window (R249, R251), the meters (R384) and the HOMEQ event of a group of this package (R374); `far`: the home is in another package.
Whether a request passes a bank queue, how long it stays there, and the page walk it draws depend on timing and on caches: free values
(log 14). The requests of a replay, which its accesses make while the loop's translations are pinned, are of class UR and not counted
in the window (R251, R294). -/
def State.countReqAt (s : State) (h cls : Nat) (far : Bool) (die group n : Nat) : State :=
  match s.th h with
  | none => s
  | some t =>
    let f := Config.freeNat s.freeCtr
    let acc := s.accountOf t
    let s := { s with freeCtr := s.freeCtr + 1 }
    let ur := t.loop.pinned
    let cls := if ur then 3 else cls
    let s := s.setTh h { t with
      localReq := if die = t.core / 128 ∧ ¬ ur ∧ ¬ far then satInc t.localReq n else t.localReq
      remote := if die = t.core / 128 ∨ ur ∨ far then t.remote else satInc t.remote n
      offpkg := if far ∧ ¬ ur then satInc t.offpkg n else t.offpkg }
    let s := s.meter t.part acc (7 + cls) (128 * n)
    let s := if far then s else s.noteServed die group t.part acc n
    let s := s.tapIf (n != 0 && !far && f % 2 == 1) die 1 (.part (s.groupOwner group t.part)) [f / 2 % 6145, group, cls, t.core]
    (upTo 4).foldl (fun s i => s.countWalk h (f / 2 ^ 16) n i) s

/-- n line requests of a thread to the home of an address. -/
def State.countReq (s : State) (h cls pa n : Nat) : State :=
  s.countReqAt h cls (pkgOf pa != s.pkg) (s.homeDie pa) (s.homeSlice pa / 4) n

/-- Where it is to be, a line is written back from a core's scalar cache and dropped: one line request of class DS to its home where
it was dirty (R247, R249, R253). -/
def State.writeBack (s : State) (h core line : Nat) (now : Bool) : State :=
  let c := s.coreAt core
  let n := if now && c.dirty.any fun d => d.line == line then 1 else 0
  (s.setCore core { c with dirty := c.dirty.filter fun d => !now || d.line != line }).countReq h 1 (line * 128) n

/-- The line requests of one scalar access to DRAM. An uncached access is one. What a cached one sends depends on the
cache's content: a fill or none, and the write-back of some other dirty line or none, are free values (log 14). -/
def State.countScalar (s : State) (h pa place : Nat) : State :=
  let f := Config.freeNat s.freeCtr
  let cached := s.cacheable pa place
  let core := ((s.th h).map (·.core)).getD 0
  let others := ((s.coreAt core).dirty.map (·.line)).filter fun l => l != pa / 128
  let s := { s with freeCtr := s.freeCtr + 1 }
  let s := s.countReq h 1 pa (if cached then f % 2 else 1)
  s.writeBack h core (others.getD (f / 4 % others.length) 0) (cached && !others.isEmpty && f / 2 % 2 == 1)

/-- Bytes of a thread's access to the host window, in class HL (R232, R253, R384). -/
def State.countHostBytes (s : State) (h n : Nat) : State :=
  match s.th h with
  | some t => s.meter t.part (s.accountOf t) 12 n
  | none => s

/-- The number that events give a core slot: core × 2 + slot (R374). -/
def Thread.place (t : Thread) : Nat := t.core * 2 + t.slot

/-- UNDSTAT as a word (R299). -/
def undWord (state cause d iter : Nat) : Word := word (packN [(state, 0), (cause, 4), (d, 12), (iter % 2 ^ 48, 16)])

/-- UNDCTL as a word (R300). -/
def Thread.undctl (t : Thread) : Word := word (packN [(boolN t.undEnable, 0), (t.replayed.toNat, 32)])

/-- UNDSTAT changes; states 4, 5 and 6 are an event (R374). -/
def State.setUnd (s : State) (h state cause iter : Nat) : State :=
  match s.th h with
  | none => s
  | some t =>
    let w := undWord state cause t.loop.d iter
    let s := s.setTh h { t with undstat := w }
    if 4 ≤ state then s.tap (t.core / 128) 6 (.part t.part) [w.toNat, t.replayed.toNat, 0, t.place] else s

/-- A marking in rehearsal is refused: its capture is freed and the loop runs on the core (R288, R289). -/
def State.refuseLoop (s : State) (h cause : Nat) : State :=
  match s.th h with
  | none => s
  | some t =>
    if t.loop.stage = .rehearsal then
      (s.setTh h { t with loop := { t.loop with stage := .refused } }).setUnd h 5 cause (min t.loop.iter t.loop.d)
    else s

/-- The power units of a lease class (R317). -/
def leaseCost (cls : Nat) : Nat := if cls = 0 then 4 else if cls = 1 then 3 else 2

/-- A class that no lease is held or asked for (R321). -/
def Lease.none : Lease := { held := false, req := false, revoked := false, granted := 0, last := 0 }

def Thread.lease (t : Thread) (c : Nat) : Lease := t.leases.getD c Lease.none

def Thread.setLease (t : Thread) (c : Nat) (x : Lease) : Thread := { t with leases := setAt Lease.none t.leases c x }

/-- Every lease of a thread is returned and every request withdrawn (R226, R12). -/
def State.dropLeases (s : State) (h : Nat) : State :=
  match s.th h with
  | none => s
  | some t =>
    let d := s.dieAt (t.core / 128)
    let s := s.setDie (t.core / 128) { d with leaseQ := d.leaseQ.filter fun r => r.h != h }
    s.setTh h { t with leases := t.leases.map fun l => { l with held := false, req := false } }

/-- A reference on an object is released; none below zero (R223). -/
def State.dropRef (s : State) (p obj : Nat) : State :=
  match s.partAt p with
  | none => s
  | some x =>
    match tget x.objects obj with
    | none => s
    | some o => s.setPart p { x with objects := tset x.objects obj { o with refs := o.refs - 1 } }

/-- The records on their way to a bank, where it is the core's inbox, will be dropped (R241). -/
def State.loseRecords (s : State) (core b : Nat) : State :=
  if (s.coreAt core).inbox = some b then { s with msgs := s.msgs.map fun m => if m.core = core then { m with lost := true } else m }
  else s

/-- A bank's contents and recorded references are lost, with the records on their way to it (R241, R351). -/
def State.emptyBank (s : State) (core b : Nat) : State :=
  let c := s.coreAt core
  let s := s.loseRecords core b
  let mine := c.refs.filter fun r => r.1 == b
  let s := s.setCore core { c with
    banks := mclear c.banks (b * 65536) (b * 65536 + 65536)
    fifoHead := tdel c.fifoHead b
    fifoTail := tdel c.fifoTail b
    refs := c.refs.filter fun r => r.1 != b }
  mine.foldl (fun s r => s.dropRef r.2.1 r.2.2) s

/-- A bank's mode and owner are written (R240). -/
def State.setBank (s : State) (core b mode slot : Nat) : State :=
  let c := s.coreAt core
  let m := c.bankMode.toNat
  let o := c.bankOwn.toNat
  s.setCore core { c with
    bankMode := BitVec.ofNat 24 (m - bitsN m (2 * b) 2 * 2 ^ (2 * b) + mode % 4 * 2 ^ (2 * b))
    bankOwn := BitVec.ofNat 12 (o - bitsN o b 1 * 2 ^ b + slot % 2 * 2 ^ b) }

/-- The banks that a slot owns: those not in CACHE mode that are marked with it (R240). -/
def Core.ownedBanks (c : Core) (slot : Nat) : List Nat :=
  (upTo 12).filter fun b => c.mode b != 0 && c.bankOwner b == slot

/-- The banks of a slot return to CACHE mode, their contents discarded (R243). -/
def State.freeBanks (s : State) (core slot : Nat) : State :=
  ((s.coreAt core).ownedBanks slot).foldl (fun s b => (s.emptyBank core b).setBank core b 0 0) s

/-- The owner code of an octet in LPR, and the owner a draining octet passes to (R23). -/
def Core.oct (c : Core) (b : Nat) : Nat := bitsN c.own.toNat (2 * b) 2
def Core.octNext (c : Core) (b : Nat) : Nat := bitsN c.next.toNat (2 * b) 2

/-- LPR's two fields of an octet written (R23). -/
def Core.setOct (c : Core) (b own next : Nat) : Core :=
  let o := c.own.toNat
  let n := c.next.toNat
  { c with
    own := BitVec.ofNat 16 (o - bitsN o (2 * b) 2 * 2 ^ (2 * b) + own % 4 * 2 ^ (2 * b))
    next := BitVec.ofNat 16 (n - bitsN n (2 * b) 2 * 2 ^ (2 * b) + next % 4 * 2 ^ (2 * b)) }

/-- The octets whose OWN field names a slot (R27). -/
def Core.octets (c : Core) (slot : Nat) : List Nat := (upTo 8).filter fun b => c.oct b == slot + 1

/-- The octets draining towards a slot. -/
def Core.coming (c : Core) (slot : Nat) : List Nat := (upTo 8).filter fun b => c.oct b == 3 && c.octNext b == slot + 1

/-- The thread placed in a slot, resident or waiting for its first octet (R307). -/
def State.inSlot (s : State) (core slot : Nat) : Option (Nat × Thread) :=
  s.threads.find? fun t => t.2.core == core && t.2.slot == slot && (t.2.res == .resident || t.2.res == .placed)

/-- A notice on q6 (R312). -/
def State.notice (s : State) (h kind octets count deadline : Nat) : State :=
  s.modTh h fun t => t.post 6 (word (packN [(kind, 0), (octets, 4), (count, 12), (deadline % 2 ^ 32, 16)]))

/-- The scheduling parameters of a partition; their defaults where there is none (R301). -/
def Params.default : Params where
  yield := 20000
  age := 60000000
  minrun := 600000
  slice := 6000000
  quantum := []
  lage := 60000
  lhold := 600000

def State.params (s : State) (p : Nat) : Params := ((s.partAt p).map (·.params)).getD Params.default

/-- Octets have become a slot's. A placed thread becomes resident, its queue registers empty (R307, R11), but for a saved one,
which is resumed (R340); a resident thread has one notice of them all (R312). -/
def State.received (s : State) (core slot : Nat) (octs : List Nat) : State :=
  if octs = [] then s
  else match s.inSlot core slot with
  | none => s
  | some (h, t) =>
    if t.res = .placed then (if t.saveSlot.isNone then s.setTh h { t with res := .resident, residentAt := s.time } else s)
    else s.notice h 2 (packN (octs.map fun b => (1, b))) ((s.coreAt core).octets slot).length 0

/-- Octets are marked draining towards an owner code (R33 step 1); their victim has one notice of them all (R312).
The yield window is the one in force at the mark (R301). -/
def State.drainOctets (s : State) (core victim : Nat) (octs : List (Nat × Nat)) : State :=
  if octs = [] then s
  else
    let who := s.inSlot core victim
    let yield := ((who.map fun x => s.params x.2.part).getD Params.default).yield
    let c := octs.foldl (fun (c : Core) x => { c.setOct x.1 3 x.2 with
      drains := c.drains ++ [{ oct := x.1, victim := victim, since := s.time, until_ := s.time + yield, opened := none }] })
      (s.coreAt core)
    let s := s.setCore core c
    match who with
    | none => s
    | some (h, _) => s.notice h 1 (packN (octs.map fun x => (1, x.1))) ((s.coreAt core).octets victim).length yield

/-- The level of a resident thread (R304). -/
def State.prioOf (s : State) (t : Thread) : Nat := ((s.task t.part t.task).map (·.prio)).getD 0

/-- The octets each slot of a core should hold (R308). -/
def State.targets (s : State) (core : Nat) : Nat × Nat :=
  let q := fun (x : Option (Nat × Thread)) => match x with
    | some (_, t) => ((s.task t.part t.task).map fun k => k.lanes / 8).getD 0
    | none => 0
  let a := s.inSlot core 0
  let b := s.inSlot core 1
  match a, b with
  | some (_, ta), some (_, tb) =>
    let a0 := min (q a) 4
    let b0 := min (q b) 4
    let left := 8 - a0 - b0
    if s.prioOf tb ≤ s.prioOf ta then
      let a1 := min (q a) (a0 + left)
      (a1, min (q b) (b0 + (left - (a1 - a0))))
    else
      let b1 := min (q b) (b0 + left)
      (min (q a) (a0 + (left - (b1 - b0))), b1)
  | _, _ => (min (q a) 8, min (q b) 8)

/-- How far a slot is below its target, counting octets draining towards it. -/
def State.lack (s : State) (core slot : Nat) : Nat :=
  let c := s.coreAt core
  let target := if slot = 0 then (s.targets core).1 else (s.targets core).2
  target - ((c.octets slot).length + (c.coming slot).length)

/-- Free octets given one by one to the slot furthest below its target, T0 first (R308): the state, and what each slot gets. Which
free octet is given next R308 leaves open: the lowest-numbered (log 59). -/
def State.giveFree (s : State) (core : Nat) : Nat → List Nat × List Nat → State × List Nat × List Nat
  | 0, got => (s, got)
  | n + 1, got =>
    let c := s.coreAt core
    match (upTo 8).find? fun b => c.oct b == 0 with
    | none => (s, got)
    | some b =>
      let l0 := s.lack core 0
      let l1 := s.lack core 1
      if l0 = 0 ∧ l1 = 0 then (s, got)
      else
        let sl := if l1 ≤ l0 then 0 else 1
        (s.setCore core (c.setOct b (sl + 1) 0)).giveFree core n (if sl = 0 then (got.1 ++ [b], got.2) else (got.1, got.2 ++ [b]))

/-- The free octets of a core given out (R308, R33). -/
def State.giveAll (s : State) (core : Nat) : State :=
  let r := s.giveFree core 8 ([], [])
  (r.1.received core 0 r.2.1).received core 1 r.2.2

/-- A slot above its target gives up its highest-numbered octets (R308, R33). Which of them go to the other slot, as far as that lacks
them, and which to the free pool R308 leaves open: the lowest-numbered of them go to the slot (log 59). -/
def State.giveUp (s : State) (core slot : Nat) : State :=
  let target := if slot = 0 then (s.targets core).1 else (s.targets core).2
  let take := ((s.coreAt core).octets slot).drop target
  let need := s.lack core (1 - slot)
  s.drainOctets core slot ((take.zip (upTo take.length)).map fun x => (x.1, if x.2 < need then 2 - slot else 0))

/-- The shares of a core recomputed (R308). -/
def State.reshare (s : State) (core : Nat) : State := ((s.giveAll core).giveUp core 0).giveUp core 1

/-- A draining octet passes to its next owner, or into the free pool, from which it may be given at once (R33 step 3, R308). -/
def State.passOctet (s : State) (core b : Nat) : State :=
  let c := s.coreAt core
  let next := c.octNext b
  let s := s.setCore core { c.setOct b next 0 with drains := c.drains.filter fun d => d.oct != b }
  if next = 1 ∨ next = 2 then s.received core (next - 1) [b] else s.giveAll core

/-- A thread that leaves its slot sets its octets free (R12, R335); those draining from it pass on, those draining to it will be
free. -/
def State.freeOctets (s : State) (core slot : Nat) : State :=
  let s := ((upTo 8).filter fun b => (s.coreAt core).oct b == 3 && (s.coreAt core).octNext b == slot + 1).foldl
    (fun s b => s.setCore core ((s.coreAt core).setOct b 3 0)) s
  let s := ((s.coreAt core).octets slot).foldl (fun s b => s.setCore core ((s.coreAt core).setOct b 0 0)) s
  ((s.coreAt core).drains.filter fun d => d.victim == slot).foldl (fun s d => s.passOctet core d.oct) s

/-- The lines that a copy engine owns are released (R215, R216). -/
def State.releaseLines (s : State) (h : Nat) : State := { s with owned := s.owned.filter fun x => x.2 != h }

/-- An `oseal` that leaves the VCP before it is done lowers the seal counts it has raised (R349). -/
def State.unseal (s : State) (h : Nat) : State :=
  { s with parts := s.parts.map fun p => (p.1, { p.2 with
      objects := p.2.objects.map fun o => (o.1, if o.2.sealing = some h then { o.2 with sealing := none } else o.2) }) }

/-- The bundles of a thread that a trap aborts (R220, R356): an open one, and sealing ones whose bseal leaves the queue. -/
def State.trapBundle (s : State) (t : Thread) : State :=
  let open_ := if t.bopen then t.bcur.toList else []
  (open_ ++ t.queue.filterMap (·.bundle)).foldl (fun s b => s.abortBundle b 5) s

/-- What retirement (R12) and ending (R332) have in common: the thread leaves its slot, and everything it holds is
returned. A running copy command stops where it stands; the copy-engine words behind it have committed and are still to
retire (R332): they stay in the thread's list. -/
def State.leave (s : State) (h : Nat) (res : Residence) : State :=
  match s.th h with
  | none => s
  | some t =>
    let s := (s.trapBundle t).unseal h
    let s := ((s.releaseLines h).dropLeases h).freeBanks t.core t.slot
    let s := (t.savedBanks.flatMap (·.refs)).foldl (fun s r => s.dropRef r.1 r.2) s
    let s := s.modTh h fun t => { t with
      res := res, wait := none, queue := [], retq := [], imgq := [], pend := none, binds := [], savedBanks := [], arrivals := []
      crun := none, cstop := none, ceng := if t.crun.isSome ∨ t.cstop.isSome then t.ceng.drop 1 else t.ceng
      saveSlot := none, loop := { t.loop with stage := .none, open_ := false } }
    let s := { s with bundles := s.bundles.filter fun b => !(b.2.h == h && b.2.stage == BundleStage.aborted) }
    (s.freeOctets t.core t.slot).reshare t.core

/-- A thread is ended with a cause (R332) and counted in ENDED (R315). -/
def State.endThread (s : State) (h cause : Nat) : State :=
  match s.th h with
  | none => s
  | some t =>
    let s := s.leave h .ended
    s.modTask t.part t.task fun k => { k with ended := k.ended + 1, finish := s.time, firstTid := if k.ended = 0 then some (t.tid, cause) else k.firstTid }

/-- VCFG's fields (R141). -/
def Thread.cfg (t : Thread) (lo n : Nat) : Nat := bitsN t.vcfg.toNat lo n

/-- The conditions of R28 that set VILL, for a VCFG (bit 63 apart) and a VLMAX (R141). -/
def villOf (vcfg : Nat) (vlmax : Nat) : Bool :=
  decide (4 ≤ bitsN vcfg 0 3) || bitsN vcfg 8 3 == 7 || bitN vcfg 7 || bitsN vcfg 14 49 != 0 || decide (vlmax < 64)

/-- VLMAX in elements from an octet count and a VCFG (R27); 0 where the SEW code is illegal, for which R27 gives none (log 15). -/
def vlmaxOf (octs vcfg : Nat) : Nat :=
  if 4 ≤ bitsN vcfg 0 3 then 0 else octs * 8 * 256 * 2 ^ bitsN vcfg 3 2 / (8 * 2 ^ bitsN vcfg 0 3)

/-- A queue entry's fields at two offsets of a trap or save image (R328). -/
def QEntry.fields (q : QEntry) (ent pool : Nat) : List (Nat × Nat × Nat) :=
  [(ent, 4, q.word.toNat), (ent + 4, 6, q.pc.toNat),
    (ent + 10, 3, packN [(q.feat.toNat, 0), (boolN q.popDone, 19), (q.ops.length, 21)]),
    (ent + 13, 1, match q.anchor with | some a => a.toNat | none => 0),
    (pool, 8, packN [(q.vcfg.toNat, 0), (q.vl % 2 ^ 15, 14), (q.vlmax % 2 ^ 15, 29)])] ++
  ((upTo q.ops.length).zip q.ops).map fun x => (pool + 8 + 8 * x.1, 8, x.2.toNat)

/-- The prefix-pending word of a trap image (R328). -/
def Thread.pendWord (t : Thread) : Nat :=
  packN [((t.pend.map fun p => p.feat.toNat).getD 0, 0), (boolN ((t.pend.map (·.popDone)).getD false), 19),
    (boolN t.anchor.isSome, 20), ((t.anchor.map (·.toNat)).getD 0, 21)]

/-- PREFIX of an image and of TQIMG: a prefix is pending (R323, R328; the anchor alone does not count, log 18). -/
def Thread.hasPend (t : Thread) : Bool := t.pend.isSome

/-- The trap image as fields (offset, bytes, value); every other byte is 0 (R328). -/
def Thread.trapImage (t : Thread) (q : List QEntry) : List (Nat × Nat × Nat) :=
  [(0, 8, packN [(1, 0), (q.length, 16), (boolN t.hasPend, 23)]), (0x100, 8, t.pendWord)] ++
  ((upTo 31).map fun i => (8 + 8 * i, 8, (t.reg (BitVec.ofNat 5 (i + 1))).toNat)) ++
  ((upTo q.length).zip q).flatMap fun x => x.2.fields (0x200 + 16 * x.1) (0x600 + 32 * x.1)

/-- A block of DRAM overwritten with the given fields and zeros, at its homes (R255, R248). -/
def State.writeBlock (s : State) (pa n : Nat) (fields : List (Nat × Nat × Nat)) : State :=
  let lines := linesOf pa n
  let s := lines.foldl (fun s l => (s.recall none l).unmark l) s
  { s with mem := fields.foldl (fun m f => msetN m (pa + f.1) (leBytes f.2.1 f.2.2)) (mclear s.mem pa (pa + n)) }

/-- A block of DRAM that a thread's agent may overwrite now (R215, R349, R362). -/
def State.blockReady (s : State) (pa n : Nat) : Acc Unit :=
  let lines := linesOf pa n
  if lines.any fun l => decide (0 < s.sealCount l) then .trap 5
  else if lines.any fun l => (s.ownerOf l).isSome || (s.pendingOf l).isSome then .hold
  else .ok ()

/-- What a trap is (R322, R325): cause, code, TADDR, TELEM, TPC, whether it stands at the VCP, VSTART if it is set, and whether it is
taken at the prefix, whose features are then lost (R89). -/
structure TrapReq where
  cause : Nat
  code : Nat
  addr : Nat
  elem : Nat
  tpc : Word
  vside : Bool
  vstart : Option Nat
  unpend : Bool
deriving DecidableEq, Repr

/-- The thread's record as the trap finds it. -/
def TrapReq.of (r : TrapReq) (t : Thread) : Thread := if r.unpend then { t with pend := none } else t

/-- The trap's image is placed in the context area (R325 step 2): done, refused by a check, or held for now. -/
def State.putImage (s : State) (t : Thread) (q : List QEntry) : Acc State :=
  match s.checkAccess t .S .store t.grbase.toNat 4096 with
  | .error c => .trap c
  | .ok (.dram pa place) =>
    if ¬ s.routed pa then .hold
    else if place = 4 then .ok (s.writeBlock pa 4096 (t.trapImage q))
    else (s.blockReady pa 4096).bind fun _ => .ok (s.writeBlock pa 4096 (t.trapImage q))
  | .ok _ => .trap 5

/-- A trap is taken (R325), or the thread is ended where R325 and R329 say so. While the image's lines are held at
their homes (R215, R362) nothing happens yet: the answer is the state unchanged. -/
def State.takeTrap (s : State) (h : Nat) (r : TrapReq) : State :=
  match s.th h with
  | none => s
  | some t =>
    if t.handler then s.endThread h 0x0E
    else if t.tvec = 0 then s.endThread h r.cause
    else
      let q := if r.vside then t.queue else []
      match s.putImage (r.of t) q with
      | .hold => s
      | .trap _ => s.endThread h 0x0D
      | .ok s =>
        let s := ((s.trapBundle t).unseal h).refuseLoop h 0x0D
        s.modTh h fun t => { t with
          queue := [], imgq := q, pend := none, wait := none
          tcause := word (packN [(r.cause, 0), (boolN r.vside, 8), (r.code, 12)])
          tpc := word (r.tpc.toNat % 2 ^ 48), trapPc := word (r.tpc.toNat % 2 ^ 48)
          taddr := word r.addr, telem := word (r.elem % 2 ^ 15)
          tqimg := word (packN [(q.length, 0), (boolN (r.of t).hasPend, 7)])
          vstart := r.vstart.getD t.vstart
          handler := true, cfgDirty := false
          pc := t.tvec }

/-- The field of an image read back from memory. -/
def imgField (img : List Byte) (off n : Nat) : Nat := leNat ((img.drop off).take n)

/-- What a re-dispatched word is judged to be (R330): whether R85 and R89 admit it with its features, whether it is a pair word, the
queue register it names, and the power class that it has as it is dispatched anew (R226). -/
structure Judged where
  ok : Bool
  pair : Bool
  q : Option Nat
  heavy : Option Nat
deriving DecidableEq, Repr

/-- Queue entry n of an image as it stands in memory (R328, R330), with its SKIP; attributes the image does not hold come from the
entry the trap removed. A pair word takes the ANCHOR recorded in its entry. A word or a captured operand that has changed is judged anew
for its power class; the judgement of another stands for its whole life (R226). -/
def readEntry (img : List Byte) (judge : IWord → BitVec 19 → List Word → Judged) (n : Nat) (old : QEntry) : QEntry × Bool :=
  let e := 0x200 + 16 * n
  let p := 0x600 + 32 * n
  let w := BitVec.ofNat 32 (imgField img e 4)
  let f := imgField img (e + 10) 3
  let feat := BitVec.ofNat 19 f
  let p0 := imgField img p 8
  let vcfg := BitVec.ofNat 14 p0
  let vlmax := bitsN p0 29 15
  let anchor := BitVec.ofNat 6 (imgField img (e + 13) 1)
  let ops := (upTo (bitsN f 21 2)).map fun i => word (imgField img (p + 8 + 8 * i) 8)
  let same := decide (w = old.word) && decide (anchor.toNat = (old.anchor.map (·.toNat)).getD 0)
  let j := judge w feat ops
  ({ old with
      word := w
      pc := BitVec.ofNat 64 (imgField img (e + 4) 6)
      feat := feat
      popDone := bitN f 19
      ops := ops
      anchor := if same then old.anchor else if j.pair then some anchor else none
      vcfg := vcfg
      vl := bitsN p0 14 15
      vlmax := vlmax
      vill := villOf vcfg.toNat vlmax || (old.vill && old.vcfg == vcfg && old.vlmax == vlmax)
      heavy := if w = old.word ∧ ops = old.ops then old.heavy else j.heavy
      failed := !j.ok || bitN f 23
      since := none }, bitN f 20)

/-- A reservation that stands before those of younger instructions: tags rise in program order (R121, R329). -/
def Thread.reserveInOrder (t : Thread) (q tag : Nat) : Thread :=
  let l := t.q q
  let older := l.takeWhile fun x => decide (x.tag < tag)
  t.setQ q (older ++ { tag := tag, val := none } :: l.drop older.length)

/-- A re-dispatched entry's place in a queue register (R121, R330, R331): the one it has stands while its word names the same
queue; else it is given up, and a word that names one takes its place there in program order, or fails where the queue is full. -/
def Thread.rereserve (t : Thread) (judge : IWord → BitVec 19 → List Word → Judged) (old e : QEntry) : Thread × QEntry :=
  let q0 := (judge old.word old.feat old.ops).q
  let q1 := (judge e.word e.feat e.ops).q
  if q0 = q1 ∨ e.word = old.word then (t, e)
  else
    let t := t.unreserve e.tag
    match q1 with
    | none => (t, e)
    | some q => if (t.q q).length < qDepth q then (t.reserveInOrder q e.tag, e) else (t, { e with failed := true })

/-- The entries of an image re-dispatched in their order (R330): a skipped one gives up its place. -/
def Thread.redispatch (t : Thread) (judge : IWord → BitVec 19 → List Word → Judged) :
    List (QEntry × QEntry × Bool) → Thread × List QEntry
  | [] => (t, [])
  | x :: r =>
    if x.2.2 then (t.unreserve x.1.tag).redispatch judge r
    else
      let y := t.rereserve judge x.1 x.2.1
      let z := y.1.redispatch judge r
      (z.1, y.2 :: z.2)

/-- The entry is a vexit that the VCP will perform. -/
def QEntry.isVexit (e : QEntry) : Bool :=
  !e.failed && match decode e.word with
    | some (.vexit ..) => true
    | _ => false

/-- The return from a trap (R330). `judge` judges a re-dispatched word under R85 and R89. After a trap of vexit itself, which put OPEN
and COUNT back (R179), its re-dispatch clears them again, and they stand as the scalar stream had left them. The
prefix-pending state is lent to the word at TPC where TPC still holds what the trap wrote (R330 step 3): after a syscall that is the
word behind it, and a TPC set back to the syscall's own address loses it, where R92 speaks of the successor's address (log 39). The image
is read where it stands; if it cannot be read, the answer is the trap cause, or none while it is held. -/
def State.sretOp (s : State) (h : Nat) (t : Thread) (judge : IWord → BitVec 19 → List Word → Judged) : Acc State :=
  match s.checkAccess t .S .load t.grbase.toNat 4096 with
  | .error c => .trap c
  | .ok (.dram pa _) =>
    if ¬ s.routed pa ∨ (linesOf pa 4096).any fun l => (s.ownerOf l).isSome then .hold
    else if s.lineError pa 4096 then .trap 6
    else
      let img := s.physBytes pa 4096
      let read := ((upTo t.imgq.length).zip t.imgq).map fun x => (x.2, readEntry img judge x.1 x.2)
      let w := imgField img 0x100 8
      let same := t.tpc = t.trapPc
      let feat := BitVec.ofNat 19 w
      let r := t.redispatch judge read
      let t := r.1
      let vlmax := if t.cfgDirty then vlmaxOf (onesN 8 t.octets.toNat) t.vcfg.toNat else t.vlmax
      let vill := villOf t.vcfg.toNat vlmax || (t.cfgDirty && decide (vlmax < t.vl))
      let vcfg := word (bitsN t.vcfg.toNat 0 63 + boolN vill * 2 ^ 63)
      .ok (s.setTh h { t with
        vcfg := vcfg, vlmax := vlmax
        vl := if vill then 0 else t.vl
        queue := r.2
        imgq := []
        vstop := match t.vstopPast, r.2.any (fun x => x.isVexit) with
          | some v, true => BitVec.ofNat 21 (bitsN t.vstop.toNat 0 15 + bitsN v.toNat 15 6 * 2 ^ 15)
          | _, _ => t.vstop
        vstopPast := none
        vstart := if (read.take 1).any (·.2.2) then 0 else t.vstart
        pend := if same ∧ (feat ≠ 0 ∨ bitN w 19) then some { feat := feat, popDone := bitN w 19, fromSret := true }
          else none
        anchor := if same ∧ bitN w 20 then some (BitVec.ofNat 6 (bitsN w 21 6)) else none
        handler := false
        pc := t.tpc })
  | .ok _ => .trap 5

end Sys2Proof.Machine
end

