-- ==== Sys2Proof/Machine/Classify.lean ====
section
/-!
DEFINITION. What the encoding tables say of each instruction as a whole: its engine (R84), its mask field, its
destinations, the queue register it reserves (R121), and the sets that R89, R219, R293 and R329 name.
-/
namespace Sys2Proof.Machine

/-- The engine of an instruction (R84); none for pfx and for events. -/
def engOf : Instr → Option Eng
  | .add .. | .sub .. | .and .. | .or .. | .xor .. | .sll .. | .srl .. | .sra .. | .slt .. | .sltn .. | .min .. | .max ..
  | .minn .. | .maxn .. | .sel .. | .mul .. | .mulh .. | .mulhn .. | .div .. | .divn .. | .rem .. | .remn .. | .clz ..
  | .ctz .. | .popc .. | .addi .. | .andi .. | .ori .. | .xori .. | .slti .. | .slli .. | .srli .. | .srai .. | .bfx ..
  | .bfi .. | .lui .. | .addpc .. | .ldb .. | .ldh .. | .ldw .. | .ldd .. | .ldbz .. | .ldhz .. | .ldwz .. | .stb ..
  | .sth .. | .stw .. | .std .. | .amoadd .. | .amoand .. | .amoor .. | .amoxor .. | .amomin .. | .amomax .. | .amominn ..
  | .amomaxn .. | .amoswp .. | .amocas .. | .beq .. | .bne .. | .blt .. | .bge .. | .bltn .. | .bgen .. | .jal .. | .jalr ..
  | .qpop .. | .qcnt .. | .fenceAcq .. | .fenceRel .. | .fenceFull .. | .fenceSv | .fenceAlias .. | .bar .. | .exit
  | .syscall .. | .sret | .brk .. | .launch .. | .sysrd .. | .syswr .. | .pfh .. | .setvl .. | .setcfg .. | .setvli ..
  | .vclaim .. | .rclaim .. | .rfree .. => some .S
  | .vopa .. | .vops .. | .zclr .. | .zld .. | .zst .. | .zrdv .. | .zwrv .. => some .M
  | .cpdim .. | .cpgo .. | .cpstat .. => some .C
  | .pfx .. => none
  | .vld .. | .vlds .. | .vldx .. | .vldxo .. | .vldff .. | .vldw .. | .vst .. | .vsts .. | .vstx .. | .vstxo .. | .vstw ..
  | .vamoAdd .. | .vamoAnd .. | .vamoOr .. | .vamoXor .. | .vamoMin .. | .vamoMax .. | .vamoMinn .. | .vamoMaxn ..
  | .vamoSwp .. | .kand .. | .kor .. | .kxor .. | .kandn .. | .knot .. | .kmv .. | .ksbf .. | .ksif .. | .ksof .. | .kpop ..
  | .kfirst .. | .kld .. | .kst .. | .vredsum .. | .vfredsum .. | .vredmin .. | .vredmax .. | .vfredmin .. | .vfredmax ..
  | .vargmax .. | .vargmin .. | .vgsum .. | .vfgsum .. | .vscan .. | .vfscan .. | .vcomp .. | .vexpand .. | .vslup ..
  | .vsldn .. | .vsl1up .. | .vsl1dn .. | .vgath .. | .vbsll .. | .vbsrl .. | .vbfsh .. | .vxbeg | .vexit .. | .vhad ..
  | .vhadC .. | .vcvtq .. | .vcvtqC .. | .vrand .. | .vsend .. | .vwait .. | .vchorSum .. | .vchorMin .. | .vchorMax ..
  | .vchorArgmax .. | .vchorArgmin .. | .vchorAnd .. | .vchorOr .. | .vchorXor .. | .bopen .. | .bseal .. | .babort
  | .pwlease .. | .pwdrop .. | .lend | .lmark .. | .oshape .. | .oseal .. | .ounseal .. | .orel .. | .vmv .. | .vbcast ..
  | .vext .. | .vins .. | .vid .. | .viota .. | .vrelease .. | .vsel .. | .vadd .. | .vsub .. | .vmul .. | .vmulh ..
  | .vdiv .. | .vrem .. | .vmin .. | .vmax .. | .vand .. | .vor .. | .vxor .. | .vsll .. | .vsrl .. | .vsra .. | .vsadd ..
  | .vssub .. | .vabsd .. | .vcmp .. | .vcvt .. | .vfadd .. | .vfsub .. | .vfmul .. | .vfma .. | .vfnma .. | .vfms ..
  | .vfdiv .. | .vfsqrt .. | .vfrsqrt .. | .vfexp2 .. | .vflog2 .. | .vfexp .. | .vfmin .. | .vfmax .. | .vfsgn ..
  | .vfcls .. | .vfcmp .. | .cp .. | .vbind .. | .vunbind .. => some .V
  | _ => none

/-- The word enters the vector instruction queue (R16). -/
def queued (i : Instr) : Bool := engOf i == some .V || engOf i == some .M || engOf i == some .C

/-- The km field of a V-engine instruction; none where it has no km field, vchor included (R89). -/
def kmOf : Instr → Option (BitVec 3)
  | .vld _ _ k | .vlds _ _ _ k | .vldx _ _ _ k | .vldxo _ _ _ k | .vldff _ _ _ k | .vst _ _ k | .vsts _ _ _ k
  | .vstx _ _ _ k | .vstxo _ _ _ k | .vamoAdd _ _ _ k | .vamoAnd _ _ _ k | .vamoOr _ _ _ k | .vamoXor _ _ _ k
  | .vamoMin _ _ _ k | .vamoMax _ _ _ k | .vamoMinn _ _ _ k | .vamoMaxn _ _ _ k | .vamoSwp _ _ _ k | .ksbf _ _ k
  | .ksif _ _ k | .ksof _ _ k | .kpop _ _ k | .kfirst _ _ k | .vredsum _ _ _ _ k | .vfredsum _ _ _ _ k
  | .vredmin _ _ _ _ k | .vredmax _ _ _ _ k | .vfredmin _ _ _ _ k | .vfredmax _ _ _ _ k | .vargmax _ _ _ _ k
  | .vargmin _ _ _ _ k | .vgsum _ _ _ k | .vfgsum _ _ _ k | .vscan _ _ _ _ k | .vfscan _ _ _ _ k | .vcomp _ _ k
  | .vexpand _ _ k | .vslup _ _ _ k | .vsldn _ _ _ k | .vsl1up _ _ _ k | .vsl1dn _ _ _ k | .vgath _ _ _ k
  | .vexit _ _ _ k _ | .vhad _ _ k _ | .vhadC _ k _ | .vcvtq _ _ _ (_, k) | .vcvtqC _ _ (_, k) | .vrand _ _ _ k | .vsend _ _ k | .vwait _ _ _ k _ | .vmv _ _ k
  | .vbcast _ _ k | .vid _ k | .viota _ _ k | .vsel _ _ _ k | .vadd _ _ _ k _ _ | .vsub _ _ _ k _ _ | .vmul _ _ _ k _ _
  | .vmulh _ _ _ k _ _ | .vdiv _ _ _ k _ _ | .vrem _ _ _ k _ _ | .vmin _ _ _ k _ _ | .vmax _ _ _ k _ _
  | .vand _ _ _ k _ _ | .vor _ _ _ k _ _ | .vxor _ _ _ k _ _ | .vsll _ _ _ k _ _ | .vsrl _ _ _ k _ _
  | .vsra _ _ _ k _ _ | .vsadd _ _ _ k _ _ | .vssub _ _ _ k _ _ | .vabsd _ _ _ k _ _ | .vcmp _ _ _ _ k _ _
  | .vcvt _ _ k _ | .vfadd _ _ _ k _ _ | .vfsub _ _ _ k _ _ | .vfmul _ _ _ k _ _ | .vfma _ _ _ k _ _
  | .vfnma _ _ _ k _ _ | .vfms _ _ _ k _ _ | .vfdiv _ _ _ k _ _ | .vfsqrt _ _ k _ | .vfrsqrt _ _ k _ | .vfexp2 _ _ k _
  | .vflog2 _ _ k _ | .vfexp _ _ k _ | .vfmin _ _ _ k _ _ | .vfmax _ _ _ k _ _ | .vfsgn _ _ _ k _ | .vfcls _ _ k _
  | .vfcmp _ _ _ _ k _ _ => some k
  | _ => none

/-- The scalar register that an S-engine instruction writes (R89). -/
def sdOf : Instr → Option (BitVec 5)
  | .add d _ _ | .sub d _ _ | .and d _ _ | .or d _ _ | .xor d _ _ | .sll d _ _ | .srl d _ _ | .sra d _ _ | .slt d _ _
  | .sltn d _ _ | .min d _ _ | .max d _ _ | .minn d _ _ | .maxn d _ _ | .sel d _ _ | .mul d _ _ | .mulh d _ _
  | .mulhn d _ _ | .div d _ _ | .divn d _ _ | .rem d _ _ | .remn d _ _ | .clz d _ | .ctz d _ | .popc d _ | .addi d _ _
  | .andi d _ _ | .ori d _ _ | .xori d _ _ | .slti d _ _ | .slli d _ _ | .srli d _ _ | .srai d _ _ | .bfx d _ _ _
  | .bfi d _ _ _ | .lui d _ | .addpc d _ | .ldb d _ _ | .ldh d _ _ | .ldw d _ _ | .ldd d _ _ | .ldbz d _ _ | .ldhz d _ _
  | .ldwz d _ _ | .amoadd d _ _ _ _ _ | .amoand d _ _ _ _ _ | .amoor d _ _ _ _ _ | .amoxor d _ _ _ _ _
  | .amomin d _ _ _ _ _ | .amomax d _ _ _ _ _ | .amominn d _ _ _ _ _ | .amomaxn d _ _ _ _ _ | .amoswp d _ _ _ _ _
  | .amocas d _ _ _ _ _ | .jal d _ | .jalr d _ _ | .qpop d _ | .qcnt d _ | .sysrd d _ | .setvl d _ | .setcfg d _
  | .setvli d _ | .vclaim d _ _ | .rclaim d _ | .rfree d _ => some d
  | _ => none

/-- The vector register group that a V-engine instruction writes, as its first register (R89, R95). vcvtq also writes a
second group, so it takes no D (dOk). -/
def vdOf : Instr → Option (BitVec 6)
  | .vld d _ _ | .vlds d _ _ _ | .vldx d _ _ _ | .vldxo d _ _ _ | .vldff d _ _ _ | .vldw d _ | .vamoAdd d _ _ _
  | .vamoAnd d _ _ _ | .vamoOr d _ _ _ | .vamoXor d _ _ _ | .vamoMin d _ _ _ | .vamoMax d _ _ _ | .vamoMinn d _ _ _
  | .vamoMaxn d _ _ _ | .vamoSwp d _ _ _ | .vredsum d _ _ _ _ | .vfredsum d _ _ _ _ | .vredmin d _ _ _ _
  | .vredmax d _ _ _ _ | .vfredmin d _ _ _ _ | .vfredmax d _ _ _ _ | .vargmax d _ _ _ _ | .vargmin d _ _ _ _
  | .vgsum d _ _ _ | .vfgsum d _ _ _ | .vscan d _ _ _ _ | .vfscan d _ _ _ _ | .vcomp d _ _ | .vexpand d _ _
  | .vslup d _ _ _ | .vsldn d _ _ _ | .vsl1up d _ _ _ | .vsl1dn d _ _ _ | .vgath d _ _ _ | .vbsll d _ _ | .vbsrl d _ _
  | .vbfsh d _ _ | .vhad d _ _ _ | .vcvtq d _ _ _ | .vcvtqC d _ _ | .vrand d _ _ _ | .vchorSum d _ _ _ | .vchorMin d _ _ _
  | .vchorMax d _ _ _ | .vchorArgmax d _ _ _ | .vchorArgmin d _ _ _ | .vchorAnd d _ _ _ | .vchorOr d _ _ _
  | .vchorXor d _ _ _ | .vmv d _ _ | .vbcast d _ _ | .vins d _ _ | .vid d _ | .viota d _ _ | .vsel d _ _ _
  | .vadd d _ _ _ _ _ | .vsub d _ _ _ _ _ | .vmul d _ _ _ _ _ | .vmulh d _ _ _ _ _ | .vdiv d _ _ _ _ _
  | .vrem d _ _ _ _ _ | .vmin d _ _ _ _ _ | .vmax d _ _ _ _ _ | .vand d _ _ _ _ _ | .vor d _ _ _ _ _
  | .vxor d _ _ _ _ _ | .vsll d _ _ _ _ _ | .vsrl d _ _ _ _ _ | .vsra d _ _ _ _ _ | .vsadd d _ _ _ _ _
  | .vssub d _ _ _ _ _ | .vabsd d _ _ _ _ _ | .vcvt d _ _ _ | .vfadd d _ _ _ _ _ | .vfsub d _ _ _ _ _
  | .vfmul d _ _ _ _ _ | .vfma d _ _ _ _ _ | .vfnma d _ _ _ _ _ | .vfms d _ _ _ _ _ | .vfdiv d _ _ _ _ _
  | .vfsqrt d _ _ _ | .vfrsqrt d _ _ _ | .vfexp2 d _ _ _ | .vflog2 d _ _ _ | .vfexp d _ _ _ | .vfmin d _ _ _ _ _
  | .vfmax d _ _ _ _ _ | .vfsgn d _ _ _ _ | .vfcls d _ _ _ => some d
  | _ => none

/-- The queue register in which a queued instruction reserves an entry (R121). -/
def qOf : Instr → Option (BitVec 2)
  | .kpop q _ _ | .kfirst q _ _ | .vext q _ _ | .vwait _ _ _ _ q | .cpstat q | .bseal q | .oshape q _ | .ounseal q _ _ => some q
  | _ => none

/-- D is legal on the instruction, apart from the conditions of R86 (R89). -/
def dOk (i : Instr) (f : BitVec 19) : Bool :=
  match engOf i with
  | some .S =>
    match sdOf i with
    | some d => decide (featDreg f < 32) && featDreg f != d.toNat
    | none => false
  | some .V =>
    match i with
    | .vcvtq .. | .vcvtqC .. => false
    | _ => (vdOf i).isSome
  | _ => false

/-- The features can be those of a prefix word (R88). -/
def featWordOk (f : BitVec 19) : Bool :=
  decide (featPop f ≤ 12) && decide (featPush f ≤ 12) && (featP f || featMask f == 0) && (featD f || featDreg f == 0)

/-- A prefix with these features may lend them to the successor (R89). -/
def prefixOk (f : BitVec 19) (i : Instr) : Bool :=
  featWordOk f &&
  match engOf i, i with
  | none, _ => false
  | some _, .cp .. => false
  | some e, _ =>
    (!featP f || (e == .V && ((kmOf i).getD 0 == 0))) &&
    (!featD f || dOk i f) &&
    (featPop f == 0 || fifoTo (featPop f) == .S || fifoTo (featPop f) == e) &&
    (featPush f == 0 || fifoFrom (featPush f) == e)

/-- A strip-opening instruction (R27). -/
def opensStrip : Instr → Bool
  | .setvl .. | .setvli .. | .setcfg .. | .vclaim .. => true
  | _ => false

/-- A V-engine store, whose bundle is fixed at its dispatch (R219). -/
def storesV : Instr → Bool
  | .vst .. | .vsts .. | .vstx .. | .vstxo .. | .vstw .. | .kst .. => true
  | _ => false

/-- A word that is illegal while a bundle is open (R219). -/
def bundleIllegal : Instr → Bool
  | .bopen .. | .amoadd .. | .amoand .. | .amoor .. | .amoxor .. | .amomin .. | .amomax .. | .amominn .. | .amomaxn ..
  | .amoswp .. | .amocas .. | .vamoAdd .. | .vamoAnd .. | .vamoOr .. | .vamoXor .. | .vamoMin .. | .vamoMax ..
  | .vamoMinn .. | .vamoMaxn .. | .vamoSwp .. | .cpgo .. | .zst .. | .lmark .. => true
  | _ => false

/-- A scalar load, store or atomic (R113, R115). -/
def scalarMem : Instr → Bool
  | .ldb .. | .ldh .. | .ldw .. | .ldd .. | .ldbz .. | .ldhz .. | .ldwz .. | .stb .. | .sth .. | .stw .. | .std ..
  | .amoadd .. | .amoand .. | .amoor .. | .amoxor .. | .amomin .. | .amomax .. | .amominn .. | .amomaxn .. | .amoswp ..
  | .amocas .. => true
  | _ => false

/-- A V-engine memory form: loads, stores, vamo, kld and kst. -/
def vectorMem : Instr → Bool
  | .vld .. | .vlds .. | .vldx .. | .vldxo .. | .vldff .. | .vldw .. | .vamoAdd .. | .vamoAnd .. | .vamoOr .. | .vamoXor ..
  | .vamoMin .. | .vamoMax .. | .vamoMinn .. | .vamoMaxn .. | .vamoSwp .. | .kld .. => true
  | i => storesV i

/-- The instruction accesses memory with older accesses that a fence waits for, and loads among them (R123). -/
def vectorLoads : Instr → Bool
  | .vst .. | .vsts .. | .vstx .. | .vstxo .. | .vstw .. | .kst .. => false
  | .vwait .. => true
  | i => vectorMem i

/-- The kinds of instruction that R293 lists as replay barrier points, apart from those that write a register of the
body and from prefixes that move a token. -/
def replayBarrier (i : Instr) : Bool :=
  scalarMem i || vectorMem i || opensStrip i ||
  match i with
  | .zld .. | .zst .. | .cpdim .. | .cpgo .. | .cpstat .. | .vchorSum .. | .vchorMin .. | .vchorMax .. | .vchorArgmax ..
  | .vchorArgmin .. | .vchorAnd .. | .vchorOr .. | .vchorXor .. | .vsend .. | .launch .. | .fenceAcq .. | .fenceRel ..
  | .fenceFull .. | .fenceSv | .fenceAlias .. | .bar .. | .vwait .. | .qpop .. | .syswr .. | .lmark .. | .bopen .. | .exit
  | .syscall .. | .brk .. | .rclaim .. | .oshape .. | .vbind .. => true
  | _ => false

/-- A branch or a jump (R118, R119). -/
def jumps : Instr → Bool
  | .beq .. | .bne .. | .blt .. | .bge .. | .bltn .. | .bgen .. | .jal .. | .jalr .. => true
  | _ => false

end Sys2Proof.Machine
end

