-- ==== Sys2Proof/Machine/Fp.lean ====
section
/-!
DEFINITION. Number formats and arithmetic (R46-R58, R62, R72, R74-R76): exact values, one rounding with its flags, the
exact sum, product, quotient and roots, the transcendental functions to 320 bits, and the Philox generator.
-/
namespace Sys2Proof.Machine

/-- The bits of FLAGS (R56). -/
def fNX : Nat := 1
def fUF : Nat := 2
def fOF : Nat := 4
def fDZ : Nat := 8
def fNV : Nat := 16
def fSAT : Nat := 32

/-- An exact value: a NaN, signalling or quiet, an infinity, or (-1)^neg times m times 2^e (R48, R50). -/
inductive FVal where
  | nan (sig : Bool)
  | inf (neg : Bool)
  | fin (neg : Bool) (m : Nat) (e : Int)
deriving DecidableEq, Repr

/-- A floating-point format (R48): total and exponent bits, bias, significand bits, and whether it has infinities. -/
structure FFmt where
  bits : Nat
  eb : Nat
  bias : Nat
  sb : Nat
  ieee : Bool
deriving DecidableEq, Repr

/-- The floating-point format of a code (R48). -/
def fmtOf (c : Nat) : FFmt :=
  match c with
  | 0x10 => { bits := 64, eb := 11, bias := 1023, sb := 52, ieee := true }
  | 0x12 => { bits := 16, eb := 8, bias := 127, sb := 7, ieee := true }
  | 0x13 => { bits := 16, eb := 5, bias := 15, sb := 10, ieee := true }
  | 0x14 => { bits := 8, eb := 4, bias := 7, sb := 3, ieee := false }
  | 0x15 => { bits := 8, eb := 5, bias := 15, sb := 2, ieee := true }
  | _ => { bits := 32, eb := 8, bias := 127, sb := 23, ieee := true }

/-- The kinds of format codes (R52): integer, signed integer, and floating-point with scalar elements. -/
def isIntFmt (c : Nat) : Bool := decide (1 ≤ c) && decide (c ≤ 8)
def isSignedFmt (c : Nat) : Bool := isIntFmt c && c % 2 == 1
def isFpFmt (c : Nat) : Bool := decide (0x10 ≤ c) && decide (c ≤ 0x15)

/-- The element width of a format code, in bits; 0 where it has none. -/
def fmtBits (c : Nat) : Nat :=
  if isIntFmt c then 8 * 2 ^ ((c - 1) / 2) else if isFpFmt c then (fmtOf c).bits else if c = 0x18 then 64 else if c = 0x17 then 8 else 0

/-- The value of a floating-point pattern (R48). -/
def decF (c x : Nat) : FVal :=
  let f := fmtOf c
  let neg := bitN x (f.bits - 1)
  let ex := bitsN x f.sb f.eb
  let fr := bitsN x 0 f.sb
  if f.ieee && ex == 2 ^ f.eb - 1 then (if fr = 0 then .inf neg else .nan (!bitN fr (f.sb - 1)))
  else if !f.ieee && ex == 2 ^ f.eb - 1 && fr == 2 ^ f.sb - 1 then .nan false
  else if ex = 0 then .fin neg fr (1 - (f.bias : Int) - f.sb)
  else .fin neg (2 ^ f.sb + fr) ((ex : Int) - f.bias - f.sb)

/-- An integer as an exact value. -/
def ofInt (x : Int) : FVal := .fin (decide (x < 0)) x.natAbs 0

/-- An element's integer in an integer format, by its signedness (R46). -/
def intVal (c x : Nat) : Int := if isSignedFmt c then signed (fmtBits c) x else ((x % 2 ^ fmtBits c : Nat) : Int)

/-- val(F, v) (R148). -/
def valOf (c x : Nat) : FVal := if isIntFmt c then ofInt (intVal c x) else decF c x

/-- The patterns of the special values of a format (R48), and its largest finite. -/
def infBits (c : Nat) (neg : Bool) : Nat :=
  let f := fmtOf c
  if f.ieee then boolN neg * 2 ^ (f.bits - 1) + (2 ^ f.eb - 1) * 2 ^ f.sb else 0x7F
def nanBits (c : Nat) : Nat :=
  let f := fmtOf c
  if f.ieee then (2 ^ f.eb - 1) * 2 ^ f.sb + 2 ^ (f.sb - 1) else 0x7F
def maxBits (c : Nat) (neg : Bool) : Nat :=
  let f := fmtOf c
  boolN neg * 2 ^ (f.bits - 1) + (if f.ieee then (2 ^ f.eb - 1) * 2 ^ f.sb - 1 else 0x7E)

/-- A rounding goes away from zero (R54): the mode, the sign, whether the lower neighbour is odd, and the remainder
doubled and compared with the unit. `twice` is exact but for `sticky`. -/
def roundsUp (mode : Nat) (neg odd : Bool) (twice unit : Nat) (sticky : Bool) : Bool :=
  let inexact := decide (0 < twice) || sticky
  let above := decide (unit < twice) || (twice == unit && sticky)
  let half := twice == unit && !sticky
  match mode with
  | 0 => above || (half && odd)
  | 2 => inexact && neg
  | 3 => inexact && !neg
  | 4 => above || half
  | 5 => inexact && !odd
  | _ => false

/-- m / 2^k rounded to an integer, and whether it is inexact. -/
def roundShift (mode : Nat) (neg : Bool) (m k : Nat) (sticky : Bool) : Nat × Bool :=
  let q := m / 2 ^ k
  let r := m % 2 ^ k
  (if roundsUp mode neg (q % 2 == 1) (2 * r) (2 ^ k) sticky then q + 1 else q, r != 0 || sticky)

/-- A positive value m * 2^e rounded to sb + 1 significant bits, or to a multiple of 2^qmin where that is coarser:
the multiple, its unit's exponent, and whether it is inexact. -/
def roundQ (mode : Nat) (neg : Bool) (sb : Nat) (qmin : Option Int) (m : Nat) (e : Int) (sticky : Bool) : Nat × Int × Bool :=
  let top := e + Nat.log2 m - sb
  let qe := match qmin with
    | some q => max top q
    | none => top
  if qe ≤ e then (m * 2 ^ (e - qe).toNat, qe, sticky)
  else
    let r := roundShift mode neg m (qe - e).toNat sticky
    (r.1, qe, r.2)

/-- The pattern of a rounded finite value within range. -/
def packF (f : FFmt) (neg : Bool) (q : Nat) (qe : Int) : Nat :=
  let s := boolN neg * 2 ^ (f.bits - 1)
  if q = 0 then s
  else
    let l := Nat.log2 q
    let top := qe + l
    if top < 1 - (f.bias : Int) then s + q
    else
      let frac := if l ≤ f.sb then q * 2 ^ (f.sb - l) else q / 2 ^ (l - f.sb)
      s + (top + f.bias).toNat * 2 ^ f.sb + (frac - 2 ^ f.sb)

/-- A rounded value lies beyond the largest finite. -/
def overF (f : FFmt) (q : Nat) (qe : Int) : Bool :=
  let l := Nat.log2 q
  let top := qe + l
  let emax : Int := if f.ieee then 2 ^ f.eb - 2 - (f.bias : Int) else 2 ^ f.eb - 1 - (f.bias : Int)
  q != 0 && (decide (emax < top) ||
    (!f.ieee && top == emax && (if l ≤ f.sb then q * 2 ^ (f.sb - l) else q / 2 ^ (l - f.sb)) == 2 ^ (f.sb + 1) - 1))

/-- One rounding of a finite value into a format, with unbounded exponent first (R54): the multiple and its unit, and NX
and UF (tininess after rounding). -/
def roundFin (f : FFmt) (mode : Nat) (neg : Bool) (m : Nat) (e : Int) (sticky : Bool) : Nat × Int × Nat :=
  if m = 0 then (0, 0, 0)
  else
    let emin := 1 - (f.bias : Int)
    let r := roundQ mode neg f.sb (some (emin - f.sb)) m e sticky
    let u := roundQ mode neg f.sb none m e sticky
    let tiny := decide (u.2.1 + Nat.log2 u.1 < emin)
    (r.1, r.2.1, if r.2.2 then (if tiny then fNX + fUF else fNX) else 0)

/-- The pattern that overflow gives in arithmetic (R54). -/
def overflowBits (c mode : Nat) (neg : Bool) : Nat :=
  match mode with
  | 1 | 5 => maxBits c neg
  | 2 => if neg then infBits c neg else maxBits c neg
  | 3 => if neg then maxBits c neg else infBits c neg
  | _ => infBits c neg

/-- An arithmetic result rounded once into a format: pattern and flags (R54-R56). -/
def arithF (c mode : Nat) (neg : Bool) (m : Nat) (e : Int) (sticky : Bool) : Nat × Nat :=
  let f := fmtOf c
  let r := roundFin f mode neg m e sticky
  if overF f r.1 r.2.1 then (overflowBits c mode neg, fOF + fNX) else (packF f neg r.1 r.2.1, r.2.2)

/-- An exact arithmetic result as a pattern, with its flags (R50, R54). -/
def roundV (c mode : Nat) (v : FVal) : Nat × Nat :=
  match v with
  | .nan _ => (nanBits c, 0)
  | .inf n => (infBits c n, 0)
  | .fin n m e => arithF c mode n m e false

/-- A conversion into a floating-point format (R58). `int`: the source is an integer. -/
def convF (c mode : Nat) (int : Bool) (v : FVal) : Nat × Nat :=
  let f := fmtOf c
  match v with
  | .nan s => (nanBits c, if s then fNV else 0)
  | .inf n => if f.ieee then (infBits c n, 0) else (maxBits c n, fSAT)
  | .fin n m e =>
    let r := roundFin f mode n m e false
    if overF f r.1 r.2.1 then (maxBits c n, if int then fSAT else fSAT + fNX) else (packF f n r.1 r.2.1, r.2.2)

/-- The range of an integer format (R46). -/
def intMin (c : Nat) : Int := if isSignedFmt c then -((2 ^ (fmtBits c - 1) : Nat) : Int) else 0
def intMax (c : Nat) : Int := if isSignedFmt c then ((2 ^ (fmtBits c - 1) : Nat) : Int) - 1 else ((2 ^ fmtBits c : Nat) : Int) - 1

/-- An exact integer clamped into an integer format: pattern, and whether it was clamped. -/
def clampI (c : Nat) (x : Int) : Nat × Bool :=
  if x < intMin c then (patternI (fmtBits c) (intMin c), true)
  else if intMax c < x then (patternI (fmtBits c) (intMax c), true)
  else (patternI (fmtBits c) x, false)

/-- A conversion into an integer format (R58). -/
def convI (c mode : Nat) (int : Bool) (v : FVal) : Nat × Nat :=
  match v with
  | .nan _ => (0, fNV + fSAT)
  | .inf n => (patternI (fmtBits c) (if n then intMin c else intMax c), fSAT)
  | .fin n m e =>
    let r := if 0 ≤ e then (m * 2 ^ e.toNat, false) else roundShift mode n m (-e).toNat false
    let x : Int := if n then -(r.1 : Int) else (r.1 : Int)
    let k := clampI c x
    (k.1, if k.2 then (if int then fSAT else fSAT + fNX) else if r.2 then fNX else 0)

/-- A conversion between formats of R52 with scalar elements (R58): pattern and flags. -/
def convert (src dst mode x : Nat) : Nat × Nat :=
  let v := valOf src x
  if isIntFmt dst then convI dst mode (isIntFmt src) v else convF dst mode (isIntFmt src) v

/-- NV for a signalling operand (R50). -/
def sigFlag : FVal → Nat
  | .nan true => fNV
  | _ => 0

def FVal.isNan : FVal → Bool
  | .nan _ => true
  | _ => false

def FVal.neg : FVal → FVal
  | .nan s => .nan s
  | .inf n => .inf (!n)
  | .fin n m e => .fin (!n) m e

/-- The exact integer of a finite value at exponent e0, which is at most its own. -/
def scaled (n : Bool) (m : Nat) (e e0 : Int) : Int := let x : Int := ((m * 2 ^ (e - e0).toNat : Nat) : Int); if n then -x else x

/-- The exact sum, with the sign of an exact zero by the mode (R51). -/
def addV (mode : Nat) (a b : FVal) : FVal × Nat :=
  match a, b with
  | .nan _, _ | _, .nan _ => (.nan false, sigFlag a ||| sigFlag b)
  | .inf n, .inf k => if n = k then (.inf n, 0) else (.nan false, fNV)
  | .inf n, .fin .. | .fin .., .inf n => (.inf n, 0)
  | .fin n m e, .fin n' m' e' =>
    let e0 := min e e'
    let x := scaled n m e e0 + scaled n' m' e' e0
    (if x = 0 then .fin (if n = n' then n else mode == 2) 0 0 else .fin (decide (x < 0)) x.natAbs e0, 0)

/-- The exact product (R50, R55). -/
def mulV (a b : FVal) : FVal × Nat :=
  match a, b with
  | .nan _, _ | _, .nan _ => (.nan false, sigFlag a ||| sigFlag b)
  | .inf n, .inf k => (.inf (n != k), 0)
  | .inf n, .fin k m _ | .fin k m _, .inf n => if m = 0 then (.nan false, fNV) else (.inf (n != k), 0)
  | .fin n m e, .fin n' m' e' => (.fin (n != n') (m * m') (e + e'), 0)

/-- The exact sum of several values, each with the flags it brought (R70, R194): infinities of both signs among them make it NaN and
set NV, whatever else stands there; else any NaN makes it NaN. -/
def sumV (mode : Nat) (l : List (FVal × Nat)) : FVal × Nat :=
  let fl := l.foldl (fun f x => f ||| x.2) 0
  let inf := fun (n : Bool) => l.any fun x => x.1 == .inf n
  if inf true && inf false then (.nan false, fl ||| fNV)
  else if l.any (fun x => x.1.isNan) then (.nan false, fl)
  else match l with
    | [] => (.fin false 0 0, fl)
    | x :: r => (r.foldl (fun a y => (addV mode a y.1).1) x.1, fl)

/-- One rounding of an operation's exact result, its flags joined. -/
def rounded (c mode : Nat) (r : FVal × Nat) : Nat × Nat := let x := roundV c mode r.1; (x.1, r.2 ||| x.2)

def addF (c mode : Nat) (a b : FVal) : Nat × Nat := rounded c mode (addV mode a b)
def mulF (c mode : Nat) (a b : FVal) : Nat × Nat := rounded c mode (mulV a b)

/-- a times b plus d, rounded once (R55). -/
def fmaF (c mode : Nat) (a b d : FVal) : Nat × Nat :=
  let p := mulV a b
  let r := addV mode p.1 d
  rounded c mode (r.1, p.2 ||| r.2)

/-- The quotient rounded once (R74). -/
def divF (c mode : Nat) (a b : FVal) : Nat × Nat :=
  match a, b with
  | .nan _, _ | _, .nan _ => (nanBits c, sigFlag a ||| sigFlag b)
  | .inf _, .inf _ => (nanBits c, fNV)
  | .inf n, .fin k .. => (infBits c (n != k), 0)
  | .fin n .., .inf k => arithF c mode (n != k) 0 0 false
  | .fin n m e, .fin n' m' e' =>
    if m' = 0 then (if m = 0 then (nanBits c, fNV) else (infBits c (n != n'), fDZ))
    else
      let k := 128 + Nat.log2 m'
      let x := m * 2 ^ k
      arithF c mode (n != n') (x / m') (e - e' - k) (x % m' != 0)

/-- The integer square root by bits, from bit n down. -/
def isqrt (x : Nat) : Nat → Nat → Nat
  | 0, r => r
  | n + 1, r =>
    let c := r + 2 ^ n
    isqrt x n (if c * c ≤ x then c else r)

/-- The floor of a square root. -/
def sqrtN (x : Nat) : Nat := isqrt x (Nat.log2 x / 2 + 1) 0

/-- The square root rounded once (R74). -/
def sqrtF (c mode : Nat) (a : FVal) : Nat × Nat :=
  match a with
  | .nan _ => (nanBits c, sigFlag a)
  | .inf n => if n then (nanBits c, fNV) else (infBits c false, 0)
  | .fin n m e =>
    if m = 0 then arithF c mode n 0 0 false
    else if n then (nanBits c, fNV)
    else
      let k : Nat := if e % 2 = 0 then 256 else 257
      let x := m * 2 ^ k
      let r := sqrtN x
      arithF c mode false r ((e - k) / 2) (r * r != x)

/-- 1 / sqrt, rounded to nearest even (R75). -/
def rsqrtF (c : Nat) (a : FVal) : Nat × Nat :=
  match a with
  | .nan _ => (nanBits c, sigFlag a)
  | .inf n => if n then (nanBits c, fNV) else arithF c 0 false 0 0 false
  | .fin n m e =>
    if m = 0 then (infBits c n, fDZ)
    else if n then (nanBits c, fNV)
    else
      let k : Nat := if e % 2 = 0 then 512 else 513
      let x := 2 ^ k / m
      let r := sqrtN x
      arithF c 0 false r ((-e - k) / 2) (r * r * m != 2 ^ k)

/-- The fixed-point precision of the transcendental functions. -/
def fixP : Nat := 320

/-- The sum over k < n of z^(2k+1) / (2k+1), in fixed point: term is z^(2i+1). -/
def atanhSum (zz : Nat) : Nat → Nat → Nat → Nat
  | 0, _, _ => 0
  | n + 1, i, term => term / (2 * i + 1) + atanhSum zz n (i + 1) (term * zz / 2 ^ fixP)

/-- The natural logarithm of a / b for a between b and 2b, in fixed point. -/
def lnRatio (a b : Nat) : Nat :=
  let z := (a - b) * 2 ^ fixP / (a + b)
  2 * atanhSum (z * z / 2 ^ fixP) 110 0 z

/-- The natural logarithm of 2, in fixed point. -/
def ln2 : Nat := lnRatio 2 1

/-- The sum over k < n of y^k / k!, in fixed point: term is y^i / i!. -/
def expSum (y : Nat) : Nat → Nat → Nat → Nat
  | 0, _, _ => 0
  | n + 1, i, term => term + expSum y n (i + 1) (term * y / 2 ^ fixP / (i + 1))

/-- 2 to the power y, rounded to nearest even, for a finite y given as an exact value (R75). -/
def pow2F (c : Nat) (n : Bool) (m : Nat) (e : Int) : Nat × Nat :=
  if m = 0 then arithF c 0 false 1 0 false
  else if 12 ≤ e + Nat.log2 m then arithF c 0 false 1 (if n then -5000 else 5000) false
  else
    let y := scaled n m (e + fixP) 0
    let i := y / ((2 ^ fixP : Nat) : Int)
    let f := (y % ((2 ^ fixP : Nat) : Int)).toNat
    if f = 0 then arithF c 0 false 1 i false
    else arithF c 0 false (expSum (f * ln2 / 2 ^ fixP) 110 0 (2 ^ fixP)) (i - fixP) true

/-- vfexp2 (R75). -/
def exp2F (c : Nat) (a : FVal) : Nat × Nat :=
  match a with
  | .nan _ => (nanBits c, sigFlag a)
  | .inf n => if n then arithF c 0 false 0 0 false else (infBits c false, 0)
  | .fin n m e => pow2F c n m e

/-- log2 e rounded towards zero to 64 significant bits, times 2^63 (R75). -/
def log2e : Nat := 0xB8AA3B295C17F0BB

/-- vfexp (R75). -/
def expF (c : Nat) (a : FVal) : Nat × Nat :=
  match a with
  | .nan _ => (nanBits c, sigFlag a)
  | .inf n => if n then arithF c 0 false 0 0 false else (infBits c false, 0)
  | .fin n m e => pow2F c n (m * log2e) (e - 63)

/-- vflog2 (R75). -/
def log2F (c : Nat) (a : FVal) : Nat × Nat :=
  match a with
  | .nan _ => (nanBits c, sigFlag a)
  | .inf n => if n then (nanBits c, fNV) else (infBits c false, 0)
  | .fin n m e =>
    if m = 0 then (infBits c true, fDZ)
    else if n then (nanBits c, fNV)
    else
      let l := Nat.log2 m
      let top := e + l
      if m = 2 ^ l then arithF c 0 (decide (top < 0)) top.natAbs 0 false
      else
        let t := lnRatio m (2 ^ l) * 2 ^ fixP / ln2
        let x := top * ((2 ^ fixP : Nat) : Int) + t
        if 0 ≤ x then arithF c 0 false x.toNat (-fixP) true else arithF c 0 true ((-x).toNat - 1) (-fixP) true

/-- a < b among values that are no NaN, with -0 below +0 when `zeros` (R72, R73). -/
def ltV (zeros : Bool) (a b : FVal) : Bool :=
  match a, b with
  | .nan _, _ | _, .nan _ => false
  | .inf n, .inf k => n && !k
  | .inf n, .fin .. => n
  | .fin .., .inf k => !k
  | .fin n m e, .fin n' m' e' =>
    let e0 := min e e'
    let x := scaled n m e e0
    let y := scaled n' m' e' e0
    decide (x < y) || (zeros && m == 0 && m' == 0 && n && !n')

/-- Equality of values that are no NaN. -/
def eqV (a b : FVal) : Bool :=
  match a, b with
  | .nan _, _ | _, .nan _ => false
  | _, _ => !ltV false a b && !ltV false b a

/-- The operand that a minimum or maximum takes, where neither or one is a NaN: true for the first (R72). -/
def firstWins (max_ : Bool) (a b : FVal) : Bool :=
  if a.isNan then false else if b.isNan then true else if max_ then !ltV true a b else !ltV true b a

/-- vfmin and vfmax on operands of formats fa and fb into format c (R72). -/
def minmaxF (max_ : Bool) (fa fb c mode x y : Nat) : Nat × Nat :=
  let a := decF fa x
  let b := decF fb y
  let sig := sigFlag a ||| sigFlag b
  if a.isNan && b.isNan then (nanBits c, sig)
  else
    let first := firstWins max_ a b
    let f := if first then fa else fb
    if f = c then (if first then x else y, sig)
    else let r := roundV c mode (if first then a else b); (r.1, sig ||| r.2)

/-- One round of Philox4x32 (R76). -/
def philoxRound (c : Nat × Nat × Nat × Nat) (k0 k1 : Nat) : Nat × Nat × Nat × Nat :=
  let p0 := 0xD2511F53 * c.1
  let p1 := 0xCD9E8D57 * c.2.2.1
  ((p1 / 2 ^ 32) ^^^ c.2.1 ^^^ k0, p1 % 2 ^ 32, (p0 / 2 ^ 32) ^^^ c.2.2.2 ^^^ k1, p0 % 2 ^ 32)

/-- n rounds, the key advanced before each but the first (R76). -/
def philox : Nat → Nat × Nat × Nat × Nat → Nat → Nat → Nat × Nat × Nat × Nat
  | 0, c, _, _ => c
  | n + 1, c, k0, k1 => philox n (philoxRound c k0 k1) ((k0 + 0x9E3779B9) % 2 ^ 32) ((k1 + 0xBB67AE85) % 2 ^ 32)

/-- The word that vrand draws (R77). -/
def draw (key ctr c2 : Nat) : Nat :=
  (philox 10 (ctr % 2 ^ 32, ctr / 2 ^ 32 % 2 ^ 32, c2 % 2 ^ 32, 0) (key % 2 ^ 32) (key / 2 ^ 32 % 2 ^ 32)).1

end Sys2Proof.Machine
end

