-- ==== Sys2Proof/Machine/Group.lean ====
section
/-!
DEFINITION. Format descriptors (R52), chorus group descriptors (R202), scope instances (R35) and power classes (R225).
-/
namespace Sys2Proof.Machine

/-- The fields of a format descriptor (R52). -/
def dAfmt (d : Word) : Nat := fieldW d 0 8
def dBfmt (d : Word) : Nat := fieldW d 8 8
def dDfmt (d : Word) : Nat := fieldW d 16 8
def dRnd (d : Word) : Nat := fieldW d 24 3
def dSaten (d : Word) : Bool := bitN d.toNat 27
def dFmask (d : Word) : Nat := fieldW d 28 3

/-- The scope instance that holds a core (R35): its core, quad, die or package. -/
def instOf (pkg core scope : Nat) : Nat :=
  if scope = 1 then core else if scope = 2 then core / 4 else if scope = 3 then core / 128 else pkg

/-- The slots of a scope instance (R36); for POD those of every package of the allotment. -/
def slotsOf (scope pkgs : Nat) : Nat :=
  if scope = 1 then 2 else if scope = 2 then 8 else if scope = 3 then 256 else if scope = 4 then 2048 else 2048 * pkgs

/-- The smallest scope that holds two cores of one package (R206). -/
def spanOf (a b : Nat) : Nat := if a = b then 1 else if a / 4 = b / 4 then 2 else if a / 128 = b / 128 then 3 else 4

/-- A chorus group descriptor (R202): whether it is strict, and its members by rank; none where it is invalid. -/
def State.chorusGroup (s : State) (p : Nat) (slot : Word) : Option (Bool × List Nat) :=
  match s.partAt p with
  | none => none
  | some x =>
    if 64 ≤ slot.toNat ∨ ¬ x.chorusWritten.contains slot.toNat then none
    else
      let at_ := fun o n => leNat (x.chorusBytes (slot.toNat * 4096 + o) n)
      let count := at_ 0 2
      let ms := (upTo count).map fun r => at_ (8 + 2 * r) 2
      if count = 0 ∨ 1024 < count ∨ 2 ≤ at_ 2 1 ∨ at_ 3 5 ≠ 0 ∨ ms.any (fun m => decide (1024 ≤ m)) then none
      else some (at_ 2 1 == 1, ms)

/-- The scope that a chorus group spans from a core (R206); an invalid slot spans CORE. -/
def State.chorusSpan (s : State) (p core : Nat) (slot : Word) : Nat :=
  match s.chorusGroup p slot with
  | some (_, ms) => ms.foldl (fun a m => max a (spanOf core m)) 1
  | none => 1

/-- A format descriptor names FP64 in some field (R225). -/
def namesFp64 (d : Word) : Bool := dAfmt d == 0x10 || dBfmt d == 0x10 || dDfmt d == 0x10

/-- The V-engine instructions whose FP64 forms are of class V-FP64 (R225). -/
def fp64Class : Instr → Bool
  | .vfadd .. | .vfsub .. | .vfmul .. | .vfma .. | .vfnma .. | .vfms .. | .vfdiv .. | .vfsqrt .. | .vfrsqrt .. | .vfexp2 ..
  | .vflog2 .. | .vfexp .. | .vfmin .. | .vfmax .. | .vfsgn .. | .vfcls .. | .vfcmp .. | .vcvt .. | .vfredsum ..
  | .vfredmin .. | .vfredmax .. | .vargmax .. | .vargmin .. | .vfgsum .. | .vfscan .. | .vexit .. | .cp .. => true
  | _ => false

/-- The power class of an instruction with its captured operands, in a strip of n octets (R225, R226). -/
def State.heavyClass (s : State) (t : Thread) (i : Instr) (ops : List Word) : Option Nat :=
  let d := ops.getLast?.getD 0
  match i with
  | .vopa .. | .vops .. => some 0
  | .vchorSum .. | .vchorMin .. | .vchorMax .. | .vchorArgmax .. | .vchorArgmin .. | .vchorAnd .. | .vchorOr ..
  | .vchorXor .. => if 3 ≤ s.chorusSpan t.part t.core (ops.getD 0 0) then some 2 else none
  | i => if fp64Class i && onesN 8 t.octets.toNat == 8 && namesFp64 d then some 1 else none

/-- The scalars that a half of a pair word captures (R94). -/
def halfScalars (t : Thread) (h : BitVec 12) : List Word :=
  if halfOp h != 0 && halfKind h == 1 then [t.reg (BitVec.ofNat 5 (halfOpnd h).toNat)] else []

/-- The format descriptor in slot f (R52). -/
def Thread.desc (t : Thread) (f : BitVec 3) : Word := t.reg (BitVec.ofNat 5 (24 + f.toNat))

/-- The x = 1 scalar, if the word names one (R146), and the descriptor. -/
def Thread.v3ops (t : Thread) (b : BitVec 6) (f : BitVec 3) (x : Bool) : List Word :=
  (if x then [t.reg (BitVec.ofNat 5 b.toNat)] else []) ++ [t.desc f]

/-- The scalars an instruction captures at dispatch, in the order its rule names them, the format descriptor last (R16,
R328). -/
def opsOf (t : Thread) : Instr → List Word
  | .vld _ a _ | .vldx _ a _ _ | .vldxo _ a _ _ | .vldff _ a _ _ | .vldw _ a | .vst _ a _ | .vstx _ a _ _ | .vstxo _ a _ _
  | .vstw _ a | .vamoAdd _ a _ _ | .vamoAnd _ a _ _ | .vamoOr _ a _ _ | .vamoXor _ a _ _ | .vamoMin _ a _ _
  | .vamoMax _ a _ _ | .vamoMinn _ a _ _ | .vamoMaxn _ a _ _ | .vamoSwp _ a _ _ | .kld _ a | .kst _ a | .vslup _ a _ _
  | .vsldn _ a _ _ | .vsl1up _ a _ _ | .vsl1dn _ a _ _ | .vbsll _ a _ | .vbsrl _ a _ | .vbfsh _ a _ | .oshape _ a
  | .oseal a | .orel a | .vbind _ a => [t.reg a]
  | .vlds _ a b _ | .vsts _ a b _ | .zld _ a b | .zst _ a b | .cpgo a b _ | .ounseal _ a b | .vins _ a b => [t.reg a, t.reg b]
  | .vredsum _ f _ _ _ | .vfredsum _ f _ _ _ | .vredmin _ f _ _ _ | .vredmax _ f _ _ _ | .vfredmin _ f _ _ _
  | .vfredmax _ f _ _ _ | .vargmax _ f _ _ _ | .vargmin _ f _ _ _ | .vgsum _ f _ _ | .vfgsum _ f _ _
  | .vscan _ f _ _ _ | .vfscan _ f _ _ _ | .vexit _ _ _ _ f | .vopa _ _ _ f | .vops _ _ _ f | .vhad _ _ _ f
  | .vhadC _ _ f | .vcvtq _ _ _ (f, _) | .vcvtqC _ _ (f, _) | .vcvt _ _ _ f | .vfsqrt _ _ _ f | .vfrsqrt _ _ _ f
  | .vfexp2 _ _ _ f | .vflog2 _ _ _ f | .vfexp _ _ _ f | .vfsgn _ _ _ _ f | .vfcls _ _ _ f => [t.desc f]
  | .zrdv _ _ b f | .zwrv _ _ b f => [t.reg b, t.desc f]
  | .vrand _ a b _ => [t.reg a, t.reg b, t.reg (b + 1)]
  | .vwait _ s _ _ _ => [t.reg s]
  | .vchorSum _ a b f | .vchorMin _ a b f | .vchorMax _ a b f | .vchorArgmax _ a b f | .vchorArgmin _ a b f
  | .vchorAnd _ a b f | .vchorOr _ a b f | .vchorXor _ a b f => [t.reg a, t.reg b, t.desc f]
  | .cpdim c a b _ => [t.reg c, t.reg a, t.reg b]
  | .lmark c _ _ _ _ => [t.reg c]
  | .vbcast _ b _ | .vext _ _ b => [t.reg b]
  | .vadd _ _ b _ f x | .vsub _ _ b _ f x | .vmul _ _ b _ f x | .vmulh _ _ b _ f x | .vdiv _ _ b _ f x
  | .vrem _ _ b _ f x | .vmin _ _ b _ f x | .vmax _ _ b _ f x | .vand _ _ b _ f x | .vor _ _ b _ f x
  | .vxor _ _ b _ f x | .vsll _ _ b _ f x | .vsrl _ _ b _ f x | .vsra _ _ b _ f x | .vsadd _ _ b _ f x
  | .vssub _ _ b _ f x | .vabsd _ _ b _ f x | .vfadd _ _ b _ f x | .vfsub _ _ b _ f x | .vfmul _ _ b _ f x
  | .vfma _ _ b _ f x | .vfnma _ _ b _ f x | .vfms _ _ b _ f x | .vfdiv _ _ b _ f x | .vfmin _ _ b _ f x
  | .vfmax _ _ b _ f x | .vcmp _ _ _ b _ f x | .vfcmp _ _ _ b _ f x => t.v3ops b f x
  | .cp g h => halfScalars t g ++ halfScalars t h ++ [t.reg 24]
  | _ => []

/-- The groups an instruction writes, as first register and registers, for an LMUL, a SEW, the descriptor, the anchor and the
features: its destination, the second one of vcvtq, the anchor of a pair word, a released group, and DREG (R89, R145). -/
def writeGroups (lm sew : Nat) (desc : Word) (anchor : Option (BitVec 6)) (feat : BitVec 19) (i : Instr) : List (Nat × Nat) :=
  let n := match i with
    | .vcvt .. | .vredsum .. | .vfredsum .. | .vgsum .. | .vfgsum .. | .vscan .. | .vfscan .. | .vchorSum .. | .vhad .. | .vadd ..
    | .vsub .. | .vmul .. | .vfadd .. | .vfsub .. | .vfmul .. | .vfma .. | .vfnma .. | .vfms .. =>
      max 1 (lm * fmtBits (dDfmt desc) / sew)
    | _ => lm
  let d := match i with
    | .vcvtq d _ b _ | .vcvtqC d b _ => [(d.toNat, max 1 (4 * lm / sew)), (b.toNat, 1)]
    | .zrdv _ d _ _ => [(d.toNat, lm)]
    | .vrelease d => [(d.toNat, lm)]
    | .cp .. => anchor.toList.map fun v => (v.toNat, lm)
    | i => (vdOf i).toList.map fun v => (v.toNat, n)
  d ++ if featD feat ∧ engOf i = some .V then [(featDreg feat, n)] else []

end Sys2Proof.Machine
end

