-- ==== Sys2Proof/Machine/LoopForm.lean ====
section
/-!
DEFINITION. The static conditions of capture (R289, R290), judged over the body that iteration 0 dispatched and executed.
-/
namespace Sys2Proof.Machine

/-- How many instructions a word counts as (R93). -/
def countOf : Instr → Nat
  | .cp .. => 2
  | _ => 1

/-- The registers of a group of g registers. -/
def groupRegs (v : BitVec 6) (g : Nat) : List Nat := (upTo g).map fun i => v.toNat + i

/-- INT or NAT of 8 to 32 bits (R290), and the width of such a format or of FP32 and BF16. -/
def loopInt (f : Nat) : Bool := decide (1 ≤ f) && decide (f ≤ 6)
def loopWidth (f : Nat) : Nat := if f = 0x11 then 32 else if f = 0x12 then 16 else 8 * 2 ^ ((f - 1) / 2)
def loopFp (f : Nat) : Bool := f == 0x11 || f == 0x12

/-- A descriptor's formats are those of R290 for integer or floating-point forms, of width SEW. -/
def loopFmts (ok : Nat → Bool) (w : Nat) (d : Word) : Bool :=
  [dAfmt d, dBfmt d, dDfmt d].all fun f => ok f && loopWidth f == w

/-- RND 0 and SATEN 0 (R290). A reserved bit is another matter: the word traps on the core (R53), which refuses the loop with TRAP. -/
def loopPlain (d : Word) : Bool := dRnd d == 0 && !dSaten d

/-- A pair-word half that the loop admits: an OP of R290, with the formats it needs. -/
def loopHalf (w : Nat) (d : Word) (h : BitVec 12) : Bool :=
  let op := (halfOp h).toNat
  if op = 0 ∨ op = 10 then false
  else if op = 9 ∨ op = 11 ∨ op = 12 ∨ op = 13 then loopFmts loopFp w d
  else loopFmts loopInt w d

/-- An instruction is capturable (R290), for the width SEW; the scalar it writes or reads is judged by R289. -/
def capturable (w : Nat) (b : BodyRec) (i : Instr) : Bool :=
  let d := b.ops.getLast?.getD 0
  b.feat == 0 && (kmOf i).getD 0 == 0 &&
  match i with
  | .vld .. | .vlds .. | .vst .. | .vsts .. | .addi .. | .add .. => true
  | .vadd .. | .vsub .. | .vmul .. | .vand .. | .vor .. | .vxor .. | .vsll .. | .vsrl .. | .vsra .. | .vmin .. | .vmax .. =>
    loopPlain d && loopFmts loopInt w d
  | .vfadd .. | .vfmul .. | .vfma .. | .vfmin .. | .vfmax .. => loopPlain d && loopFmts loopFp w d
  | .vcvt .. => loopPlain d && [dAfmt d, dDfmt d].all fun f => f == 0x11 || f == 0x12 || f == 5
  | .cp g h => loopPlain d && loopHalf w d g && loopHalf w d h
  | _ => false

/-- The scalars that a body word reads as strides, format slots and x = 1 operands (R289 condition 0x06). -/
def loopReads : Instr → List (BitVec 5)
  | .vlds _ _ b _ | .vsts _ _ b _ => [b]
  | .vadd _ _ b _ f x | .vsub _ _ b _ f x | .vmul _ _ b _ f x | .vand _ _ b _ f x | .vor _ _ b _ f x | .vxor _ _ b _ f x
  | .vsll _ _ b _ f x | .vsrl _ _ b _ f x | .vsra _ _ b _ f x | .vmin _ _ b _ f x | .vmax _ _ b _ f x
  | .vfadd _ _ b _ f x | .vfmul _ _ b _ f x | .vfma _ _ b _ f x | .vfmin _ _ b _ f x | .vfmax _ _ b _ f x =>
    BitVec.ofNat 5 (24 + f.toNat) :: (if x then [BitVec.ofNat 5 b.toNat] else [])
  | .vcvt _ _ _ f => [BitVec.ofNat 5 (24 + f.toNat)]
  | .cp g h => 24 :: ([g, h].filter fun y => halfOp y != 0 && halfKind y == 1).map fun y => BitVec.ofNat 5 (halfOpnd y).toNat
  | _ => []

/-- The x = 1 operands of a body word (R290, R95). -/
def loopX1 : Instr → List (BitVec 5)
  | .vadd _ _ b _ _ x | .vsub _ _ b _ _ x | .vmul _ _ b _ _ x | .vand _ _ b _ _ x | .vor _ _ b _ _ x | .vxor _ _ b _ _ x
  | .vsll _ _ b _ _ x | .vsrl _ _ b _ _ x | .vsra _ _ b _ _ x | .vmin _ _ b _ _ x | .vmax _ _ b _ _ x
  | .vfadd _ _ b _ _ x | .vfmul _ _ b _ _ x | .vfma _ _ b _ _ x | .vfmin _ _ b _ _ x | .vfmax _ _ b _ _ x =>
    if x then [BitVec.ofNat 5 b.toNat] else []
  | .cp g h => ([g, h].filter fun y => halfOp y != 0 && halfKind y == 1).map fun y => BitVec.ofNat 5 (halfOpnd y).toNat
  | _ => []

/-- The vector registers a body word reads and writes: (reads, writes), with LMUL registers per operand and the anchor of
a pair word. -/
def loopVecs (g : Nat) (anchor : Option (BitVec 6)) : Instr → List Nat × List Nat
  | .vld d _ _ | .vlds d _ _ _ => ([], groupRegs d g)
  | .vst d _ _ | .vsts d _ _ _ => (groupRegs d g, [])
  | .vadd d a b _ _ x | .vsub d a b _ _ x | .vmul d a b _ _ x | .vand d a b _ _ x | .vor d a b _ _ x
  | .vxor d a b _ _ x | .vsll d a b _ _ x | .vsrl d a b _ _ x | .vsra d a b _ _ x | .vmin d a b _ _ x
  | .vmax d a b _ _ x | .vfadd d a b _ _ x | .vfmul d a b _ _ x | .vfmin d a b _ _ x | .vfmax d a b _ _ x =>
    (groupRegs a g ++ (if x then [] else groupRegs b g), groupRegs d g)
  | .vfma d a b _ _ x => (groupRegs d g ++ groupRegs a g ++ (if x then [] else groupRegs b g), groupRegs d g)
  | .vcvt d a _ _ => (groupRegs a g, groupRegs d (2 * g))
  | .cp p q =>
    match anchor with
    | some v =>
      (groupRegs v g ++ ([p, q].filter fun y => halfOp y != 0 && halfKind y == 0).flatMap fun y => groupRegs (halfOpnd y) g,
        groupRegs v g)
    | none => ([], [])
  | _ => ([], [])

/-- The body as instructions with their records. -/
def Loop.instrs (l : Loop) : List (BodyRec × Instr) := l.body.filterMap fun b => (decode b.word).map fun i => (b, i)

/-- The anchors of the body's words, in order: the destination of the V-engine word before each (R95). -/
def anchorsOf : Option (BitVec 6) → List Instr → List (Option (BitVec 6))
  | _, [] => []
  | a, i :: r =>
    a :: anchorsOf (match i with
      | .cp .. => a
      | i => if engOf i == some .V then vdOf i else a) r

/-- The registers that a vcvt writes under its own descriptor: its group is the wider or narrower one of R145. -/
def cvtRegs (g w : Nat) (d : Word) (v : BitVec 6) : List Nat := groupRegs v (max 1 (g * loopWidth (dDfmt d) / w))

/-- The vector reads and writes of the body in order. -/
def Loop.vecs (l : Loop) (a0 : Option (BitVec 6)) : List (List Nat × List Nat) :=
  let is := l.instrs
  let g := 2 ^ bitsN l.vcfg.toNat 3 2
  let w := 8 * 2 ^ bitsN l.vcfg.toNat 0 3
  (is.zip (anchorsOf a0 (is.map (·.2)))).map fun x =>
    match x.1.2 with
    | .vcvt d a _ _ => (groupRegs a g, cvtRegs g w (x.1.1.ops.getLast?.getD 0) d)
    | i => loopVecs g x.2 i

/-- The scalars the body writes, in order. -/
def Loop.scalarWrites (l : Loop) : List (BitVec 5) := (l.instrs.filterMap fun x => sdOf x.2).filter fun d => d != 0

/-- Condition 0x06, SCALAR (R289). The index must be written, or the loop would not be the one of R287 (log 16). -/
def Loop.scalarOk (l : Loop) : Bool :=
  let ws := l.scalarWrites
  let form := l.instrs.all fun x =>
    match x.2 with
    | .addi d a i => d == a && (d != l.iReg || i == 1)
    | .add d a b => d == a && !ws.contains b && d != l.iReg
    | _ => true
  form && ws.contains l.iReg && !ws.contains l.tReg && decide (ws.eraseDups.length = ws.length) &&
    l.instrs.all fun x => (loopReads x.2).all fun r => !ws.contains r

/-- Condition 0x07, CARRY (R289). -/
def Loop.carryOk (l : Loop) (a0 : Option (BitVec 6)) : Bool :=
  let inWin := fun r => decide (l.vF.toNat ≤ r) && decide (r ≤ l.vL.toNat)
  (l.vecs a0).foldl (fun (acc : Bool × List Nat) x =>
    (acc.1 && x.2.all inWin && x.1.all (fun r => !inWin r || acc.2.contains r), acc.2 ++ x.2)) (true, []) |>.1

/-- The number of vector memory instructions of the body (R289 condition 0x08). -/
def Loop.streams (l : Loop) : Nat := (l.instrs.filter fun x => vectorMem x.2).length

/-- The word after lend is the back-branch of R287, standing at pc. -/
def Loop.backOk (l : Loop) (i : Instr) (pc : Word) : Bool :=
  let at_ := fun (a b : BitVec 5) (o : BitVec 15) => a == l.iReg && b == l.tReg && pc + wordI (o.toInt * 4) == l.head
  match i with
  | .bne a b o | .blt a b o | .bltn a b o => at_ a b o
  | _ => false

/-- The first static condition that fails, in table order, 0 for none (R289); `back`: the word after lend is the back-branch. A trip
that the conditions refuse is known at lmark (cause0). -/
def Loop.staticWith (l : Loop) (back : Bool) : Nat :=
  let w := 8 * 2 ^ bitsN l.vcfg.toNat 0 3
  if l.cause0 ≠ 0 then l.cause0
  else if 64 < ((l.instrs.map fun x => countOf x.2).foldl (· + ·) 0) then 4
  else if ¬ (l.instrs.length = l.body.length ∧ l.instrs.all (fun x => capturable w x.1 x.2) ∧ back ∧
      l.instrs.all (fun x => (loopX1 x.2).all fun r => !l.scalarWrites.contains r)) then 5
  else if ¬ l.scalarOk then 6
  else if ¬ l.carryOk none then 7
  else if 16 < l.streams then 8
  else 0

/-- The static conditions as the scalar stream reaches a word after lend (R289). -/
def Loop.staticCause (l : Loop) (i : Instr) (pc : Word) : Nat := l.staticWith (l.backOk i pc)

end Sys2Proof.Machine
end

