-- ==== Sys2Proof/Machine/Scalar.lean ====
section
/-!
DEFINITION. The scalar stream (R16-R18, R104, R106): the checks every word meets before it executes or is dispatched, the
prefix it may hold (R88-R92), the wait points, and the dispatch of queued instructions with their captured operands.
-/
namespace Sys2Proof.Machine

/-- What a scalar word's own effect comes to: done (continue at the next word), a jump, a wait point, a trap, or the
thread has left its slot. -/
inductive SRes where
  | done (s : State)
  | jump (s : State) (pc : Word)
  | wait (s : State) (w : Wait)
  | trap (s : State) (r : TrapReq)
  | gone (s : State)
deriving DecidableEq, Repr

/-- A scalar-side trap at the instruction's own address (R322). -/
def trapHere (t : Thread) (cause addr : Nat) : TrapReq :=
  { cause := cause, code := 0, addr := addr, elem := 0, tpc := t.pc, vside := false, vstart := none, unpend := false }

/-- The illegal-instruction trap at an address; at the prefix, the features it lent are lost (R85, R89). -/
def illegalAt (t : Thread) (tpc : Word) : TrapReq := { trapHere t 1 0 with tpc := tpc, unpend := decide (tpc ≠ t.pc) }

/-- The current thread, when it is resident. -/
def State.running (s : State) : Option (Nat × Thread) :=
  match s.th s.cur with
  | some t => if t.res = .resident then some (s.cur, t) else none
  | none => none

/-- The thread waits. -/
def State.waitAt (s : State) (h : Nat) (w : Wait) : State := s.modTh h fun t => { t with wait := some w }

/-- A replay is under way, or complete and not yet released (R293). -/
def Loop.pending (l : Loop) : Bool := l.stage == .replay || l.stage == .performed

/-- A scalar-side trap (R106, R293): it waits until the queue is empty, and for a replay under way; then it is taken. -/
def State.scalarTrap (s : State) (h : Nat) (r : TrapReq) : State :=
  match s.th h with
  | none => s
  | some t =>
    if t.queue ≠ [] then s.waitAt h .drain
    else if t.loop.pending ∧ ¬ t.handler then s.waitAt h .replay
    else s.takeTrap h r

/-- What stands before a word: nothing, an illegal-instruction trap at an address, or a wait point. -/
inductive Gate where
  | go
  | illegal (tpc : Word)
  | wait (w : Wait)
deriving DecidableEq, Repr

/-- The pending features, none as zero. -/
def Thread.feat (t : Thread) : BitVec 19 := (t.pend.map (·.feat)).getD 0

/-- The instruction is allowed in an open exit region (R177). -/
def regionAllows (f : BitVec 19) (i : Instr) : Bool :=
  featPop f == 0 && featPush f == 0 &&
  match i with
  | .vld .. | .vlds .. | .vldx .. | .vldxo .. | .vmv .. | .vbcast .. | .vins .. | .vid .. | .viota .. | .vsel ..
  | .vadd .. | .vsub .. | .vmul .. | .vmulh .. | .vdiv .. | .vrem .. | .vmin .. | .vmax .. | .vand .. | .vor .. | .vxor ..
  | .vsll .. | .vsrl .. | .vsra .. | .vsadd .. | .vssub .. | .vabsd .. | .vcmp .. | .vcvt .. | .vfadd .. | .vfsub ..
  | .vfmul .. | .vfma .. | .vfnma .. | .vfms .. | .vfdiv .. | .vfsqrt .. | .vfrsqrt .. | .vfexp2 .. | .vflog2 .. | .vfexp ..
  | .vfmin .. | .vfmax .. | .vfsgn .. | .vfcls .. | .vfcmp .. | .kand .. | .kor .. | .kxor .. | .kandn .. | .knot .. | .kmv ..
  | .ksbf .. | .ksif .. | .ksof .. | .add .. | .sub .. | .and .. | .or .. | .xor .. | .sll .. | .srl .. | .sra .. | .slt ..
  | .sltn .. | .min .. | .max .. | .minn .. | .maxn .. | .sel .. | .mul .. | .mulh .. | .mulhn .. | .div .. | .divn ..
  | .rem .. | .remn .. | .clz .. | .ctz .. | .popc .. | .addi .. | .andi .. | .ori .. | .xori .. | .slti .. | .slli ..
  | .srli .. | .srai .. | .bfx .. | .bfi .. | .lui .. | .addpc .. | .cp .. => true
  | _ => false

/-- VSTOP's fields (R142). -/
def Thread.regionOpen (t : Thread) : Bool := bitN t.vstop.toNat 15
def Thread.regionCount (t : Thread) : Nat := bitsN t.vstop.toNat 16 5

/-- The word falls under R85 because of the open exit region, or of its absence (R177). A prefix is judged with its
successor, whose features are then P and D only; before vexit it may carry any (R179; log 17). `exit` in an open region, which R126
calls legal everywhere and R177's list leaves out, is illegal there: the model follows the list (log 60). -/
def regionIllegal (t : Thread) (i : Instr) : Bool :=
  match i with
  | .vexit .. => !t.regionOpen
  | .pfx .. => false
  | i => t.regionOpen && !t.handler && (!regionAllows t.feat i || decide (16 < t.regionCount + countOf i))

/-- The instruction writes a register that the body of a replayed loop reads or writes (R293); the back-branch and its bound are no part
of the body (R287). -/
def touchesBody (t : Thread) (i : Instr) : Bool :=
  let l := t.loop
  let sRegs := l.instrs.flatMap fun x => (match sdOf x.2 with | some d => [d] | none => []) ++ loopReads x.2 ++
    (match x.2 with
      | .vld _ a _ | .vst _ a _ => [a]
      | .vlds _ a b _ | .vsts _ a b _ => [a, b]
      | .add _ a b => [a, b]
      | .addi _ a _ => [a]
      | _ => [])
  let vRegs := (l.vecs none).flatMap fun x => x.1 ++ x.2
  let sHit := match sdOf i with
    | some d => d != 0 && sRegs.contains d
    | none => false
  let dHit := featD t.feat && engOf i == some .S && sRegs.contains (BitVec.ofNat 5 (featDreg t.feat))
  let gs := writeGroups (2 ^ bitsN t.vcfg.toNat 3 2) (8 * 2 ^ bitsN t.vcfg.toNat 0 3) ((opsOf t i).getLast?.getD 0) t.anchor t.feat i
  sHit || dHit || gs.any fun g => (groupRegs (BitVec.ofNat 6 g.1) g.2).any vRegs.contains

/-- The word is a replay barrier point of the thread (R293). -/
def isBarrier (t : Thread) (i : Instr) : Bool :=
  replayBarrier i || touchesBody t i ||
  match i with
  | .pfx _ _ _ _ o u => o != 0 || u != 0
  | _ => false

/-- The word breaks the chain of vhad.c and vcvtq.c (R195). -/
def chainIllegal (t : Thread) (i : Instr) : Bool :=
  match i with
  | .vcvtqC .. => !t.chPend
  | _ => t.chPend

/-- Where an illegal pair traps: a word of R85 after a prefix makes the pair illegal at the prefix (R89). -/
def pairAt (t : Thread) : Word := match t.pend with
  | some p => if p.fromSret then t.pc else t.pc - 4
  | none => t.pc

/-- The checks that come before a word executes or is dispatched: an unfinished wait at lend or for a push (R91, R291),
a departure or a vector-side trap that waits for the replay (R293, R297), the prefix's
pairing (R89), the handler (R329), service mode (R85), the exit region (R177), an open bundle (R219), the chain (R195) and the
replay barrier point (R293). -/
def gateOf (t : Thread) (i : Instr) : Gate :=
  if t.wait = some .lend then .wait .lend
  else if t.wait = some .push then .wait .push
  else if (t.loop.depart.isSome ∧ ¬ t.handler) ∨ t.loop.vtrap then .wait .replay
  else match t.pend with
    | some p => if prefixOk p.feat i then gateRest t i else .illegal (pairAt t)
    | none => gateRest t i
where
  gateRest (t : Thread) (i : Instr) : Gate :=
    if t.handler ∧ (queued i ∨ opensStrip i) then .illegal t.pc
    else if i.serviceOnly ∧ ¬ t.svc then .illegal (pairAt t)
    else if regionIllegal t i then
      .illegal (if t.pend.isSome ∧ ¬ (featPop t.feat = 0 ∧ featPush t.feat = 0) then t.pc - 4 else t.pc)
    else if t.bopen ∧ bundleIllegal i then .illegal t.pc
    else if queued i ∧ chainIllegal t i then .illegal t.pc
    else if t.loop.pending ∧ ¬ t.handler ∧ isBarrier t i then .wait .replay
    else .go

/-- The pop into S taken before the successor (R90, R92); none while the FIFO is empty. -/
def Thread.popS (t : Thread) : Option Thread :=
  match t.pend with
  | none => some t
  | some p =>
    let f := featPop p.feat
    if f = 0 ∨ fifoTo f ≠ .S ∨ p.popDone then some t
    else if t.token f = 0 then none
    else some { t.setToken f (t.token f - 1) with pend := some { p with popDone := true } }

/-- A later iteration's word differs from the one that iteration 0 met at its place (R289 condition 0x0C). -/
def Loop.differs (l : Loop) (b : BodyRec) : Bool :=
  match l.body[l.idx]? with
  | some r => r.word != b.word || r.pc != b.pc
  | none => true

/-- The word at the thread's pc: a read of 4 bytes that its page admits as a fetch (R105, R120, R230). -/
def State.fetchWord (s : State) (h : Nat) (t : Thread) : Acc (State × IWord) :=
  match s.checkAccess t .S .fetch t.pc.toNat 4 with
  | .error c => .trap c
  | .ok loc => ((s.cachePage t t.pc.toNat).readLoc h t .S loc 4).bind fun r => .ok (r.1, BitVec.ofNat 32 (leNat r.2))

/-- The first lend at or above an address, among the next n words as the thread's fetches read them. -/
def State.scanLend (s : State) (h : Nat) (t : Thread) : Nat → Word → Option Word
  | 0, _ => none
  | n + 1, a =>
    match s.fetchWord h { t with pc := a } with
    | .ok (_, w) =>
      match decode w with
      | some .lend => some a
      | _ => s.scanLend h t n (a + 4)
    | _ => none

/-- The marking with its lend known where the stream goes on above its head by a jump: the body ends at the next lend above
the lmark (R218, R287; log 44). -/
def State.seeLend (s : State) (h : Nat) (t : Thread) (a : Word) : Thread :=
  let l := t.loop
  t.setLoop { l with lendPc := l.lendPc.orElse fun _ => s.scanLend h t ((a.toNat - l.head.toNat) / 4) l.head }

/-- An address lies outside the body and the back-branch: below the head, or above the word after lend (R287). -/
def Loop.outside (l : Loop) (a : Word) : Bool :=
  decide (a.toNat < l.head.toNat) || match l.lendPc with
    | some e => decide (e.toNat + 4 < a.toNat)
    | none => false

/-- A marking closes when the stream goes on outside it after a return from a trap (R287). -/
def State.closeLeft (s : State) (h : Nat) : State :=
  match s.th h with
  | some t =>
    if t.loop.open_ && !t.handler then
      let t := s.seeLend h t t.pc
      s.setTh h (if t.loop.outside t.pc then t.setLoop { t.loop with open_ := false, lends := false } else t)
    else s
  | none => s

/-- The loop marking's view of a word that has executed or been dispatched, and where the stream continues (R287, R289,
R291): the body is recorded, a stream that leaves it closes the marking. A lend with features counts among the body, which
is then not capturable (R290). -/
def Loop.note (l : Loop) (i : Instr) (b : BodyRec) (next : Word) : Loop :=
  match i with
  | .lmark .. => l
  | .lend => { l with lends := true, lendPc := some b.pc, body := if b.feat = 0 ∨ 0 < l.iter then l.body else l.body ++ [b] }
  | i =>
    if l.lends ∧ l.lendPc = some (b.pc - 4) ∧ l.backOk i b.pc then
      if next = l.head then { l with iter := l.iter + 1, lends := false, idx := 0 }
      else { l with open_ := false, lends := false }
    else
      if l.outside next then { l with open_ := false, lends := false }
      else if engOf i = none ∨ l.stage ≠ .rehearsal then l
      else if l.iter = 0 then { l with body := l.body ++ [b], idx := l.idx + 1 }
      else { l with idx := l.idx + 1, disagree := l.disagree || l.differs b }

/-- The marking follows the stream while it is open, outside a handler. -/
def noteLoop (t : Thread) (i : Instr) (b : BodyRec) (next : Word) : Thread :=
  if t.loop.open_ ∧ ¬ t.handler then t.setLoop (t.loop.note i b next) else t

/-- A rehearsal refused as soon as a word is reached: a 65th body instruction, a branch in the body, or the word after
lend in iteration 0 (R289). -/
def State.loopReach (s : State) (h : Nat) (i : Instr) : State :=
  match s.th h with
  | none => s
  | some t =>
    let l := t.loop
    if ¬ l.open_ ∨ l.stage ≠ .rehearsal ∨ l.iter ≠ 0 ∨ t.handler then s
    else if l.lends then
      let c := l.staticCause i t.pc
      if c = 0 then s else s.refuseLoop h c
    else
      let n := (l.instrs.map fun x => countOf x.2).foldl (· + ·) 0
      let c := if 64 < n + countOf i ∧ i ≠ .lend then 4 else if jumps i then 5 else 0
      match i with
      | .pfx .. => s
      | _ => if c = 0 then s else s.refuseLoop h (if l.cause0 ≠ 0 then l.cause0 else c)

/-- A rehearsal's marking where the scalar stream reaches a word at which it traps before it executes it (R289): behind lend the static
conditions are decided there, a word that was read and is no instruction being no back-branch; one whose fetch faults is not known to be
none. In the body a 65th instruction gives LENGTH; otherwise the trap refuses the marking (TRAP). -/
def State.loopTrap (s : State) (h : Nat) (i : Option Instr) (fetched : Bool) : State :=
  match s.th h with
  | none => s
  | some t =>
    let l := t.loop
    if ¬ l.open_ ∨ l.stage ≠ .rehearsal ∨ l.iter ≠ 0 ∨ t.handler then s
    else if l.lends then
      let c := match i with
        | some i => l.staticCause i t.pc
        | none => l.staticWith !fetched
      if c = 0 then s else s.refuseLoop h c
    else
      let n := (l.instrs.map fun x => countOf x.2).foldl (· + ·) 0
      match i with
      | some (.pfx ..) | none => s
      | some i => if 64 < n + countOf i ∧ i ≠ .lend then s.refuseLoop h (if l.cause0 ≠ 0 then l.cause0 else 4) else s

/-- The record of a word as iteration 0 meets it (R289). -/
def bodyRec (t : Thread) (i : Instr) : BodyRec :=
  { word := (encode i).getD 0, pc := t.pc, ops := opsOf t i, feat := t.feat }

/-- DREG receives what an S-engine successor wrote (R89). -/
def Thread.copyD (t : Thread) (i : Instr) : Thread :=
  match sdOf i with
  | some d => if featD t.feat then t.setReg (BitVec.ofNat 5 (featDreg t.feat)) (t.reg d) else t
  | none => t

/-- The push of an S-engine successor: made at once, or waited for while the FIFO is full (R91). -/
def Thread.pushS (t : Thread) : Thread :=
  let u := featPush t.feat
  if u = 0 then t
  else if t.token u < 15 then t.setToken u (t.token u + 1)
  else (t.setRetq (t.retq ++ [BitVec.ofNat 4 u])).setWait (some .push)

/-- n instructions counted in an open exit region (R177, R142). -/
def Thread.countRegion (t : Thread) (n : Nat) : Thread :=
  if t.regionOpen ∧ ¬ t.handler then t.setVstop (BitVec.ofNat 21 (t.vstop.toNat + n * 2 ^ 16)) else t

/-- What follows a scalar word's execution: DREG (R89), the push (R91), the end of the prefix, the region count (R177), and
the next address. -/
def State.retireS (s : State) (h : Nat) (i : Instr) (b : BodyRec) (next : Word) : State :=
  s.modTh h fun t =>
    let t := if jumps i && next != b.pc + 4 && t.loop.open_ && !t.handler then s.seeLend h t next else t
    (((noteLoop (t.copyD i) i b next).pushS).countRegion 1).setPend none |>.setPc next

/-- One word of the S engine for the running thread: its checks, its own effect, and what follows (R104, R106). -/
def runS (i : Instr) (body : State → Nat → Thread → SRes) (s : State) (h : Nat) (t : Thread) : State :=
  match gateOf t i with
  | .wait w => s.waitAt h w
  | .illegal tpc => (s.loopTrap h (some i) true).scalarTrap h (illegalAt t tpc)
  | .go =>
    match t.popS with
    | none => s.waitAt h .popS
    | some t =>
      let t := { t with wait := none }
      let s := (s.setTh h t).loopReach h i
      match s.th h with
      | none => s
      | some t =>
        match body s h t with
        | .done s => s.retireS h i (bodyRec t i) (t.pc + 4)
        | .jump s pc => s.retireS h i (bodyRec t i) pc
        | .wait s w => s.waitAt h w
        | .trap s r => s.scalarTrap h r
        | .gone s => s

/-- The step of an S-engine word: the current thread executes it; without one there is nothing to execute. -/
def scalarStep (i : Instr) (body : State → Nat → Thread → SRes) (s : State) : Host.Outcome State Fault Refusal :=
  match s.running with
  | some (h, t) => .next (runS i body s h t)
  | none => .fault .noThread

/-- A scalar word that only writes its destination from the thread's registers (R104, R107). -/
def writeStep (i : Instr) (d : BitVec 5) (f : Thread → Word) (s : State) : Host.Outcome State Fault Refusal :=
  scalarStep i (fun s h t => .done (s.setTh h (t.setReg d (f t)))) s

/-- A lease is asked for, once, at the stage manager of the thread's die (R226, R318). -/
def State.requestLease (s : State) (h cls : Nat) : State :=
  match s.th h with
  | none => s
  | some t =>
    let l := t.lease cls
    if l.held ∨ l.req then s
    else
      let d := s.dieAt (t.core / 128)
      let s := s.setDie (t.core / 128) { d with leaseQ := d.leaseQ ++ [{ h := h, cls := cls, at_ := s.time }] }
      s.setTh h (t.setLease cls { l with req := true })

/-- The queue entry of a dispatched word (R16, R143, R328). -/
def entryOf (s : State) (t : Thread) (i : Instr) (heavy : Option Nat) : QEntry where
  word := (encode i).getD 0
  pc := t.pc
  feat := t.feat
  popDone := (t.pend.map (·.popDone)).getD false
  ops := opsOf t i
  anchor := match i with
    | .cp .. => t.anchor
    | _ => none
  vcfg := BitVec.ofNat 14 t.vcfg.toNat
  vl := t.vl
  vlmax := t.vlmax
  vill := bitN t.vcfg.toNat 63
  strip := t.strip
  region := t.regionOpen
  bundle := match i with
    | .bseal _ => t.bcur
    | i => if storesV i ∧ t.bopen then t.bcur else none
  heavy := heavy
  failed := false
  since := none
  at_ := s.time
  tag := t.nextTag
  zero := none
  met := 0

/-- The reservation of a word that names a queue register (R121, R162). -/
def Thread.reserveFor (t : Thread) (i : Instr) : Thread :=
  match qOf i with
  | some q => t.reserve q.toNat t.nextTag
  | none => t

/-- VSTOP.OPEN and COUNT as the scalar stream leaves them at a dispatch (R177, R179). -/
def Thread.markRegion (t : Thread) (i : Instr) : Thread :=
  match i with
  | .vxbeg => t.setVstop (BitVec.ofNat 21 (bitsN t.vstop.toNat 0 15 + 2 ^ 15))
  | .vexit .. => t.setVstop (BitVec.ofNat 21 (bitsN t.vstop.toNat 0 15))
  | i => t.countRegion (countOf i)

/-- The anchor after a queued word: the group that a V-engine word writes, none where it writes none (R95). -/
def Thread.nextAnchor (t : Thread) (i : Instr) : Thread :=
  match i with
  | .cp .. => t
  | i => if engOf i == some .V then t.setAnchor (vdOf i) else t

/-- A queued word's entry is placed in the queue: the reservation (R121), the anchor (R95), the region count (R177), the
marking's record, and the next address. `e` may differ from the plain entry in its own hidden marks. -/
def State.enqueue (s : State) (h : Nat) (i : Instr) (e : QEntry) : State :=
  s.modTh h fun t => (((((noteLoop t i (bodyRec t i) (t.pc + 4)).reserveFor i).markRegion i).nextAnchor i).setQueue
    (t.queue ++ [e])).setTag (t.nextTag + 1) |>.setPend none |>.setPc (t.pc + 4)

/-- One word of the V, M or C engine for the running thread: its checks, its wait points, the queue-full trap of its
queue register (R162), and its dispatch (R16-R18). `post` is what the scalar stream itself does at dispatch. -/
def runQ (i : Instr) (pre : State → Nat → Thread → Bool) (post : State → Nat → QEntry → State × QEntry) (s : State) (h : Nat)
    (t : Thread) : State :=
  match gateOf t i with
  | .wait w => s.waitAt h w
  | .illegal tpc => (s.loopTrap h (some i) true).scalarTrap h (illegalAt t tpc)
  | .go =>
    if pre s h t then (s.loopTrap h (some i) true).scalarTrap h (illegalAt t (pairAt t))
    else match t.popS with
    | none => s.waitAt h .popS
    | some t =>
      let t := { t with wait := none }
      let s := (s.setTh h t).loopReach h i
      match s.th h with
      | none => s
      | some t =>
        let full := match qOf i with
          | some q => decide (8 ≤ (t.q q.toNat).length)
          | none => false
        if full then s.scalarTrap h (trapHere t 7 0)
        else if 64 ≤ t.queue.length then s.waitAt h .queueFull
        else
          let heavy := s.heavyClass t i (opsOf t i)
          match heavy with
          | some c =>
            if (t.lease c).held then
              let r := post s h (entryOf s t i heavy)
              r.1.enqueue h i r.2
            else (s.requestLease h c).waitAt h (.lease c)
          | none =>
            let r := post s h (entryOf s t i heavy)
            r.1.enqueue h i r.2

/-- The step of a word of the V, M or C engine: the current thread's scalar stream dispatches it (R16). -/
def queueStep (i : Instr) (s : State) : Host.Outcome State Fault Refusal :=
  match s.running with
  | some (h, t) => .next (runQ i (fun _ _ _ => false) (fun s _ e => (s, e)) s h t)
  | none => .fault .noThread

/-- As queueStep, for a word with an effect of the scalar stream at its dispatch, or a check of R85 on the thread. -/
def queueStepWith (i : Instr) (pre : State → Nat → Thread → Bool) (post : State → Nat → QEntry → State × QEntry) (s : State) :
    Host.Outcome State Fault Refusal :=
  match s.running with
  | some (h, t) => .next (runQ i pre post s h t)
  | none => .fault .noThread

end Sys2Proof.Machine
end

