-- ==== Sys2Proof/Machine/Alu.lean ====
section
/-!
DEFINITION. Integer and logic on registers: major 0x01 (R107-R109, R47).
-/
namespace Sys2Proof.Machine

/-- The shift amount sb[5:0] (R107). -/
def shamt (b : Word) : Nat := b.toNat % 64

/-- 1 when the condition holds, else 0. -/
def bitW (c : Bool) : Word := if c then 1 else 0

/-- INT64 quotient: towards zero; all ones for a divisor of 0 (R47). -/
def quotI (a b : Word) : Word := if b = 0 then BitVec.allOnes 64 else wordI (a.toInt.tdiv b.toInt)

/-- NAT64 quotient; all ones for a divisor of 0 (R47). -/
def quotN (a b : Word) : Word := if b = 0 then BitVec.allOnes 64 else word (a.toNat / b.toNat)

/-- INT64 remainder, with the sign of the dividend; the dividend for a divisor of 0 (R47). -/
def restI (a b : Word) : Word := if b = 0 then a else wordI (a.toInt.tmod b.toInt)

/-- NAT64 remainder; the dividend for a divisor of 0 (R47). -/
def restN (a b : Word) : Word := if b = 0 then a else word (a.toNat % b.toNat)

/-- The leading zeros of a word, 64 for 0 (R107). -/
def leadingZeros (a : Word) : Word := if a = 0 then 64 else word (63 - Nat.log2 a.toNat)

/-- add (R107). -/
def execAdd (d a b : BitVec 5) (s : State) : Host.Outcome State Fault Refusal :=
  writeStep (.add d a b) d (fun t => t.reg a + t.reg b) s

/-- sub (R107). -/
def execSub (d a b : BitVec 5) (s : State) : Host.Outcome State Fault Refusal :=
  writeStep (.sub d a b) d (fun t => t.reg a - t.reg b) s

/-- and (R107). -/
def execAnd (d a b : BitVec 5) (s : State) : Host.Outcome State Fault Refusal :=
  writeStep (.and d a b) d (fun t => t.reg a &&& t.reg b) s

/-- or (R107). -/
def execOr (d a b : BitVec 5) (s : State) : Host.Outcome State Fault Refusal :=
  writeStep (.or d a b) d (fun t => t.reg a ||| t.reg b) s

/-- xor (R107). -/
def execXor (d a b : BitVec 5) (s : State) : Host.Outcome State Fault Refusal :=
  writeStep (.xor d a b) d (fun t => t.reg a ^^^ t.reg b) s

/-- sll (R107). -/
def execSll (d a b : BitVec 5) (s : State) : Host.Outcome State Fault Refusal :=
  writeStep (.sll d a b) d (fun t => t.reg a <<< shamt (t.reg b)) s

/-- srl (R107). -/
def execSrl (d a b : BitVec 5) (s : State) : Host.Outcome State Fault Refusal :=
  writeStep (.srl d a b) d (fun t => t.reg a >>> shamt (t.reg b)) s

/-- sra (R107). -/
def execSra (d a b : BitVec 5) (s : State) : Host.Outcome State Fault Refusal :=
  writeStep (.sra d a b) d (fun t => (t.reg a).sshiftRight (shamt (t.reg b))) s

/-- slt (R107). -/
def execSlt (d a b : BitVec 5) (s : State) : Host.Outcome State Fault Refusal :=
  writeStep (.slt d a b) d (fun t => bitW ((t.reg a).slt (t.reg b))) s

/-- sltn (R107). -/
def execSltn (d a b : BitVec 5) (s : State) : Host.Outcome State Fault Refusal :=
  writeStep (.sltn d a b) d (fun t => bitW ((t.reg a).ult (t.reg b))) s

/-- min as INT64 (R107). -/
def execMin (d a b : BitVec 5) (s : State) : Host.Outcome State Fault Refusal :=
  writeStep (.min d a b) d (fun t => if (t.reg a).slt (t.reg b) then t.reg a else t.reg b) s

/-- max as INT64 (R107). -/
def execMax (d a b : BitVec 5) (s : State) : Host.Outcome State Fault Refusal :=
  writeStep (.max d a b) d (fun t => if (t.reg a).slt (t.reg b) then t.reg b else t.reg a) s

/-- minn as NAT64 (R107). -/
def execMinn (d a b : BitVec 5) (s : State) : Host.Outcome State Fault Refusal :=
  writeStep (.minn d a b) d (fun t => if (t.reg a).ult (t.reg b) then t.reg a else t.reg b) s

/-- maxn as NAT64 (R107). -/
def execMaxn (d a b : BitVec 5) (s : State) : Host.Outcome State Fault Refusal :=
  writeStep (.maxn d a b) d (fun t => if (t.reg a).ult (t.reg b) then t.reg b else t.reg a) s

/-- sel: sd as it stood is the condition (R107). -/
def execSel (d a b : BitVec 5) (s : State) : Host.Outcome State Fault Refusal :=
  writeStep (.sel d a b) d (fun t => if t.reg d ≠ 0 then t.reg a else t.reg b) s

/-- mul (R107). -/
def execMul (d a b : BitVec 5) (s : State) : Host.Outcome State Fault Refusal :=
  writeStep (.mul d a b) d (fun t => t.reg a * t.reg b) s

/-- mulh, bits 127:64 of the INT64 product (R107). -/
def execMulh (d a b : BitVec 5) (s : State) : Host.Outcome State Fault Refusal :=
  writeStep (.mulh d a b) d (fun t => wordI ((t.reg a).toInt * (t.reg b).toInt / 2 ^ 64)) s

/-- mulhn, bits 127:64 of the NAT64 product (R107). -/
def execMulhn (d a b : BitVec 5) (s : State) : Host.Outcome State Fault Refusal :=
  writeStep (.mulhn d a b) d (fun t => word ((t.reg a).toNat * (t.reg b).toNat / 2 ^ 64)) s

/-- div (R107, R47). -/
def execDiv (d a b : BitVec 5) (s : State) : Host.Outcome State Fault Refusal :=
  writeStep (.div d a b) d (fun t => quotI (t.reg a) (t.reg b)) s

/-- divn (R107, R47). -/
def execDivn (d a b : BitVec 5) (s : State) : Host.Outcome State Fault Refusal :=
  writeStep (.divn d a b) d (fun t => quotN (t.reg a) (t.reg b)) s

/-- rem (R107, R47). -/
def execRem (d a b : BitVec 5) (s : State) : Host.Outcome State Fault Refusal :=
  writeStep (.rem d a b) d (fun t => restI (t.reg a) (t.reg b)) s

/-- remn (R107, R47). -/
def execRemn (d a b : BitVec 5) (s : State) : Host.Outcome State Fault Refusal :=
  writeStep (.remn d a b) d (fun t => restN (t.reg a) (t.reg b)) s

/-- clz (R107). -/
def execClz (d a : BitVec 5) (s : State) : Host.Outcome State Fault Refusal :=
  writeStep (.clz d a) d (fun t => leadingZeros (t.reg a)) s

/-- ctz (R107). -/
def execCtz (d a : BitVec 5) (s : State) : Host.Outcome State Fault Refusal :=
  writeStep (.ctz d a) d (fun t => word (firstOne 64 0 (t.reg a).toNat)) s

/-- popc (R107). -/
def execPopc (d a : BitVec 5) (s : State) : Host.Outcome State Fault Refusal :=
  writeStep (.popc d a) d (fun t => word (onesN 64 (t.reg a).toNat)) s


end Sys2Proof.Machine
end

