-- ==== Sys2Proof/Machine/LoadStore.lean ====
section
/-!
DEFINITION. Scalar loads and stores: majors 0x10 and 0x11 (R105, R113, R114).
-/
namespace Sys2Proof.Machine

/-- How the thread's scalar stores are made now (R219, R220). -/
def Thread.storeMode (t : Thread) : StoreMode :=
  if ¬ t.bopen then .plain
  else if t.bdead then .discard
  else match t.bcur with
    | some b => .bundle b
    | none => .discard

/-- What a scalar access of n bytes counts: its line requests (R249), none for a window (R251), and the bytes of one to the host
window (R232, R384). -/
def State.countLoc (s : State) (h n : Nat) : Loc → State
  | .dram pa place => s.countScalar h pa place
  | .host _ => s.countHostBytes h n
  | _ => s

/-- A vwait stands in the queue: its flag reads come before every younger access, and the scalar stream's accesses are held until it
has completed (R211, R261 row 7, R264). R18 and R41 let the scalar stream itself go on, and it does, up to its next access (log 61). -/
def Thread.vwaiting (t : Thread) : Bool :=
  t.queue.any fun e => match decode e.word with
    | some (.vwait ..) => true
    | _ => false

/-- A scalar read of n bytes at a virtual address (R105, R114): the value, and the state with what the read did. -/
def State.scalarRead (s : State) (h : Nat) (t : Thread) (va n : Nat) : Acc (State × Nat) :=
  match s.checkAccess t .S .load va n with
  | .error c => .trap c
  | .ok loc =>
    if t.vwaiting then .hold
    else ((s.cachePage t va).readLoc h t .S loc n).bind fun r => .ok (r.1.countLoc h n loc, leNat r.2)

/-- A scalar store of n bytes at a virtual address (R105, R114). -/
def State.scalarWrite (s : State) (h : Nat) (t : Thread) (va n x : Nat) : Acc State :=
  match s.checkAccess t .S .store va n with
  | .error c => .trap c
  | .ok loc =>
    if t.vwaiting then .hold
    else ((s.cachePage t va).storeLoc h t .S t.storeMode loc (leBytes n x)).bind fun s => .ok (s.countLoc h n loc)

/-- The effective address of a scalar load or store (R113). -/
def effAddr (t : Thread) (a : BitVec 5) (o : BitVec 12) : Nat := (t.reg a + o.signExtend 64).toNat

/-- A scalar load of n bytes into sd (R113). -/
def loadBody (d a : BitVec 5) (o : BitVec 12) (n : Nat) (sx : Bool) (s : State) (h : Nat) (t : Thread) : SRes :=
  match s.scalarRead h t (effAddr t a o) n with
  | .trap c => .trap s (trapHere t c (effAddr t a o))
  | .hold => .wait s .hold
  | .ok (s, x) => .done (s.modTh h fun t => t.setReg d (if sx then wordI (signed (8 * n) x) else word x))

/-- A scalar store of the low n bytes of sb (R113). -/
def storeBody (a b : BitVec 5) (o : BitVec 12) (n : Nat) (s : State) (h : Nat) (t : Thread) : SRes :=
  match s.scalarWrite h t (effAddr t a o) n (t.reg b).toNat with
  | .trap c => .trap s (trapHere t c (effAddr t a o))
  | .hold => .wait s .hold
  | .ok s => .done s

/-- ldb (R113). -/
def execLdb (d a : BitVec 5) (o : BitVec 12) (s : State) : Host.Outcome State Fault Refusal :=
  scalarStep (.ldb d a o) (loadBody d a o 1 true) s

/-- ldh (R113). -/
def execLdh (d a : BitVec 5) (o : BitVec 12) (s : State) : Host.Outcome State Fault Refusal :=
  scalarStep (.ldh d a o) (loadBody d a o 2 true) s

/-- ldw (R113). -/
def execLdw (d a : BitVec 5) (o : BitVec 12) (s : State) : Host.Outcome State Fault Refusal :=
  scalarStep (.ldw d a o) (loadBody d a o 4 true) s

/-- ldd (R113). -/
def execLdd (d a : BitVec 5) (o : BitVec 12) (s : State) : Host.Outcome State Fault Refusal :=
  scalarStep (.ldd d a o) (loadBody d a o 8 false) s

/-- ldbz (R113). -/
def execLdbz (d a : BitVec 5) (o : BitVec 12) (s : State) : Host.Outcome State Fault Refusal :=
  scalarStep (.ldbz d a o) (loadBody d a o 1 false) s

/-- ldhz (R113). -/
def execLdhz (d a : BitVec 5) (o : BitVec 12) (s : State) : Host.Outcome State Fault Refusal :=
  scalarStep (.ldhz d a o) (loadBody d a o 2 false) s

/-- ldwz (R113). -/
def execLdwz (d a : BitVec 5) (o : BitVec 12) (s : State) : Host.Outcome State Fault Refusal :=
  scalarStep (.ldwz d a o) (loadBody d a o 4 false) s

/-- stb (R113). -/
def execStb (a b : BitVec 5) (o : BitVec 12) (s : State) : Host.Outcome State Fault Refusal :=
  scalarStep (.stb a b o) (storeBody a b o 1) s

/-- sth (R113). -/
def execSth (a b : BitVec 5) (o : BitVec 12) (s : State) : Host.Outcome State Fault Refusal :=
  scalarStep (.sth a b o) (storeBody a b o 2) s

/-- stw (R113). -/
def execStw (a b : BitVec 5) (o : BitVec 12) (s : State) : Host.Outcome State Fault Refusal :=
  scalarStep (.stw a b o) (storeBody a b o 4) s

/-- std (R113). -/
def execStd (a b : BitVec 5) (o : BitVec 12) (s : State) : Host.Outcome State Fault Refusal :=
  scalarStep (.std a b o) (storeBody a b o 8) s


end Sys2Proof.Machine
end

