-- ==== Sys2Proof/Machine/Atomics.lean ====
section
/-!
DEFINITION. Scalar atomics: major 0x12 (R115-R117), and the wait of a fence (R123).
-/
namespace Sys2Proof.Machine

/-- The atomic operations (R115). -/
inductive AmoOp where
  | add | and | or | xor | min | max | minn | maxn | swp | cas
deriving DecidableEq, Repr

/-- The new value of an atomic on n bits: the old value, the operand and, for cas, the compared value (R116). -/
def amoNew (op : AmoOp) (n old b c : Nat) : Nat :=
  match op with
  | .add => (old + b) % 2 ^ n
  | .and => old &&& b
  | .or => old ||| b
  | .xor => old ^^^ b
  | .min => if signed n old ≤ signed n b then old else b
  | .max => if signed n old ≤ signed n b then b else old
  | .minn => if old ≤ b then old else b
  | .maxn => if old ≤ b then b else old
  | .swp => b
  | .cas => if old = c then b else old

/-- An atomic at its home or at the host, after its checks (R116): the old value. -/
def State.atomicAt (s : State) (h : Nat) (t : Thread) (op : AmoOp) (loc : Loc) (n b c : Nat) : Acc (State × Nat) :=
  (s.readLoc h t .V loc n).bind fun r =>
    let old := leNat r.2
    (r.1.storeLoc h t .V .plain loc (leBytes n (amoNew op (8 * n) old b c))).bind fun w =>
      .ok (if op = .cas ∧ old ≠ c then r.1 else w, old)

/-- What an atomic of n bytes counts: one line request (R249), or its bytes at the host (R232, R384). -/
def State.countAtomic (s : State) (h n : Nat) : Loc → State
  | .dram pa _ => s.countReq h 1 pa 1
  | .host _ => s.countHostBytes h n
  | _ => s

/-- The instruction is a V-engine access that a fence waits for (R123): the memory forms, the flag reads of vwait, the
member reads of vchor, the record of oshape, the descriptor of vbind and the records of vsend (R258). -/
def fenceAccess (loadsOnly : Bool) (i : Instr) : Bool :=
  match i with
  | .vchorSum .. | .vchorMin .. | .vchorMax .. | .vchorArgmax .. | .vchorArgmin .. | .vchorAnd .. | .vchorOr ..
  | .vchorXor .. | .vwait .. | .oshape .. | .vbind .. => true
  | .vsend .. => !loadsOnly
  | i => if loadsOnly then vectorLoads i else vectorMem i

/-- A V-engine word may read or write memory through a stream: one is bound, or a queued vbind will bind one (R227). -/
def Thread.streaming (t : Thread) : Bool :=
  !t.binds.isEmpty || t.queue.any fun e => match decode e.word with
    | some (.vbind ..) => true
    | _ => false

/-- A queue entry is one that a fence waits for. -/
def entryAccess (streaming loadsOnly : Bool) (e : QEntry) : Bool :=
  (decode e.word).any fun i => fenceAccess loadsOnly i || (streaming && engOf i == some .V)

/-- Stores of a bundle of the thread are still to be performed: its bseal is at work, or its lines are not all flipped (R356, R357). -/
def State.unsettled (s : State) (h : Nat) : Bool :=
  s.unflipped h || s.bundles.any fun b => b.2.h == h && b.2.stage == .sealing

/-- The wait of a fence is over (R123): kind 0 for older loads, 1 for older accesses, 2 for the whole queue. Records of a vsend on
their way (R210) and lines of a bundle not yet flipped (R262) are accesses that are not performed. -/
def State.fenceDone (s : State) (h : Nat) (t : Thread) (kind : Nat) : Bool :=
  if kind = 0 then !t.queue.any (entryAccess t.streaming true)
  else if kind = 1 then !t.queue.any (entryAccess t.streaming false) && !s.sending h && !s.unsettled h
  else t.queue.isEmpty && !s.sending h

/-- A scalar atomic of 4 bytes or, with w, 8 (R116). -/
def amoBody (op : AmoOp) (d a b : BitVec 5) (w r : Bool) (s : State) (h : Nat) (t : Thread) : SRes :=
  let n := if w then 8 else 4
  let va := (t.reg a).toNat
  if r ∧ ¬ s.fenceDone h t 1 then .wait s (.fence 1)
  else match s.checkAccess t .S .atomic va n with
  | .error c => .trap s (trapHere t c va)
  | .ok loc =>
    if t.vwaiting then .wait s .hold
    else match (s.cachePage t va).atomicAt h t op loc n (fieldW (t.reg b) 0 (8 * n)) (fieldW (t.reg d) 0 (8 * n)) with
    | .trap c => .trap s (trapHere t c va)
    | .hold => .wait s .hold
    | .ok (s, old) => .done ((s.countAtomic h n loc).modTh h fun t => t.setReg d (wordI (signed (8 * n) old)))

/-- amoadd (R116). -/
def execAmoadd (d a b : BitVec 5) (w : Bool) (c : BitVec 3) (r : Bool) (s : State) : Host.Outcome State Fault Refusal :=
  scalarStep (.amoadd d a b w c r) (amoBody .add d a b w r) s

/-- amoand (R116). -/
def execAmoand (d a b : BitVec 5) (w : Bool) (c : BitVec 3) (r : Bool) (s : State) : Host.Outcome State Fault Refusal :=
  scalarStep (.amoand d a b w c r) (amoBody .and d a b w r) s

/-- amoor (R116). -/
def execAmoor (d a b : BitVec 5) (w : Bool) (c : BitVec 3) (r : Bool) (s : State) : Host.Outcome State Fault Refusal :=
  scalarStep (.amoor d a b w c r) (amoBody .or d a b w r) s

/-- amoxor (R116). -/
def execAmoxor (d a b : BitVec 5) (w : Bool) (c : BitVec 3) (r : Bool) (s : State) : Host.Outcome State Fault Refusal :=
  scalarStep (.amoxor d a b w c r) (amoBody .xor d a b w r) s

/-- amomin (R116). -/
def execAmomin (d a b : BitVec 5) (w : Bool) (c : BitVec 3) (r : Bool) (s : State) : Host.Outcome State Fault Refusal :=
  scalarStep (.amomin d a b w c r) (amoBody .min d a b w r) s

/-- amomax (R116). -/
def execAmomax (d a b : BitVec 5) (w : Bool) (c : BitVec 3) (r : Bool) (s : State) : Host.Outcome State Fault Refusal :=
  scalarStep (.amomax d a b w c r) (amoBody .max d a b w r) s

/-- amominn (R116). -/
def execAmominn (d a b : BitVec 5) (w : Bool) (c : BitVec 3) (r : Bool) (s : State) : Host.Outcome State Fault Refusal :=
  scalarStep (.amominn d a b w c r) (amoBody .minn d a b w r) s

/-- amomaxn (R116). -/
def execAmomaxn (d a b : BitVec 5) (w : Bool) (c : BitVec 3) (r : Bool) (s : State) : Host.Outcome State Fault Refusal :=
  scalarStep (.amomaxn d a b w c r) (amoBody .maxn d a b w r) s

/-- amoswp (R116). -/
def execAmoswp (d a b : BitVec 5) (w : Bool) (c : BitVec 3) (r : Bool) (s : State) : Host.Outcome State Fault Refusal :=
  scalarStep (.amoswp d a b w c r) (amoBody .swp d a b w r) s

/-- amocas (R116). -/
def execAmocas (d a b : BitVec 5) (w : Bool) (c : BitVec 3) (r : Bool) (s : State) : Host.Outcome State Fault Refusal :=
  scalarStep (.amocas d a b w c r) (amoBody .cas d a b w r) s


end Sys2Proof.Machine
end

