-- ==== Sys2Proof/Machine/Branch.lean ====
section
/-!
DEFINITION. Branches and jumps: majors 0x18-0x1F (R118-R120).
-/
namespace Sys2Proof.Machine

/-- The word is the back-branch of a hand-back's core run (R297), behind the `lend` of an iteration below the last one. -/
def Thread.coreBack (t : Thread) (i : Instr) : Bool :=
  let l := t.loop
  l.stage == .coreRun && l.open_ && !t.handler && l.lends && l.lendPc == some (t.pc - 4) && l.backOk i t.pc

/-- A conditional branch (R118). DEDUCED: the core run of a hand-back goes up to the trip captured at lmark (R287, R297), so its
back-branch is taken whatever the bound's register holds by then (log 82). -/
def branchBody (i : Instr) (c : Word → Word → Bool) (a b : BitVec 5) (o : BitVec 15) (s : State) (_ : Nat) (t : Thread) : SRes :=
  if t.coreBack i || c (t.reg a) (t.reg b) then .jump s (t.pc + wordI (o.toInt * 4)) else .done s

/-- beq (R118). -/
def execBeq (a b : BitVec 5) (o : BitVec 15) (s : State) : Host.Outcome State Fault Refusal :=
  scalarStep (.beq a b o) (branchBody (.beq a b o) (fun x y => x == y) a b o) s

/-- bne (R118). -/
def execBne (a b : BitVec 5) (o : BitVec 15) (s : State) : Host.Outcome State Fault Refusal :=
  scalarStep (.bne a b o) (branchBody (.bne a b o) (fun x y => x != y) a b o) s

/-- blt (R118). -/
def execBlt (a b : BitVec 5) (o : BitVec 15) (s : State) : Host.Outcome State Fault Refusal :=
  scalarStep (.blt a b o) (branchBody (.blt a b o) (fun x y => x.slt y) a b o) s

/-- bge (R118). -/
def execBge (a b : BitVec 5) (o : BitVec 15) (s : State) : Host.Outcome State Fault Refusal :=
  scalarStep (.bge a b o) (branchBody (.bge a b o) (fun x y => !x.slt y) a b o) s

/-- bltn (R118). -/
def execBltn (a b : BitVec 5) (o : BitVec 15) (s : State) : Host.Outcome State Fault Refusal :=
  scalarStep (.bltn a b o) (branchBody (.bltn a b o) (fun x y => x.ult y) a b o) s

/-- bgen (R118). -/
def execBgen (a b : BitVec 5) (o : BitVec 15) (s : State) : Host.Outcome State Fault Refusal :=
  scalarStep (.bgen a b o) (branchBody (.bgen a b o) (fun x y => !x.ult y) a b o) s

/-- jal (R119). -/
def execJal (d : BitVec 5) (o : BitVec 20) (s : State) : Host.Outcome State Fault Refusal :=
  scalarStep (.jal d o) (fun s h t => .jump (s.setTh h (t.setReg d (t.pc + 4))) (t.pc + wordI (o.toInt * 4))) s

/-- jalr: sa is read first; a target that is no multiple of 4 takes the alignment trap (R119). -/
def execJalr (d a : BitVec 5) (i : BitVec 15) (s : State) : Host.Outcome State Fault Refusal :=
  scalarStep (.jalr d a i) (fun s h t =>
    let target := t.reg a + i.signExtend 64
    if target.toNat % 4 ≠ 0 then .trap s (trapHere t 3 target.toNat)
    else .jump (s.setTh h (t.setReg d (t.pc + 4))) target) s


end Sys2Proof.Machine
end

