-- ==== Sys2Proof/Machine/Imm.lean ====
section
/-!
DEFINITION. Immediate, bit-field and upper forms: majors 0x02-0x0B (R110-R112).
-/
namespace Sys2Proof.Machine

/-- x with its n-bit field at p replaced by the low n bits of y (R111). -/
def putField (x y : Word) (p n : Nat) : Word :=
  word (x.toNat - bitsN x.toNat p n * 2 ^ p + bitsN y.toNat 0 n * 2 ^ p)

/-- u of R112: imm << 12 as 32 bits, sign-extended. -/
def upper (i : BitVec 20) : Word := (BitVec.ofNat 32 (i.toNat * 4096)).signExtend 64

/-- addi (R110). -/
def execAddi (d a : BitVec 5) (i : BitVec 15) (s : State) : Host.Outcome State Fault Refusal :=
  writeStep (.addi d a i) d (fun t => t.reg a + i.signExtend 64) s

/-- andi (R110). -/
def execAndi (d a : BitVec 5) (i : BitVec 15) (s : State) : Host.Outcome State Fault Refusal :=
  writeStep (.andi d a i) d (fun t => t.reg a &&& i.zeroExtend 64) s

/-- ori (R110). -/
def execOri (d a : BitVec 5) (i : BitVec 15) (s : State) : Host.Outcome State Fault Refusal :=
  writeStep (.ori d a i) d (fun t => t.reg a ||| i.zeroExtend 64) s

/-- xori (R110). -/
def execXori (d a : BitVec 5) (i : BitVec 15) (s : State) : Host.Outcome State Fault Refusal :=
  writeStep (.xori d a i) d (fun t => t.reg a ^^^ i.zeroExtend 64) s

/-- slti (R110). -/
def execSlti (d a : BitVec 5) (i : BitVec 15) (s : State) : Host.Outcome State Fault Refusal :=
  writeStep (.slti d a i) d (fun t => bitW ((t.reg a).slt (i.signExtend 64))) s

/-- slli (R110). -/
def execSlli (d a : BitVec 5) (n : BitVec 6) (s : State) : Host.Outcome State Fault Refusal :=
  writeStep (.slli d a n) d (fun t => t.reg a <<< n.toNat) s

/-- srli (R110). -/
def execSrli (d a : BitVec 5) (n : BitVec 6) (s : State) : Host.Outcome State Fault Refusal :=
  writeStep (.srli d a n) d (fun t => t.reg a >>> n.toNat) s

/-- srai (R110). -/
def execSrai (d a : BitVec 5) (n : BitVec 6) (s : State) : Host.Outcome State Fault Refusal :=
  writeStep (.srai d a n) d (fun t => (t.reg a).sshiftRight n.toNat) s

/-- bfx: the field of l + 1 bits at p (R111). -/
def execBfx (d a : BitVec 5) (p l : BitVec 6) (s : State) : Host.Outcome State Fault Refusal :=
  writeStep (.bfx d a p l) d (fun t => word (fieldW (t.reg a) p.toNat (l.toNat + 1))) s

/-- bfi: l + 1 bits of sa into sd at p (R111). -/
def execBfi (d a : BitVec 5) (p l : BitVec 6) (s : State) : Host.Outcome State Fault Refusal :=
  writeStep (.bfi d a p l) d (fun t => putField (t.reg d) (t.reg a) p.toNat (l.toNat + 1)) s

/-- lui (R112). -/
def execLui (d : BitVec 5) (i : BitVec 20) (s : State) : Host.Outcome State Fault Refusal :=
  writeStep (.lui d i) d (fun _ => upper i) s

/-- addpc (R112). -/
def execAddpc (d : BitVec 5) (i : BitVec 20) (s : State) : Host.Outcome State Fault Refusal :=
  writeStep (.addpc d i) d (fun t => t.pc + upper i) s


end Sys2Proof.Machine
end

