-- ==== Sys2Proof/Machine/Crypto.lean ====
section
/-!
DEFINITION. The security island's algorithms (R1, R386, R390): SHAKE256 as FIPS 202 defines it, and Ed448 signatures with an empty
context as RFC 8032 defines them. The algorithms are those standards', which the spec names; the keys are constants with no body.
-/
namespace Sys2Proof.Machine

/-- The rotation offsets of Keccak-f[1600], lane x + 5y at that place (FIPS 202). -/
def keccakRot : List Nat := [0, 1, 62, 28, 27, 36, 44, 6, 55, 20, 3, 10, 43, 25, 39, 41, 45, 15, 21, 8, 18, 2, 61, 56, 14]

/-- The round constants of Keccak-f[1600] (FIPS 202). -/
def keccakConsts : List Nat := [
  0x0000000000000001, 0x0000000000008082, 0x800000000000808A, 0x8000000080008000, 0x000000000000808B, 0x0000000080000001,
  0x8000000080008081, 0x8000000000008009, 0x000000000000008A, 0x0000000000000088, 0x0000000080008009, 0x000000008000000A,
  0x000000008000808B, 0x800000000000008B, 0x8000000000008089, 0x8000000000008003, 0x8000000000008002, 0x8000000000000080,
  0x000000000000800A, 0x800000008000000A, 0x8000000080008081, 0x8000000000008080, 0x0000000080000001, 0x8000000080008008]

/-- A round of Keccak-f[1600] on its 25 lanes (FIPS 202): theta, rho and pi, chi, iota. -/
def keccakRound (a : List Word) (rc : Nat) : List Word :=
  let at_ := fun (l : List Word) (x y : Nat) => l.getD (x % 5 + 5 * (y % 5)) 0
  let c := (upTo 5).map fun x => at_ a x 0 ^^^ at_ a x 1 ^^^ at_ a x 2 ^^^ at_ a x 3 ^^^ at_ a x 4
  let d := (upTo 5).map fun x => c.getD ((x + 4) % 5) 0 ^^^ (c.getD ((x + 1) % 5) 0).rotateLeft 1
  let b := (upTo 25).map fun i =>
    let x := (i % 5 + 3 * (i / 5)) % 5
    let y := i % 5
    (at_ a x y ^^^ d.getD x 0).rotateLeft (keccakRot.getD (x + 5 * y) 0)
  (upTo 25).map fun i =>
    let x := i % 5
    let y := i / 5
    (at_ b x y ^^^ (~~~ at_ b (x + 1) y &&& at_ b (x + 2) y)) ^^^ if i = 0 then word rc else 0

/-- Keccak-f[1600] (FIPS 202). -/
def keccakF (a : List Word) : List Word := keccakConsts.foldl keccakRound a

/-- A message padded for SHAKE256 to whole blocks of 136 bytes (FIPS 202). -/
def shakePad (m : List Byte) : List Byte :=
  let q := 136 - m.length % 136
  m ++ if q = 1 then [0x9F] else 0x1F :: (List.replicate (q - 2) 0 ++ [0x80])

/-- n blocks absorbed (FIPS 202). -/
def absorb : Nat → List Word → List Byte → List Word
  | 0, a, _ => a
  | n + 1, a, m =>
    absorb n (keccakF ((upTo 25).map fun i => a.getD i 0 ^^^ if i < 17 then word (leNat ((m.drop (8 * i)).take 8)) else 0)) (m.drop 136)

/-- n blocks squeezed (FIPS 202). -/
def squeeze : Nat → List Word → List Byte
  | 0, _ => []
  | n + 1, a => ((a.take 17).flatMap fun x => leBytes 8 x.toNat) ++ squeeze n (keccakF a)

/-- The first n bytes of the SHAKE256 output for a message (FIPS 202). -/
def shake256 (n : Nat) (m : List Byte) : List Byte :=
  let p := shakePad m
  (squeeze ((n + 135) / 136) (absorb (p.length / 136) (List.replicate 25 0) p)).take n

/-- The field prime, the curve constant, and the order of the base point of edwards448 (RFC 8032). -/
def edP : Nat := 2 ^ 448 - 2 ^ 224 - 1
def edD : Nat := edP - 39081
def edL : Nat := 2 ^ 446 - 0x8335DC163BB124B65129C96FDE933D8D723A70AADC873D6D54A7BB0D

/-- x ^ e in the field, e of n bits. -/
def edPow (x : Nat) : Nat → Nat → Nat
  | 0, _ => 1
  | n + 1, e =>
    let r := edPow x n (e / 2)
    if e % 2 = 1 then r * r % edP * x % edP else r * r % edP

/-- The inverse in the field. -/
def edInv (x : Nat) : Nat := edPow x 448 (edP - 2)

/-- A difference in the field. -/
def edSub (a b : Nat) : Nat := (a + edP - b % edP) % edP

/-- A point of edwards448 in projective coordinates (RFC 8032). -/
structure EdPoint where
  x : Nat
  y : Nat
  z : Nat
deriving DecidableEq, Repr

/-- The neutral point. -/
def edZero : EdPoint := ⟨0, 1, 1⟩

/-- The base point (RFC 8032). -/
def edBase : EdPoint where
  x := 0x4F1970C66BED0DED221D15A622BF36DA9E146570470F1767EA6DE324A3D3A46412AE1AF72AB66511433B80E18B00938E2626A82BC70CC05E
  y := 0x693F46716EB6BC248876203756C9C7624BEA73736CA3984087789C1E05A0C2D73AD3FF1CE67C39C4FDBD132C4ED7C8AD9808795BF230FA14
  z := 1

/-- The sum of two points (RFC 8032). -/
def EdPoint.add (p q : EdPoint) : EdPoint :=
  let a := p.z * q.z % edP
  let b := a * a % edP
  let c := p.x * q.x % edP
  let d := p.y * q.y % edP
  let e := edD * c % edP * d % edP
  let f := edSub b e
  let g := (b + e) % edP
  let h := (p.x + p.y) * (q.x + q.y) % edP
  ⟨a * f % edP * edSub (edSub h c) d % edP, a * g % edP * edSub d c % edP, f * g % edP⟩

/-- A point n bits of a number times (RFC 8032). -/
def EdPoint.times (p : EdPoint) : Nat → Nat → EdPoint
  | 0, _ => edZero
  | n + 1, k =>
    let r := p.times n (k / 2)
    if k % 2 = 1 then (r.add r).add p else r.add r

/-- The 57 bytes of a point (RFC 8032). -/
def EdPoint.encode (p : EdPoint) : List Byte :=
  let i := edInv p.z
  leBytes 57 (p.y * i % edP + p.x * i % edP % 2 * 2 ^ 455)

/-- The point that 57 bytes encode; none where they encode none (RFC 8032). -/
def edDecode (b : List Byte) : Option EdPoint :=
  let n := leNat b
  let y := n % 2 ^ 455
  let sign := n / 2 ^ 455
  if b.length ≠ 57 ∨ edP ≤ y then none
  else
    let u := edSub (y * y) 1
    let v := edSub (edD * (y * y % edP)) 1
    let u3 := u * u % edP * u % edP
    let w := u3 * v % edP * edPow (u3 * u % edP * u % edP * (v * v % edP) % edP * v % edP) 448 ((edP - 3) / 4) % edP
    if v * (w * w % edP) % edP ≠ u ∨ (w = 0 ∧ sign = 1) then none
    else some ⟨if w % 2 = sign then w else edP - w, y, 1⟩

/-- dom4 with no prehash and an empty context (RFC 8032): "SigEd448", 0, 0. -/
def edDom : List Byte := [0x53, 0x69, 0x67, 0x45, 0x64, 0x34, 0x34, 0x38, 0, 0]

/-- SHAKE256 of 114 bytes under dom4 as a number (RFC 8032). -/
def edHash (m : List Byte) : Nat := leNat (shake256 114 (edDom ++ m))

/-- The secret scalar and the prefix of a private key (RFC 8032). -/
def edExpand (key : List Byte) : Nat × List Byte :=
  let h := shake256 114 key
  let s := leNat (h.take 55)
  (s / 4 * 4 % 2 ^ 440 + (leNat ((h.drop 55).take 1) % 128 + 128) * 2 ^ 440, h.drop 57)

/-- The public half of a private key (RFC 8032). -/
def edPublic (key : List Byte) : List Byte := (edBase.times 448 (edExpand key).1).encode

/-- The Ed448 signature of a message, with an empty context: 114 bytes (RFC 8032). -/
def edSign (key m : List Byte) : List Byte :=
  let x := edExpand key
  let r := edHash (x.2 ++ m) % edL
  let rb := (edBase.times 446 r).encode
  let k := edHash (rb ++ edPublic key ++ m) % edL
  rb ++ leBytes 57 ((r + k * x.1) % edL)

/-- The signature verifies under a public key (RFC 8032). -/
def edVerify (key m sig : List Byte) : Bool :=
  let s := leNat (sig.drop 57)
  match edDecode key, edDecode (sig.take 57) with
  | some a, some r =>
    let k := edHash (sig.take 57 ++ key ++ m) % edL
    let p := edBase.times 446 s
    let q := r.add (a.times 446 k)
    decide (sig.length = 114) && decide (s < edL) && (p.times 3 4).encode == (q.times 3 4).encode
  | _, _ => false

/-- The device's Ed448 identity key: its private half is a constant with no body (R390, log 10). -/
def identitySecret : List Byte := (upTo 57).map Config.identitySecret
def identityKey : List Byte := edPublic identitySecret

/-- The signature of R386 over some bytes: Ed448 with the identity key over their 64-byte SHAKE256 digest. -/
def islandSign (b : List Byte) : List Byte := edSign identitySecret (shake256 64 b)

/-- The signature of the firmware image verifies under Axyar's firmware key (R390, log 10). -/
def firmwareSigned : Bool := edVerify Config.firmwareKey (shake256 64 Config.firmwareImage) Config.firmwareSignature

end Sys2Proof.Machine
end

