-- ==== Sys2Proof/Machine/Queues.lean ====
section
/-!
DEFINITION. Queue registers (R121, R122, R329), fences (R123, R124), barriers (R35-R38, R125) and the prefix word
(R88-R92, R138).
-/
namespace Sys2Proof.Machine

/-- qpop (R122): the oldest entry; it waits while there is none, or while it is reserved. In the handler a place reserved
by the queue image makes it a word of R85 (R329). -/
def qpopBody (d : BitVec 5) (q : BitVec 3) (s : State) (h : Nat) (t : Thread) : SRes :=
  match t.q q.toNat with
  | [] => .wait s (.qpop q.toNat)
  | e :: r =>
    match e.val with
    | some x => .done (s.setTh h ((t.setQ q.toNat r).setReg d x))
    | none =>
      if t.handler ∧ t.imgq.any (fun x => x.tag = e.tag) then .trap s (trapHere t 1 0) else .wait s (.qpop q.toNat)

/-- qpop (R122). -/
def execQpop (d : BitVec 5) (q : BitVec 3) (s : State) : Host.Outcome State Fault Refusal :=
  scalarStep (.qpop d q) (qpopBody d q) s

/-- qcnt (R122). -/
def execQcnt (d : BitVec 5) (q : BitVec 3) (s : State) : Host.Outcome State Fault Refusal :=
  writeStep (.qcnt d q) d (fun t => word (t.qCount q.toNat)) s

/-- A fence waits until its condition holds; nothing else changes (R123). -/
def fenceBody (kind : Nat) (s : State) (h : Nat) (t : Thread) : SRes :=
  if s.fenceDone h t kind then .done s else .wait s (.fence kind)

/-- fence.acq (R123). -/
def execFenceAcq (c : BitVec 3) (s : State) : Host.Outcome State Fault Refusal := scalarStep (.fenceAcq c) (fenceBody 0) s

/-- fence.rel (R123). -/
def execFenceRel (c : BitVec 3) (s : State) : Host.Outcome State Fault Refusal := scalarStep (.fenceRel c) (fenceBody 1) s

/-- fence.full (R123). -/
def execFenceFull (c : BitVec 3) (s : State) : Host.Outcome State Fault Refusal := scalarStep (.fenceFull c) (fenceBody 1) s

/-- fence.sv (R123). -/
def execFenceSv (s : State) : Host.Outcome State Fault Refusal := scalarStep .fenceSv (fenceBody 2) s

/-- fence.alias (R123, R256): the model performs every store through every aperture at once. -/
def execFenceAlias (c : BitVec 3) (s : State) : Host.Outcome State Fault Refusal := scalarStep (.fenceAlias c) (fenceBody 1) s

/-- A pod-link port runs the pod barrier network (R389). -/
def State.podBarrier (s : State) : Bool :=
  s.links.any fun l => decide (2 ≤ l.1) && l.2.state == 2 && bitN l.2.lfeat.toNat 1 && bitN l.2.pfeat.toNat 1

/-- The lowest package of the pod allotment that the barrier root cannot reach (R125, R389). -/
def State.unreached (s : State) (p : Nat) : Option Nat :=
  match sortN (((s.podShares p).map (·.pkg)).filter fun k => !s.podBarrier || s.podLost.contains k) with
  | [] => none
  | k :: _ => some k

/-- The arrival that the `bar` where the thread stands has made and not departed from (R38). One that a trap has left behind, whose handler
returned elsewhere, stands: the next `bar` at the same address and scope takes it up, with no check, fence or arrival of its own; of a
`bar` executed again beside a standing arrival R36 says nothing (log 75). -/
def Thread.arrivalHere (t : Thread) (scope : Nat) : Option Arrival :=
  t.arrivals.find? fun a => a.pc == t.pc && a.handler == t.handler && a.scope == scope

/-- The arrivals of a thread at a barrier instance whose generation completes (R36). -/
def Thread.completed (t : Thread) (scope inst : Nat) : Thread :=
  { t with arrivals := t.arrivals.map fun a => if a.scope = scope ∧ a.inst = inst then { a with done := true } else a }

/-- An arrival at a barrier generation (R36): the generation completes, or the thread waits. -/
def State.arrive (s : State) (h : Nat) (t : Thread) (scope inst count : Nat) : SRes :=
  let same := fun (g : BarGen) => g.part == t.part && g.task == t.task && g.scope == scope && g.inst == inst
  let old := ((s.bars.find? same).map (·.arrived)).getD []
  let rest := s.bars.filter fun g => !same g
  if old.length + 1 = count then
    .done (old.foldl (fun s k => s.modTh k fun t => t.completed scope inst) { s with bars := rest })
  else
    let g : BarGen := { part := t.part, task := t.task, scope := scope, inst := inst, count := count, arrived := old ++ [h] }
    let a : Arrival := { pc := t.pc, handler := t.handler, scope := scope, inst := inst, count := count, done := false }
    let s := s.modTh h fun t => { t with arrivals := t.arrivals ++ [a] }
    .wait { s with bars := rest ++ [g] } .bar

/-- bar (R36-R38, R125). Where a package of a POD scope cannot be reached and the count differs from the open generation's too, R125 names
both traps and no order: the protection fault comes first (log 75). A `bar` that has arrived, before a pre-emption or a trap of an older instruction, departs once its
generation has completed, on the instance at which it arrived; any other makes its checks and an arrival of its own. -/
def barBody (a : BitVec 5) (c : BitVec 3) (s : State) (h : Nat) (t : Thread) : SRes :=
  let count := (t.reg a).toNat
  let inst := instOf s.pkg t.core c.toNat
  let open_ := s.bars.find? fun g => g.part == t.part && g.task == t.task && g.scope == c.toNat && g.inst == inst
  match t.arrivalHere c.toNat with
  | some x => if x.done then .done (s.setTh h { t with arrivals := t.arrivals.filter fun y => y != x }) else .wait s .bar
  | none =>
  if count = 0 ∨ slotsOf c.toNat (1 + (s.podShares t.part).length) < count then .trap s (trapHere t 1 0)
  else if ¬ s.fenceDone h t 1 then .wait s (.fence 1)
  else match (if c = 5 then s.unreached t.part else none) with
  | some k => .trap s (trapHere t 5 k)
  | none =>
    match open_ with
    | some g => if g.count = count then s.arrive h t c.toNat inst count else .trap s (trapHere t 8 0)
    | none => s.arrive h t c.toNat inst count

/-- bar (R125). -/
def execBar (a : BitVec 5) (c : BitVec 3) (s : State) : Host.Outcome State Fault Refusal :=
  scalarStep (.bar a c) (barBody a c) s

/-- The features of a prefix word's fields, as bits 25:7 of the word (R88). -/
def featOf (p : Bool) (m : BitVec 3) (e : Bool) (r : BitVec 6) (o u : BitVec 4) : BitVec 19 :=
  BitVec.ofNat 19 (packN [(boolN p, 0), (m.toNat, 1), (boolN e, 4), (r.toNat, 5), (o.toNat, 11), (u.toNat, 15)])

/-- pfx (R88, R138): the features wait for the next word. A prefix after a prefix makes the first one illegal (R89). -/
def execPfx (p : Bool) (m : BitVec 3) (e : Bool) (r : BitVec 6) (o u : BitVec 4) (s : State) :
    Host.Outcome State Fault Refusal :=
  match s.running with
  | none => .fault .noThread
  | some (h, t) =>
    match gateOf t (.pfx p m e r o u) with
    | .wait w => .next (s.waitAt h w)
    | .illegal tpc => .next ((s.loopTrap h (some (.pfx p m e r o u)) true).scalarTrap h (illegalAt t tpc))
    | .go =>
      let f := featOf p m e r o u
      .next ((s.loopReach h (.pfx p m e r o u)).modTh h fun t =>
        ((noteLoop t (.pfx p m e r o u) (bodyRec t (.pfx p m e r o u)) (t.pc + 4)).setPend
          (some { feat := f, popDone := false, fromSret := false })).setWait none |>.setPc (t.pc + 4))

end Sys2Proof.Machine
end

