-- ==== Sys2Proof/Machine/System.lean ====
section
/-!
DEFINITION. Thread control and traps, launch, system registers and hints (R126-R137, R12, R330).
-/
namespace Sys2Proof.Machine

/-- The three conditions of R12 for exit. -/
def exitReady (t : Thread) : Bool :=
  t.queue.isEmpty && t.ceng.isEmpty && t.crun.isNone && t.cstop.isNone && t.retq.all fun u => fifoFrom u.toNat == .S || fifoFrom u.toNat == .V

/-- A retirement counted for its task (R13, R315). -/
def State.retireThread (s : State) (h : Nat) (t : Thread) : State :=
  (s.leave h .retired).modTask t.part t.task fun k => { k with retired := k.retired + 1, finish := s.time }

/-- exit (R12, R126). -/
def execExit (s : State) : Host.Outcome State Fault Refusal :=
  scalarStep .exit (fun s h t => if exitReady t then .gone (s.retireThread h t) else .wait s .exit) s

/-- syscall (R127): TPC is the next word. A prefix pending on it stands in the image (R92, R328; log 39). -/
def execSyscall (c : BitVec 20) (s : State) : Host.Outcome State Fault Refusal :=
  scalarStep (.syscall c) (fun s _ t => .trap s { trapHere t 0x0C 0 with code := c.toNat, tpc := t.pc + 4 }) s

/-- brk (R127). -/
def execBrk (c : BitVec 20) (s : State) : Host.Outcome State Fault Refusal :=
  scalarStep (.brk c) (fun s _ t => .trap s { trapHere t 0x0B 0 with code := c.toNat }) s

/-- A re-dispatched word judged: it is one that the queue admits, with features its prefix may lend (R330: R85, R89); its power class is
that of the captured operands it stands with (R226). -/
def State.imageJudge (s : State) (t : Thread) (w : IWord) (f : BitVec 19) (ops : List Word) : Judged :=
  match decode w with
  | some i =>
    { ok := queued i && (f == 0 || prefixOk f i) && (!i.serviceOnly || t.svc)
      pair := match i with
        | .cp .. => true
        | _ => false
      q := (qOf i).map (·.toNat)
      heavy := s.heavyClass t i ops }
  | none => { ok := false, pair := false, q := none, heavy := none }

/-- The class of a heavy entry of a queue whose lease the thread does not hold (R226). -/
def Thread.lacksLease (t : Thread) (q : List QEntry) : Option Nat :=
  q.findSome? fun e => if e.failed then none else e.heavy.bind fun c => if (t.lease c).held then none else some c

/-- sret (R128, R330). A TPC that is no multiple of 4 takes the alignment trap at the transfer (R78), in the handler. A heavy word of the
image that has no lease stalls the scalar stream as it is dispatched anew, with its request (R226): the model stalls the whole sret
before it re-dispatches (log 74). -/
def sretBody (s : State) (h : Nat) (t : Thread) : SRes :=
  if ¬ t.handler then .trap s (trapHere t 1 0)
  else if t.tpc.toNat % 4 ≠ 0 then .trap s (trapHere t 3 t.tpc.toNat)
  else match s.sretOp h t.pushS (s.imageJudge t) with
  | .ok s' =>
    match (s'.th h).bind fun u => u.lacksLease u.queue with
    | some c => .wait (s.requestLease h c) (.lease c)
    | none => .gone (s'.closeLeft h)
  | .hold => .wait s .hold
  | .trap c => .trap s (trapHere t c t.grbase.toNat)

/-- sret (R128, R330). -/
def execSret (s : State) : Host.Outcome State Fault Refusal := scalarStep .sret sretBody s

/-- launch (R130): its checks and waits in order, then the record is submitted. -/
def launchBody (q : BitVec 2) (a : BitVec 5) (s : State) (h : Nat) (t : Thread) : SRes :=
  let va := (t.reg a).toNat
  if 8 ≤ (t.q q.toNat).length then .trap s (trapHere t 7 0)
  else if ¬ s.fenceDone h t 1 then .wait s (.fence 1)
  else match s.checkAccess t .S .load va 64 with
  | .error c => .trap s (trapHere t c va)
  | .ok loc =>
    match (s.cachePage t va).readLoc h t .S loc 64 with
    | .trap c => .trap s (trapHere t c va)
    | .hold => .wait s .hold
    | .ok (s, bytes) =>
      let s := (s.countLoc h 64 loc).modTh h fun t => (t.reserve q.toNat t.nextTag).setTag (t.nextTag + 1)
      .done { s with subs := s.subs ++ [{ src := .thread h q.toNat t.nextTag, vdev := t.vdev, core := some t.core, bytes := bytes }] }

/-- launch (R130). -/
def execLaunch (q : BitVec 2) (a : BitVec 5) (s : State) : Host.Outcome State Fault Refusal :=
  scalarStep (.launch q a) (launchBody q a) s

/-- WHERE (R14). -/
def State.where_ (s : State) (t : Thread) : Word :=
  word (packN [(t.slot % 2, 0), (t.core % 4, 1), (t.core / 4 % 32, 3), (t.core / 128 % 8, 8), (s.pkg % 2048, 11)])

/-- FEAT (R134). -/
def Thread.featReg (t : Thread) : Word :=
  word (packN [(1, 0), (1, 16), (1, 24), (1, 32), (64, 40), (1, 48), (boolN t.svc, 49), (boolN t.handler, 50)])

/-- VCP (R20). With EMPTY 1, PC is the word after the sysrd that reads it, taken for the next instruction the scalar stream will
dispatch, whether or not that word enters the queue: which word is meant R20 leaves open (log 62). -/
def Thread.vcp (t : Thread) : Word :=
  match t.queue with
  | [] => word (packN [((t.pc + 4).toNat % 2 ^ 48, 0), (1, 63)])
  | e :: _ => word (packN [(e.pc.toNat % 2 ^ 48, 0), (t.queue.length % 128, 48)])

/-- LGRANT (R24). -/
def State.lgrant (s : State) (t : Thread) : Word :=
  let c := s.coreAt t.core
  let drain := (upTo 8).any fun b => bitN t.octets.toNat b && c.oct b == 3
  word (packN [(t.octets.toNat, 0), (onesN 8 t.octets.toNat, 8), (boolN t.carried, 12), (boolN drain, 13)])

/-- LEASE (R321). -/
def Thread.leaseReg (t : Thread) : Word :=
  let bit := fun (f : Lease → Bool) (lo : Nat) => (upTo 3).map fun c => (boolN (f (t.lease c)), lo + c)
  word (packN (bit (·.held) 0 ++ bit (·.req) 4 ++ bit (·.revoked) 8 ++ [(t.stall.toNat, 16)]))

/-- BNDSTAT (R364). -/
def Thread.bndstat (t : Thread) : Word :=
  word (packN [(boolN t.bopen, 0), (boolN t.bdead, 1), (t.blines.toNat, 2), (t.bname.toNat, 16), (t.bcause.toNat, 32),
    (t.bserial.toNat, 40)])

/-- CHSTAT (R196). -/
def Thread.chstat (t : Thread) : Word :=
  word (packN [(boolN t.chValid, 0), (boolN t.chPend, 1), (t.chFmt.toNat, 8), (t.chCount % 2 ^ 14, 16)])

/-- CLAIMSTAT (R201). -/
def State.claimstat (s : State) (t : Thread) : Word :=
  let used := ((s.partAt t.part).map fun p => p.registry.length).getD 0
  word (packN [(used % 512, 0), (t.overlaps.toNat, 16), (t.lastOverlap.toNat, 32)])

/-- The value of a system register as the scalar stream reads it (R131, R132, R7). -/
def State.sysValue (s : State) (t : Thread) (n : BitVec 12) : Word :=
  match n.toNat with
  | 0x000 => word (t.tid % 2 ^ 22)
  | 0x001 => word (t.task % 2 ^ 32)
  | 0x002 => s.where_ t
  | 0x003 => t.featReg
  | 0x010 => word (packN [(bitsN t.vcfg.toNat 0 7, 0), (bitsN t.vcfg.toNat 8 6, 8), (fieldW t.vcfg 63 1, 63)])
  | 0x011 => word (t.vl % 2 ^ 15)
  | 0x012 => word t.vlmax
  | 0x013 => word (t.vstart % 2 ^ 15)
  | 0x014 => word t.vstop.toNat
  | 0x015 => t.vcp
  | 0x016 => t.avl
  | 0x020 => word (packN [((s.coreAt t.core).own.toNat, 0), ((s.coreAt t.core).next.toNat, 16)])
  | 0x021 => s.lgrant t
  | 0x030 => word (packN [((s.coreAt t.core).bankMode.toNat, 0), ((s.coreAt t.core).bankOwn.toNat, 24)])
  | 0x040 => t.tcause
  | 0x041 => t.tpc
  | 0x042 => t.tvec
  | 0x043 => t.taddr
  | 0x044 => t.telem
  | 0x045 => t.tqimg
  | 0x050 => t.undstat
  | 0x051 => t.undctl
  | 0x060 => t.bndstat
  | 0x070 => t.leaseReg
  | 0x080 => word t.hintdrop.toNat
  | 0x090 => word t.flags.toNat
  | 0x0A0 => t.grbase
  | 0x0B0 => t.chstat
  | 0x0C0 => s.claimstat t
  | _ => 0

/-- sysrd (R132). -/
def execSysrd (d : BitVec 5) (n : BitVec 12) (s : State) : Host.Outcome State Fault Refusal :=
  scalarStep (.sysrd d n) (fun s h t => .done (s.setTh h (t.setReg d (s.sysValue t n)))) s

/-- The value is one that the register's map allows (R133, R7): no reserved bit, no forbidden code. -/
def sysAllowed (n : BitVec 12) (x : Word) : Bool :=
  match n.toNat with
  | 0x010 => fieldW x 14 49 == 0 && !bitN x.toNat 7 && decide (fieldW x 0 3 < 4) && fieldW x 8 3 != 7
  | 0x011 | 0x013 => fieldW x 15 49 == 0
  | 0x014 => fieldW x 21 43 == 0 && decide (fieldW x 16 5 ≤ 16)
  | 0x030 => fieldW x 36 28 == 0
  | 0x041 => fieldW x 48 16 == 0
  | 0x042 => fieldW x 48 16 == 0 && fieldW x 0 2 == 0
  | 0x051 => fieldW x 1 31 == 0
  | 0x080 => fieldW x 48 16 == 0
  | 0x090 => fieldW x 6 58 == 0
  | _ => true

/-- A core's banks taken out of CACHE mode have their dirty lines written back (R241), one line request for each (R249): which lines a
bank holds is free (log 14). -/
def State.flushBanks (s : State) (h core n : Nat) : State :=
  if n = 0 then s
  else (s.coreAt core).dirty.foldl (fun s d =>
    let s' := { s with freeCtr := s.freeCtr + 1 }
    s'.writeBack h core d.line (Config.freeNat s.freeCtr % 2 == 1)) s

/-- A running copy command that reads or writes one of the banks stops with CAUSE 2 at its last byte in it (R365), as cpstat reports it
(R217). Where the switch finds it is a matter of timing (log 79). -/
def Thread.stopCopy (t : Thread) (banks : List Nat) : Thread :=
  match t.crun with
  | none => t
  | some r =>
    match r.cause == 0, r.banks.find? fun x => banks.contains x.1 with
    | true, some x => { t with crun := some { r with cause := 2 }, faddr := BitVec.ofNat 48 x.2, faulted := true }
    | _, _ => t

/-- The copy commands of a core's resident threads that are in flight into or out of a bank that leaves SCRATCH mode stop (R365). -/
def State.stopCopies (s : State) (core : Nat) (banks : List Nat) : State :=
  { s with threads := s.threads.map fun x => (x.1, if x.2.core = core ∧ x.2.res = .resident then x.2.stopCopy banks else x.2) }

/-- A write of BANKMODE as R241 gives it; none where R241 refuses it. The records on their way to the inbox are lost where the inbox
leaves FIFO mode, whichever bank is the inbox after the write. -/
def State.writeBankMode (s : State) (h core slot : Nat) (x : Word) : Option State :=
  let c := s.coreAt core
  let want := fun b => fieldW x (2 * b) 2
  let changed := (upTo 12).filter fun b => want b != c.mode b
  if (upTo 12).any (fun b => want b == 3) || (upTo 12).all (fun b => want b != 0) ||
      changed.any (fun b => c.mode b != 0 && c.bankOwner b != slot) then none
  else
    let s := s.flushBanks h core (changed.filter fun b => c.mode b == 0).length
    let s := changed.foldl (fun s b => s.loseRecords core b) s
    let s := s.stopCopies core (changed.filter fun b => c.mode b == 1)
    some (changed.foldl (fun s b => (s.emptyBank core b).setBank core b (want b) (if want b = 0 then 0 else slot)) s)

/-- A thread's register written by syswr (R131). -/
def Thread.sysWrite (t : Thread) (n : BitVec 12) (x : Word) : Thread :=
  match n.toNat with
  | 0x010 => { t with vcfg := word (bitsN x.toNat 0 14 + fieldW t.vcfg 63 1 * 2 ^ 63), cfgDirty := true }
  | 0x011 => { t with vl := x.toNat, cfgDirty := true }
  | 0x013 => t.setVstart x.toNat
  | 0x014 => t.setVstop (BitVec.ofNat 21 x.toNat)
  | 0x016 => { t with avl := x }
  | 0x041 => { t with tpc := x }
  | 0x042 => { t with tvec := x }
  | 0x051 => { t with undEnable := bitN x.toNat 0, replayed := BitVec.ofNat 32 (fieldW x 32 32) }
  | 0x080 => { t with hintdrop := BitVec.ofNat 48 x.toNat }
  | 0x090 => t.setFlags (BitVec.ofNat 6 x.toNat)
  | _ => t

/-- syswr (R131-R133, R241). -/
def syswrBody (a : BitVec 5) (n : BitVec 12) (s : State) (h : Nat) (t : Thread) : SRes :=
  let x := t.reg a
  if (sysHandlerOnly n ∧ ¬ t.handler) ∨ ¬ sysAllowed n x then .trap s (trapHere t 1 0)
  else if n = 0x030 then
    match s.writeBankMode h t.core t.slot x with
    | some s => .done s
    | none => .trap s (trapHere t 1 0)
  else .done (s.setTh h (t.sysWrite n x))

/-- syswr (R132). -/
def execSyswr (a : BitVec 5) (n : BitVec 12) (s : State) : Host.Outcome State Fault Refusal :=
  scalarStep (.syswr a n) (syswrBody a n) s

/-- The hint is dropped for its address (R136): a failed step of R105 with w = 1, a window, or a commons page. An uncorrectable line,
step 4 of R105, drops `.own` too, which is checked as a store: whether a store fails that step the spec leaves open (log 63). -/
def State.hintDropped (s : State) (t : Thread) (hint : BitVec 3) (va : Nat) : Bool :=
  match s.checkAccess t .S (if hint = 3 then .store else .load) va 1 with
  | .ok (.dram pa place) => place == 4 || s.lineError pa 1
  | _ => true

/-- The action of a hint (R135), unless it is dropped: `.evict` writes its line back; the others change timing only. -/
def State.hintAction (s : State) (h : Nat) (t : Thread) (hint : BitVec 3) (va : Nat) (drop : Bool) : State :=
  match hint == 4, s.checkAccess t .S .load va 1 with
  | true, .ok (.dram pa _) => s.writeBack h t.core (pa / 128) (!drop)
  | _, _ => s

/-- pfh (R135-R137): the count of a dropped hint, or the hint's action. Whether a resource is free is open (log 14). -/
def pfhBody (hint : BitVec 3) (a : BitVec 5) (o : BitVec 12) (s : State) (h : Nat) (t : Thread) : SRes :=
  let va := effAddr t a o
  let drop := s.hintDropped t hint va || Config.freeNat s.freeCtr % 2 == 1
  let t' := { t with hintdrop := if drop then satBits t.hintdrop else t.hintdrop }
  .done (({ s with freeCtr := s.freeCtr + 1 }.setTh h t').hintAction h t hint va drop)

/-- pfh (R135). -/
def execPfh (hint : BitVec 3) (a : BitVec 5) (o : BitVec 12) (s : State) : Host.Outcome State Fault Refusal :=
  scalarStep (.pfh hint a o) (pfhBody hint a o) s

end Sys2Proof.Machine
end

