-- ==== Sys2Proof/Machine/Strip.lean ====
section
/-!
DEFINITION. The strip-opening instructions setvl, setvli, setcfg and vclaim (R27-R33, R42, R152), and draw-range claims
rclaim and rfree (R199, R200).
-/
namespace Sys2Proof.Machine

/-- The octets sampled by a strip-opening instruction (R27). -/
def Core.sample (c : Core) (slot : Nat) : Nat := packN ((c.octets slot).map fun b => (1, b))

/-- A draining octet's victim has opened a strip that did not sample it; it passes once the instructions of the older
strips have committed (R33 case a). -/
def State.markDrains (s : State) (core slot strip : Nat) : State :=
  let c := s.coreAt core
  s.setCore core { c with drains := c.drains.map fun d =>
    if d.victim = slot ∧ d.opened = none then { d with opened := some strip } else d }

/-- A strip opens with a VCFG (R27, R28, R152): LGRANT, VLMAX, VILL, VSTOP. -/
def Thread.openStrip (t : Thread) (octs : Nat) (vcfg : Nat) : Thread :=
  let n := onesN 8 octs
  let vlmax := vlmaxOf n vcfg
  let t := { t with strip := t.strip + 1, octets := BitVec.ofNat 8 octs, stripOct := n, carried := false, vlmax := vlmax }
  (t.setVstop 0).setVcfg (word (bitsN vcfg 0 63 + boolN (villOf (bitsN vcfg 0 63) vlmax) * 2 ^ 63))

/-- VCFG.VILL (R28). -/
def Thread.vill (t : Thread) : Bool := bitN t.vcfg.toNat 63

/-- The strip of the running thread opened with a VCFG, in the thread's record and at its core. -/
def State.stripOpen (s : State) (h : Nat) (t : Thread) (vcfg : Nat) : State × Thread :=
  let t' := t.openStrip ((s.coreAt t.core).sample t.slot) vcfg
  ((s.markDrains t.core t.slot (t.strip + 1)).setTh h t', t')

/-- The grant of R29. -/
def grant (avl vlmax : Nat) : Nat := min avl (vlmax / 64 * 64)

/-- setvl and setvli (R29, R28): AVL, the grant, and sd. -/
def setvlBody (d : BitVec 5) (avl : Thread → Word) (s : State) (h : Nat) (t : Thread) : SRes :=
  let x := avl t
  let r := s.stripOpen h t t.vcfg.toNat
  let g := if r.2.vill then 0 else grant x.toNat r.2.vlmax
  .done (r.1.setTh h (({ r.2 with avl := x }.setVl g).setReg d (word g)))

/-- setvl (R29). -/
def execSetvl (d a : BitVec 5) (s : State) : Host.Outcome State Fault Refusal :=
  scalarStep (.setvl d a) (setvlBody d fun t => t.reg a) s

/-- setvli (R29). -/
def execSetvli (d : BitVec 5) (l : BitVec 15) (s : State) : Host.Outcome State Fault Refusal :=
  scalarStep (.setvli d l) (setvlBody d fun _ => l.zeroExtend 64) s

/-- setcfg (R29, R152). -/
def setcfgBody (d a : BitVec 5) (s : State) (h : Nat) (t : Thread) : SRes :=
  let r := s.stripOpen h t (t.reg a).toNat
  .done (r.1.setTh h ((r.2.setVl 0).setReg d (if r.2.vill then 0 else word r.2.vlmax)))

/-- setcfg (R29). -/
def execSetcfg (d a : BitVec 5) (s : State) : Host.Outcome State Fault Refusal :=
  scalarStep (.setcfg d a) (setcfgBody d a) s

/-- The claim record read and advanced at its home (R42): the old counter and the grant. -/
def State.claimAt (s : State) (h : Nat) (t : Thread) (loc : Loc) (g0 : Nat) : Acc (State × Nat × Nat) :=
  (s.readLoc h t .V loc 16).bind fun r =>
    let old := leNat (r.2.take 8)
    let limit := leNat (r.2.drop 8)
    let g := min g0 (limit - old)
    (r.1.storeLoc h t .V .plain loc (leBytes 16 ((old + g) % 2 ^ 64 + limit * 2 ^ 64))).bind fun s => .ok (s, old, g)

/-- vclaim (R42, R28). -/
def vclaimBody (d a b : BitVec 5) (s : State) (h : Nat) (t : Thread) : SRes :=
  let va := (t.reg a).toNat
  let avl := t.reg b
  let r := s.stripOpen h t t.vcfg.toNat
  if r.2.vill then .done (r.1.setTh h ((r.2.setVl 0).setReg d 0))
  else match s.checkAccess t .S .atomic va 16 with
  | .error c => .trap s (trapHere t c va)
  | .ok loc =>
    if t.vwaiting then .wait s .hold
    else match (s.cachePage t va).claimAt h t loc (grant avl.toNat r.2.vlmax) with
    | .trap c => .trap s (trapHere t c va)
    | .hold => .wait s .hold
    | .ok (s, old, g) =>
      let s := (s.countAtomic h 16 loc).markDrains t.core t.slot (t.strip + 1)
      .done (s.modTh h fun t => (({ t.openStrip ((s.coreAt t.core).sample t.slot) t.vcfg.toNat with avl := avl }.setVl g).setReg d
        (word old)))

/-- vclaim (R42). -/
def execVclaim (d a b : BitVec 5) (s : State) : Host.Outcome State Fault Refusal :=
  scalarStep (.vclaim d a b) (vclaimBody d a b) s

/-- Two ranges of counter words share a value (R199). -/
def rangesMeet (b1 n1 b2 n2 : Nat) : Bool :=
  decide (0 < n1) && decide (0 < n2) &&
    (decide ((b2 + 2 ^ 32 - b1) % 2 ^ 32 < n1) || decide ((b1 + 2 ^ 32 - b2) % 2 ^ 32 < n2))

/-- The registry's answer to a claim record (R199): the claim and the result word. -/
def claimResult (reg : Table Claim) (c : Claim) : Option Nat × Nat × Option Nat :=
  let clash := (reg.find? fun x => x.2.key == c.key && x.2.prefix_ == c.prefix_ && rangesMeet x.2.base x.2.count c.base c.count).map (·.1)
  let free := lowestFree (reg.map (·.1)) 256 0
  let cause : Nat := if c.count = 0 then 2 else if free = none then 1 else 0
  let word := packN [(if cause = 0 then free.getD 0 else 0, 0), (clash.getD 0, 8), (cause, 56), (boolN clash.isSome, 62), (boolN (cause != 0), 63)]
  (if cause = 0 then free else none, word, clash)

/-- A claim record's bytes as a claim of a task (R199). -/
def claimOf (x0 x1 x2 task : Nat) : Claim :=
  { key := word x0, prefix_ := word x1, base := bitsN x2 0 32, count := bitsN x2 32 32, task := task }

/-- The registration of a claim at the thread's partition, and what the thread records of it (R199, R201). -/
def State.registerClaim (s : State) (h : Nat) (t : Thread) (d : BitVec 5) (c : Claim) : State :=
  match s.partAt t.part with
  | none => s
  | some p =>
    let r := claimResult p.registry c
    let s := match r.1 with
      | some n => s.setPart t.part { p with registry := tset p.registry n c }
      | none => s
    s.modTh h fun t =>
      let t := match r.2.2 with
        | some w => { t with overlaps := satBits t.overlaps, lastOverlap := BitVec.ofNat 8 w }
        | none => t
      t.setReg d (word r.2.1)

/-- rclaim (R199). Where the record's second or third doubleword fails its check, TADDR is the record's address: which address it is
R199 leaves open (log 64). -/
def rclaimBody (d a : BitVec 5) (s : State) (h : Nat) (t : Thread) : SRes :=
  let va := (t.reg a).toNat
  let read := (s.scalarRead h t va 8).bind fun r0 => (r0.1.scalarRead h t (va + 8) 8).bind fun r1 =>
    (r1.1.scalarRead h t (va + 16) 8).bind fun r2 => .ok (r2.1, claimOf r0.2 r1.2 r2.2 t.task)
  match read with
  | .trap c => .trap s (trapHere t c va)
  | .hold => .wait s .hold
  | .ok (s, c) => .done (s.registerClaim h t d c)

/-- rclaim (R199). -/
def execRclaim (d a : BitVec 5) (s : State) : Host.Outcome State Fault Refusal :=
  scalarStep (.rclaim d a) (rclaimBody d a) s

/-- rfree (R200). -/
def rfreeBody (d a : BitVec 5) (s : State) (h : Nat) (t : Thread) : SRes :=
  let x := (t.reg a).toNat
  if 256 ≤ x then .done (s.setTh h (t.setReg d 2))
  else match s.partAt t.part with
  | none => .done (s.setTh h (t.setReg d 1))
  | some p =>
    let used := (tget p.registry x).isSome
    .done ((s.setPart t.part { p with registry := tdel p.registry x }).setTh h (t.setReg d (if used then 0 else 1)))

/-- rfree (R200). -/
def execRfree (d a : BitVec 5) (s : State) : Host.Outcome State Fault Refusal :=
  scalarStep (.rfree d a) (rfreeBody d a) s

end Sys2Proof.Machine
end

