-- ==== Sys2Proof/Machine/Operands.lean ====
section
/-!
DEFINITION. Operands of queued instructions: a queue entry's configuration (R143), register groups as bit strings (R144),
group checks (R145), masks (R150), the write of R102, and format descriptors (R52, R53, R147).
-/
namespace Sys2Proof.Machine

/-- What performing a queued instruction comes to: it commits with flags and perhaps an entry for its queue register; a
trap at the VCP (cause, element, address, VSTART where the instruction states one); held at a home; or it waits. -/
inductive VOut where
  | ok (s : State) (flags : Nat) (q : Option Word)
  | trap (s : State) (cause elem addr : Nat) (vstart : Option Nat)
  | hold
  | wait (s : State)
deriving DecidableEq, Repr

/-- The illegal-instruction trap at the VCP (R86). -/
def VOut.illegal (s : State) : VOut := .trap s 1 0 0 none

/-- The configuration an entry carries (R143): SEW in bytes and bits, LMUL, TAIL, MPOL, SLICES. -/
def QEntry.w (e : QEntry) : Nat := 2 ^ bitsN e.vcfg.toNat 0 3
def QEntry.sew (e : QEntry) : Nat := 8 * e.w
def QEntry.lmul (e : QEntry) : Nat := 2 ^ bitsN e.vcfg.toNat 3 2
def QEntry.tail (e : QEntry) : Bool := bitN e.vcfg.toNat 5
def QEntry.mpol (e : QEntry) : Bool := bitN e.vcfg.toNat 6
def QEntry.slices (e : QEntry) : Nat := bitsN e.vcfg.toNat 11 3

/-- Bytes of one vector register in the entry's strip: 256 for each octet (R22, R27, R144). -/
def QEntry.regLen (e : QEntry) : Nat := e.vlmax * e.w / e.lmul

/-- The captured scalar n, and the captured descriptor, which stands last (R328). -/
def QEntry.op (e : QEntry) (n : Nat) : Word := e.ops.getD n 0
def QEntry.desc (e : QEntry) : Word := e.ops.getLast?.getD 0

/-- The registers that n elements of a width in bits fill, at least one (R145). -/
def QEntry.emul (e : QEntry) (bits : Nat) : Nat := max 1 (e.lmul * bits / e.sew)

/-- Two register groups share a register. -/
def overlaps (a n b m : Nat) : Bool := decide (a < b + m) && decide (b < a + n)

/-- R81 and R145 on a word's groups, (first register, registers): aligned, at most 8, no overlap of different sizes. -/
def groupsOk (gs : List (Nat × Nat)) : Bool :=
  gs.all (fun g => decide (g.2 ≤ 8) && g.1 % g.2 == 0) &&
    gs.all fun g => gs.all fun k => g.2 == k.2 || !overlaps g.1 g.2 k.1 k.2

/-- n bytes from an address of a store whose cells below it have been dropped. -/
def takeBytes : Nat → Memory → Nat → List Byte
  | 0, _, _ => []
  | n + 1, [], a => 0 :: takeBytes n [] (a + 1)
  | n + 1, (k, v) :: r, a => if k = a then v :: takeBytes n r (a + 1) else 0 :: takeBytes n ((k, v) :: r) (a + 1)

/-- n bytes from an address, in one pass. -/
def mread (m : Memory) (a n : Nat) : List Byte := takeBytes n (m.dropWhile fun c => decide (c.1 < a)) a

/-- Bytes as cells from an address, zeros not listed. -/
def cellsOf : Nat → List Byte → Memory
  | _, [] => []
  | a, b :: r => if b = 0 then cellsOf (a + 1) r else (a, b) :: cellsOf (a + 1) r

/-- The store with bytes written from an address, in one pass. -/
def mwrite (m : Memory) (a : Nat) (bytes : List Byte) : Memory :=
  m.takeWhile (fun c => decide (c.1 < a)) ++ cellsOf a bytes ++ m.dropWhile fun c => decide (c.1 < a + bytes.length)

/-- n elements of w bytes (R144). -/
def elemsOf (w : Nat) : Nat → List Byte → List Nat
  | 0, _ => []
  | n + 1, b => leNat (b.take w) :: elemsOf w n (b.drop w)

/-- Elements as bytes of w each. -/
def bytesOf (w : Nat) (l : List Nat) : List Byte := l.flatMap (leBytes w)

/-- The first register of the group in which a register was written last: its bit string stands from there on (R144, log 9). -/
def Thread.vbase (t : Thread) (reg : Nat) : Nat := tgetD t.vspan reg reg

/-- The bytes of a register of len bytes: a piece of the bit string of the group it was last written in, whatever the length of the
strips between (R144, R368); zeros where it has been released or zeroed since. -/
def Thread.regBytes (t : Thread) (len reg : Nat) : List Byte :=
  if t.vbase reg = 64 then List.replicate len 0 else mread t.vregs (t.vbase reg * 16384 + (reg - t.vbase reg) * len) len

/-- The bit string of a register group (R144), for registers of len bytes. -/
def Thread.group (t : Thread) (len reg n : Nat) : List Byte := (upTo n).flatMap fun i => t.regBytes len (reg + i)

/-- Of registers from the i-th of the group that begins at reg, the written ones become its own. -/
def spanPut (m : Table Nat) (reg : Nat) : Nat → List Bool → Table Nat
  | _, [] => m
  | i, w :: ws => spanPut (if w then (if i = 0 then tdel m reg else tset m (reg + i) reg) else m) reg (i + 1) ws

/-- Of pieces of len bytes from a cell on, the written ones stored. -/
def putCells (m : Memory) (a len : Nat) : List Bool → List Byte → Memory
  | [], _ => m
  | w :: ws, b => putCells (if w then mwrite m a (b.take len) else m) (a + len) len ws (b.drop len)

/-- The cells of the bit string from a register on, emptied where no register belongs to it any more and no group is bound, whose own
contents would stand there under a stream's elements (R227). -/
def Thread.stringAt (t : Thread) (reg : Nat) : Memory :=
  if !t.binds.isEmpty || (upTo 8).any fun i => t.vbase (reg + i) == reg then t.vregs else mclear t.vregs (reg * 16384) (reg * 16384 + 16384)

/-- The bits of a group's registers in the live set (R336). -/
def liveBits (reg n : Nat) : BitVec 64 := BitVec.ofNat 64 (packN ((upTo n).map fun i => (1, reg + i)))

/-- The registers of a group from reg, of len bytes each, of which those that ws names are written from b: they become the group's, and
the others stay what they were (R144, R368; log 9). All become live (R336). A group has at most 8 registers (R145). -/
def Thread.putRegs (t : Thread) (len reg : Nat) (ws : List Bool) (b : List Byte) : Thread :=
  { t with
    vregs := putCells (t.stringAt reg) (reg * 16384) len ws b
    vspan := spanPut t.vspan reg 0 (ws.take 8)
    vlive := t.vlive ||| liveBits reg ws.length }

/-- Registers released or zeroed read as zero and belong to no group, which `vspan` says by 64 (R161, R297). -/
def Thread.clearRegs (t : Thread) (reg n : Nat) : Thread :=
  { t with vspan := (upTo n).foldl (fun m i => tset m (reg + i) 64) t.vspan }

/-- Registers written with zeros (R297). -/
def Thread.zeroRegs (t : Thread) (reg n : Nat) : Thread := (t.clearRegs reg n).setVlive (t.vlive ||| liveBits reg n)

/-- Which of n pieces of k elements hold a written one. -/
def touched (k : Nat) : Nat → List Bool → List Bool
  | 0, _ => []
  | n + 1, l => (l.take k).any id :: touched k n (l.drop k)

/-- The registers that n elements of w bytes fill, at least one. -/
def QEntry.spanOf (e : QEntry) (w n : Nat) : Nat := max 1 ((n * w + e.regLen - 1) / max 1 e.regLen)

/-- The first n elements of w bytes of the group from a register. -/
def Thread.elems (t : Thread) (e : QEntry) (reg : BitVec 6) (w n : Nat) : List Nat :=
  elemsOf w n (t.group e.regLen reg.toNat (e.spanOf w n))

/-- Elements of w bytes from element 0 of the group from a register, of which `wrote` names those that are written; the bytes above them
stand. A register with no written element stays as it is. -/
def Thread.putSome (t : Thread) (e : QEntry) (reg : BitVec 6) (w : Nat) (wrote : List Bool) (l : List Nat) : Thread :=
  let n := e.spanOf w l.length
  let b := bytesOf w l
  t.putRegs e.regLen reg.toNat (touched (e.regLen / w) n wrote) (b ++ (t.group e.regLen reg.toNat n).drop b.length)

/-- Elements of w bytes written from element 0 of the group from a register. -/
def Thread.putElems (t : Thread) (e : QEntry) (reg : BitVec 6) (w : Nat) (l : List Nat) : Thread :=
  t.putSome e reg w (List.replicate l.length true) l

/-- Bits of bytes, lowest first. -/
def bitsOf (b : List Byte) : List Bool := b.flatMap fun x => (upTo 8).map fun i => bitN x.toNat i

/-- n bytes made from bits, lowest first. -/
def packBits : Nat → List Bool → List Byte
  | 0, _ => []
  | n + 1, b => BitVec.ofNat 8 (packN ((upTo 8).map fun i => (boolN (b.getD i false), i))) :: packBits n (b.drop 8)

/-- The first n bits of a mask register; k0 reads as all-true (R6). -/
def Thread.kbits (t : Thread) (k n : Nat) : List Bool :=
  if k = 0 then List.replicate n true else (bitsOf (mread t.masks (k * 2048) ((n + 7) / 8))).take n

/-- The low bits of a mask register written; a write to k0 is discarded (R150). -/
def Thread.putK (t : Thread) (k : Nat) (b : List Bool) : Thread :=
  if k = 0 then t
  else
    let n := (b.length + 7) / 8
    let old := bitsOf (mread t.masks (k * 2048) n)
    t.setMasks (mwrite t.masks (k * 2048) (packBits n (b ++ old.drop b.length)))

/-- The governing mask of an entry (R89, R101). -/
def maskNo (e : QEntry) (i : Instr) : Nat := if featP e.feat then featMask e.feat else ((kmOf i).map (·.toNat)).getD 0

/-- active(e) for e below n (R101). -/
def actives (t : Thread) (e : QEntry) (i : Instr) (n : Nat) : List Bool := t.kbits (maskNo e i) n

/-- present(e) for e below n (R101). -/
def presents (t : Thread) (e : QEntry) (i : Instr) (n : Nat) : List Bool :=
  (actives t e i e.vl).take n ++ List.replicate (n - e.vl) false

/-- The elements that write leaves (R102): from element i on, by VSTART, presence, MPOL and TAIL. -/
def mergeGo (vs vl : Nat) (mpol tail : Bool) : Nat → List Bool → List Nat → List Nat → List Nat
  | i, p :: ps, o :: os, n :: ns =>
    (if i < vs then o else if p then n else if i < vl then (if mpol then 0 else o) else if tail then 0 else o) ::
      mergeGo vs vl mpol tail (i + 1) ps os ns
  | _, _, _, _ => []

/-- The elements that write writes (R102), from element i on. -/
def wroteGo (vs vl : Nat) (mpol tail : Bool) : Nat → List Bool → List Bool
  | _, [] => []
  | i, p :: ps => (decide (vs ≤ i) && (p || if i < vl then mpol else tail)) :: wroteGo vs vl mpol tail (i + 1) ps

/-- The elements that write writes (R102). -/
def wroteW (e : QEntry) (vs : Nat) (pres : List Bool) : List Bool := wroteGo vs e.vl e.mpol e.tail 0 pres

/-- write for every element of a group (R102). -/
def mergeW (e : QEntry) (vs : Nat) (pres : List Bool) (old new : List Nat) : List Nat :=
  mergeGo vs e.vl e.mpol e.tail 0 pres old new

/-- DREG's group receives the destination group's elements from VSTART up to a limit (R89). -/
def Thread.copyBelow (t : Thread) (e : QEntry) (w : Nat) (vd : BitVec 6) (lim : Nat) : Thread :=
  if featD e.feat then
    let dr := BitVec.ofNat 6 (featDreg e.feat)
    let old := t.elems e dr w e.vlmax
    let new := t.elems e vd w e.vlmax
    let hi := max lim t.vstart
    t.putSome e dr w ((upTo e.vlmax).map fun k => decide (t.vstart ≤ k) && decide (k < hi))
      (old.take t.vstart ++ ((new.take hi).drop t.vstart) ++ old.drop hi)
  else t

/-- DREG's group receives the destination group's elements from VSTART to VLMAX - 1 (R89). -/
def Thread.copyGroup (t : Thread) (e : QEntry) (w : Nat) (vd : BitVec 6) : Thread := t.copyBelow e w vd e.vlmax

/-- R86 on DREG: its group is aligned and does not overlap the destination group of n registers (R89). -/
def dregOk (e : QEntry) (vd : BitVec 6) (n : Nat) : Bool :=
  !featD e.feat || (featDreg e.feat % n == 0 && !overlaps (featDreg e.feat) n vd.toNat n)

/-- A vector destination of width w bytes written through R102, its copy made (R89). -/
def Thread.writeVec (t : Thread) (e : QEntry) (vd : BitVec 6) (w : Nat) (pres : List Bool) (new : List Nat) : Thread :=
  let old := t.elems e vd w e.vlmax
  (t.putSome e vd w (wroteW e t.vstart pres) (mergeW e t.vstart pres old new)).copyGroup e w vd

/-- A vector destination whose elements are given outright: results first, then the tail up to VLMAX under TAIL (R171,
R173, R176). -/
def Thread.writeTail (t : Thread) (e : QEntry) (vd : BitVec 6) (w : Nat) (new : List Nat) : Thread :=
  let old := t.elems e vd w e.vlmax
  let rest := if e.tail then List.replicate (e.vlmax - new.length) 0 else old.drop new.length
  (t.putSome e vd w (new.map (fun _ => true) ++ List.replicate (e.vlmax - new.length) e.tail) (new ++ rest)).copyGroup e w vd

/-- A mask destination written through R150. -/
def Thread.writeMask (t : Thread) (e : QEntry) (kd : Nat) (pres : List Bool) (new : List Bool) : Thread :=
  let old := (t.kbits kd e.vlmax).map boolN
  t.putK kd ((mergeW e t.vstart pres old (new.map boolN)).map fun x => x == 1)

/-- A descriptor whose reserved bits are valid (R53). -/
def descBase (d : Word) : Bool := fieldW d 31 33 == 0

/-- A descriptor of an instruction that rounds, and so reads RND: codes 6 and 7 are invalid (R53, R147). Where RND is not read it is not
checked (R52, R183; log 19). -/
def descRnd (d : Word) : Bool := descBase d && decide (dRnd d ≤ 5)

/-- The descriptor forms of R147. -/
inductive DForm where
  | int2 | int1 | fp2 | fp1 | sqrt | trans | afp | cmpI | cmpF | cmpX | cvt | red2 | fred2 | redEq | fredEq | arg
deriving DecidableEq, Repr

/-- The forms of instructions that round with RND (R55, R147). -/
def DForm.rounds : DForm → Bool
  | .fp2 | .fp1 | .sqrt | .cvt | .fred2 => true
  | .int2 | .int1 | .trans | .afp | .cmpI | .cmpF | .cmpX | .red2 | .redEq | .fredEq | .arg => false

/-- FP16, BF16, FP32 or FP64 (R147). -/
def isFp4 (c : Nat) : Bool := decide (0x10 ≤ c) && decide (c ≤ 0x13)

/-- A code of a kind at a width. -/
def fmtAt (ok : Nat → Bool) (bits c : Nat) : Bool := ok c && fmtBits c == bits

/-- The descriptor is one that a form accepts for SEW in bits (R53, R147). -/
def descOk (form : DForm) (sew : Nat) (d : Word) : Bool :=
  let a := dAfmt d
  let b := dBfmt d
  let c := dDfmt d
  let two := fun ok x => fmtAt ok sew x || fmtAt ok (2 * sew) x
  descBase d && (!form.rounds || descRnd d) &&
  match form with
  | .int2 => fmtAt isIntFmt sew a && fmtAt isIntFmt sew b && two isIntFmt c
  | .int1 => fmtAt isIntFmt sew a && fmtAt isIntFmt sew b && fmtAt isIntFmt sew c
  | .fp2 => fmtAt isFp4 sew a && fmtAt isFp4 sew b && two isFp4 c
  | .fp1 => fmtAt isFp4 sew a && fmtAt isFp4 sew b && fmtAt isFp4 sew c
  | .sqrt => fmtAt isFp4 sew a && fmtAt isFp4 sew c
  | .trans => fmtAt (fun x => x == 0x11 || x == 0x12) sew a && c == a
  | .afp => fmtAt isFp4 sew a
  | .cmpI => fmtAt isIntFmt sew a && fmtAt isIntFmt sew b
  | .cmpF => fmtAt isFp4 sew a && fmtAt isFp4 sew b
  | .cmpX => (fmtAt isIntFmt sew a && fmtAt isIntFmt sew b) || (fmtAt isFp4 sew a && fmtAt isFp4 sew b)
  | .cvt => fmtAt (fun x => isIntFmt x || isFpFmt x) sew a && (isIntFmt c || isFpFmt c)
  | .red2 => fmtAt isIntFmt sew a && two isIntFmt c
  | .fred2 => fmtAt isFp4 sew a && two isFp4 c
  | .redEq => fmtAt isIntFmt sew a && c == a
  | .fredEq => fmtAt isFp4 sew a && c == a
  | .arg => fmtAt (fun x => isIntFmt x || isFp4 x) sew a && c == a && decide (16 ≤ sew)

end Sys2Proof.Machine
end

