-- ==== Sys2Proof/Machine/Flags.lean ====
section
/-!
DEFINITION. Flags of vector instructions: the union over the elements that an instruction writes (R56), and the mask of
saturated elements (R59).
-/
namespace Sys2Proof.Machine

/-- An element's result: its pattern and the flags it raises (R56). -/
abbrev ERes := Nat × Nat

/-- Results for the present elements at and above VSTART, from element i on; others compute nothing. -/
def mapPres (vs : Nat) (f : Nat → Nat → Nat → ERes) : Nat → List Bool → List Nat → List Nat → List Nat → List ERes
  | i, p :: ps, a :: as, b :: bs, c :: cs => (if vs ≤ i ∧ p then f a b c else (0, 0)) :: mapPres vs f (i + 1) ps as bs cs
  | _, _, _, _, _ => []

/-- The flags of an instruction: those of its elements joined (R56). -/
def joinFlags (l : List ERes) : Nat := l.foldl (fun f x => f ||| x.2) 0

/-- The mask named by FMASK gains the bits of the saturated elements, when SATEN is 1 (R59). -/
def Thread.markSat (t : Thread) (d : Word) (l : List ERes) : Thread :=
  if dSaten d then
    let old := t.kbits (dFmask d) l.length
    t.putK (dFmask d) ((old.zip l).map fun x => x.1 || bitN x.2.2 5)
  else t

end Sys2Proof.Machine
end

