-- ==== Sys2Proof/Machine/VMem.lean ====
section
/-!
DEFINITION. Vector memory: majors 0x2A-0x2C and 0x32 (R153-R159, R170, R249).
-/
namespace Sys2Proof.Machine

/-- How the stores of a queue entry are made (R219, R220). -/
def State.entryMode (s : State) (e : QEntry) : StoreMode :=
  match e.bundle with
  | none => .plain
  | some b =>
    match tget s.bundles b with
    | some bu => if bu.stage = .aborted then .discard else .bundle b
    | none => .discard

/-- The check of one element (R154, R105): the trap cause, if any. -/
def State.elemFault (s : State) (t : Thread) (mode : StoreMode) (kind : Kind) (va w : Nat) : Option Nat :=
  match s.checkAccess t .V kind va w with
  | .error c => some c
  | .ok (.dram pa place) =>
    let write := kind == .store || kind == .atomic
    if kind != .store && s.lineError pa w then some 6
    else if write && mode != .discard && decide (0 < s.sealCount (pa / 128)) then some 5
    else if kind == .store && (place == 4 || (pkgOf pa != s.pkg && !s.podFeature 0)) && (match mode with | .bundle _ => true | _ => false)
      then some 5
    else none
  | .ok _ => if kind == .store && (match mode with | .bundle _ => true | _ => false) then some 5 else none

/-- Elements with their addresses: index and address. -/
abbrev Items := List (Nat × Nat)

/-- The lowest element that fails its check: index, address, cause (R154). -/
def State.firstFault (s : State) (t : Thread) (mode : StoreMode) (kind : Kind) (w : Nat) : Items → Option (Nat × Nat × Nat)
  | [] => none
  | (i, va) :: r =>
    match s.elemFault t mode kind va w with
    | some c => some (i, va, c)
    | none => s.firstFault t mode kind w r

/-- The present elements at and above VSTART with their addresses, element i first (R153). -/
def itemsGo (vs : Nat) : Nat → List Bool → List Nat → Items
  | i, p :: ps, a :: as => if vs ≤ i ∧ p then (i, a) :: itemsGo vs (i + 1) ps as else itemsGo vs (i + 1) ps as
  | _, _, _ => []

/-- The DRAM lines of elements, each once, in rising order. -/
def State.itemLines (s : State) (t : Thread) (kind : Kind) (w : Nat) (items : Items) : List Nat :=
  sortN (items.filterMap fun x => match s.locate t .V kind x.2 w with
    | .ok (.dram pa _) => some (pa / 128)
    | _ => none)

/-- What an instruction's elements count: a line request for each line of each element group, grp elements a group (R249, R251), and
the bytes of those in the host window (R232); their translations stand in the caches (R238). -/
def State.countItems (s : State) (h : Nat) (t : Thread) (kind : Kind) (w grp : Nat) (items : Items) : State :=
  let keys := sortN (items.filterMap fun x => match s.locate t .V kind x.2 w with
    | .ok (.dram pa _) => some (x.1 / grp * 2 ^ 64 + pa / 128)
    | _ => none)
  let host := (items.filter fun x => match s.locate t .V kind x.2 w with
    | .ok (.host _) => true
    | _ => false).length
  let s := items.foldl (fun s x => s.cachePage t x.2) s
  let s := keys.foldl (fun s k => s.countReq h 0 (k % 2 ^ 64 * 128) 1) s
  if host = 0 then s else s.countHostBytes h (host * w)

/-- An element's read is held: its line is owned by a copy engine, its home cannot be reached, or the thread's own records are on
their way to the inbox it reads (R215, R389, R158). -/
def State.readHeld (s : State) (h : Nat) (t : Thread) (w va : Nat) : Bool :=
  match s.locate t .V .load va w with
  | .ok (.dram pa _) => !s.routed pa || (s.ownerOf (pa / 128)).isSome
  | .ok (.bank c b _) => s.inboxComing h .V c b
  | _ => false

/-- The elements read, after their checks (R153, R158-R160): the tags of their lines are met first (R360), and
a second time for stale elements (R361). -/
def State.readItems (s : State) (h : Nat) (t : Thread) (w : Nat) (items : Items) : Acc (State × Items) :=
  let lines := s.itemLines t .load w items
  if items.any fun x => s.readHeld h t w x.2 then .hold
  else
    let s := lines.foldl (fun s l => (s.recall none l).meetTags h l) s
    let s := lines.foldl (fun s l => s.meetTags h l) s
    let val := fun va => match s.locate t .V .load va w with
      | .ok (.dram pa _) => leNat (s.lineBytes h pa w)
      | .ok (.bank c b off) => leNat (mread (s.coreAt c).banks (b * 65536 + off) w)
      | .ok (.host ha) => leNat (mgetN s.hostMem ha w)
      | _ => 0
    .ok (s, items.map fun x => (x.1, val x.2))

/-- Elements stored one after another: address and value. -/
def State.storeItems (s : State) (h : Nat) (t : Thread) (mode : StoreMode) (w : Nat) : Items → Acc State
  | [] => .ok s
  | (va, x) :: r =>
    match s.locate t .V .store va w with
    | .ok loc => (s.storeLoc h t .V mode loc (leBytes w x)).bind fun s => s.storeItems h t mode w r
    | .error c => .trap c

/-- vamo elements performed one after another (R153, R116): index, address and operand; the old values. -/
def State.amoItems (s : State) (h : Nat) (t : Thread) (op : AmoOp) (w : Nat) : List (Nat × Nat × Nat) → Acc (State × Items)
  | [] => .ok (s, [])
  | (i, va, b) :: r =>
    match s.locate t .V .atomic va w with
    | .error c => .trap c
    | .ok loc => (s.atomicAt h t op loc w b 0).bind fun x => (x.1.amoItems h t op w r).bind fun y => .ok (y.1, (i, x.2) :: y.2)

/-- An order of a list that free values choose (R157, log 6). -/
def shuffle {α : Type} : Nat → Nat → List α → List α
  | 0, _, l => l
  | n + 1, k, l =>
    let i := Config.freeNat k % max 1 l.length
    match l[i]? with
    | some x => x :: shuffle n (k + 1) (l.eraseIdx i)
    | none => l

/-- A location as one number, whatever page leads to it. -/
def locKey : Loc → Nat
  | .dram pa _ => pa
  | .bank c b off => 2 ^ 60 + c * 2 ^ 20 + b * 65536 + off
  | .fifo c b tail => 2 ^ 61 + c * 32 + b * 2 + boolN tail
  | .counter i => 2 ^ 62 + i
  | .chorus off => 2 ^ 63 + off
  | .host ha => 2 ^ 64 + ha

/-- Two elements reach one location, through one virtual address or two (R157). -/
def State.collide (s : State) (t : Thread) (kind : Kind) (w : Nat) (items : Items) : Bool :=
  (sortN (items.filterMap fun x => (s.locate t .V kind x.2 w).toOption.map locKey)).length != items.length

/-- A list of indexed values spread over n places from place i; 0 elsewhere. -/
def spread : Nat → Nat → Items → List Nat
  | 0, _, _ => []
  | n + 1, i, [] => 0 :: spread n (i + 1) []
  | n + 1, i, (k, v) :: r => if k = i then v :: spread n (i + 1) r else 0 :: spread n (i + 1) ((k, v) :: r)

/-- Pairs in rising order of their first parts. -/
def sortPairs (l : Items) : Items := l.foldl (fun m x => tset m x.1 x.2) []

/-- Element addresses (R153): unit stride, byte stride, indices. -/
def unitAddrs (base : Word) (w n : Nat) : List Nat := (upTo n).map fun i => (base + word (i * w)).toNat
def strideAddrs (base stride : Word) (n : Nat) : List Nat := (upTo n).map fun i => (base + word i * stride).toNat
def indexAddrs (base : Word) (ix : List Nat) : List Nat := ix.map fun x => (base + word x).toNat

/-- The destination, and its copy (R89), as a load or vamo leaves it: all of it, or for a trap the elements below the new VSTART
(R154, log 25). -/
def Thread.loadDest (t : Thread) (e : QEntry) (vd : BitVec 6) (pres : List Bool) (vals : Items) (lim : Option Nat) : Thread :=
  let new := spread e.vlmax 0 (sortPairs vals)
  match lim with
  | none => t.writeVec e vd e.w pres new
  | some l =>
    let old := t.elems e vd e.w e.vlmax
    let cut := max l t.vstart
    (t.putSome e vd e.w ((wroteW e t.vstart pres).take cut) ((mergeW e t.vstart pres old new).take cut ++ old.drop cut)).copyBelow e e.w vd l

/-- A load of the given elements (R153, R154). -/
def loadOut (s : State) (h : Nat) (t : Thread) (e : QEntry) (vd : BitVec 6) (pres : List Bool) (addrs : List Nat) : VOut :=
  let items := itemsGo t.vstart 0 pres addrs
  match s.firstFault t .plain .load e.w items with
  | none =>
    match s.readItems h t e.w items with
    | .ok (s', vals) => .ok ((s'.countItems h t .load e.w 64 items).modTh h fun t => t.loadDest e vd pres vals none) 0 none
    | .hold => .hold
    | .trap c => .trap s c 0 0 none
  | some (f, va, c) =>
    let lim := 64 * (f / 64)
    let done := items.filter fun x => decide (x.1 < lim)
    match s.readItems h t e.w done with
    | .ok (s', vals) =>
      .trap ((s'.countItems h t .load e.w 64 done).modTh h fun t => t.loadDest e vd pres vals (some lim)) c f va (some lim)
    | .hold => .hold
    | .trap c => .trap s c 0 0 none

/-- A store of the given elements of w bytes, grp to an element group, in ascending order when `ordered` (R153, R154, R157). -/
def storeOut (s : State) (h : Nat) (t : Thread) (e : QEntry) (ordered : Bool) (w grp : Nat) (items : Items)
    (vals : List Nat) : VOut :=
  let mode := s.entryMode e
  let run := fun (s : State) (l : Items) =>
    let pairs := l.map fun x => (x.2, vals.getD x.1 0)
    let free := !ordered && s.collide t .store w l
    let pairs := if free then shuffle pairs.length s.freeCtr pairs else pairs
    (s.storeItems h t mode w pairs).bind fun s' =>
      let s' := s'.countItems h t .store w grp l
      .ok (if free then { s' with freeCtr := s'.freeCtr + pairs.length } else s')
  match s.firstFault t mode .store w items with
  | none =>
    match run s items with
    | .ok s => .ok s 0 none
    | .hold => .hold
    | .trap c => .trap s c 0 0 none
  | some (f, va, c) =>
    let lim := grp * (f / grp)
    match run s (items.filter fun x => decide (x.1 < lim)) with
    | .ok s => .trap s c f va (some lim)
    | .hold => .hold
    | .trap c => .trap s c 0 0 none

/-- The groups of a vector memory word and its DREG are as R145 and R86 ask. -/
def memGroups (e : QEntry) (dest : Option (BitVec 6)) (gs : List (BitVec 6)) : Bool :=
  groupsOk (gs.map fun g => (g.toNat, e.lmul)) &&
    match dest with
    | some d => dregOk e d e.lmul
    | none => true

/-- vld, vlds, vldx, vldxo performed (R153). -/
def perfLoad (i : Instr) (vd : BitVec 6) (gs : List (BitVec 6)) (addrs : Thread → QEntry → List Nat) (s : State) (h : Nat)
    (t : Thread) (e : QEntry) : VOut :=
  if ¬ memGroups e (some vd) gs then .illegal s
  else loadOut s h t e vd (presents t e i e.vlmax) (addrs t e)

/-- vst, vsts, vstx, vstxo performed (R153, R157). -/
def perfStore (i : Instr) (vd : BitVec 6) (gs : List (BitVec 6)) (ordered : Bool) (addrs : Thread → QEntry → List Nat) (s : State)
    (h : Nat) (t : Thread) (e : QEntry) : VOut :=
  if ¬ memGroups e none gs then .illegal s
  else storeOut s h t e ordered e.w 64 (itemsGo t.vstart 0 (presents t e i e.vl) (addrs t e)) (t.elems e vd e.w e.vl)

/-- The addresses of the forms of R153. -/
def aUnit (_ : Thread) (e : QEntry) : List Nat := unitAddrs (e.op 0) e.w e.vlmax
def aStride (_ : Thread) (e : QEntry) : List Nat := strideAddrs (e.op 0) (e.op 1) e.vlmax
def aIndex (vb : BitVec 6) (t : Thread) (e : QEntry) : List Nat := indexAddrs (e.op 0) (t.elems e vb e.w e.vlmax)

/-- vldff performed (R156). One that traps writes no bit of kf: whether it has written those below the new VSTART, which its restart
leaves alone, the spec does not say (log 76). -/
def perfLdff (i : Instr) (vd : BitVec 6) (kf : BitVec 3) (s : State) (h : Nat) (t : Thread) (e : QEntry) : VOut :=
  if ¬ memGroups e (some vd) [vd] then .illegal s
  else
    let pres := presents t e i e.vlmax
    let items := itemsGo t.vstart 0 pres (aUnit t e)
    match s.firstFault t .plain .load e.w items with
    | some (f, va, c) =>
      if c = 6 ∨ items.head? = some (f, va) then loadOut s h t e vd pres (aUnit t e)
      else
        let done := items.filter fun x => decide (x.1 < f)
        match s.readItems h t e.w done with
        | .hold => .hold
        | .trap c => .trap s c 0 0 none
        | .ok (s', vals) =>
          let fill := fun (t : Thread) =>
            let old := t.elems e vd e.w e.vlmax
            let new := mergeW e t.vstart pres old (spread e.vlmax 0 vals)
            let cut := max f t.vstart
            let wr := wroteW e t.vstart pres
            let t := (t.putSome e vd e.w (wr.take cut ++ List.replicate (e.vl - cut) false ++ wr.drop e.vl)
              (new.take cut ++ (old.drop cut).take (e.vl - cut) ++ new.drop e.vl)).copyGroup e e.w vd
            t.writeMask e kf.toNat pres ((upTo e.vlmax).map fun i => decide (f ≤ i))
          .ok ((s'.countItems h t .load e.w 64 done).modTh h fill) 0 none
    | none =>
      match loadOut s h t e vd pres (aUnit t e) with
      | .ok s fl q => .ok (s.modTh h fun t => t.writeMask e kf.toNat pres (List.replicate e.vlmax false)) fl q
      | r => r

/-- vldw performed (R159): every element up to VLMAX. -/
def perfLdw (vd : BitVec 6) (s : State) (h : Nat) (t : Thread) (e : QEntry) : VOut :=
  if ¬ memGroups e (some vd) [vd] then .illegal s
  else loadOut s h t { e with vl := e.vlmax } vd (List.replicate e.vlmax true) (aUnit t e)

/-- vstw performed (R159). -/
def perfStw (vd : BitVec 6) (s : State) (h : Nat) (t : Thread) (e : QEntry) : VOut :=
  if ¬ memGroups e none [vd] then .illegal s
  else storeOut s h t e false e.w 64 (itemsGo t.vstart 0 (List.replicate e.vlmax true) (aUnit t e)) (t.elems e vd e.w e.vlmax)

/-- vamo performed (R153, R154, R157, R116). -/
def perfAmo (i : Instr) (op : AmoOp) (vd vb : BitVec 6) (s : State) (h : Nat) (t : Thread) (e : QEntry) : VOut :=
  if ¬ memGroups e (some vd) [vd, vb] ∨ e.w < 4 then .illegal s
  else
    let pres := presents t e i e.vlmax
    let items := itemsGo t.vstart 0 pres (aIndex vb t e)
    let data := t.elems e vd e.w e.vlmax
    let run := fun (s : State) (l : Items) =>
      let ops := l.map fun x => (x.1, x.2, data.getD x.1 0)
      let free := s.collide t .atomic e.w l
      let ops := if free then shuffle ops.length s.freeCtr ops else ops
      (s.amoItems h t op e.w ops).bind fun r =>
        let s' := r.1.countItems h t .atomic e.w 64 l
        .ok (if free then { s' with freeCtr := s'.freeCtr + ops.length } else s', r.2)
    match s.firstFault t .plain .atomic e.w items with
    | none =>
      match run s items with
      | .ok (s, vals) => .ok (s.modTh h fun t => t.loadDest e vd pres vals none) 0 none
      | .hold => .hold
      | .trap c => .trap s c 0 0 none
    | some (f, va, c) =>
      let lim := 64 * (f / 64)
      match run s (items.filter fun x => decide (x.1 < lim)) with
      | .ok (s, vals) => .trap (s.modTh h fun t => t.loadDest e vd pres vals (some lim)) c f va (some lim)
      | .hold => .hold
      | .trap c => .trap s c 0 0 none

/-- The bytes of kld and kst (R170), from the one that holds bit VSTART. -/
def maskItems (t : Thread) (e : QEntry) : Items :=
  ((upTo ((e.vl + 7) / 8)).filter fun b => decide (t.vstart / 8 ≤ b)).map fun b => (b, (e.op 0 + word b).toNat)

/-- kld performed (R170): bits below VL from memory, then the tail. -/
def perfKld (kd : BitVec 3) (s : State) (h : Nat) (t : Thread) (e : QEntry) : VOut :=
  let items := maskItems t e
  let pres := (upTo e.vlmax).map fun i => decide (i < e.vl)
  let bitsAt := fun (vals : Items) => (bitsOf ((spread ((e.vlmax + 7) / 8) 0 vals).map (BitVec.ofNat 8))).take e.vlmax
  match s.firstFault t .plain .load 1 items with
  | none =>
    match s.readItems h t 1 items with
    | .ok (s', vals) => .ok ((s'.countItems h t .load 1 8 items).modTh h fun t => t.writeMask e kd.toNat pres (bitsAt vals)) 0 none
    | .hold => .hold
    | .trap c => .trap s c 0 0 none
  | some (f, va, c) =>
    let lim := 8 * (f / 8)
    let done := items.filter fun x => decide (x.1 < lim)
    match s.readItems h t 1 done with
    | .ok (s', vals) =>
      .trap ((s'.countItems h t .load 1 8 done).modTh h fun t => t.writeMask { e with vl := 8 * lim, vlmax := 8 * lim } kd.toNat
        (List.replicate (8 * lim) true) ((bitsAt vals).take (8 * lim))) c (8 * f) va (some (8 * lim))
    | .hold => .hold
    | .trap c => .trap s c 0 0 none

/-- kst performed (R170): the last byte's bits above VL are 0. -/
def perfKst (ks : BitVec 3) (s : State) (h : Nat) (t : Thread) (e : QEntry) : VOut :=
  let bytes := packBits ((e.vl + 7) / 8) (t.kbits ks.toNat e.vl)
  match storeOut s h t e false 1 8 (maskItems t e) (bytes.map (·.toNat)) with
  | .trap s c f va v => .trap s c (8 * f) va (v.map (8 * ·))
  | r => r

/-- vld (R153): dispatched; performed at the VCP by perfLoad. -/
def execVld (d : BitVec 6) (a : BitVec 5) (k : BitVec 3) (s : State) : Host.Outcome State Fault Refusal := queueStep (.vld d a k) s

/-- vlds (R153): dispatched; performed by perfLoad. -/
def execVlds (d : BitVec 6) (a b : BitVec 5) (k : BitVec 3) (s : State) : Host.Outcome State Fault Refusal := queueStep (.vlds d a b k) s

/-- vldx (R153): dispatched; performed by perfLoad. -/
def execVldx (d : BitVec 6) (a : BitVec 5) (b : BitVec 6) (k : BitVec 3) (s : State) : Host.Outcome State Fault Refusal := queueStep (.vldx d a b k) s

/-- vldxo (R153, R157): dispatched; performed by perfLoad. -/
def execVldxo (d : BitVec 6) (a : BitVec 5) (b : BitVec 6) (k : BitVec 3) (s : State) : Host.Outcome State Fault Refusal := queueStep (.vldxo d a b k) s

/-- vldff (R156): dispatched; performed by perfLdff. -/
def execVldff (d : BitVec 6) (a : BitVec 5) (f k : BitVec 3) (s : State) : Host.Outcome State Fault Refusal := queueStep (.vldff d a f k) s

/-- vldw (R159): dispatched; performed by perfLdw. -/
def execVldw (d : BitVec 6) (a : BitVec 5) (s : State) : Host.Outcome State Fault Refusal := queueStep (.vldw d a) s

/-- vst (R153): dispatched; performed by perfStore. -/
def execVst (d : BitVec 6) (a : BitVec 5) (k : BitVec 3) (s : State) : Host.Outcome State Fault Refusal := queueStep (.vst d a k) s

/-- vsts (R153): dispatched; performed by perfStore. -/
def execVsts (d : BitVec 6) (a b : BitVec 5) (k : BitVec 3) (s : State) : Host.Outcome State Fault Refusal := queueStep (.vsts d a b k) s

/-- vstx (R153): dispatched; performed by perfStore. -/
def execVstx (d : BitVec 6) (a : BitVec 5) (b : BitVec 6) (k : BitVec 3) (s : State) : Host.Outcome State Fault Refusal := queueStep (.vstx d a b k) s

/-- vstxo (R153, R157): dispatched; performed by perfStore. -/
def execVstxo (d : BitVec 6) (a : BitVec 5) (b : BitVec 6) (k : BitVec 3) (s : State) : Host.Outcome State Fault Refusal := queueStep (.vstxo d a b k) s

/-- vstw (R159): dispatched; performed by perfStw. -/
def execVstw (d : BitVec 6) (a : BitVec 5) (s : State) : Host.Outcome State Fault Refusal := queueStep (.vstw d a) s

/-- vamo.add (R153): dispatched; performed by perfAmo. -/
def execVamoAdd (d : BitVec 6) (a : BitVec 5) (b : BitVec 6) (k : BitVec 3) (s : State) : Host.Outcome State Fault Refusal := queueStep (.vamoAdd d a b k) s

/-- vamo.and (R153): dispatched; performed by perfAmo. -/
def execVamoAnd (d : BitVec 6) (a : BitVec 5) (b : BitVec 6) (k : BitVec 3) (s : State) : Host.Outcome State Fault Refusal := queueStep (.vamoAnd d a b k) s

/-- vamo.or (R153): dispatched; performed by perfAmo. -/
def execVamoOr (d : BitVec 6) (a : BitVec 5) (b : BitVec 6) (k : BitVec 3) (s : State) : Host.Outcome State Fault Refusal := queueStep (.vamoOr d a b k) s

/-- vamo.xor (R153): dispatched; performed by perfAmo. -/
def execVamoXor (d : BitVec 6) (a : BitVec 5) (b : BitVec 6) (k : BitVec 3) (s : State) : Host.Outcome State Fault Refusal := queueStep (.vamoXor d a b k) s

/-- vamo.min (R153): dispatched; performed by perfAmo. -/
def execVamoMin (d : BitVec 6) (a : BitVec 5) (b : BitVec 6) (k : BitVec 3) (s : State) : Host.Outcome State Fault Refusal := queueStep (.vamoMin d a b k) s

/-- vamo.max (R153): dispatched; performed by perfAmo. -/
def execVamoMax (d : BitVec 6) (a : BitVec 5) (b : BitVec 6) (k : BitVec 3) (s : State) : Host.Outcome State Fault Refusal := queueStep (.vamoMax d a b k) s

/-- vamo.minn (R153): dispatched; performed by perfAmo. -/
def execVamoMinn (d : BitVec 6) (a : BitVec 5) (b : BitVec 6) (k : BitVec 3) (s : State) : Host.Outcome State Fault Refusal := queueStep (.vamoMinn d a b k) s

/-- vamo.maxn (R153): dispatched; performed by perfAmo. -/
def execVamoMaxn (d : BitVec 6) (a : BitVec 5) (b : BitVec 6) (k : BitVec 3) (s : State) : Host.Outcome State Fault Refusal := queueStep (.vamoMaxn d a b k) s

/-- vamo.swp (R153): dispatched; performed by perfAmo. -/
def execVamoSwp (d : BitVec 6) (a : BitVec 5) (b : BitVec 6) (k : BitVec 3) (s : State) : Host.Outcome State Fault Refusal := queueStep (.vamoSwp d a b k) s

/-- kld (R170): dispatched; performed by perfKld. -/
def execKld (d : BitVec 3) (a : BitVec 5) (s : State) : Host.Outcome State Fault Refusal := queueStep (.kld d a) s

/-- kst (R170): dispatched; performed by perfKst. -/
def execKst (d : BitVec 3) (a : BitVec 5) (s : State) : Host.Outcome State Fault Refusal := queueStep (.kst d a) s

end Sys2Proof.Machine
end

