-- ==== Sys2Proof/Machine/VArith.lean ====
section
/-!
DEFINITION. Element-wise vector arithmetic (R163, R164), conversion (R167), comparisons (R165), and the pair word (R95,
R180).
-/
namespace Sys2Proof.Machine

/-- The integer operations of R163. -/
inductive IntOp where
  | add | sub | mul | mulh | div | rem | min | max | and | or | xor | sll | srl | sra | sadd | ssub | absd
deriving DecidableEq, Repr

/-- F(a, b) of R163, on patterns read by the descriptor. -/
def intElem (op : IntOp) (d : Word) (a b : Nat) : ERes :=
  let x := intVal (dAfmt d) a
  let y := intVal (dBfmt d) b
  let w := fmtBits (dDfmt d)
  let k := (y % (w : Int)).toNat
  let clamped := fun (z : Int) => let r := clampI (dDfmt d) z; ((r.1, if r.2 then fSAT else 0) : ERes)
  match op with
  | .add => (patternI w (x + y), 0)
  | .sub => (patternI w (x - y), 0)
  | .mul => (patternI w (x * y), 0)
  | .mulh => (patternI w (x * y / ((2 ^ w : Nat) : Int)), 0)
  | .div => if y = 0 then (2 ^ w - 1, fDZ) else (patternI w (x.tdiv y), 0)
  | .rem => if y = 0 then (patternI w x, fDZ) else (patternI w (x.tmod y), 0)
  | .min => (patternI w (if x ≤ y then x else y), 0)
  | .max => (patternI w (if x ≤ y then y else x), 0)
  | .and => (a &&& b, 0)
  | .or => (a ||| b, 0)
  | .xor => (a ^^^ b, 0)
  | .sll => (a * 2 ^ k % 2 ^ w, 0)
  | .srl => (a / 2 ^ k, 0)
  | .sra => (patternI w (signed w a / ((2 ^ k : Nat) : Int)), 0)
  | .sadd => clamped (x + y)
  | .ssub => clamped (x - y)
  | .absd => (patternI w ((x - y).natAbs : Int), 0)

/-- The descriptor form of an integer operation (R147). -/
def IntOp.form : IntOp → DForm
  | .add | .sub | .mul => .int2
  | _ => .int1

/-- The floating-point operations of R164 with two or three sources. -/
inductive FpOp where
  | add | sub | mul | fma | fnma | fms | div | min | max
deriving DecidableEq, Repr

/-- The result of R164 rounded once into DFMT (R55, R72, R74). -/
def fpElem (op : FpOp) (d : Word) (a b c : Nat) : ERes :=
  let m := dRnd d
  let f := dDfmt d
  let x := decF (dAfmt d) a
  let y := decF (dBfmt d) b
  let z := decF f c
  match op with
  | .add => addF f m x y
  | .sub => addF f m x y.neg
  | .mul => mulF f m x y
  | .fma => fmaF f m x y z
  | .fnma => fmaF f m x.neg y z
  | .fms => fmaF f m x y z.neg
  | .div => divF f m x y
  | .min => minmaxF false (dAfmt d) (dBfmt d) f m a b
  | .max => minmaxF true (dAfmt d) (dBfmt d) f m a b

/-- The descriptor form of a floating-point operation (R147), and whether it reads its destination. -/
def FpOp.form : FpOp → DForm
  | .div | .min | .max => .fp1
  | _ => .fp2
def FpOp.fused : FpOp → Bool
  | .fma | .fnma | .fms => true
  | _ => false

/-- The floating-point operations with one source (R164, R75). -/
inductive UnOp where
  | sqrt | rsqrt | exp2 | log2 | exp
deriving DecidableEq, Repr

def unElem (op : UnOp) (d : Word) (a : Nat) : ERes :=
  let x := decF (dAfmt d) a
  match op with
  | .sqrt => sqrtF (dDfmt d) (dRnd d) x
  | .rsqrt => rsqrtF (dDfmt d) x
  | .exp2 => exp2F (dDfmt d) x
  | .log2 => log2F (dDfmt d) x
  | .exp => expF (dDfmt d) x

/-- vfsgn on one element (R164): a with b's sign bit. -/
def sgnElem (d : Word) (a b : Nat) : ERes :=
  let top := 2 ^ (fmtBits (dAfmt d) - 1)
  (a % top + b / top % 2 * top, 0)

/-- vfcls on one element (R164). -/
def clsElem (d : Word) (a : Nat) : ERes :=
  let f := fmtOf (dAfmt d)
  let sub := bitsN a f.sb f.eb == 0
  let k := match decF (dAfmt d) a with
    | .nan s => if s then 8 else 9
    | .inf n => if n then 0 else 7
    | .fin n m _ => if m = 0 then (if n then 3 else 4) else if n then (if sub then 2 else 1) else (if sub then 5 else 6)
  (2 ^ k, 0)

/-- An element-wise operation: its descriptor form, its function of a, b and the destination, and whether it reads the
destination. -/
structure EOp where
  form : DForm
  fn : Word → Nat → Nat → Nat → ERes
  fused : Bool

def EOp.int (op : IntOp) : EOp := { form := op.form, fn := fun d a b _ => intElem op d a b, fused := false }
def EOp.fp (op : FpOp) : EOp := { form := op.form, fn := fpElem op, fused := op.fused }
def EOp.un (op : UnOp) : EOp :=
  { form := if op = .sqrt then .sqrt else .trans, fn := fun d a _ _ => unElem op d a, fused := false }
def EOp.sgn : EOp := { form := .afp, fn := fun d a b _ => sgnElem d a b, fused := false }
def EOp.cls : EOp := { form := .afp, fn := fun d a _ _ => clsElem d a, fused := false }
def EOp.cvt : EOp := { form := .cvt, fn := fun d a _ _ => convert (dAfmt d) (dDfmt d) (dRnd d) a, fused := false }

/-- Source b: a register group, a scalar's low bits (R146), or none. -/
inductive BSrc where
  | vec (r : BitVec 6) | val (x : Nat) | none
deriving DecidableEq, Repr

/-- The destination's width in bits: DFMT's, or SEW where DFMT is not read. -/
def EOp.width (o : EOp) (e : QEntry) (d : Word) : Nat := if o.form = .afp then e.sew else fmtBits (dDfmt d)

/-- The checks of R53, R145, R147 and R86 on an element-wise operation. -/
def EOp.ok (o : EOp) (e : QEntry) (vd va : BitVec 6) (b : BSrc) : Bool :=
  let d := e.desc
  descOk o.form e.sew d &&
    groupsOk ([(vd.toNat, e.emul (o.width e d)), (va.toNat, e.lmul)] ++ match b with
      | .vec r => [(r.toNat, e.lmul)]
      | _ => []) &&
    dregOk e vd (e.emul (o.width e d))

/-- An element-wise operation performed (R163, R164): the thread, and its flags. -/
def EOp.run (o : EOp) (t : Thread) (e : QEntry) (pres : List Bool) (vd va : BitVec 6) (b : BSrc) : Thread × Nat :=
  let d := e.desc
  let n := e.vlmax
  let wd := o.width e d / 8
  let bs := match b with
    | .vec r => t.elems e r e.w n
    | .val x => List.replicate n (x % 2 ^ e.sew)
    | .none => List.replicate n 0
  let cs := if o.fused then t.elems e vd wd n else List.replicate n 0
  let r := mapPres t.vstart (o.fn d) 0 pres (t.elems e va e.w n) bs cs
  ((t.writeVec e vd wd pres (r.map (·.1))).markSat d r, joinFlags r)

/-- An element-wise instruction at the VCP. -/
def perfElem (o : EOp) (i : Instr) (vd va : BitVec 6) (b : BSrc) (s : State) (h : Nat) (t : Thread) (e : QEntry) : VOut :=
  if o.ok e vd va b then
    let r := o.run t e (presents t e i e.vlmax) vd va b
    .ok (s.setTh h r.1) r.2 none
  else .illegal s

/-- Source b of a V3 word (R146): the captured scalar with x = 1. -/
def QEntry.bsrc (e : QEntry) (vb : BitVec 6) (x : Bool) : BSrc := if x then .val (e.op 0).toNat else .vec vb

/-- A condition code's answer on an ordering: less, equal (R83). un (6), which compareF answers itself, holds of no integers: what a vexit
with it and an integer AFMT answers the spec leaves open (log 66). -/
def condOf (c : Nat) (lt eq : Bool) : Bool :=
  match c with
  | 0 => eq
  | 1 => !eq
  | 2 => lt
  | 3 => lt || eq
  | 4 => !lt && !eq
  | 5 => !lt
  | _ => false

/-- One comparison (R165), integer or floating by AFMT: the bit and the flags. -/
def cmpElem (c : Nat) (d : Word) (a b : Nat) : Bool × Nat :=
  if isIntFmt (dAfmt d) then
    let x := intVal (dAfmt d) a
    let y := intVal (dBfmt d) b
    (condOf c (decide (x < y)) (decide (x = y)), 0)
  else
    let x := decF (dAfmt d) a
    let y := decF (dBfmt d) b
    if x.isNan || y.isNan then
      if c = 0 ∨ c = 1 ∨ c = 6 then (c != 0, sigFlag x ||| sigFlag y) else (false, fNV)
    else (condOf c (ltV false x y) (eqV x y), 0)

/-- A comparison at the VCP (R165). -/
def perfCmp (form : DForm) (i : Instr) (kd : BitVec 3) (c : BitVec 3) (va : BitVec 6) (b : BSrc) (s : State) (h : Nat) (t : Thread)
    (e : QEntry) : VOut :=
  let d := e.desc
  let gs := (va.toNat, e.lmul) :: match b with
    | .vec r => [(r.toNat, e.lmul)]
    | _ => []
  if descOk form e.sew d && groupsOk gs then
    let n := e.vlmax
    let pres := presents t e i n
    let bs := match b with
      | .vec r => t.elems e r e.w n
      | .val x => List.replicate n (x % 2 ^ e.sew)
      | .none => List.replicate n 0
    let f := fun a b (_ : Nat) => let r := cmpElem c.toNat d a b; ((boolN r.1, r.2) : ERes)
    let r := mapPres t.vstart f 0 pres (t.elems e va e.w n) bs bs
    .ok (s.setTh h (t.writeMask e kd.toNat pres (r.map fun x => x.1 == 1))) (joinFlags r) none
  else .illegal s

/-- The operation of a half of a pair word (R94). -/
def halfEOp (op : Nat) : Option EOp :=
  match op with
  | 1 => some (.int .add)
  | 2 => some (.int .sub)
  | 3 => some (.int .mul)
  | 4 => some (.int .min)
  | 5 => some (.int .max)
  | 6 => some (.int .and)
  | 7 => some (.int .or)
  | 8 => some (.int .xor)
  | 9 => some (.fp .add)
  | 10 => some (.fp .sub)
  | 11 => some (.fp .mul)
  | 12 => some (.fp .min)
  | 13 => some (.fp .max)
  | 14 => some (.int .sll)
  | 15 => some (.int .sra)
  | _ => none

/-- Source b of a half (R180); `n` is the place of its captured scalar. -/
def halfSrc (e : QEntry) (hf : BitVec 12) (n : Nat) : BSrc :=
  match (halfKind hf).toNat with
  | 0 => .vec (halfOpnd hf)
  | 1 => .val (e.op n).toNat
  | _ => .val (patternI e.sew (signed 6 (halfOpnd hf).toNat))

/-- A half performed after another, or nothing for OP 0 (R95). -/
def halfRun (t : Thread) (e : QEntry) (v : BitVec 6) (hf : BitVec 12) (n : Nat) : Thread × Nat :=
  match halfEOp (halfOp hf).toNat with
  | some o => o.run t e (presents t e (.cp hf hf) e.vlmax) v v (halfSrc e hf n)
  | none => (t, 0)

def halfChecks (e : QEntry) (v : BitVec 6) (hf : BitVec 12) (n : Nat) : Bool :=
  match halfEOp (halfOp hf).toNat with
  | some o => o.ok e v v (halfSrc e hf n)
  | none => true

/-- The pair word at the VCP (R95, R180). -/
def perfCp (a b : BitVec 12) (s : State) (h : Nat) (t : Thread) (e : QEntry) : VOut :=
  match e.anchor with
  | none => .illegal s
  | some v =>
    let n := if halfOp a != 0 && halfKind a == 1 then 1 else 0
    if halfChecks e v a 0 && halfChecks e v b n then
      let r := halfRun t e v a 0
      let q := halfRun r.1 e v b n
      .ok (s.setTh h q.1) (r.2 ||| q.2) none
    else .illegal s

/-- vadd (R163): dispatched; performed by perfElem. -/
def execVadd (d a b : BitVec 6) (k f : BitVec 3) (x : Bool) (s : State) : Host.Outcome State Fault Refusal := queueStep (.vadd d a b k f x) s

/-- vsub (R163): dispatched; performed by perfElem. -/
def execVsub (d a b : BitVec 6) (k f : BitVec 3) (x : Bool) (s : State) : Host.Outcome State Fault Refusal := queueStep (.vsub d a b k f x) s

/-- vmul (R163): dispatched; performed by perfElem. -/
def execVmul (d a b : BitVec 6) (k f : BitVec 3) (x : Bool) (s : State) : Host.Outcome State Fault Refusal := queueStep (.vmul d a b k f x) s

/-- vmulh (R163): dispatched; performed by perfElem. -/
def execVmulh (d a b : BitVec 6) (k f : BitVec 3) (x : Bool) (s : State) : Host.Outcome State Fault Refusal := queueStep (.vmulh d a b k f x) s

/-- vdiv (R163): dispatched; performed by perfElem. -/
def execVdiv (d a b : BitVec 6) (k f : BitVec 3) (x : Bool) (s : State) : Host.Outcome State Fault Refusal := queueStep (.vdiv d a b k f x) s

/-- vrem (R163): dispatched; performed by perfElem. -/
def execVrem (d a b : BitVec 6) (k f : BitVec 3) (x : Bool) (s : State) : Host.Outcome State Fault Refusal := queueStep (.vrem d a b k f x) s

/-- vmin (R163): dispatched; performed by perfElem. -/
def execVmin (d a b : BitVec 6) (k f : BitVec 3) (x : Bool) (s : State) : Host.Outcome State Fault Refusal := queueStep (.vmin d a b k f x) s

/-- vmax (R163): dispatched; performed by perfElem. -/
def execVmax (d a b : BitVec 6) (k f : BitVec 3) (x : Bool) (s : State) : Host.Outcome State Fault Refusal := queueStep (.vmax d a b k f x) s

/-- vand (R163): dispatched; performed by perfElem. -/
def execVand (d a b : BitVec 6) (k f : BitVec 3) (x : Bool) (s : State) : Host.Outcome State Fault Refusal := queueStep (.vand d a b k f x) s

/-- vor (R163): dispatched; performed by perfElem. -/
def execVor (d a b : BitVec 6) (k f : BitVec 3) (x : Bool) (s : State) : Host.Outcome State Fault Refusal := queueStep (.vor d a b k f x) s

/-- vxor (R163): dispatched; performed by perfElem. -/
def execVxor (d a b : BitVec 6) (k f : BitVec 3) (x : Bool) (s : State) : Host.Outcome State Fault Refusal := queueStep (.vxor d a b k f x) s

/-- vsll (R163): dispatched; performed by perfElem. -/
def execVsll (d a b : BitVec 6) (k f : BitVec 3) (x : Bool) (s : State) : Host.Outcome State Fault Refusal := queueStep (.vsll d a b k f x) s

/-- vsrl (R163): dispatched; performed by perfElem. -/
def execVsrl (d a b : BitVec 6) (k f : BitVec 3) (x : Bool) (s : State) : Host.Outcome State Fault Refusal := queueStep (.vsrl d a b k f x) s

/-- vsra (R163): dispatched; performed by perfElem. -/
def execVsra (d a b : BitVec 6) (k f : BitVec 3) (x : Bool) (s : State) : Host.Outcome State Fault Refusal := queueStep (.vsra d a b k f x) s

/-- vsadd (R163): dispatched; performed by perfElem. -/
def execVsadd (d a b : BitVec 6) (k f : BitVec 3) (x : Bool) (s : State) : Host.Outcome State Fault Refusal := queueStep (.vsadd d a b k f x) s

/-- vssub (R163): dispatched; performed by perfElem. -/
def execVssub (d a b : BitVec 6) (k f : BitVec 3) (x : Bool) (s : State) : Host.Outcome State Fault Refusal := queueStep (.vssub d a b k f x) s

/-- vabsd (R163): dispatched; performed by perfElem. -/
def execVabsd (d a b : BitVec 6) (k f : BitVec 3) (x : Bool) (s : State) : Host.Outcome State Fault Refusal := queueStep (.vabsd d a b k f x) s

/-- vfadd (R164): dispatched; performed by perfElem. -/
def execVfadd (d a b : BitVec 6) (k f : BitVec 3) (x : Bool) (s : State) : Host.Outcome State Fault Refusal := queueStep (.vfadd d a b k f x) s

/-- vfsub (R164): dispatched; performed by perfElem. -/
def execVfsub (d a b : BitVec 6) (k f : BitVec 3) (x : Bool) (s : State) : Host.Outcome State Fault Refusal := queueStep (.vfsub d a b k f x) s

/-- vfmul (R164): dispatched; performed by perfElem. -/
def execVfmul (d a b : BitVec 6) (k f : BitVec 3) (x : Bool) (s : State) : Host.Outcome State Fault Refusal := queueStep (.vfmul d a b k f x) s

/-- vfma (R164): dispatched; performed by perfElem. -/
def execVfma (d a b : BitVec 6) (k f : BitVec 3) (x : Bool) (s : State) : Host.Outcome State Fault Refusal := queueStep (.vfma d a b k f x) s

/-- vfnma (R164): dispatched; performed by perfElem. -/
def execVfnma (d a b : BitVec 6) (k f : BitVec 3) (x : Bool) (s : State) : Host.Outcome State Fault Refusal := queueStep (.vfnma d a b k f x) s

/-- vfms (R164): dispatched; performed by perfElem. -/
def execVfms (d a b : BitVec 6) (k f : BitVec 3) (x : Bool) (s : State) : Host.Outcome State Fault Refusal := queueStep (.vfms d a b k f x) s

/-- vfdiv (R164): dispatched; performed by perfElem. -/
def execVfdiv (d a b : BitVec 6) (k f : BitVec 3) (x : Bool) (s : State) : Host.Outcome State Fault Refusal := queueStep (.vfdiv d a b k f x) s

/-- vfmin (R164): dispatched; performed by perfElem. -/
def execVfmin (d a b : BitVec 6) (k f : BitVec 3) (x : Bool) (s : State) : Host.Outcome State Fault Refusal := queueStep (.vfmin d a b k f x) s

/-- vfmax (R164): dispatched; performed by perfElem. -/
def execVfmax (d a b : BitVec 6) (k f : BitVec 3) (x : Bool) (s : State) : Host.Outcome State Fault Refusal := queueStep (.vfmax d a b k f x) s

/-- vfsqrt (R164): dispatched; performed by perfElem. -/
def execVfsqrt (d a : BitVec 6) (k f : BitVec 3) (s : State) : Host.Outcome State Fault Refusal := queueStep (.vfsqrt d a k f) s

/-- vfrsqrt (R164): dispatched; performed by perfElem. -/
def execVfrsqrt (d a : BitVec 6) (k f : BitVec 3) (s : State) : Host.Outcome State Fault Refusal := queueStep (.vfrsqrt d a k f) s

/-- vfexp2 (R164): dispatched; performed by perfElem. -/
def execVfexp2 (d a : BitVec 6) (k f : BitVec 3) (s : State) : Host.Outcome State Fault Refusal := queueStep (.vfexp2 d a k f) s

/-- vflog2 (R164): dispatched; performed by perfElem. -/
def execVflog2 (d a : BitVec 6) (k f : BitVec 3) (s : State) : Host.Outcome State Fault Refusal := queueStep (.vflog2 d a k f) s

/-- vfexp (R164): dispatched; performed by perfElem. -/
def execVfexp (d a : BitVec 6) (k f : BitVec 3) (s : State) : Host.Outcome State Fault Refusal := queueStep (.vfexp d a k f) s

/-- vfcls (R164): dispatched; performed by perfElem. -/
def execVfcls (d a : BitVec 6) (k f : BitVec 3) (s : State) : Host.Outcome State Fault Refusal := queueStep (.vfcls d a k f) s

/-- vcvt (R167): dispatched; performed by perfElem. -/
def execVcvt (d a : BitVec 6) (k f : BitVec 3) (s : State) : Host.Outcome State Fault Refusal := queueStep (.vcvt d a k f) s

/-- vfsgn (R164): dispatched; performed by perfElem. -/
def execVfsgn (d a b : BitVec 6) (k f : BitVec 3) (s : State) : Host.Outcome State Fault Refusal := queueStep (.vfsgn d a b k f) s

/-- vcmp (R165): dispatched; performed by perfCmp. -/
def execVcmp (d c : BitVec 3) (a b : BitVec 6) (k f : BitVec 3) (x : Bool) (s : State) : Host.Outcome State Fault Refusal := queueStep (.vcmp d c a b k f x) s

/-- vfcmp (R165): dispatched; performed by perfCmp. -/
def execVfcmp (d c : BitVec 3) (a b : BitVec 6) (k f : BitVec 3) (x : Bool) (s : State) : Host.Outcome State Fault Refusal := queueStep (.vfcmp d c a b k f x) s

/-- cp (R94, R95): illegal without an anchor; dispatched; performed by perfCp. -/
def execCp (g k : BitVec 12) (s : State) : Host.Outcome State Fault Refusal :=
  queueStepWith (.cp g k) (fun _ _ t => t.anchor.isNone) (fun s _ e => (s, e)) s

end Sys2Proof.Machine
end

