-- ==== Sys2Proof/Machine/VMove.lean ====
section
/-!
DEFINITION. Moves (R160-R162, R166), mask instructions (R168, R169), slides, gather and bit strings (R174-R176), compress
and expand (R173).
-/
namespace Sys2Proof.Machine

/-- The lmul groups of a word and its DREG are as R145 and R86 ask. -/
def moveOk (e : QEntry) (dest : Option (BitVec 6)) (src : List (BitVec 6)) : Bool :=
  memGroups e dest ((match dest with | some d => [d] | none => []) ++ src)

/-- A vector destination given element by element through write (R102). -/
def perfWrite (i : Instr) (vd : BitVec 6) (src : List (BitVec 6)) (vals : Thread → List Bool → List Nat) (s : State) (h : Nat)
    (t : Thread) (e : QEntry) : VOut :=
  if moveOk e (some vd) src then
    let pres := presents t e i e.vlmax
    .ok (s.setTh h (t.writeVec e vd e.w pres (vals t pres))) 0 none
  else .illegal s

/-- vmv, vbcast, vid performed (R160). -/
def perfVmv (i : Instr) (vd va : BitVec 6) (s : State) (h : Nat) (t : Thread) (e : QEntry) : VOut :=
  perfWrite i vd [va] (fun t _ => t.elems e va e.w e.vlmax) s h t e
def perfVbcast (i : Instr) (vd : BitVec 6) (s : State) (h : Nat) (t : Thread) (e : QEntry) : VOut :=
  perfWrite i vd [] (fun _ _ => List.replicate e.vlmax (fieldW (e.op 0) 0 e.sew)) s h t e
def perfVid (i : Instr) (vd : BitVec 6) (s : State) (h : Nat) (t : Thread) (e : QEntry) : VOut :=
  perfWrite i vd [] (fun _ _ => (upTo e.vlmax).map fun x => x % 2 ^ e.sew) s h t e

/-- The running count of viota (R160): for each element the number of present set bits below it. -/
def iotaGo : Nat → List Bool → List Bool → List Nat
  | c, p :: ps, k :: ks => c :: iotaGo (if p && k then c + 1 else c) ps ks
  | _, _, _ => []

/-- viota performed (R160, R149). -/
def perfViota (i : Instr) (vd : BitVec 6) (ka : BitVec 3) (s : State) (h : Nat) (t : Thread) (e : QEntry) : VOut :=
  if t.vstart ≠ 0 then .illegal s
  else perfWrite i vd [] (fun t pres => (iotaGo 0 pres (t.kbits ka.toNat e.vlmax)).map (· % 2 ^ e.sew)) s h t e

/-- vext performed (R160): the element, or 0 at and above VL. -/
def perfVext (va : BitVec 6) (s : State) (_ : Nat) (t : Thread) (e : QEntry) : VOut :=
  if moveOk e none [va] then
    let i := (e.op 0).toNat
    .ok s 0 (some (if i < e.vl then word ((t.elems e va e.w e.vl).getD i 0) else 0))
  else .illegal s

/-- vins performed (R160): one element; at or above a region's cut it is a tail element (R178, log 37). -/
def perfVins (vd : BitVec 6) (s : State) (h : Nat) (t : Thread) (e : QEntry) : VOut :=
  if moveOk e (some vd) [] then
    let i := (e.op 1).toNat
    let old := t.elems e vd e.w e.vlmax
    let put := decide (t.vstart ≤ i) && decide (i < e.vl)
    let cut := e.tail && decide (e.vl ≤ i) && decide (i < e.met)
    let new := if put then setNth old i (fieldW (e.op 0) 0 e.sew) else if cut then setNth old i 0 else old
    .ok (s.setTh h ((t.putSome e vd e.w ((upTo e.vlmax).map fun k => (put || cut) && k == i) new).copyGroup e e.w vd)) 0 none
  else .illegal s

/-- n registers from one released: their bytes read as zero and they are not live (R161). -/
def Thread.release (t : Thread) (reg n : Nat) : Thread :=
  (t.clearRegs reg n).setVlive (t.vlive &&& ~~~liveBits reg n)

/-- vrelease performed (R161). -/
def perfVrelease (vd : BitVec 6) (s : State) (h : Nat) (t : Thread) (e : QEntry) : VOut :=
  if moveOk e none [vd] then .ok (s.setTh h (t.release vd.toNat e.lmul)) 0 none else .illegal s

/-- vsel performed (R166): every element below VL; the tail by TAIL. -/
def perfVsel (i : Instr) (vd va vb : BitVec 6) (s : State) (h : Nat) (t : Thread) (e : QEntry) : VOut :=
  if moveOk e (some vd) [va, vb] then
    let n := e.vlmax
    let act := actives t e i n
    let vals := (act.zip ((t.elems e va e.w n).zip (t.elems e vb e.w n))).map fun x => if x.1 then x.2.1 else x.2.2
    .ok (s.setTh h (t.writeVec e vd e.w ((upTo n).map fun j => decide (j < e.vl)) vals)) 0 none
  else .illegal s

/-- The mask operations of R168. -/
inductive KOp where
  | and | or | xor | andn | not | mv
deriving DecidableEq, Repr

def KOp.eval (op : KOp) (a b : Bool) : Bool :=
  match op with
  | .and => a && b
  | .or => a || b
  | .xor => a != b
  | .andn => a && !b
  | .not => !a
  | .mv => a

/-- Mask logic performed (R168): every element below VL is present. -/
def perfKlogic (op : KOp) (kd ka kb : BitVec 3) (s : State) (h : Nat) (t : Thread) (e : QEntry) : VOut :=
  let n := e.vlmax
  let r := ((t.kbits ka.toNat n).zip (t.kbits kb.toNat n)).map fun x => op.eval x.1 x.2
  .ok (s.setTh h (t.writeMask e kd.toNat ((upTo n).map fun j => decide (j < e.vl)) r)) 0 none

/-- The lowest present element whose bit is set (R169). -/
def firstSet (pres k : List Bool) : Option Nat := (pres.zip k).findIdx? fun x => x.1 && x.2

/-- ksbf, ksif, ksof performed (R169, R149): the rule on an element below, at or above f. -/
def perfKset (i : Instr) (kd ka : BitVec 3) (rule : Option Nat → Nat → Bool) (s : State) (h : Nat) (t : Thread) (e : QEntry) : VOut :=
  if t.vstart ≠ 0 then .illegal s
  else
    let pres := presents t e i e.vlmax
    let f := firstSet pres (t.kbits ka.toNat e.vlmax)
    .ok (s.setTh h (t.writeMask e kd.toNat pres ((upTo e.vlmax).map (rule f)))) 0 none

def ruleBefore (f : Option Nat) (e : Nat) : Bool := match f with | some x => decide (e < x) | none => true
def ruleUpTo (f : Option Nat) (e : Nat) : Bool := match f with | some x => decide (e ≤ x) | none => true
def ruleOnly (f : Option Nat) (e : Nat) : Bool := match f with | some x => decide (e = x) | none => false

/-- kpop and kfirst performed (R169, R149). -/
def perfKpop (i : Instr) (ka : BitVec 3) (s : State) (_ : Nat) (t : Thread) (e : QEntry) : VOut :=
  if t.vstart ≠ 0 then .illegal s
  else .ok s 0 (some (word ((((presents t e i e.vlmax).zip (t.kbits ka.toNat e.vlmax)).filter fun x => x.1 && x.2).length)))
def perfKfirst (i : Instr) (ka : BitVec 3) (s : State) (_ : Nat) (t : Thread) (e : QEntry) : VOut :=
  if t.vstart ≠ 0 then .illegal s
  else .ok s 0 (some (match firstSet (presents t e i e.vlmax) (t.kbits ka.toNat e.vlmax) with
    | some f => word f
    | none => BitVec.allOnes 64))

/-- R145 for the words whose destination may overlap no source, and R149. -/
def apart (t : Thread) (e : QEntry) (vd : BitVec 6) (src : List (BitVec 6)) : Bool :=
  t.vstart == 0 && moveOk e (some vd) src && src.all fun r => !overlaps vd.toNat e.lmul r.toNat e.lmul

/-- vcomp performed (R173). -/
def perfVcomp (i : Instr) (vd vb : BitVec 6) (s : State) (h : Nat) (t : Thread) (e : QEntry) : VOut :=
  if apart t e vd [vb] then
    let vals := ((actives t e i e.vl).zip (t.elems e vb e.w e.vl)).filter (·.1)
    .ok (s.setTh h (t.writeTail e vd e.w (vals.map (·.2)))) 0 none
  else .illegal s

/-- Source elements in order at the active places (R173). -/
def expandGo : List Bool → List Nat → List Nat
  | true :: ps, x :: xs => x :: expandGo ps xs
  | true :: ps, [] => 0 :: expandGo ps []
  | false :: ps, xs => 0 :: expandGo ps xs
  | [], _ => []

/-- vexpand performed (R173). -/
def perfVexpand (i : Instr) (vd vb : BitVec 6) (s : State) (h : Nat) (t : Thread) (e : QEntry) : VOut :=
  if apart t e vd [vb] then
    let pres := presents t e i e.vlmax
    .ok (s.setTh h (t.writeVec e vd e.w pres (expandGo pres (t.elems e vb e.w e.vlmax)))) 0 none
  else .illegal s

/-- The slides (R174) as the new elements from the destination, the source below VL and the scalar. -/
inductive Slide where
  | up | dn | one_up | one_dn
deriving DecidableEq, Repr

def Slide.vals (k : Slide) (e : QEntry) (old src : List Nat) (x : Word) : List Nat :=
  let s := x.toNat
  let v := fieldW x 0 e.sew
  match k with
  | .up => if e.vlmax ≤ s then old else old.take s ++ src.take (e.vlmax - s)
  | .dn => padTo e.vlmax 0 ((src.take e.vl).drop s)
  | .one_up => padTo e.vlmax 0 (v :: src)
  | .one_dn => padTo e.vlmax 0 ((src.take e.vl).drop 1 ++ [v])

/-- A slide performed (R174, R149). -/
def perfSlide (k : Slide) (i : Instr) (vd vb : BitVec 6) (s : State) (h : Nat) (t : Thread) (e : QEntry) : VOut :=
  let ok := if k = .up ∨ k = .one_up then apart t e vd [vb] else t.vstart == 0 && moveOk e (some vd) [vb]
  if ok then
    let old := t.elems e vd e.w e.vlmax
    let src := t.elems e vb e.w e.vlmax
    .ok (s.setTh h (t.writeVec e vd e.w (presents t e i e.vlmax) (k.vals e old src (e.op 0)))) 0 none
  else .illegal s

/-- vgath performed (R175, R149). -/
def perfVgath (i : Instr) (vd va vb : BitVec 6) (s : State) (h : Nat) (t : Thread) (e : QEntry) : VOut :=
  if apart t e vd [va, vb] then
    let src := t.elems e va e.w e.vl
    let vals := (t.elems e vb e.w e.vlmax).map fun x => if x < e.vl then src.getD x 0 else 0
    .ok (s.setTh h (t.writeVec e vd e.w (presents t e i e.vlmax) vals)) 0 none
  else .illegal s

/-- The bit-string shifts (R176). -/
inductive BitShift where
  | left | right | funnel
deriving DecidableEq, Repr

/-- A bit-string shift performed (R176, R149): X is bits N - 1 : 0 of a group. -/
def perfBits (k : BitShift) (vd vb : BitVec 6) (s : State) (h : Nat) (t : Thread) (e : QEntry) : VOut :=
  if t.vstart == 0 && moveOk e (some vd) [vb] then
    let n := e.vl * e.sew
    let x := leNat (bytesOf e.w (t.elems e vb e.w e.vl))
    let y := leNat (bytesOf e.w (t.elems e vd e.w e.vl))
    let a := (e.op 0).toNat
    let r := match k with
      | .left => if n ≤ a then 0 else x * 2 ^ a % 2 ^ n
      | .right => if n ≤ a then 0 else x / 2 ^ a
      | .funnel => if 2 * n ≤ a then 0 else (y * 2 ^ n + x) / 2 ^ a % 2 ^ n
    .ok (s.setTh h (t.writeTail e vd e.w (elemsOf e.w e.vl (leBytes (e.vl * e.w) r)))) 0 none
  else .illegal s

/-- vmv (R160): dispatched; performed by perfVmv. -/
def execVmv (d a : BitVec 6) (k : BitVec 3) (s : State) : Host.Outcome State Fault Refusal := queueStep (.vmv d a k) s

/-- vbcast (R160): dispatched; performed by perfVbcast. -/
def execVbcast (d : BitVec 6) (b : BitVec 5) (k : BitVec 3) (s : State) : Host.Outcome State Fault Refusal := queueStep (.vbcast d b k) s

/-- vext (R160, R162): its entry reserved, dispatched; performed by perfVext. -/
def execVext (q : BitVec 2) (a : BitVec 6) (b : BitVec 5) (s : State) : Host.Outcome State Fault Refusal := queueStep (.vext q a b) s

/-- vins (R160): dispatched; performed by perfVins. -/
def execVins (d : BitVec 6) (a b : BitVec 5) (s : State) : Host.Outcome State Fault Refusal := queueStep (.vins d a b) s

/-- vid (R160): dispatched; performed by perfVid. -/
def execVid (d : BitVec 6) (k : BitVec 3) (s : State) : Host.Outcome State Fault Refusal := queueStep (.vid d k) s

/-- viota (R160): dispatched; performed by perfViota. -/
def execViota (d : BitVec 6) (a k : BitVec 3) (s : State) : Host.Outcome State Fault Refusal := queueStep (.viota d a k) s

/-- vrelease (R161): dispatched; performed by perfVrelease. -/
def execVrelease (d : BitVec 6) (s : State) : Host.Outcome State Fault Refusal := queueStep (.vrelease d) s

/-- vsel (R166): dispatched; performed by perfVsel. -/
def execVsel (d a b : BitVec 6) (k : BitVec 3) (s : State) : Host.Outcome State Fault Refusal := queueStep (.vsel d a b k) s

/-- kand (R168): dispatched; performed by perfKlogic. -/
def execKand (d a b : BitVec 3) (s : State) : Host.Outcome State Fault Refusal := queueStep (.kand d a b) s

/-- kor (R168): dispatched; performed by perfKlogic. -/
def execKor (d a b : BitVec 3) (s : State) : Host.Outcome State Fault Refusal := queueStep (.kor d a b) s

/-- kxor (R168): dispatched; performed by perfKlogic. -/
def execKxor (d a b : BitVec 3) (s : State) : Host.Outcome State Fault Refusal := queueStep (.kxor d a b) s

/-- kandn (R168): dispatched; performed by perfKlogic. -/
def execKandn (d a b : BitVec 3) (s : State) : Host.Outcome State Fault Refusal := queueStep (.kandn d a b) s

/-- knot (R168): dispatched; performed by perfKlogic. -/
def execKnot (d a : BitVec 3) (s : State) : Host.Outcome State Fault Refusal := queueStep (.knot d a) s

/-- kmv (R168): dispatched; performed by perfKlogic. -/
def execKmv (d a : BitVec 3) (s : State) : Host.Outcome State Fault Refusal := queueStep (.kmv d a) s

/-- ksbf (R169): dispatched; performed by perfKset. -/
def execKsbf (d a k : BitVec 3) (s : State) : Host.Outcome State Fault Refusal := queueStep (.ksbf d a k) s

/-- ksif (R169): dispatched; performed by perfKset. -/
def execKsif (d a k : BitVec 3) (s : State) : Host.Outcome State Fault Refusal := queueStep (.ksif d a k) s

/-- ksof (R169): dispatched; performed by perfKset. -/
def execKsof (d a k : BitVec 3) (s : State) : Host.Outcome State Fault Refusal := queueStep (.ksof d a k) s

/-- kpop (R169, R162): its entry reserved, dispatched; performed by perfKpop. -/
def execKpop (q : BitVec 2) (a k : BitVec 3) (s : State) : Host.Outcome State Fault Refusal := queueStep (.kpop q a k) s

/-- kfirst (R169, R162): its entry reserved, dispatched; performed by perfKfirst. -/
def execKfirst (q : BitVec 2) (a k : BitVec 3) (s : State) : Host.Outcome State Fault Refusal := queueStep (.kfirst q a k) s

/-- vcomp (R173): dispatched; performed by perfVcomp. -/
def execVcomp (d b : BitVec 6) (k : BitVec 3) (s : State) : Host.Outcome State Fault Refusal := queueStep (.vcomp d b k) s

/-- vexpand (R173): dispatched; performed by perfVexpand. -/
def execVexpand (d b : BitVec 6) (k : BitVec 3) (s : State) : Host.Outcome State Fault Refusal := queueStep (.vexpand d b k) s

/-- vslup (R174): dispatched; performed by perfSlide. -/
def execVslup (d : BitVec 6) (a : BitVec 5) (b : BitVec 6) (k : BitVec 3) (s : State) : Host.Outcome State Fault Refusal := queueStep (.vslup d a b k) s

/-- vsldn (R174): dispatched; performed by perfSlide. -/
def execVsldn (d : BitVec 6) (a : BitVec 5) (b : BitVec 6) (k : BitVec 3) (s : State) : Host.Outcome State Fault Refusal := queueStep (.vsldn d a b k) s

/-- vsl1up (R174): dispatched; performed by perfSlide. -/
def execVsl1up (d : BitVec 6) (a : BitVec 5) (b : BitVec 6) (k : BitVec 3) (s : State) : Host.Outcome State Fault Refusal := queueStep (.vsl1up d a b k) s

/-- vsl1dn (R174): dispatched; performed by perfSlide. -/
def execVsl1dn (d : BitVec 6) (a : BitVec 5) (b : BitVec 6) (k : BitVec 3) (s : State) : Host.Outcome State Fault Refusal := queueStep (.vsl1dn d a b k) s

/-- vgath (R175): dispatched; performed by perfVgath. -/
def execVgath (d a b : BitVec 6) (k : BitVec 3) (s : State) : Host.Outcome State Fault Refusal := queueStep (.vgath d a b k) s

/-- vbsll (R176): dispatched; performed by perfBits. -/
def execVbsll (d : BitVec 6) (a : BitVec 5) (b : BitVec 6) (s : State) : Host.Outcome State Fault Refusal := queueStep (.vbsll d a b) s

/-- vbsrl (R176): dispatched; performed by perfBits. -/
def execVbsrl (d : BitVec 6) (a : BitVec 5) (b : BitVec 6) (s : State) : Host.Outcome State Fault Refusal := queueStep (.vbsrl d a b) s

/-- vbfsh (R176): dispatched; performed by perfBits. -/
def execVbfsh (d : BitVec 6) (a : BitVec 5) (b : BitVec 6) (s : State) : Host.Outcome State Fault Refusal := queueStep (.vbfsh d a b) s

end Sys2Proof.Machine
end

