-- ==== Sys2Proof/Machine/VReduce.lean ====
section
/-!
DEFINITION. Canonical groups: reductions, group folds and scans of major 0x33 (R66, R67, R69, R171-R173).
-/
namespace Sys2Proof.Machine

/-- An element of a reduction: its index, which only the arg forms read, and its pattern at DFMT. -/
abbrev RVal := Nat × Nat

/-- An operation of R66 with flags. -/
abbrev ROp := RVal → RVal → RVal × Nat

/-- combine of R66: an absent side yields the other. -/
def combine (op : ROp) (a b : Option RVal × Nat) : Option RVal × Nat :=
  match a.1, b.1 with
  | some x, some y => let r := op x y; (some r.1, a.2 ||| b.2 ||| r.2)
  | some x, none => (some x, a.2 ||| b.2)
  | none, y => (y, a.2 ||| b.2)

/-- One level of the tree: pairs combined, the lower index first. -/
def levelUp (op : ROp) : List (Option RVal × Nat) → List (Option RVal × Nat)
  | a :: b :: r => combine op a b :: levelUp op r
  | l => l

/-- n levels of the tree. -/
def levels (op : ROp) : Nat → List (Option RVal × Nat) → List (Option RVal × Nat)
  | 0, l => l
  | n + 1, l => levels op n (levelUp op l)

/-- Leaves without their flags: a node's flags are those of its own subtree. -/
def leafOf (x : Option RVal) : Option RVal × Nat := (x, 0)

/-- The node that covers the 2^l leaves of a list (R66). -/
def nodeOf (op : ROp) (l : Nat) (leaves : List (Option RVal)) : Option RVal × Nat :=
  ((levels op l (leaves.map leafOf)).head?).getD (none, 0)

/-- The groups of 64 leaves, n of them, the last filled with absent leaves (R66). -/
def groupsOf64 : Nat → List (Option RVal) → List (List (Option RVal))
  | 0, _ => []
  | n + 1, l => padTo 64 none (l.take 64) :: groupsOf64 n (l.drop 64)

/-- The largest l, at most 6, with 2^l dividing pos and the block from pos of 2^l leaves within the first n. -/
def blockAt (pos n : Nat) : Nat → Nat
  | 0 => 0
  | l + 1 => if pos % 2 ^ (l + 1) = 0 ∧ pos + 2 ^ (l + 1) ≤ n then l + 1 else blockAt pos n l

/-- P(e) of R67 for the first n leaves of a group: the covering nodes folded in ascending order. -/
def prefixFold (op : ROp) (leaves : List (Option RVal)) (n : Nat) : Nat → Nat → Option RVal × Nat → Option RVal × Nat
  | 0, _, acc => acc
  | fuel + 1, pos, acc =>
    if n ≤ pos then acc
    else
      let l := blockAt pos n 6
      prefixFold op leaves n fuel (pos + 2 ^ l) (combine op acc (nodeOf op l ((leaves.drop pos).take (2 ^ l))))

/-- The scan of R67 over groups, from the carry. The flags of the carry's own steps are raised whether or not a present element of a
later group uses it: R56 speaks of the elements written only (log 65). -/
def scanGo (op : ROp) : List (List (Option RVal)) → Option RVal × Nat → List (Option RVal) × Nat
  | [], _ => ([], 0)
  | g :: r, c =>
    let vals := (upTo 64).map fun i => if (g.getD i none).isSome then combine op (c.1, 0) (prefixFold op g (i + 1) 7 0 (none, 0)) else (none, 0)
    let rest := scanGo op r (combine op c (nodeOf op 6 g))
    (vals.map (·.1) ++ rest.1, vals.foldl (fun f x => f ||| x.2) c.2 ||| rest.2)

/-- The kinds of reduction (R171). -/
inductive RedKind where
  | sum | fsum | min | max | fmin | fmax | argmax | argmin
deriving DecidableEq, Repr

/-- b is strictly greater (or, for a minimum, less) than a, with -0 below +0; the format's own comparison (R72, R73). -/
def beats (c : Nat) (max_ : Bool) (a b : Nat) : Bool :=
  if isIntFmt c then (if max_ then decide (intVal c a < intVal c b) else decide (intVal c b < intVal c a))
  else if max_ then ltV true (decF c a) (decF c b) else ltV true (decF c b) (decF c a)

/-- R73's choice of b. -/
def argPicks (c : Nat) (max_ : Bool) (a b : Nat) : Bool :=
  if isIntFmt c then beats c max_ a b
  else if (decF c a).isNan then false else if (decF c b).isNan then true else beats c max_ a b

/-- op(a, b) of R171 at DFMT. -/
def RedKind.op (k : RedKind) (d : Word) : ROp :=
  let c := dDfmt d
  match k with
  | .sum => fun a b => ((0, (a.2 + b.2) % 2 ^ fmtBits c), 0)
  | .fsum => fun a b => let r := addF c (dRnd d) (decF c a.2) (decF c b.2); ((0, r.1), r.2)
  | .min => fun a b => ((0, if beats c false a.2 b.2 then b.2 else a.2), 0)
  | .max => fun a b => ((0, if beats c true a.2 b.2 then b.2 else a.2), 0)
  | .fmin => fun a b => let r := minmaxF false c c c 0 a.2 b.2; ((0, r.1), r.2)
  | .fmax => fun a b => let r := minmaxF true c c c 0 a.2 b.2; ((0, r.1), r.2)
  | .argmax => fun a b => (if argPicks c true a.2 b.2 then b else a, 0)
  | .argmin => fun a b => (if argPicks c false a.2 b.2 then b else a, 0)

/-- The identity of R66. -/
def RedKind.identity (k : RedKind) (d : Word) : RVal :=
  let c := dDfmt d
  let w := fmtBits c
  let low := if isIntFmt c then patternI w (intMin c) else infBits c true
  let high := if isIntFmt c then patternI w (intMax c) else infBits c false
  match k with
  | .sum | .fsum => (0, 0)
  | .min | .fmin => (0, high)
  | .max | .fmax => (0, low)
  | .argmax => (2 ^ w - 1, low)
  | .argmin => (2 ^ w - 1, high)

/-- The descriptor form of a reduction (R147). -/
def RedKind.form : RedKind → DForm
  | .sum => .red2
  | .fsum => .fred2
  | .min | .max => .redEq
  | .fmin | .fmax => .fredEq
  | .argmax | .argmin => .arg

/-- A source element entered into the tree: converted into DFMT (R171), with NV for a signalling NaN (R50). -/
def RedKind.leaf (d : Word) (i x : Nat) : RVal × Nat :=
  let a := dAfmt d
  let c := dDfmt d
  if isIntFmt a then ((i, patternI (fmtBits c) (intVal a x)), 0)
  else
    let v := decF a x
    if a = c then ((i, x), sigFlag v) else let r := roundV c (dRnd d) v; ((i, r.1), sigFlag v ||| r.2)

/-- A NaN result is the canonical NaN of DFMT (R50). -/
def canonR (d : Word) (x : Nat) : Nat := if isIntFmt (dDfmt d) then x else if (decF (dDfmt d) x).isNan then nanBits (dDfmt d) else x

/-- The leaves of a reduction and their flags, from element i. -/
def leavesGo (d : Word) : Nat → List Bool → List Nat → List (Option RVal) × Nat
  | i, p :: ps, x :: xs =>
    let r := leavesGo d (i + 1) ps xs
    if p then let v := RedKind.leaf d i x; (some v.1 :: r.1, v.2 ||| r.2) else (none :: r.1, r.2)
  | _, _, _ => ([], 0)

/-- The checks of R145, R147, R149 and R86; `sep`: the destination may overlap no source. -/
def redOk (form : DForm) (sep : Bool) (vd vb : BitVec 6) (t : Thread) (e : QEntry) : Bool :=
  let n := e.emul (fmtBits (dDfmt e.desc))
  t.vstart == 0 && descOk form e.sew e.desc && groupsOk [(vd.toNat, n), (vb.toNat, e.lmul)] && dregOk e vd n &&
    (!sep || !overlaps vd.toNat n vb.toNat e.lmul)

/-- The initial value that INIT names (R171). -/
def initOf (k : RedKind) (init : Bool) (d : Word) (vd : BitVec 6) (t : Thread) (e : QEntry) : Option RVal :=
  if init then
    let x := t.elems e vd (fmtBits (dDfmt d) / 8) 2
    some (if k = .argmax ∨ k = .argmin then (x.getD 0 0, x.getD 1 0) else (0, x.getD 0 0))
  else none

/-- NV for a signalling initial value (R50). -/
def initFlag (d : Word) (x : Option RVal) : Nat :=
  match x with
  | some v => if isIntFmt (dDfmt d) then 0 else sigFlag (decF (dDfmt d) v.2)
  | none => 0

/-- A reduction at the VCP (R171). -/
def perfRed (k : RedKind) (i : Instr) (vd vb : BitVec 6) (init : Bool) (s : State) (h : Nat) (t : Thread) (e : QEntry) : VOut :=
  let d := e.desc
  if redOk k.form false vd vb t e then
    let ls := leavesGo d 0 (presents t e i e.vl) (t.elems e vb e.w e.vl)
    let gs := (groupsOf64 ((e.vl + 63) / 64) ls.1).map (nodeOf (k.op d) 6)
    let x0 := initOf k init d vd t e
    let r := combine (k.op d) (x0, initFlag d x0) (gs.foldl (combine (k.op d)) (none, 0))
    let v := r.1.getD (k.identity d)
    let w := fmtBits (dDfmt d) / 8
    let out := if k = .argmax ∨ k = .argmin then [v.1 % 2 ^ (8 * w), canonR d v.2] else [canonR d v.2]
    .ok (s.setTh h (t.writeTail e vd w out)) (ls.2 ||| r.2) none
  else .illegal s

/-- A group fold at the VCP (R171). -/
def perfGsum (k : RedKind) (i : Instr) (vd vb : BitVec 6) (s : State) (h : Nat) (t : Thread) (e : QEntry) : VOut :=
  let d := e.desc
  if redOk k.form true vd vb t e then
    let ls := leavesGo d 0 (presents t e i e.vl) (t.elems e vb e.w e.vl)
    let gs := (groupsOf64 ((e.vl + 63) / 64) ls.1).map (nodeOf (k.op d) 6)
    let out := gs.map fun g => canonR d (g.1.getD (k.identity d)).2
    .ok (s.setTh h (t.writeTail e vd (fmtBits (dDfmt d) / 8) out)) (gs.foldl (fun f g => f ||| g.2) ls.2) none
  else .illegal s

/-- A scan at the VCP (R67, R171). -/
def perfScan (k : RedKind) (i : Instr) (vd vb : BitVec 6) (init : Bool) (s : State) (h : Nat) (t : Thread) (e : QEntry) : VOut :=
  let d := e.desc
  if redOk k.form false vd vb t e then
    let ls := leavesGo d 0 (presents t e i e.vl) (t.elems e vb e.w e.vl)
    let x0 := initOf k init d vd t e
    let r := scanGo (k.op d) (groupsOf64 ((e.vl + 63) / 64) ls.1) (x0, initFlag d x0)
    let vals := padTo e.vlmax 0 (r.1.map fun x => ((x.map (·.2)).map (canonR d)).getD 0)
    .ok (s.setTh h (t.writeVec e vd (fmtBits (dDfmt d) / 8) (presents t e i e.vlmax) vals)) (ls.2 ||| r.2) none
  else .illegal s

/-- vredsum (R171): dispatched; performed by perfRed. -/
def execVredsum (d : BitVec 6) (f : BitVec 3) (i : Bool) (b : BitVec 6) (k : BitVec 3) (s : State) : Host.Outcome State Fault Refusal := queueStep (.vredsum d f i b k) s

/-- vfredsum (R171): dispatched; performed by perfRed. -/
def execVfredsum (d : BitVec 6) (f : BitVec 3) (i : Bool) (b : BitVec 6) (k : BitVec 3) (s : State) : Host.Outcome State Fault Refusal := queueStep (.vfredsum d f i b k) s

/-- vredmin (R171): dispatched; performed by perfRed. -/
def execVredmin (d : BitVec 6) (f : BitVec 3) (i : Bool) (b : BitVec 6) (k : BitVec 3) (s : State) : Host.Outcome State Fault Refusal := queueStep (.vredmin d f i b k) s

/-- vredmax (R171): dispatched; performed by perfRed. -/
def execVredmax (d : BitVec 6) (f : BitVec 3) (i : Bool) (b : BitVec 6) (k : BitVec 3) (s : State) : Host.Outcome State Fault Refusal := queueStep (.vredmax d f i b k) s

/-- vfredmin (R171): dispatched; performed by perfRed. -/
def execVfredmin (d : BitVec 6) (f : BitVec 3) (i : Bool) (b : BitVec 6) (k : BitVec 3) (s : State) : Host.Outcome State Fault Refusal := queueStep (.vfredmin d f i b k) s

/-- vfredmax (R171): dispatched; performed by perfRed. -/
def execVfredmax (d : BitVec 6) (f : BitVec 3) (i : Bool) (b : BitVec 6) (k : BitVec 3) (s : State) : Host.Outcome State Fault Refusal := queueStep (.vfredmax d f i b k) s

/-- vargmax (R171): dispatched; performed by perfRed. -/
def execVargmax (d : BitVec 6) (f : BitVec 3) (i : Bool) (b : BitVec 6) (k : BitVec 3) (s : State) : Host.Outcome State Fault Refusal := queueStep (.vargmax d f i b k) s

/-- vargmin (R171): dispatched; performed by perfRed. -/
def execVargmin (d : BitVec 6) (f : BitVec 3) (i : Bool) (b : BitVec 6) (k : BitVec 3) (s : State) : Host.Outcome State Fault Refusal := queueStep (.vargmin d f i b k) s

/-- vgsum (R171): dispatched; performed by perfGsum. -/
def execVgsum (d : BitVec 6) (f : BitVec 3) (b : BitVec 6) (k : BitVec 3) (s : State) : Host.Outcome State Fault Refusal := queueStep (.vgsum d f b k) s

/-- vfgsum (R171): dispatched; performed by perfGsum. -/
def execVfgsum (d : BitVec 6) (f : BitVec 3) (b : BitVec 6) (k : BitVec 3) (s : State) : Host.Outcome State Fault Refusal := queueStep (.vfgsum d f b k) s

/-- vscan (R67, R171): dispatched; performed by perfScan. -/
def execVscan (d : BitVec 6) (f : BitVec 3) (i : Bool) (b : BitVec 6) (k : BitVec 3) (s : State) : Host.Outcome State Fault Refusal := queueStep (.vscan d f i b k) s

/-- vfscan (R67, R171): dispatched; performed by perfScan. -/
def execVfscan (d : BitVec 6) (f : BitVec 3) (i : Bool) (b : BitVec 6) (k : BitVec 3) (s : State) : Host.Outcome State Fault Refusal := queueStep (.vfscan d f i b k) s

end Sys2Proof.Machine
end

