-- ==== Sys2Proof/Machine/Matrix.lean ====
section
/-!
DEFINITION. The M engine: outer products (R64, R65, R70, R71, R183-R188) and tiles (R189-R193).
-/
namespace Sys2Proof.Machine

/-- A row of R183: kind of chunk, SEW in bits, elements of a chunk, tile format, and the multiple that VL must be. -/
inductive MKind where
  | fp | int | mx | fp64s
deriving DecidableEq, Repr

structure MForm where
  kind : MKind
  sew : Nat
  k : Nat
  tile : Nat
  mult : Nat
deriving DecidableEq, Repr

/-- The row that a descriptor selects (R183, R53); RND, SATEN and FMASK apart. -/
def mformOf (d : Word) : Option MForm :=
  let a := dAfmt d
  let b := dBfmt d
  let c := dDfmt d
  let e8 := fun x => x == 0x14 || x == 0x15
  let i8 := fun x => x == 1 || x == 2
  if ¬ descBase d then none
  else if a = 0x11 ∧ b = 0x11 ∧ c = 0x11 then some { kind := .fp, sew := 32, k := 1, tile := c, mult := 64 }
  else if (a = 0x12 ∨ a = 0x13) ∧ b = a ∧ c = 0x11 then some { kind := .fp, sew := 16, k := 2, tile := c, mult := 128 }
  else if e8 a ∧ e8 b ∧ c = 0x11 then some { kind := .fp, sew := 8, k := 4, tile := c, mult := 256 }
  else if i8 a ∧ i8 b ∧ c = 5 then some { kind := .int, sew := 8, k := 4, tile := c, mult := 256 }
  else if a = 0x16 ∧ b = 0x16 ∧ c = 0x11 then some { kind := .mx, sew := 8, k := 4, tile := c, mult := 1024 }
  else if a = 0x18 ∧ b = 0x18 ∧ c = 0x10 then some { kind := .fp64s, sew := 64, k := 1, tile := c, mult := 64 }
  else none

/-- A list cut into n pieces of k. -/
def pieces {α : Type} (k : Nat) : Nat → List α → List (List α)
  | 0, _ => []
  | n + 1, l => l.take k :: pieces k n (l.drop k)

/-- A tile's 4,096 cells, row by row (R189), and its image written; the tile is then dirty (R336). -/
def Thread.tile (t : Thread) (z : Nat) : List Nat := elemsOf 4 4096 (mread t.tiles (z * 16384) 16384)
def Thread.putTile (t : Thread) (z : Nat) (l : List Nat) : Thread :=
  (t.setTiles (mwrite t.tiles (z * 16384) (bytesOf 4 l))).setTdirty (t.tdirty ||| BitVec.ofNat 4 (2 ^ z))

/-- A tile, or the pair of R187, as the elements of a tile format. -/
def Thread.tileElems (t : Thread) (z fmt : Nat) : List Nat :=
  if fmt = 0x10 then ((t.tile z).zip (t.tile (z + 1))).map fun x => x.1 + x.2 * 2 ^ 32 else t.tile z
def Thread.putTileElems (t : Thread) (z fmt : Nat) (l : List Nat) : Thread :=
  if fmt = 0x10 then (t.putTile z (l.map (· % 2 ^ 32))).putTile (z + 1) (l.map (· / 2 ^ 32)) else t.putTile z l

/-- The exact sum of the products of two chunks (R70, R51). -/
def dotV (a b : List FVal) : FVal × Nat := sumV 0 ((a.zip b).map fun x => mulV x.1 x.2)

/-- The code value of an E2M1X32 code (R62), for its block's X. -/
def codeVal (code x : Nat) : FVal :=
  if code = 8 then decF 0x14 x
  else .fin (decide (8 ≤ code)) ([0, 1, 2, 3, 4, 6, 8, 12].getD (code % 8) 0) (-1)

/-- A value times 2^k. -/
def FVal.scale (v : FVal) (k : Int) : FVal :=
  match v with
  | .fin n m e => .fin n m (e + k)
  | v => v

/-- A chunk of one operand row: its values, its integers, or its codes under a scale pair. -/
structure Chunk where
  vals : List FVal
  ints : List Int
  scale : Option Int
deriving DecidableEq, Repr

/-- E and the digits of a slice split (R64), for a finite non-zero m * 2^e: n digits. -/
def sliceGo : Nat → Nat → Nat → List Nat
  | 0, _, _ => []
  | n + 1, r, den => r * 2 ^ 7 / den :: sliceGo n (r * 2 ^ 7 % den) den
def slices (n m : Nat) : List Nat :=
  let den := 2 ^ Nat.log2 m
  m * 2 ^ 6 / den :: sliceGo (n - 1) (m * 2 ^ 6 % den) den

/-- The slice products of the truncated triangle (R65), as an integer at exponent -7(n - 1). -/
def triangle (n : Nat) (x y : List Nat) : Nat :=
  ((upTo n).flatMap fun i => (upTo (n - i)).map fun j => x.getD i 0 * y.getD j 0 * 2 ^ (7 * (n - 1 - i - j))).foldl (· + ·) 0

/-- P(x, y) of R65 with n slices. -/
def sliceProduct (n : Nat) (x y : FVal) : FVal × Nat :=
  match x, y with
  | .fin sx mx ex, .fin sy my ey =>
    if mx = 0 ∨ my = 0 then (.fin (sx != sy) 0 0, 0)
    else
      let lx : Int := ex + Nat.log2 mx
      let ly : Int := ey + Nat.log2 my
      (.fin (sx != sy) (triangle n (slices n mx) (slices n my)) (lx + ly - 12 - 7 * (n - 1)), 0)
  | _, _ => mulV x y

/-- The product sum p of one tile element and one chunk (R70, R186), for n slices. -/
def chunkDot (f : MForm) (n : Nat) (a b : Chunk) : FVal × Nat :=
  match f.kind with
  | .fp64s => sliceProduct n (a.vals.headD (.nan false)) (b.vals.headD (.nan false))
  | .mx =>
    match a.scale, b.scale with
    | some x, some y => let r := dotV a.vals b.vals; (r.1.scale (x + y), r.2)
    | _, _ => (.nan false, 0)
  | _ => dotV a.vals b.vals

/-- acc of R186: one element of a tile and one chunk. Of the flags of the rounding, R186 names no underflow: none is raised. -/
def accElem (f : MForm) (n : Nat) (neg : Bool) (z : Nat) (a b : Chunk) : ERes :=
  if f.kind = .int then
    let p := ((a.ints.zip b.ints).map fun x => x.1 * x.2).foldl (· + ·) 0
    let r := clampI 5 (intVal 5 z + if neg then -p else p)
    (r.1, if r.2 then fSAT else 0)
  else
    let p := chunkDot f n a b
    let r := addF f.tile 0 (decF f.tile z) (if neg then p.1.neg else p.1)
    (r.1, p.2 ||| (if bitN r.2 1 then r.2 - fUF else r.2))

/-- One chunk of every row accumulated into a tile's elements. -/
def accChunk (f : MForm) (n : Nat) (neg : Bool) (z : List Nat) (as bs : List Chunk) : List ERes :=
  (z.zip (as.flatMap fun a => bs.map fun b => (a, b))).map fun x => accElem f n neg x.1 x.2.1 x.2.2

/-- The chunks in ascending order (R186), and the flags. -/
def accAll (f : MForm) (n : Nat) (neg : Bool) : List (List Chunk × List Chunk) → List Nat → Nat → List Nat × Nat
  | [], z, fl => (z, fl)
  | c :: r, z, fl => let x := accChunk f n neg z c.1 c.2; accAll f n neg r (x.map (·.1)) (fl ||| joinFlags x)

/-- The 64 rows of one chunk of an operand of scalar elements (R184). -/
def rowsOf (c k : Nat) (elems : List Nat) : List Chunk :=
  (pieces k 64 elems).map fun r =>
    { vals := if isIntFmt c then [] else r.map (decF (if c = 0x18 then 0x10 else c)), ints := if isIntFmt c then r.map (intVal c) else [],
      scale := none }

/-- The rows of one E2M1X32 chunk (R184, R185): 256 code bytes, and the scale register's bytes for its block. -/
def mxRows (codes scales : List Nat) : List Chunk :=
  ((pieces 4 64 codes).zip (pieces 2 64 scales)).map fun x =>
    let s := x.2.getD 0 0
    { vals := x.1.flatMap fun b => [codeVal (b % 16) (x.2.getD 1 0), codeVal (b / 16) (x.2.getD 1 0)], ints := [],
      scale := if s = 0xFF then none else some ((s : Int) - 127) }

/-- The chunks of an operand (R184, R185). -/
def chunksOf (f : MForm) (fmt : Nat) (t : Thread) (e : QEntry) (v : BitVec 6) : List (List Chunk) :=
  let elems := t.elems e v e.w e.vl
  if f.kind = .mx then
    let sc := (t.regBytes e.regLen (v.toNat + e.lmul)).map (·.toNat)
    ((upTo (e.vl / 256)).zip (pieces 256 (e.vl / 256) elems)).map fun x => mxRows x.2 ((sc.drop (x.1 / 4 * 128)).take 128)
  else (pieces (64 * f.k) (e.vl / (64 * f.k)) elems).map (rowsOf fmt f.k)

/-- R185's limits on the scale registers. -/
def scalesOk (e : QEntry) (va vb : BitVec 6) : Bool :=
  let sa := va.toNat + e.lmul
  let sb := vb.toNat + e.lmul
  decide (sa ≤ 63) && decide (sb ≤ 63) && sa != sb &&
    [sa, sb].all fun r => !overlaps r 1 va.toNat e.lmul && !overlaps r 1 vb.toNat e.lmul

/-- The MAC meter of a form and what its commit counts (R384). -/
def MForm.macs (f : MForm) (d : Word) (slices vl : Nat) : Nat × Nat :=
  match f.kind with
  | .mx => (5, 128 * vl)
  | .int => (4, 64 * vl)
  | .fp64s => (6, 64 * vl * (slices * (slices + 1) / 2))
  | .fp => (if dAfmt d = 0x11 then 1 else if dAfmt d = 0x12 ∨ dAfmt d = 0x13 then 2 else 3, 64 * vl)

/-- vopa and vops at the VCP (R186-R188). -/
def perfOuter (neg : Bool) (z : BitVec 2) (va vb : BitVec 6) (s : State) (h : Nat) (t : Thread) (e : QEntry) : VOut :=
  match mformOf e.desc with
  | none => .illegal s
  | some f =>
    if e.sew ≠ f.sew ∨ e.vl % f.mult ≠ 0 ∨ (f.kind = .fp64s ∧ (z.toNat % 2 = 1 ∨ e.slices < 2)) ∨
        ¬ groupsOk [(va.toNat, e.lmul), (vb.toNat, e.lmul)] ∨ (f.kind = .mx ∧ ¬ scalesOk e va vb) then .illegal s
    else if e.vl = 0 then .ok s 0 none
    else
      let cs := (chunksOf f (dAfmt e.desc) t e va).zip (chunksOf f (dBfmt e.desc) t e vb)
      let r := accAll f (e.slices + 1) neg cs (t.tileElems z.toNat f.tile) 0
      let m := f.macs e.desc (e.slices + 1) e.vl
      .ok ((s.setTh h (t.putTileElems z.toNat f.tile r.1)).meter t.part (s.accountOf t) m.1 m.2) r.2 none

/-- zclr at the VCP (R189). -/
def perfZclr (z : BitVec 2) (s : State) (h : Nat) (t : Thread) (_ : QEntry) : VOut :=
  .ok (s.setTh h (t.putTile z.toNat (List.replicate 4096 0))) 0 none

/-- The cells of zld and zst from row VSTART / 64 (R190). -/
def tileItems (t : Thread) (e : QEntry) : Items :=
  ((upTo 4096).filter fun c => decide (t.vstart / 64 ≤ c / 64)).map fun c =>
    (c, (e.op 0 + word (c / 64) * e.op 1 + word (4 * (c % 64))).toNat)

/-- zld at the VCP (R190). -/
def perfZld (z : BitVec 2) (s : State) (h : Nat) (t : Thread) (e : QEntry) : VOut :=
  let items := tileItems t e
  let put := fun (vals : Items) (t : Thread) =>
    let from_ := (vals.head?.map (·.1)).getD 4096
    let old := t.tile z.toNat
    t.putTile z.toNat (old.take from_ ++ vals.map (·.2) ++ old.drop (from_ + vals.length))
  match s.firstFault t .plain .load 4 items with
  | none =>
    match s.readItems h t 4 items with
    | .ok (s', vals) => .ok ((s'.countItems h t .load 4 64 items).modTh h (put vals)) 0 none
    | .hold => .hold
    | .trap c => .trap s c 0 0 none
  | some (f, va, c) =>
    let done := items.filter fun x => decide (x.1 < 64 * (f / 64))
    match s.readItems h t 4 done with
    | .ok (s', vals) =>
      .trap ((s'.countItems h t .load 4 64 done).modTh h (if done = [] then id else put vals)) c f va (some (64 * (f / 64)))
    | .hold => .hold
    | .trap c => .trap s c 0 0 none

/-- zst at the VCP (R190). Its accesses are mutually unordered: where cells meet at one location, which of them stands is free (log 6). -/
def perfZst (z : BitVec 2) (s : State) (h : Nat) (t : Thread) (e : QEntry) : VOut :=
  storeOut s h t e false 4 64 (tileItems t e) (t.tile z.toNat)

/-- The tile formats of zrdv and zwrv (R191, R192), and R193. -/
def tileMove (tile other row0 : Nat) (z : BitVec 2) (v : BitVec 6) (e : QEntry) : Bool :=
  descRnd e.desc && (tile == 0x11 || tile == 5 || tile == 0x10) && fmtAt (fun x => isIntFmt x || isFpFmt x) e.sew other &&
    decide (row0 + (e.vl + 63) / 64 ≤ 64) && !(tile == 0x10 && z.toNat % 2 == 1) && groupsOk [(v.toNat, e.lmul)]

/-- zrdv at the VCP (R191, R193). -/
def perfZrdv (z : BitVec 2) (vd : BitVec 6) (s : State) (h : Nat) (t : Thread) (e : QEntry) : VOut :=
  let d := e.desc
  let row0 := (e.op 0).toNat
  if tileMove (dAfmt d) (dDfmt d) row0 z vd e then
    let cells := padTo e.vlmax 0 ((t.tileElems z.toNat (dAfmt d)).drop (64 * row0))
    let pres := (upTo e.vlmax).map fun i => decide (i < e.vl)
    let f := fun x (_ _ : Nat) => convert (dAfmt d) (dDfmt d) (dRnd d) x
    let r := mapPres t.vstart f 0 pres cells cells cells
    .ok (s.setTh h ((t.writeVec e vd e.w pres (r.map (·.1))).markSat d r)) (joinFlags r) none
  else .illegal s

/-- zwrv at the VCP (R192, R193). -/
def perfZwrv (z : BitVec 2) (va : BitVec 6) (s : State) (h : Nat) (t : Thread) (e : QEntry) : VOut :=
  let d := e.desc
  let row0 := (e.op 0).toNat
  if tileMove (dDfmt d) (dAfmt d) row0 z va e then
    let src := t.elems e va e.w e.vl
    let pres := List.replicate e.vl true
    let f := fun x (_ _ : Nat) => convert (dAfmt d) (dDfmt d) (dRnd d) x
    let r := mapPres t.vstart f 0 pres src src src
    let old := t.tileElems z.toNat (dDfmt d)
    let at0 := 64 * row0
    let new := old.take (at0 + t.vstart) ++ (r.map (·.1)).drop t.vstart ++ old.drop (at0 + max t.vstart e.vl)
    .ok (s.setTh h ((if e.vl ≤ t.vstart then t else t.putTileElems z.toNat (dDfmt d) new).markSat d r)) (joinFlags r) none
  else .illegal s

/-- vopa (R186): dispatched under an M-full lease (R226); performed by perfOuter. -/
def execVopa (z : BitVec 2) (a b : BitVec 6) (f : BitVec 3) (s : State) : Host.Outcome State Fault Refusal := queueStep (.vopa z a b f) s

/-- vops (R186): dispatched under an M-full lease (R226); performed by perfOuter. -/
def execVops (z : BitVec 2) (a b : BitVec 6) (f : BitVec 3) (s : State) : Host.Outcome State Fault Refusal := queueStep (.vops z a b f) s

/-- zclr (R189): dispatched; performed by perfZclr. -/
def execZclr (z : BitVec 2) (s : State) : Host.Outcome State Fault Refusal := queueStep (.zclr z) s

/-- zld (R190): dispatched; performed by perfZld. -/
def execZld (z : BitVec 2) (a b : BitVec 5) (s : State) : Host.Outcome State Fault Refusal := queueStep (.zld z a b) s

/-- zst (R190): dispatched; performed by perfZst. -/
def execZst (z : BitVec 2) (a b : BitVec 5) (s : State) : Host.Outcome State Fault Refusal := queueStep (.zst z a b) s

/-- zrdv (R191): dispatched; performed by perfZrdv. -/
def execZrdv (z : BitVec 2) (d : BitVec 6) (b : BitVec 5) (f : BitVec 3) (s : State) : Host.Outcome State Fault Refusal :=
  queueStep (.zrdv z d b f) s

/-- zwrv (R192): dispatched; performed by perfZwrv. -/
def execZwrv (z : BitVec 2) (a : BitVec 6) (b : BitVec 5) (f : BitVec 3) (s : State) : Host.Outcome State Fault Refusal :=
  queueStep (.zwrv z a b f) s

end Sys2Proof.Machine
end

