-- ==== Sys2Proof/Machine/Quant.lean ====
section
/-!
DEFINITION. Hadamard stages and the quantiser (R63, R194-R197), and random numbers (R198).
-/
namespace Sys2Proof.Machine

/-- The sum of values with signs by one Hadamard row (R194), exact. -/
def hadSum (mode t : Nat) (xs : List FVal) : FVal × Nat :=
  sumV mode ((xs.zip (upTo xs.length)).map fun x => (if onesN 5 (t &&& x.2) % 2 = 1 then x.1.neg else x.1, sigFlag x.1))

/-- A sum divided by the square root of 32 and rounded once (R194). -/
def hadRound (c mode : Nat) (v : FVal) : Nat × Nat :=
  match v with
  | .nan _ => (nanBits c, 0)
  | .inf n => (infBits c n, 0)
  | .fin n m e =>
    if m = 0 then arithF c mode n 0 0 false
    else arithF c mode n (sqrtN (m * m * 2 ^ 257)) (e - 131) true

/-- One output of a block (R194). -/
def hadElem (c mode : Nat) (xs : List FVal) (t : Nat) : ERes :=
  let s := hadSum mode t xs
  let r := hadRound c mode s.1
  (r.1, s.2 ||| r.2)

/-- The outputs of n blocks of 32 (R194). -/
def hadGo (c mode : Nat) : Nat → List FVal → List ERes
  | 0, _ => []
  | n + 1, l => ((upTo 32).map (hadElem c mode (l.take 32))) ++ hadGo c mode n (l.drop 32)

/-- The descriptor of vhad (R194). -/
def hadDesc (e : QEntry) : Bool :=
  let a := dAfmt e.desc
  descRnd e.desc && fmtAt (fun x => x == 0x11 || x == 0x12 || x == 0x13) e.sew a && (dDfmt e.desc == a || dDfmt e.desc == 0x11)

/-- The results for elements below VL (R194), those not present or below VSTART raising no flag. -/
def hadAll (i : Instr) (va : BitVec 6) (t : Thread) (e : QEntry) : List ERes :=
  let d := e.desc
  let pres := presents t e i e.vl
  let xs := (pres.zip (t.elems e va e.w e.vl)).map fun x => if x.1 then decF (dAfmt d) x.2 else .fin false 0 0
  ((hadGo (dDfmt d) (dRnd d) (e.vl / 32) xs).zip (pres.zip (upTo e.vl))).map fun x =>
    if x.2.1 ∧ t.vstart ≤ x.2.2 then x.1 else (x.1.1, 0)

/-- vhad at the VCP (R194). -/
def perfVhad (i : Instr) (vd va : BitVec 6) (s : State) (h : Nat) (t : Thread) (e : QEntry) : VOut :=
  let w := fmtBits (dDfmt e.desc)
  if hadDesc e && e.vl % 32 == 0 && groupsOk [(vd.toNat, e.emul w), (va.toNat, e.lmul)] && dregOk e vd (e.emul w) then
    let r := hadAll i va t e
    .ok (s.setTh h (t.writeVec e vd (w / 8) (presents t e i e.vlmax) (padTo e.vlmax 0 (r.map (·.1))))) (joinFlags r) none
  else .illegal s

/-- vhad.c at the VCP (R194, R195): the chain buffer takes the elements below VL. -/
def perfVhadC (i : Instr) (va : BitVec 6) (s : State) (h : Nat) (t : Thread) (e : QEntry) : VOut :=
  let w := fmtBits (dDfmt e.desc)
  if hadDesc e && e.vl % 32 == 0 && groupsOk [(va.toNat, e.lmul)] && decide (e.vl * w ≤ 131072) then
    let r := hadAll i va t e
    let old := elemsOf (w / 8) e.vl (mread t.ch 0 (e.vl * (w / 8)))
    let new := mergeW e t.vstart (presents t e i e.vl) old (r.map (·.1))
    let t := { t with ch := mwrite t.ch 0 (bytesOf (w / 8) new), chValid := true, chFmt := BitVec.ofNat 8 (dDfmt e.desc), chCount := e.vl }
    .ok (s.setTh h t) (joinFlags r) none
  else .illegal s

/-- The rounding of |s| to a magnitude of R62, in halves: code and magnitude; above 6 it is 6 (R63). -/
def e2m1Code (m : Nat) (e : Int) : Nat × Nat :=
  let cands : List (Nat × Nat) := [(0, 0), (1, 1), (2, 2), (3, 3), (4, 4), (5, 6), (6, 8), (7, 12)]
  let dist := fun (h : Nat) => (addV 0 (.fin false m e) (.fin true h (-1))).1
  let mag := fun (v : FVal) => match v with
    | .fin _ a b => FVal.fin false a b
    | v => v
  cands.foldl (fun best c =>
    let b := mag (dist best.2)
    let d := mag (dist c.2)
    if ltV false d b || (eqV d b && c.1 % 2 == 0) then c else best) (0, 0)

/-- One element of a block after its scale (R63): code, |s - q|, exactness, and whether |s| > 6. -/
structure QElem where
  code : Nat
  err : FVal
  excess : Bool
deriving DecidableEq, Repr

def quantElem (v : FVal) (k : Int) : QElem :=
  match v with
  | .nan _ => { code := 0, err := .fin false 0 0, excess := false }
  | .inf n => { code := boolN n * 8 + 7, err := .inf false, excess := true }
  | .fin n m e =>
    let c := e2m1Code m (e + k)
    let d := (addV 0 (.fin false m (e + k)) (.fin true c.2 (-1))).1
    let err := match d with
      | .fin _ a b => FVal.fin false a b
      | v => v
    { code := if c.1 = 0 then 0 else boolN n * 8 + c.1, err := err, excess := ltV false (.fin false 6 0) (.fin false m (e + k)) }

/-- |v|, with infinity as the largest finite FP32 (R63). -/
def quantMag (v : FVal) : FVal :=
  match v with
  | .fin _ m e => .fin false m e
  | _ => decF 0x11 0x7F7FFFFF

/-- The quantiser on a block of 32 values (R63): codes, S, X, which elements saturate, and the flags. -/
def quantBlock (vs : List FVal) : List Nat × Nat × Nat × List Bool × Nat :=
  if vs.any (·.isNan) then (vs.map fun _ => 0, 0xFF, 0, vs.map (·.isNan), fNV + fSAT)
  else
    let amax := (vs.map quantMag).foldl (fun a b => if ltV false a b then b else a) (.fin false 0 0)
    let ex : Int := match amax with
      | .fin _ m e => if m = 0 then -127 else max (-127) (min 127 (e + Nat.log2 m - 2))
      | _ => 127
    let qs := vs.map fun v => quantElem v (-ex)
    let zero := FVal.fin false 0 0
    let worst := (qs.map (·.err)).foldl (fun a b => if ltV false a b then b else a) zero
    let j := if eqV worst zero then none else qs.findIdx? fun q => eqV q.err worst
    let x := match j with
      | some n => ((vs[n]?).getD zero).scale (-ex)
      | none => zero
    let xr := match j with
      | some _ => convF 0x14 0 false x
      | none => (0, 0)
    let codes := (qs.zip (upTo qs.length)).map fun q => if j = some q.2 then 8 else q.1.code
    let sat := (qs.zip (upTo qs.length)).map fun q => if j = some q.2 then (match x with | .inf _ => true | _ => false) else q.1.excess
    let inexact := (qs.zip (upTo qs.length)).any (fun q => j ≠ some q.2 && !eqV q.1.err zero) ||
      (j.isSome && !eqV (decF 0x14 xr.1) x)
    (codes, (ex + 127).toNat, xr.1, sat, (if inexact then fNX else 0) ||| (if sat.any id then fSAT else 0))

/-- Code bytes of a block: element 2i in bits 3:0 of byte i (R61). -/
def codeBytes : List Nat → List Byte
  | a :: b :: r => BitVec.ofNat 8 (a + 16 * b) :: codeBytes r
  | _ => []

/-- n blocks quantised. -/
def quantGo : Nat → List FVal → List (List Nat × Nat × Nat × List Bool × Nat)
  | 0, _ => []
  | n + 1, l => quantBlock (l.take 32) :: quantGo n (l.drop 32)

/-- Bytes written from byte 0 of a group of n registers; the bytes above them are tail (R197). -/
def Thread.putTail (t : Thread) (e : QEntry) (reg n : Nat) (b : List Byte) : Thread :=
  let old := t.group e.regLen reg n
  t.putRegs e.regLen reg (touched e.regLen n (b.map (fun _ => true) ++ List.replicate (old.length - b.length) e.tail))
    (b ++ if e.tail then List.replicate (old.length - b.length) 0 else old.drop b.length)

/-- The quantiser's results written: codes, scale pairs, saturation marks (R197, R59). -/
def Thread.putQuant (t : Thread) (e : QEntry) (vd vb : BitVec 6) (n : Nat) (src : List FVal) : Thread × Nat :=
  let bs := quantGo (e.vl / 32) src
  let t := t.putTail e vd.toNat n (bs.flatMap fun b => codeBytes b.1)
  let t := t.putTail e vb.toNat 1 (bs.flatMap fun b => [BitVec.ofNat 8 b.2.1, BitVec.ofNat 8 b.2.2.1])
  let marks : List ERes := bs.flatMap fun b => b.2.2.2.1.map fun x => (0, if x then fSAT else 0)
  (t.markSat e.desc marks, bs.foldl (fun f b => f ||| b.2.2.2.2) 0)

/-- The checks of vcvtq (R197), for its mask field and its source groups. -/
def quantOk (k : BitVec 3) (vd vb : BitVec 6) (src : List (BitVec 6)) (e : QEntry) : Bool :=
  let n := max 1 (4 * e.lmul / e.sew)
  let d := e.desc
  descBase d && (dAfmt d == 0x11 || dAfmt d == 0x12) && fmtBits (dAfmt d) == e.sew && dDfmt d == 0x16 && e.vl % 32 == 0 &&
    k == 0 && !(featP e.feat && featMask e.feat != 0) &&
    groupsOk ((vd.toNat, n) :: src.map fun r => (r.toNat, e.lmul)) &&
    !overlaps vb.toNat 1 vd.toNat n && src.all fun r => !overlaps vb.toNat 1 r.toNat e.lmul

/-- vcvtq at the VCP (R197). -/
def perfVcvtq (vd va vb : BitVec 6) (k : BitVec 3) (s : State) (h : Nat) (t : Thread) (e : QEntry) : VOut :=
  if quantOk k vd vb [va] e then
    let r := t.putQuant e vd vb (max 1 (4 * e.lmul / e.sew)) ((t.elems e va e.w e.vl).map (decF (dAfmt e.desc)))
    .ok (s.setTh h r.1) r.2 none
  else .illegal s

/-- vcvtq.c at the VCP (R195, R197): the chain buffer is read whole and left invalid; it then holds no elements (R196). -/
def perfVcvtqC (vd vb : BitVec 6) (k : BitVec 3) (s : State) (h : Nat) (t : Thread) (e : QEntry) : VOut :=
  if quantOk k vd vb [] e && e.vl == t.chCount && dAfmt e.desc == t.chFmt.toNat then
    let src := (elemsOf e.w e.vl (mread t.ch 0 (e.vl * e.w))).map (decF (dAfmt e.desc))
    let r := t.putQuant e vd vb (max 1 (4 * e.lmul / e.sew)) src
    .ok (s.setTh h { r.1 with chValid := false, chFmt := 0, chCount := 0 }) r.2 none
  else .illegal s

/-- vrand at the VCP (R198, R77). -/
def perfVrand (i : Instr) (vd : BitVec 6) (s : State) (h : Nat) (t : Thread) (e : QEntry) : VOut :=
  if e.sew = 32 ∧ memGroups e (some vd) [vd] then
    let base := fieldW (e.op 2) 0 32
    let vals := (upTo e.vlmax).map fun j => draw (e.op 0).toNat (e.op 1).toNat (base + j)
    .ok (s.setTh h (t.writeVec e vd e.w (presents t e i e.vlmax) vals)) 0 none
  else .illegal s

/-- vhad (R194): dispatched; performed by perfVhad. -/
def execVhad (d a : BitVec 6) (k f : BitVec 3) (s : State) : Host.Outcome State Fault Refusal := queueStep (.vhad d a k f) s

/-- The chain's state at a dispatch (R195, R196). -/
def State.chain (s : State) (h : Nat) (pend : Bool) : State := s.modTh h fun t => { t with chPend := pend }

/-- vhad.c (R194, R195): the chain opens at its dispatch; performed by perfVhadC. -/
def execVhadC (a : BitVec 6) (k f : BitVec 3) (s : State) : Host.Outcome State Fault Refusal :=
  queueStepWith (.vhadC a k f) (fun _ _ _ => false) (fun s h e => (s.chain h true, e)) s

/-- vcvtq (R197): dispatched; performed by perfVcvtq. -/
def execVcvtq (d a b : BitVec 6) (q : BitVec 3 × BitVec 3) (s : State) : Host.Outcome State Fault Refusal := queueStep (.vcvtq d a b q) s

/-- vcvtq.c (R195, R197): the chain closes at its dispatch; performed by perfVcvtqC. -/
def execVcvtqC (d b : BitVec 6) (q : BitVec 3 × BitVec 3) (s : State) : Host.Outcome State Fault Refusal :=
  queueStepWith (.vcvtqC d b q) (fun _ _ _ => false) (fun s h e => (s.chain h false, e)) s

/-- vrand (R198): dispatched; performed by perfVrand. -/
def execVrand (d : BitVec 6) (a b : BitVec 5) (k : BitVec 3) (s : State) : Host.Outcome State Fault Refusal :=
  queueStep (.vrand d a b k) s

end Sys2Proof.Machine
end

