-- ==== Sys2Proof/Machine/Coop.lean ====
section
/-!
DEFINITION. Cooperation between threads: chorus operations (R202-R206), messages (R207-R210) and vwait (R211).
-/
namespace Sys2Proof.Machine

/-- The operations of vchor (R203). -/
inductive ChorOp where
  | sum | min | max | argmax | argmin | and | or | xor
deriving DecidableEq, Repr

/-- The descriptor conditions of R203. -/
def ChorOp.form (op : ChorOp) (d : Word) : DForm :=
  let int := isIntFmt (dAfmt d)
  match op with
  | .sum => if int then .red2 else .fred2
  | .min | .max => if int then .redEq else .fredEq
  | .argmax | .argmin => .arg
  | .and | .or | .xor => .redEq

/-- The reduction that gives op and identity of an arithmetic vchor (R204). -/
def ChorOp.kind (op : ChorOp) (d : Word) : RedKind :=
  let int := isIntFmt (dAfmt d)
  match op with
  | .min => if int then .min else .fmin
  | .max => if int then .max else .fmax
  | .argmax => .argmax
  | .argmin => .argmin
  | _ => if int then .sum else .fsum

/-- op of R204. -/
def ChorOp.op (op : ChorOp) (d : Word) : ROp :=
  match op with
  | .and => fun a b => ((0, a.2 &&& b.2), 0)
  | .or => fun a b => ((0, a.2 ||| b.2), 0)
  | .xor => fun a b => ((0, a.2 ^^^ b.2), 0)
  | op => (op.kind d).op d

/-- The identity of R66. -/
def ChorOp.identity (op : ChorOp) (d : Word) : RVal :=
  match op with
  | .and => (0, 2 ^ fmtBits (dDfmt d) - 1)
  | .or | .xor => (0, 0)
  | op => (op.kind d).identity d

/-- A member of a chorus group: its core number, none where it is absent (R205). -/
abbrev Member := Option Nat

/-- One element of vchor (R204): the leaves by rank, combined pairwise to the root. -/
def chorElem (op : ChorOp) (d : Word) (arg : Bool) (vals : List (Option Nat)) : ERes :=
  let n := (upTo 11).find? (fun k => decide (vals.length ≤ 2 ^ k))
  let leaves := (vals.zip (upTo vals.length)).map fun x => x.1.map fun v => RedKind.leaf d x.2 v
  let fl := leaves.foldl (fun f x => f ||| (x.map (·.2)).getD 0) 0
  let r := nodeOf (op.op d) (n.getD 0) (leaves.map fun x => x.map (·.1))
  let v := r.1.getD (op.identity d)
  (if arg then v.1 % 2 ^ fmtBits (dDfmt d) else canonR d v.2, fl ||| r.2)

/-- A check of R205 that fails for the element whose offset is o: cause and TADDR. -/
def State.chorFault (s : State) (slot : Word) (g : Option (Bool × List Nat)) (mem : List Member) (w o : Nat) : Option (Nat × Nat) :=
  match g with
  | none => some (1, slot.toNat)
  | some (strict, ms) =>
    match (if strict then (ms.zip mem).find? fun x => x.2.isNone else none) with
    | some x => some (9, x.1)
    | none =>
      if o % w ≠ 0 then some (3, o)
      else if 0xC0000 < o + w then some (10, o)
      else if mem.any fun m => (m.map fun c => (s.coreAt c).mode (o / 65536) != 1).getD false then some (10, o)
      else none

/-- The meter of member reads (R384). -/
def State.meterReads (s : State) (t : Thread) (elems members : Nat) : State := s.meter t.part (s.accountOf t) 13 (elems * members)

/-- The meter of member reads (R384) and the CHORUS event of a commit (R374). -/
def State.noteChorus (s : State) (t : Thread) (e : QEntry) (elems members : Nat) : State :=
  (s.meterReads t elems members).tap (t.core / 128) 12 (.part t.part) [elems, s.time - e.at_, (e.op 0).toNat, t.place]

/-- A chorus operation at the VCP (R203-R206). -/
def perfVchor (op : ChorOp) (i : Instr) (vd : BitVec 6) (s : State) (h : Nat) (t : Thread) (e : QEntry) : VOut :=
  let d := e.desc
  let bits := fmtBits (dDfmt d)
  let n := e.emul bits
  if descOk (op.form d) e.sew d && groupsOk [(vd.toNat, n)] && dregOk e vd n then
    let g := s.chorusGroup t.part (e.op 0)
    let cores := ((s.partAt t.part).map (·.cores)).getD []
    let mem : List Member := ((g.map (·.2)).getD []).map fun c => if cores.contains c then some c else none
    let pres := presents t e i e.vlmax
    let offs := unitAddrs (e.op 1) e.w e.vlmax
    let items := itemsGo t.vstart 0 pres offs
    let arg := op == .argmax || op == .argmin
    let val := fun (o : Nat) => chorElem op d arg (mem.map fun m => m.map fun c => leNat (mread (s.coreAt c).banks o e.w))
    match items.findSome? fun x => (s.chorFault (e.op 0) g mem e.w x.2).map fun f => (x.1, f) with
    | none =>
      let r := items.map fun x => (x.1, val x.2)
      let s1 := s.setTh h (t.writeVec e vd (bits / 8) pres (spread e.vlmax 0 (r.map fun x => (x.1, x.2.1))))
      .ok (s1.noteChorus t e items.length (mem.filter (·.isSome)).length) (joinFlags (r.map (·.2))) none
    | some (f, c, a) =>
      let lim := 64 * (f / 64)
      let r := (items.filter fun x => decide (x.1 < lim)).map fun x => (x.1, val x.2)
      let old := t.elems e vd (bits / 8) e.vlmax
      let new := mergeW e t.vstart pres old (spread e.vlmax 0 (r.map fun x => (x.1, x.2.1)))
      let cut := max lim t.vstart
      let t := (t.putSome e vd (bits / 8) ((wroteW e t.vstart pres).take cut) (new.take cut ++ old.drop cut)).setFlags
        (t.flags ||| BitVec.ofNat 6 (joinFlags (r.map (·.2))))
      .trap ((s.setTh h t).meterReads t r.length (mem.filter (·.isSome)).length) c f a (some lim)
  else .illegal s

/-- The check of R207 on one target. -/
def State.sendFault (s : State) (t : Thread) (e : QEntry) (target : Nat) : Option Nat :=
  if e.w = 1 then some 1
  else if 2048 ≤ target then some 5
  else if ((s.partAt t.part).map fun p => p.cores.contains (target % 1024)).getD false then none
  else some 5

/-- vsend at the VCP (R207, R208): every element is checked, then the records of each target leave together. Like a vector store (R210)
they wait for the flips of a bundle that the thread's older bseal has committed (R262, R356). -/
def perfVsend (i : Instr) (va vb : BitVec 6) (s : State) (h : Nat) (t : Thread) (e : QEntry) : VOut :=
  if groupsOk [(va.toNat, e.lmul), (vb.toNat, e.lmul)] then
    let items := itemsGo t.vstart 0 (presents t e i e.vl) (t.elems e vb e.w e.vl)
    let data := t.elems e va e.w e.vl
    match items.findSome? fun x => (s.sendFault t e x.2).map fun c => (x.1, x.2, c) with
    | some (f, a, c) => .trap s c f a (some (64 * (f / 64)))
    | none =>
      if s.unflipped h then .hold
      else
      let msgs := (items.map (·.2)).eraseDups.map fun place =>
        { h := h, lost := false, core := place % 1024, slot := place / 1024, source := t.core + 1024 * t.slot, sew := bitsN e.vcfg.toNat 0 3,
          data := (items.filter fun x => x.2 == place).map fun x => word (data.getD x.1 0) : Msg }
      .ok { s with msgs := s.msgs ++ msgs } 0 none
  else .illegal s

/-- The 16 bytes of a record (R208). -/
def recordBytes (source sew : Nat) (x : Word) : List Byte := leBytes 8 x.toNat ++ leBytes 8 (packN [(source, 0), (sew, 16)])

/-- Records appended to a core's inbox while there is room: how many landed (R208). -/
def Core.land (c : Core) (b source sew : Nat) : List Word → Core × Nat
  | [] => (c, 0)
  | x :: r =>
    if 65536 ≤ c.tail b - c.head b then (c, 0)
    else
      let c := { c with
        banks := msetN c.banks (b * 65536 + c.tail b % 65536) (recordBytes source sew x)
        fifoTail := tset c.fifoTail b (c.tail b + 16) }
      let k := c.land b source sew r
      (k.1, k.2 + 1)

/-- The q4 entry of R209 for one arrival, merged into the youngest when q4 is full. -/
def Thread.inboxEntry (t : Thread) (count dropped source : Nat) : Thread :=
  let l := t.q 4
  if l.length < 16 then t.post 4 (word (packN [(min count 65535, 0), (min dropped 65535, 16), (source, 32)]))
  else
    let y := ((l.getLast?).bind (·.val)).getD 0
    let c := min 65535 (fieldW y 0 16 + count)
    let dr := min 65535 (fieldW y 16 16 + dropped)
    t.setQ 4 (l.dropLast ++ [{ tag := 0, val := some (word (packN [(c, 0), (dr, 16), (2047, 32), (1, 63)])) }])

/-- VSEND_ARRIVAL (R208, R209): the oldest message to a core lands in its inbox; one whose bank has left FIFO mode is dropped and
counted (R241). -/
def State.sendArrival (s : State) (core : Nat) : State :=
  match s.msgs.find? fun m => m.core == core with
  | none => s
  | some m =>
    let c := s.coreAt core
    let r := match c.inbox, m.lost with
      | some b, false => c.land b m.source m.sew m.data
      | _, _ => (c, 0)
    let s := { s.setCore core r.1 with msgs := s.msgs.eraseP fun m => m.core == core }
    match s.inSlot core m.slot with
    | some (h, t) => if t.res = .resident then s.setTh h (t.inboxEntry r.2 (m.data.length - r.2) m.source) else s
    | none => s

/-- VSEND_ARRIVAL (R208). -/
def execVsendArrival (core : Nat) (s : State) : Host.Outcome State Fault Refusal := .next (s.sendArrival core)

/-- vwait's timeout has come: T cycles have passed since it began to issue; a T of all ones never ends (R211). -/
def waitLate (e : QEntry) (now : Nat) : Bool :=
  e.op 0 != BitVec.allOnes 64 && decide (e.since.getD now + (e.op 0).toNat ≤ now)

/-- The entry that vwait delivers for its unmet elements (R211). -/
def vwaitEntry (unmet : List Nat) : Word :=
  word (packN ((unmet.filter fun k => decide (k < 63)).map fun k => (1, k)) + (if unmet.any fun k => decide (63 ≤ k) then 2 ^ 63 else 0))

/-- vwait after a pass (R211): it completes with no flag unmet or at its timeout; else it waits, with the elements found met. -/
def vwaitDone (s : State) (h : Nat) (e : QEntry) (met : Nat) (unmet : List Nat) : VOut :=
  if unmet = [] ∨ waitLate e s.time then .ok s 0 (some (vwaitEntry unmet))
  else .wait (s.modTh h fun t => t.setQueue (match t.queue with
    | q :: r => { q with met := met, since := some (e.since.getD s.time) } :: r
    | [] => []))

/-- vwait at the VCP, one pass (R211): met flags stay met; one whose line is held at its home (R215) is not read and stays unmet. -/
def perfVwait (i : Instr) (vd vb : BitVec 6) (s : State) (h : Nat) (t : Thread) (e : QEntry) : VOut :=
  if e.w = 8 ∧ groupsOk [(vd.toNat, e.lmul), (vb.toNat, e.lmul)] then
    let met0 := if e.since.isSome then e.met else 0
    let items := (itemsGo t.vstart 0 (presents t e i e.vl) (t.elems e vd 8 e.vl)).filter fun x => !bitN met0 x.1
    let want := t.elems e vb 8 e.vl
    match s.firstFault t .plain .load 8 items with
    | some (f, va, c) => .trap s c f va (some (64 * (f / 64)))
    | none =>
      let ready := items.filter fun x => s.readItems h t 8 [x] != .hold
      match s.readItems h t 8 ready with
      | .trap c => .trap s c 0 0 none
      | .hold => vwaitDone s h e met0 (items.map (·.1))
      | .ok (s, vals) =>
        let hit := vals.filter fun x => x.2 == want.getD x.1 0
        vwaitDone (s.countItems h t .load 8 64 ready) h e (hit.foldl (fun m x => m + 2 ^ x.1) met0)
          ((items.map (·.1)).filter fun k => !hit.any fun x => x.1 == k)
  else .illegal s

/-- vchor.sum (R204): dispatched; performed by perfVchor. -/
def execVchorSum (d : BitVec 6) (a b : BitVec 5) (f : BitVec 3) (s : State) : Host.Outcome State Fault Refusal := queueStep (.vchorSum d a b f) s

/-- vchor.min (R204): dispatched; performed by perfVchor. -/
def execVchorMin (d : BitVec 6) (a b : BitVec 5) (f : BitVec 3) (s : State) : Host.Outcome State Fault Refusal := queueStep (.vchorMin d a b f) s

/-- vchor.max (R204): dispatched; performed by perfVchor. -/
def execVchorMax (d : BitVec 6) (a b : BitVec 5) (f : BitVec 3) (s : State) : Host.Outcome State Fault Refusal := queueStep (.vchorMax d a b f) s

/-- vchor.argmax (R204): dispatched; performed by perfVchor. -/
def execVchorArgmax (d : BitVec 6) (a b : BitVec 5) (f : BitVec 3) (s : State) : Host.Outcome State Fault Refusal := queueStep (.vchorArgmax d a b f) s

/-- vchor.argmin (R204): dispatched; performed by perfVchor. -/
def execVchorArgmin (d : BitVec 6) (a b : BitVec 5) (f : BitVec 3) (s : State) : Host.Outcome State Fault Refusal := queueStep (.vchorArgmin d a b f) s

/-- vchor.and (R204): dispatched; performed by perfVchor. -/
def execVchorAnd (d : BitVec 6) (a b : BitVec 5) (f : BitVec 3) (s : State) : Host.Outcome State Fault Refusal := queueStep (.vchorAnd d a b f) s

/-- vchor.or (R204): dispatched; performed by perfVchor. -/
def execVchorOr (d : BitVec 6) (a b : BitVec 5) (f : BitVec 3) (s : State) : Host.Outcome State Fault Refusal := queueStep (.vchorOr d a b f) s

/-- vchor.xor (R204): dispatched; performed by perfVchor. -/
def execVchorXor (d : BitVec 6) (a b : BitVec 5) (f : BitVec 3) (s : State) : Host.Outcome State Fault Refusal := queueStep (.vchorXor d a b f) s

/-- vsend (R207): dispatched; performed by perfVsend. -/
def execVsend (d b : BitVec 6) (k : BitVec 3) (s : State) : Host.Outcome State Fault Refusal := queueStep (.vsend d b k) s

/-- vwait (R211): dispatched; performed by perfVwait. -/
def execVwait (a : BitVec 6) (x : BitVec 5) (b : BitVec 6) (k : BitVec 3) (q : BitVec 2) (s : State) : Host.Outcome State Fault Refusal :=
  queueStep (.vwait a x b k q) s

end Sys2Proof.Machine
end

