-- ==== Sys2Proof/Machine/Copy.lean ====
section
/-!
DEFINITION. The copy engine: cpdim, cpgo and cpstat (R213-R217), line ownership (R215), FIFO banks (R246) and references
to coherence objects (R350). A C-engine word that commits joins the thread's copy-engine list (`ceng`), whose head a
COPY_COMMAND performs, for a thread that has ended too: its committed words still retire (R332). A save stops a command at a
byte boundary, and it goes on after resumption (R229).
-/
namespace Sys2Proof.Machine

/-- The source and destination addresses of a command in nest order (R214), dimensions outermost first. -/
def nestAddrs : List Dim → Word → Word → List (Word × Word)
  | [], a, b => [(a, b)]
  | d :: r, a, b => (upTo d.count.toNat).flatMap fun i => nestAddrs r (a + word i * d.ss) (b + word i * d.ds)

/-- A byte of a command that passes its checks: where it is read, where it lands, and its FIFO bank and offset. -/
structure CopyByte where
  src : Loc
  dst : Loc
  fifo : Option (Nat × Nat)
deriving DecidableEq, Repr

/-- CAUSE of a q5 entry for a trap cause (R216). -/
def copyCause (c : Nat) : Nat := if c = 4 then 1 else if c = 6 then 3 else 2

/-- The line is held for the copy engine: owned by another, or, for a write, pending in a bundle (R215, R362). -/
def State.lineBusy (s : State) (h pa : Nat) (write : Bool) : Bool :=
  ((s.ownerOf (pa / 128)).map fun k => k != h).getD false || (write && (s.pendingOf (pa / 128)).isSome)

/-- A FIFO bank takes the appends of another thread's command until that command retires (R246). -/
def State.fifoBusy (s : State) (h core b : Nat) : Bool :=
  s.threads.any fun x => x.1 != h && x.2.core == core && x.2.res == .resident &&
    (x.2.crun.map fun r => r.tails.any fun y => y.1 == b).getD false

/-- The check of one source byte (R214). The banks of a thread that has ended are no longer its own (R332). -/
def State.copySrc (s : State) (h : Nat) (t : Thread) (va : Nat) : Acc Loc :=
  match s.checkAccess t .C .load va 1 with
  | .error c => .trap c
  | .ok (.dram pa place) =>
    if ¬ s.routed pa ∨ s.lineBusy h pa false then .hold else if s.lineError pa 1 then .trap 6 else .ok (.dram pa place)
  | .ok (.bank c b off) => if t.res = .ended then .trap 5 else .ok (.bank c b off)
  | .ok loc => .ok loc

/-- The check of one destination byte (R214, R246, R349). -/
def State.copyDst (s : State) (h : Nat) (t : Thread) (va : Nat) : Acc (Loc × Option (Nat × Nat)) :=
  match s.checkAccess t .C .store va 1 with
  | .error c => .trap c
  | .ok (.dram pa place) =>
    if 0 < s.sealCount (pa / 128) then .trap 5
    else if ¬ s.routed pa ∨ s.lineBusy h pa true then .hold
    else .ok (.dram pa place, none)
  | .ok (.bank c b off) =>
    let x := s.coreAt c
    if t.res = .ended then .trap 5
    else if x.mode b = 2 then
      if x.inbox = some b then .trap 5
      else if s.fifoBusy h c b then .hold
      else if x.head b + 65536 ≤ x.tail b + off then .trap 5
      else .ok (.bank c b ((x.tail b + off) % 65536), some (b, off))
    else .ok (.bank c b off, none)
  | .ok loc => .ok (loc, none)

/-- The bytes before the first that fails a check, with the CAUSE and the address of the stop (R214, R216). -/
def State.copyScan (s : State) (h : Nat) (t : Thread) : List (Word × Word) → Acc (List CopyByte × Nat × Nat)
  | [] => .ok ([], 0, 0)
  | (a, b) :: r =>
    match s.copySrc h t a.toNat with
    | .hold => .hold
    | .trap c => .ok ([], copyCause c, a.toNat)
    | .ok src =>
      match s.copyDst h t b.toNat with
      | .hold => .hold
      | .trap c => .ok ([], copyCause c, b.toNat)
      | .ok dst => (s.copyScan h t r).bind fun x => .ok ({ src := src, dst := dst.1, fifo := dst.2 } :: x.1, x.2)

/-- The sealed objects of the partition whose lines go to SCRATCH banks, each with the bank its first byte goes to (R350). A
command that goes on after a save has those it took before. -/
def State.copyRefs (s : State) (t : Thread) (bytes : List CopyByte) : List (Nat × Nat) :=
  let into := bytes.filterMap fun x => match x.src, x.dst with
    | .dram pa _, .bank c b _ => if (s.coreAt c).mode b = 1 then some (pa / 128, b) else none
    | _, _ => none
  let have_ := (s.coreAt t.core).refs
  (((s.partAt t.part).map (·.objects)).getD []).filterMap fun o =>
    if o.2.isSealed ∧ ¬ (t.cstop.isSome ∧ have_.any fun x => x.2 == (t.part, o.1)) then
      (into.find? fun x => o.2.lines.contains x.1).map fun x => (o.1, x.2)
    else none

/-- The limits of R350 hold. -/
def State.refsFit (s : State) (t : Thread) (refs : List (Nat × Nat)) : Bool :=
  let have_ := (s.coreAt t.core).refs
  let count : Nat → Nat := fun o => ((s.partAt t.part).bind fun p => (tget p.objects o).map fun (x : Obj) => x.refs).getD (0 : Nat)
  decide (refs.length ≤ 16) && refs.all fun r =>
    decide (((have_.map (·.1)) ++ refs.map (·.2)).count r.2 ≤ 64) && decide (count r.1 < 2 ^ 32 - 1)

/-- References taken, and recorded against their banks (R350). -/
def State.takeRefs (s : State) (t : Thread) (refs : List (Nat × Nat)) : State :=
  refs.foldl (fun s r =>
    match s.partAt t.part with
    | none => s
    | some p =>
      let s := match tget p.objects r.1 with
        | some o => s.setPart t.part { p with objects := tset p.objects r.1 { o with refs := o.refs + 1 } }
        | none => s
      let c := s.coreAt t.core
      s.setCore t.core { c with refs := c.refs ++ [(r.2, t.part, r.1)] }) s

/-- A byte read where it stands. -/
def State.byteAt (s : State) (h : Nat) : Loc → Byte
  | .dram pa _ => (s.lineBytes h pa 1).headD 0
  | .bank c b off => mget (s.coreAt c).banks (b * 65536 + off)
  | .host ha => mget s.hostMem ha
  | _ => 0

/-- A byte written where it lands. -/
def State.putByte (s : State) (x : Loc × Byte) : State :=
  match x.1 with
  | .dram pa _ => (s.recall none (pa / 128)).writePhys pa [x.2]
  | .bank c b off => let k := s.coreAt c; s.setCore c { k with banks := mset k.banks (b * 65536 + off) x.2 }
  | .host ha => { s with hostMem := mset s.hostMem ha x.2 }
  | _ => s

/-- The bytes to write (R214). In a command that overlaps itself, whether a byte is read before or after it is written,
and whether it keeps its older value, are free choices (log 7): `ctr` is the index of the next. -/
def copyVals (old : Loc → Byte) (srcs dsts : List Loc) : List CopyByte → Nat → List (Loc × Byte) → List (Loc × Byte)
  | [], _, out => out
  | x :: r, ctr, out =>
    let f := Config.freeNat ctr
    let cur := ((out.find? fun y => y.1 == x.src).map (·.2)).getD (old x.src)
    let v := if dsts.contains x.src ∧ f % 2 = 0 then cur else old x.src
    let out := if srcs.contains x.dst ∧ f / 2 % 2 = 0 then out else (x.dst, v) :: out
    copyVals old srcs dsts r (ctr + 1) out

/-- The lines of a list of locations, each once, in rising order; commons lines apart where `own`. -/
def dramLines (own : Bool) (l : List Loc) : List Nat :=
  sortN (l.filterMap fun x => match x with
    | .dram pa place => if own && place == 4 then none else some (pa / 128)
    | _ => none)

/-- A list with neighbours that are equal taken once. -/
def dropRepeats : List Nat → List Nat
  | [] => []
  | a :: r => match dropRepeats r with
    | [] => [a]
    | b :: l => if a = b then b :: l else a :: b :: l

/-- The lines that an engine owns of a command's destinations, in the order in which the nest first writes them: it holds 4,096, and
has released the older ones (R215). -/
def ownedLines (dsts : List Loc) : List Nat :=
  let l := (dropRepeats (dsts.filterMap fun x => match x with
    | .dram pa place => if place = 4 then none else some (pa / 128)
    | _ => none)).eraseDups
  l.drop (l.length - 4096)

/-- The bytes of a command moved under ownership of its lines (R214, R215). -/
def State.moveBytes (s : State) (h : Nat) (bytes : List CopyByte) : State :=
  let srcs := bytes.map (·.src)
  let dsts := bytes.map (·.dst)
  let from_ := dramLines false srcs
  let own := dramLines true dsts
  let s := from_.foldl (fun s l => (s.recall none l).meetTags h l) s
  let s := from_.foldl (fun s l => s.meetTags h l) s
  let meet := dsts.any srcs.contains
  let writes := if meet then (copyVals (s.byteAt h) srcs dsts bytes s.freeCtr []).reverse
    else bytes.map fun x => (x.dst, s.byteAt h x.src)
  let s := { s with freeCtr := s.freeCtr + if meet then bytes.length else 0 }
  let s := writes.foldl State.putByte s
  let s := (from_ ++ own).foldl (fun s l => s.countReq h 2 (l * 128) 1) s
  let host := ((srcs ++ dsts).filter fun x => match x with
    | .host _ => true
    | _ => false).length
  let s := if host = 0 then s else s.countHostBytes h host
  { s with owned := (ownedLines dsts).foldl (fun m l => tset m l h) s.owned }

/-- The TAIL of each FIFO bank once the command retires (R246). -/
def State.copyTails (s : State) (core : Nat) (bytes : List CopyByte) : List (Nat × Nat) :=
  (sortN (bytes.filterMap fun x => x.fifo.map (·.1))).map fun b =>
    let m := (bytes.filterMap fun x => match x.fifo with
      | some y => if y.1 = b then some y.2 else none
      | none => none).foldl max 0
    (b, (s.coreAt core).tail b + 16 * ((m + 16) / 16))

/-- Two parts of one command: for each FIFO bank the higher TAIL. -/
def joinTails (a b : List (Nat × Nat)) : List (Nat × Nat) :=
  b.foldl (fun m x => tset m x.1 (max x.2 (tgetD m x.1 0))) (a.foldl (fun m x => tset m x.1 x.2) [])

/-- The SCRATCH banks that a command reads or writes, each with the address of its last byte there (R365). -/
def State.copyBanks (s : State) (bytes : List CopyByte) (addrs : List (Word × Word)) : List (Nat × Nat) :=
  ((bytes.zip addrs).flatMap fun x => [(x.1.src, x.2.1), (x.1.dst, x.2.2)]).foldl (fun m x => match x.1 with
    | .bank c b _ => if (s.coreAt c).mode b = 1 then tset m b x.2.toNat else m
    | _ => m) []

/-- The head command as it stands: stopped by a save, or from its beginning, its nest then copied (R213, R214). -/
def Thread.copyPlan (t : Thread) (dst src : Word) (n : Nat) : CopyStop :=
  t.cstop.getD { dims := t.nest.take n, dst := dst, src := src, seq := t.cseq, moved := 0, tails := [] }

/-- The number of a command is taken as it begins (R216). -/
def Thread.nextSeq (t : Thread) : Nat := if t.cstop.isSome then t.cseq else (t.cseq + 1) % 2 ^ 32

/-- A command has moved its bytes and stops or is done: what its retirement will report. -/
def State.copyDone (s : State) (h : Nat) (c : CopyStop) (cause faddr landed : Nat) (tails banks : List (Nat × Nat)) :
    State :=
  s.modTh h fun t => { t with
    crun := some { seq := c.seq, cause := cause, landed := c.moved + landed, tails := joinTails c.tails tails, banks := banks }
    cstop := none
    cseq := t.nextSeq
    faddr := if 1 ≤ cause ∧ cause ≤ 3 then BitVec.ofNat 48 faddr else t.faddr
    faulted := t.faulted || cause != 0 }

/-- cpgo on the copy engine (R214-R216, R350), from where it stands: performed whole, or as far as `lim` bytes and stopped there by a
save (R229), or held for now. -/
def State.copyGo (s : State) (h : Nat) (t : Thread) (c : CopyStop) (lim : Option Nat) : Acc State :=
  if c.dims.any fun d => d.count == 0 then .ok (s.copyDone h c 0 0 0 [] [])
  else if c.dims.any fun d => decide (2 ^ 32 ≤ d.count.toNat) then .ok (s.copyDone h c 4 0 0 [] [])
  else
    let addrs := (nestAddrs c.dims.reverse c.src c.dst).drop c.moved
    (s.copyScan h t addrs).bind fun r =>
    let refs := s.copyRefs t r.1
    let pages := dropRepeats (addrs.map fun x => x.1.toNat / 4096) ++ dropRepeats (addrs.map fun x => x.2.toNat / 4096)
    if s.refsFit t refs then
      let part := (lim.map fun k => r.1.take k).getD r.1
      let tails := s.copyTails t.core part
      let banks := s.copyBanks r.1 addrs
      let s := ((pages.foldl (fun s p => s.cachePage t (p * 4096)) s).takeRefs t refs).moveBytes h part
      if part.length < r.1.length then
        .ok (s.modTh h fun t => { t with
          cstop := some { c with moved := c.moved + part.length, tails := joinTails c.tails tails }, cseq := t.nextSeq })
      else .ok (s.copyDone h c r.2.1 r.2.2 part.length tails banks)
    else .ok (s.copyDone h c 2 c.dst.toNat 0 [] [])

/-- A token popped into V, M or C as the entry is begun (R90); none while the FIFO is empty. -/
def Thread.popFor (t : Thread) (e : QEntry) (eng : Eng) : Option Thread :=
  let f := featPop e.feat
  if f = 0 ∨ fifoTo f ≠ eng then some t
  else if t.token f = 0 then none
  else some (t.setToken f (t.token f - 1))

/-- A retired word's push waits to be made (R91). -/
def Thread.pushFor (t : Thread) (e : QEntry) : Thread :=
  if featPush e.feat = 0 then t else t.setRetq (t.retq ++ [BitVec.ofNat 4 (featPush e.feat)])

/-- An engine whose last retirement's push is still to be made (R91). -/
def Thread.pushBlocked (t : Thread) (eng : Eng) : Bool := t.retq.any fun u => fifoFrom u.toNat == eng

/-- The head of the copy-engine list leaves it, retired; a thread that has ended has no token FIFO for its push (R332). -/
def Thread.dropC (t : Thread) (e : QEntry) : Thread :=
  let t := { t with ceng := t.ceng.drop 1 }
  if t.res = .resident then t.pushFor e else t

/-- The head word's token popped into C as it is begun (R90); a command that a save has stopped has popped it. -/
def Thread.popC (t : Thread) (e : QEntry) : Option Thread := if t.cstop.isSome then some t else t.popFor e .C

/-- COPY_COMMAND (R213, R214, R217): the thread's copy engine performs the oldest of its words. DEDUCED: a thread
that has ended (R332) has no token for a word to wait for, and that word is dropped, so that its engine comes to an end (R13). -/
def State.copyCommand (s : State) (h : Nat) : State :=
  match s.th h with
  | none => s
  | some t =>
    match t.ceng with
    | [] => s
    | e :: _ =>
      if (t.res ≠ .resident ∧ t.res ≠ .ended) ∨ t.crun.isSome ∨ t.pushBlocked .C then s
      else match t.popC e with
      | none => if t.res = .ended then s.setTh h (t.dropC e) else s
      | some t1 =>
        match decode e.word with
        | some (.cpdim _ _ _ n) =>
          s.setTh h ({ t1 with nest := setNth t1.nest n.toNat { count := e.op 0, ss := e.op 1, ds := e.op 2 } }.dropC e)
        | some (.cpstat q) =>
          let x := word (t1.faddr.toNat + boolN t1.faulted * 2 ^ 63)
          s.setTh h (({ t1 with faulted := false }.deliver q.toNat e.tag x).dropC e)
        | some (.cpgo _ _ n) =>
          match (s.setTh h t1).copyGo h t1 (t1.copyPlan (e.op 0) (e.op 1) n.toNat) none with
          | .ok s => s
          | _ => s
        | _ => s.setTh h (t1.dropC e)

/-- COPY_COMMAND (R214). -/
def execCopyCommand (h : Nat) (s : State) : Host.Outcome State Fault Refusal := .next (s.copyCommand h)

/-- COPY_COMMAND_RETIRE (R215, R216, R246): lines released, TAILs advanced, the q5 entry delivered, the COPY event tapped. -/
def State.copyRetire (s : State) (h : Nat) : State :=
  match s.th h with
  | none => s
  | some t =>
    match t.crun, t.ceng with
    | some r, e :: _ =>
      if t.res ≠ .resident ∧ t.res ≠ .ended then s
      else
        let s := s.releaseLines h
        let c := s.coreAt t.core
        let s := s.setCore t.core { c with fifoTail := r.tails.foldl (fun m x => if c.mode x.1 = 2 then tset m x.1 x.2 else m) c.fifoTail }
        let s := s.setTh h (({ t with crun := none }.post 5 (word (packN [(r.seq, 0), (r.cause, 32)]))).dropC e)
        s.tap (t.core / 128) 2 (.part t.part) [r.landed, r.cause, r.seq, t.place]
    | _, _ => s

/-- COPY_COMMAND_RETIRE (R216). -/
def execCopyCommandRetire (h : Nat) (s : State) : Host.Outcome State Fault Refusal := .next (s.copyRetire h)

/-- cpdim (R213): dispatched; performed on the copy engine by COPY_COMMAND. -/
def execCpdim (c a b : BitVec 5) (n : BitVec 3) (s : State) : Host.Outcome State Fault Refusal := queueStep (.cpdim c a b n) s

/-- cpgo (R214): dispatched; performed on the copy engine by COPY_COMMAND. -/
def execCpgo (a b : BitVec 5) (n : BitVec 3) (s : State) : Host.Outcome State Fault Refusal := queueStep (.cpgo a b n) s

/-- cpstat (R217): dispatched; performed on the copy engine by COPY_COMMAND. -/
def execCpstat (q : BitVec 2) (s : State) : Host.Outcome State Fault Refusal := queueStep (.cpstat q) s

end Sys2Proof.Machine
end

