-- ==== Sys2Proof/Machine/Bundles.lean ====
section
/-!
DEFINITION. Bundles: bopen, bseal and babort (R219-R221, R353-R358, R363, R364), their commit, flips and retirement, and
the stale condition (R360). The bundle stores themselves stand in Access.lean.
-/
namespace Sys2Proof.Machine

/-- bopen as the scalar stream dispatches it (R219, R363, R364). -/
def State.openBundle (s : State) (h : Nat) (name : BitVec 16) : State :=
  let b : Bundle := { h := h, name := name, lead := none, serial := 0, lines := [], stage := .open_, opened := s.time, cause := 0 }
  { s with bundles := tset s.bundles s.nextB b, nextB := s.nextB + 1 }.modTh h fun t =>
    { t with bopen := true, bdead := false, bcur := some s.nextB, blines := 0, bname := name }

/-- The open bundle closes as bseal or babort is dispatched (R219). -/
def Thread.closeBundle (t : Thread) : Thread := { t with bopen := false, bdead := false }

/-- The BUNDLE event (R374). -/
def State.tapBundle (s : State) (h b : Nat) (entry : Nat) : State :=
  match s.th h, tget s.bundles b with
  | some t, some bu =>
    let lines := if t.bcur = some b then t.blines.toNat else bu.lines.length
    s.tap (t.core / 128) 7 (.part t.part) [entry, lines, s.time - bu.opened, t.place]
  | _, _ => s

/-- bseal as the scalar stream dispatches it: the bundle closes and is sealing (R219, R356); its entry names it. -/
def sealPost (s : State) (h : Nat) (e : QEntry) : State × QEntry :=
  match s.th h with
  | none => (s, e)
  | some t =>
    match t.bopen, t.bcur with
    | true, some b =>
      let s := match tget s.bundles b with
        | some bu => if bu.stage = BundleStage.open_ then { s with bundles := tset s.bundles b { bu with stage := .sealing } } else s
        | none => s
      (s.setTh h t.closeBundle, { e with bundle := some b })
    | _, _ => (s, { e with bundle := none })

/-- babort as the scalar stream dispatches it (R220, R364). The bseal entry that a BUNDLE event carries has no stated
value here: a free value. -/
def abortPost (s : State) (h : Nat) (e : QEntry) : State × QEntry :=
  match s.th h with
  | none => (s, e)
  | some t =>
    match t.bopen, t.bcur with
    | true, some b =>
      let s := { s with freeCtr := s.freeCtr + 1 }.tapBundle h b (Config.freeNat s.freeCtr)
      ((s.abortBundle b 7).modTh h Thread.closeBundle, { e with bundle := some b })
    | _, _ => (s, { e with bundle := none })

/-- The bseal entry (R221). -/
def sealEntry (serial cause : Nat) : Nat := packN [(serial % 2 ^ 48, 0), (cause, 48), (boolN (cause != 0), 63)]

/-- bseal's delivery: BNDSTAT, the event and the queue entry (R221, R364). -/
def State.sealDone (s : State) (h b cause serial : Nat) (drop : Bool) : VOut :=
  let s := s.tapBundle h b (sealEntry serial cause)
  let s := s.modTh h fun t => { t with
    bcause := BitVec.ofNat 8 cause
    bserial := if cause = 0 then BitVec.ofNat 24 serial else t.bserial }
  .ok (if drop then { s with bundles := tdel s.bundles b } else s) 0 (some (word (sealEntry serial cause)))

/-- The budget of 200 µs in cycles, from the dispatch of bopen (R219, R363). -/
def bundleBudget : Nat := 120000

/-- What a release at POD scope waits for (R262): no record of the thread's vsends and no line of an older bundle of it is on its way. -/
def State.settled (s : State) (h : Nat) : Bool := !s.sending h && !s.unflipped h

/-- bseal at the VCP (R221, R356): every older store is performed; it waits for the commit point. A bundle with no store
commits here, unless its budget has expired (R363). -/
def perfBseal (s : State) (h : Nat) (_ : Thread) (e : QEntry) : VOut :=
  match e.bundle with
  | none => .ok (s.modTh h fun t => { t with bcause := 6 }) 0 (some (word (sealEntry 0 6)))
  | some b =>
    match tget s.bundles b with
    | none => s.sealDone h b 5 0 false
    | some bu =>
      match bu.stage with
      | .aborted => s.sealDone h b bu.cause 0 true
      | .committed => s.sealDone h b 0 bu.serial false
      | _ =>
        if bu.lead.isSome then .wait s
        else if bu.opened + bundleBudget ≤ s.time then s.sealDone h b 4 0 true
        else if s.settled h then s.sealDone h b 0 0 true
        else .wait s

/-- babort at the VCP: the aborted bundle is forgotten. -/
def perfBabort (s : State) (_ : Nat) (_ : Thread) (e : QEntry) : VOut :=
  match e.bundle with
  | some b => .ok { s with bundles := tdel s.bundles b } 0 none
  | none => .ok s 0 none

/-- bopen (R219): the bundle opens at its dispatch. -/
def execBopen (n : BitVec 16) (s : State) : Host.Outcome State Fault Refusal :=
  queueStepWith (.bopen n) (fun _ _ _ => false) (fun s h e => (s.openBundle h n, e)) s

/-- bseal (R221): the bundle closes at its dispatch; performed by perfBseal. -/
def execBseal (q : BitVec 2) (s : State) : Host.Outcome State Fault Refusal :=
  queueStepWith (.bseal q) (fun _ _ _ => false) sealPost s

/-- babort (R220): the bundle aborts and closes at its dispatch. -/
def execBabort (s : State) : Host.Outcome State Fault Refusal :=
  queueStepWith .babort (fun _ _ _ => false) abortPost s

/-- The thread's oldest queued word is the bseal of a bundle. -/
def Thread.atSeal (t : Thread) (b : Nat) : Bool :=
  match t.queue with
  | e :: _ => e.bundle == some b && (match decode e.word with
    | some (.bseal _) => true
    | _ => false)
  | [] => false

/-- The commit point of a bundle can be reached (R356): bseal stands at the VCP, the budget has not expired, and what the release waits
for is done (R262). -/
def State.commitReady (s : State) (b : Nat) : Bool :=
  match tget s.bundles b with
  | some bu => bu.stage == .sealing && bu.lead.isSome && decide (s.time < bu.opened + bundleBudget) && s.settled bu.h &&
      ((s.th bu.h).map fun t => t.res == .resident && t.atSeal b).getD false
  | none => false

/-- BUNDLE_COMMIT (R356): the lead home records the serial as committed. -/
def execBundleCommit (b : Nat) (s : State) : Host.Outcome State Fault Refusal :=
  .next (if s.commitReady b then
    match tget s.bundles b with
    | some bu => { s with bundles := tset s.bundles b { bu with stage := .committed } }
    | none => s
  else s)

/-- A line of a committed bundle that its home has not flipped (R357). -/
def Bundle.flipReady (bu : Bundle) (line : Nat) : Bool :=
  bu.stage == .committed && bu.lines.any fun l => l.line == line && !l.flipped

/-- BUNDLE_FLIP (R357): a home makes the pending version committed. -/
def execBundleFlip (b line : Nat) (s : State) : Host.Outcome State Fault Refusal :=
  .next (match tget s.bundles b with
    | some bu => if bu.flipReady line then s.flipLine b line else s
    | none => s)

/-- Every home of a committed bundle has flipped, and its bseal has been delivered (R357). -/
def State.retireReady (s : State) (b : Nat) : Bool :=
  match tget s.bundles b with
  | some bu => bu.stage == .committed && bu.lines.all (·.flipped) &&
      !(((s.th bu.h).map fun t => t.queue.any fun e => e.bundle == some b).getD false)
  | none => false

/-- SERIAL_RETIRE (R357, R360): the serial retires, and its tag leaves every line and every seen set. -/
def execSerialRetire (b : Nat) (s : State) : Host.Outcome State Fault Refusal :=
  .next (if s.retireReady b then
    { s with
      bundles := tdel s.bundles b
      threads := s.threads.map fun x => (x.1, { x.2 with seen := x.2.seen.filter fun g => g.bundle != b }) }
  else s)

/-- BUNDLE_BUDGET_EXPIRY (R363): before its commit point the bundle aborts with cause 4. -/
def execBundleBudgetExpiry (b : Nat) (s : State) : Host.Outcome State Fault Refusal :=
  .next (match tget s.bundles b with
    | some bu => if bu.opened + bundleBudget ≤ s.time then s.abortBundle b 4 else s
    | none => s)

/-- The flips still to come of bundles that were open at a time and have committed. -/
def State.lateFlips (s : State) (x : Nat) : List (Nat × Nat) :=
  (s.bundles.filter fun b => b.2.stage == .committed && decide (b.2.opened ≤ x)).flatMap fun b =>
    (b.2.lines.filter fun l => !l.flipped).map fun l => (b.1, l.line)

/-- The stale condition can clear (R360): 24,000 cycles since the last loss, and no recovery of a route under way that keeps a flip of a
bundle committed by then from its home (R266, R357). -/
def State.staleOver (s : State) (t : Thread) : Bool :=
  match t.stale with
  | some x => decide (x + 24000 ≤ s.time) && (s.lateFlips x).all fun l => s.routed (l.2 * 128)
  | none => false

/-- STALE_CLEAR (R360). Within the 24,000 cycles every home has flipped the lines of what was committed at the loss (R266, R357):
the flips that the model's order of events has left to come are made first. -/
def State.staleClear (s : State) (h : Nat) : State :=
  match s.th h with
  | none => s
  | some t =>
    if s.staleOver t then
      ((s.lateFlips (t.stale.getD 0)).foldl (fun s l => s.flipLine l.1 l.2) s).modTh h fun t => { t with stale := none }
    else s

/-- STALE_CLEAR (R360). -/
def execStaleClear (h : Nat) (s : State) : Host.Outcome State Fault Refusal := .next (s.staleClear h)

end Sys2Proof.Machine
end

