-- ==== Sys2Proof/Machine/Objects.lean ====
section
/-!
DEFINITION. Coherence objects: oshape, oseal, ounseal and orel (R222-R224, R347-R352).
-/
namespace Sys2Proof.Machine

/-- A shape record's fields (R347): the element size in bytes, BASE and the dimensions (COUNT, STRIDE), or none where a
field is out of its range. -/
def shapeOf (b : List Byte) : Option (Nat × Nat × List (Nat × Word)) :=
  let f := fun o n => leNat ((b.drop o).take n)
  let fmt := f 2 1
  let nd := f 3 1
  let size := fmtBits fmt / 8
  let base := f 8 8
  let dims := (upTo 4).map fun d => (f (16 + 4 * d) 4, word (f (32 + 8 * d) 8))
  let fmtOk := (decide (1 ≤ fmt) && decide (fmt ≤ 8)) || (decide (0x10 ≤ fmt) && decide (fmt ≤ 0x15)) || fmt == 0x17
  let used := (dims.take nd).all fun d => d.1 != 0
  let rest := (dims.drop nd).all fun d => d.1 == 0 && d.2 == 0
  if f 0 2 = 1 ∧ fmtOk ∧ 1 ≤ nd ∧ nd ≤ 4 ∧ f 4 4 = 0 ∧ base < 2 ^ 48 ∧ base % max 1 size = 0 ∧ used ∧ rest then
    some (size, base, dims.take nd)
  else none

/-- The addresses of an object's elements (R347), dimensions outermost first. -/
def shapeAddrs : List (Nat × Word) → Word → List Word
  | [], a => [a]
  | d :: r, a => (upTo d.1).flatMap fun i => shapeAddrs r (a + word i * d.2)

/-- The virtual lines of an object: those that hold a byte of an element (R347). -/
def shapeLines (size base : Nat) (dims : List (Nat × Word)) : List Nat :=
  sortN ((shapeAddrs dims (word base)).flatMap fun a => linesOf a.toNat size)

/-- A virtual line as the home's line, where its page is mapped with R and PLACE 0-2, its home in this package (R348). -/
def State.shapeLine (s : State) (t : Thread) (line : Nat) : Option Nat :=
  let va := line * 128
  if 0xFF0000000000 ≤ va then none
  else match s.pageFor t va with
  | some g => if g.r ∧ g.place ≤ 2 ∧ pkgOf (g.at_ va) = s.pkg then some (g.at_ va / 128) else none
  | none => none

/-- The physical lines of a shape record, none where the record is invalid (R348). -/
def State.shapeBound (s : State) (t : Thread) (b : List Byte) : Option (List Nat) :=
  match shapeOf b with
  | none => none
  | some (size, base, dims) =>
    let ls := shapeLines size base dims
    let ps := ls.filterMap (s.shapeLine t)
    if 2 ^ 20 < ls.length ∨ ps.length ≠ ls.length then none else some (sortN ps)

/-- The oshape entry (R222). -/
def shapeEntry (obj cause : Nat) : Word := word (packN [(obj, 0), (cause, 32), (boolN (cause != 0), 63)])

/-- oshape at the VCP (R222, R348). -/
def perfOshape (s : State) (h : Nat) (t : Thread) (e : QEntry) : VOut :=
  let va := (e.op 0).toNat
  match s.checkAccess t .V .load va 64 with
  | .error c => .trap s c 0 va (some 0)
  | .ok loc =>
    match (s.cachePage t va).readLoc h t .V loc 64 with
    | .trap c => .trap s c 0 va (some 0)
    | .hold => .hold
    | .ok (s, b) =>
      let s := match loc with
        | .dram pa _ => s.countReq h 0 pa 1
        | .host _ => s.countHostBytes h 64
        | _ => s
      match s.partAt t.part, s.shapeBound t b with
      | some p, some lines =>
        match lowestFree (p.objects.map (·.1)) 4096 0 with
        | some n =>
          let o : Obj := { task := t.task, lines := lines, isSealed := false, sealing := none, refs := 0 }
          .ok (s.setPart t.part { p with objects := tset p.objects n o }) 0 (some (shapeEntry n 0))
        | none => .ok s 0 (some (shapeEntry 0 1))
      | _, _ => .ok s 0 (some (shapeEntry 0 2))

/-- The object that sa names (R223). -/
def State.objectAt (s : State) (p : Nat) (sa : Word) : Option Obj :=
  (s.partAt p).bind fun x => if sa.toNat < 4096 then tget x.objects sa.toNat else none

def State.setObject (s : State) (p n : Nat) (o : Obj) : State :=
  match s.partAt p with
  | some x => s.setPart p { x with objects := tset x.objects n o }
  | none => s

/-- Steps 3 and 4 of an oseal are done: no line of the object is owned by a copy engine or pending in a bundle (R349). -/
def State.objectQuiet (s : State) (o : Obj) : Bool := o.lines.all fun l => (s.ownerOf l).isNone && (s.pendingOf l).isNone

/-- An oseal that has raised the seal counts commits once steps 3 and 4 are done (R349). -/
def State.sealObject (s : State) (p n : Nat) (o : Obj) : VOut :=
  if s.objectQuiet o then .ok (s.setObject p n { o with isSealed := true, sealing := none }) 0 none else .wait (s.setObject p n o)

/-- oseal at the VCP (R223, R349): the seal counts are raised and dirty copies written back first; then it waits while a line is owned
by a copy engine or pending in a bundle. One that finds another oseal at work on the object waits for it. -/
def perfOseal (s : State) (h : Nat) (t : Thread) (e : QEntry) : VOut :=
  let sa := e.op 0
  match s.objectAt t.part sa with
  | none => .trap s 5 0 sa.toNat none
  | some o =>
    match o.sealing with
    | some k => if k = h then s.sealObject t.part sa.toNat o else .hold
    | none =>
      if o.isSealed ∨ o.lines.any (fun l => decide (15 ≤ s.sealCount l)) then .trap s 5 0 sa.toNat none
      else (o.lines.foldl (fun s l => s.recall none l) s).sealObject t.part sa.toNat { o with sealing := some h }

/-- orel at the VCP (R223, R351); a count of 0 stays, and no record of a reference goes. -/
def perfOrel (s : State) (_ : Nat) (t : Thread) (e : QEntry) : VOut :=
  let sa := e.op 0
  match s.objectAt t.part sa with
  | none => .trap s 5 0 sa.toNat none
  | some o =>
    if o.refs = 0 then .ok s 0 none
    else
    let c := s.coreAt t.core
    let refs := c.refs.eraseP fun r => r.2.1 == t.part && r.2.2 == sa.toNat
    .ok ((s.dropRef t.part sa.toNat).setCore t.core { c with refs := refs }) 0 none

/-- The ounseal entry (R224). -/
def unsealEntry (refs cause : Nat) : Word := word (packN [(refs % 2 ^ 32, 0), (cause, 32), (boolN (cause != 0), 63)])

/-- ounseal's timeout has come (R224). -/
def unsealLate (e : QEntry) (now : Nat) : Bool := decide (e.since.getD now + (e.op 1).toNat ≤ now)

/-- ounseal at the VCP (R224, R352). -/
def perfOunseal (s : State) (h : Nat) (t : Thread) (e : QEntry) : VOut :=
  let sa := e.op 0
  match s.objectAt t.part sa with
  | none => .ok s 0 (some (unsealEntry 0 3))
  | some o =>
    if ¬ o.isSealed then .ok s 0 (some (unsealEntry o.refs 2))
    else if o.refs = 0 then .ok (s.setObject t.part sa.toNat { o with isSealed := false }) 0 (some (unsealEntry 0 0))
    else if unsealLate e s.time then .ok s 0 (some (unsealEntry o.refs 1))
    else .wait (s.modTh h fun t => t.setQueue (match t.queue with
      | q :: r => { q with since := some (e.since.getD s.time) } :: r
      | [] => []))

/-- oshape (R222): dispatched; performed by perfOshape. -/
def execOshape (q : BitVec 2) (a : BitVec 5) (s : State) : Host.Outcome State Fault Refusal := queueStep (.oshape q a) s

/-- oseal (R223): dispatched; performed by perfOseal. -/
def execOseal (a : BitVec 5) (s : State) : Host.Outcome State Fault Refusal := queueStep (.oseal a) s

/-- ounseal (R224): dispatched; performed by perfOunseal. -/
def execOunseal (q : BitVec 2) (a b : BitVec 5) (s : State) : Host.Outcome State Fault Refusal := queueStep (.ounseal q a b) s

/-- orel (R223): dispatched; performed by perfOrel. -/
def execOrel (a : BitVec 5) (s : State) : Host.Outcome State Fault Refusal := queueStep (.orel a) s

end Sys2Proof.Machine
end

