-- ==== Sys2Proof/Machine/Leases.lean ====
section
/-!
DEFINITION. Power leases: pwlease and pwdrop (R225, R226), and the stage manager of a die (R317-R321).
-/
namespace Sys2Proof.Machine

/-- pwlease (R226): the request is made at its dispatch. -/
def execPwlease (c : BitVec 2) (s : State) : Host.Outcome State Fault Refusal :=
  queueStepWith (.pwlease c) (fun _ _ _ => false) (fun s h e => (s.requestLease h c.toNat, e)) s

/-- pwdrop (R226): dispatched; it takes effect when it commits, by perfPwdrop. -/
def execPwdrop (c : BitVec 2) (s : State) : Host.Outcome State Fault Refusal := queueStep (.pwdrop c) s

/-- pwdrop at its commit: the request is cancelled, or the lease returned (R226). -/
def perfPwdrop (cls : Nat) (s : State) (h : Nat) (t : Thread) (_ : QEntry) : VOut :=
  let d := s.dieAt (t.core / 128)
  let s := s.setDie (t.core / 128) { d with leaseQ := d.leaseQ.filter fun r => !(r.h == h && r.cls == cls) }
  .ok (s.setTh h (t.setLease cls { t.lease cls with held := false, req := false })) 0 none

/-- The threads resident on a die. -/
def State.onDie (s : State) (die : Nat) : List (Nat × Thread) :=
  s.threads.filter fun t => t.2.core / 128 == die && t.2.res == .resident

/-- A lease's units count while it is held, and after a revocation until the class's dispatched instructions are gone
(R317, R319). -/
def Thread.leaseCounts (t : Thread) (c : Nat) : Bool :=
  (t.lease c).held || ((t.lease c).revoked && t.queue.any fun e => e.heavy == some c)

/-- The power units in use on a die (R317). -/
def State.unitsUsed (s : State) (die : Nat) : Nat :=
  ((s.onDie die).flatMap fun t => (upTo 3).map fun c => if t.2.leaseCounts c then leaseCost c else 0).foldl (· + ·) 0

/-- The effective level of a lease request (R318). -/
def State.leaseLevel (s : State) (r : LeaseReq) : Nat :=
  match s.th r.h with
  | some t => min 31 (s.prioOf t + (s.time - r.at_) / max 1 (s.params t.part).lage)
  | none => 0

/-- Request a stands before request b (R318). -/
def State.leaseBefore (s : State) (a b : LeaseReq) : Bool :=
  decide (s.leaseLevel b < s.leaseLevel a) || (s.leaseLevel a == s.leaseLevel b && decide (a.at_ ≤ b.at_))

/-- A request placed in a queue in service order. -/
def State.leaseInsert (s : State) (r : LeaseReq) : List LeaseReq → List LeaseReq
  | [] => [r]
  | x :: l => if s.leaseBefore x r then x :: s.leaseInsert r l else r :: x :: l

/-- A die's lease queue in service order now (R318). -/
def State.leaseOrder (s : State) (die : Nat) : List LeaseReq :=
  (s.dieAt die).leaseQ.foldl (fun l r => s.leaseInsert r l) []

/-- The head request's units are free (R317). -/
def State.grantable (s : State) (die : Nat) (r : LeaseReq) : Bool :=
  decide (s.unitsUsed die + leaseCost r.cls ≤ (s.dieAt die).budget)

/-- LEASE_GRANT (R318): the head request is granted, where its units are free. -/
def State.leaseGrant (s : State) (die : Nat) : State :=
  match s.leaseOrder die with
  | [] => s
  | r :: rest =>
    match s.th r.h with
    | none => s.setDie die { s.dieAt die with leaseQ := rest }
    | some t =>
      if s.grantable die r then
        let was := (t.lease r.cls).revoked
        let s := s.setDie die { s.dieAt die with leaseQ := rest }
        let s := s.setTh r.h (t.setLease r.cls { held := true, req := false, revoked := false, granted := s.time, last := s.time })
        s.tap die 3 (.part t.part) [s.time - r.at_, r.cls, boolN was, t.place]
      else s

/-- LEASE_GRANT (R318). -/
def execLeaseGrant (die : Nat) (s : State) : Host.Outcome State Fault Refusal := .next (s.leaseGrant die)

/-- The leases of a die that have been held for LHOLD: grant time, holder, class (R319). -/
def State.revocable (s : State) (die : Nat) : List (Nat × Nat × Nat) :=
  (s.onDie die).flatMap fun t => (upTo 3).filterMap fun c =>
    let l := t.2.lease c
    if l.held ∧ l.granted + (s.params t.2.part).lhold ≤ s.time then some (l.granted, t.1, c) else none

/-- The first of the smallest keys. -/
def oldest : List (Nat × Nat × Nat) → Option (Nat × Nat × Nat)
  | [] => none
  | x :: r => match oldest r with
    | some y => some (if x.1 ≤ y.1 then x else y)
    | none => some x

/-- LEASE_REVOKE (R319): the oldest lease that may be revoked is, while the head request cannot be granted. -/
def State.leaseRevoke (s : State) (die : Nat) : State :=
  match s.leaseOrder die with
  | [] => s
  | r :: _ =>
    if s.grantable die r then s
    else match oldest (s.revocable die) with
    | none => s
    | some (_, h, c) => s.modTh h fun t => t.setLease c { t.lease c with held := false, revoked := true }

/-- LEASE_REVOKE (R319). -/
def execLeaseRevoke (die : Nat) (s : State) : Host.Outcome State Fault Refusal := .next (s.leaseRevoke die)

/-- A lease has lapsed: 100 µs since the later of its grant and the last issue of its class (R226). -/
def Lease.lapsed (l : Lease) (now : Nat) : Bool := l.held && decide (max l.granted l.last + 60000 ≤ now)

/-- LEASE_LAPSE (R226). -/
def execLeaseLapse (h cls : Nat) (s : State) : Host.Outcome State Fault Refusal :=
  .next (s.modTh h fun t => if (t.lease cls).lapsed s.time then t.setLease cls { t.lease cls with held := false } else t)

/-- LEASE_AGEING (R318): the queue is put into the order of the levels that the waiting has given its requests. -/
def execLeaseAgeing (die : Nat) (s : State) : Host.Outcome State Fault Refusal :=
  .next (s.setDie die { s.dieAt die with leaseQ := s.leaseOrder die })

end Sys2Proof.Machine
end

