-- ==== Sys2Proof/Machine/Service.lean ====
section
/-!
DEFINITION. Service mode: vbind and vunbind, and the streams that bound groups read (R227).
-/
namespace Sys2Proof.Machine

/-- The binding of a group. -/
def Thread.bindOf (t : Thread) (vd : Nat) : Option Bind := t.binds.find? fun b => b.vd.toNat == vd

/-- A stream descriptor (R227). -/
def bindFrom (vd : BitVec 6) (lmul : Nat) (b : List Byte) : Option Bind :=
  let f := fun o n => leNat ((b.drop o).take n)
  if 2 ≤ f 0 1 ∨ f 1 7 ≠ 0 then none
  else some { vd := vd, lmul := lmul, kind := f 0 1, base := word (f 8 8), stride := word (f 16 8), count := f 24 8, next := 0 }

/-- vbind at the VCP (R227). -/
def perfVbind (vd : BitVec 6) (s : State) (h : Nat) (t : Thread) (e : QEntry) : VOut :=
  let va := (e.op 0).toNat
  if ¬ groupsOk [(vd.toNat, e.lmul)] then .illegal s
  else match s.checkAccess t .V .load va 32 with
  | .error c => .trap s c 0 va (some 0)
  | .ok loc =>
    match (s.cachePage t va).readLoc h t .V loc 32 with
    | .trap c => .trap s c 0 va (some 0)
    | .hold => .hold
    | .ok (s', b) =>
      match bindFrom vd e.lmul b, t.bindOf vd.toNat with
      | some x, none =>
        let s' := match loc with
          | .dram pa _ => s'.countReq h 0 pa 1
          | .host _ => s'.countHostBytes h 32
          | _ => s'
        .ok (s'.modTh h fun t => { t with binds := t.binds ++ [x] }) 0 none
      | _, _ => .illegal s

/-- vunbind at the VCP (R227). -/
def perfVunbind (vd : BitVec 6) (s : State) (h : Nat) (t : Thread) (e : QEntry) : VOut :=
  if ¬ groupsOk [(vd.toNat, e.lmul)] then .illegal s
  else .ok (s.setTh h { t with binds := t.binds.filter fun b => b.vd != vd }) 0 none

/-- vbind (R227): dispatched in service mode; performed by perfVbind. -/
def execVbind (d : BitVec 6) (a : BitVec 5) (s : State) : Host.Outcome State Fault Refusal := queueStep (.vbind d a) s

/-- vunbind (R227): dispatched in service mode; performed by perfVunbind. -/
def execVunbind (d : BitVec 6) (s : State) : Host.Outcome State Fault Refusal := queueStep (.vunbind d) s

/-- The vector register groups that an instruction reads, as their first registers; `anchor`, the pair word's. -/
def readsOf (anchor : Option (BitVec 6)) : Instr → List (BitVec 6)
  | .vldx _ _ b _ | .vldxo _ _ b _ => [b]
  | .vst d _ _ | .vsts d _ _ _ | .vstw d _ => [d]
  | .vstx d _ b _ | .vstxo d _ b _ => [d, b]
  | .vamoAdd d _ b _ | .vamoAnd d _ b _ | .vamoOr d _ b _ | .vamoXor d _ b _ | .vamoMin d _ b _ | .vamoMax d _ b _
  | .vamoMinn d _ b _ | .vamoMaxn d _ b _ | .vamoSwp d _ b _ => [d, b]
  | .vredsum d _ i b _ | .vfredsum d _ i b _ | .vredmin d _ i b _ | .vredmax d _ i b _ | .vfredmin d _ i b _
  | .vfredmax d _ i b _ | .vargmax d _ i b _ | .vargmin d _ i b _ | .vscan d _ i b _ | .vfscan d _ i b _ =>
    if i then [d, b] else [b]
  | .vgsum _ _ b _ | .vfgsum _ _ b _ | .vcomp _ b _ | .vexpand _ b _ | .vslup _ _ b _ | .vsldn _ _ b _
  | .vsl1up _ _ b _ | .vsl1dn _ _ b _ | .vbsll _ _ b | .vbsrl _ _ b => [b]
  | .vbfsh d _ b => [d, b]
  | .vgath _ a b _ | .vexit _ a b _ _ | .vopa _ a b _ | .vops _ a b _ | .vsel _ a b _ | .vfsgn _ a b _ _ => [a, b]
  | .zwrv _ a _ _ | .vhad _ a _ _ | .vhadC a _ _ | .vcvtq _ a _ _ | .vmv _ a _ | .vext _ a _ | .vcvt _ a _ _
  | .vfsqrt _ a _ _ | .vfrsqrt _ a _ _ | .vfexp2 _ a _ _ | .vflog2 _ a _ _ | .vfexp _ a _ _ | .vfcls _ a _ _ => [a]
  | .vsend d b _ | .vwait d _ b _ _ => [d, b]
  | .vadd _ a b _ _ x | .vsub _ a b _ _ x | .vmul _ a b _ _ x | .vmulh _ a b _ _ x | .vdiv _ a b _ _ x | .vrem _ a b _ _ x
  | .vmin _ a b _ _ x | .vmax _ a b _ _ x | .vand _ a b _ _ x | .vor _ a b _ _ x | .vxor _ a b _ _ x | .vsll _ a b _ _ x
  | .vsrl _ a b _ _ x | .vsra _ a b _ _ x | .vsadd _ a b _ _ x | .vssub _ a b _ _ x | .vabsd _ a b _ _ x
  | .vfadd _ a b _ _ x | .vfsub _ a b _ _ x | .vfmul _ a b _ _ x | .vfdiv _ a b _ _ x | .vfmin _ a b _ _ x
  | .vfmax _ a b _ _ x => if x then [a] else [a, b]
  | .vcmp _ _ a b _ _ x | .vfcmp _ _ a b _ _ x => if x then [a] else [a, b]
  | .vfma d a b _ _ x | .vfnma d a b _ _ x | .vfms d a b _ _ x => if x then [d, a] else [d, a, b]
  | .cp g k => anchor.toList ++ ([g, k].filter fun y => halfOp y != 0 && halfKind y == 0).map halfOpnd
  | _ => []

/-- The groups a queued instruction writes (R81, R145). -/
def writesOf (e : QEntry) (i : Instr) : List (Nat × Nat) := writeGroups e.lmul e.sew e.desc e.anchor e.feat i

/-- The instruction writes a bound group (R227). -/
def writesBound (t : Thread) (e : QEntry) (i : Instr) : Bool :=
  t.binds.any fun b => (writesOf e i).any fun w => overlaps w.1 w.2 b.vd.toNat b.lmul

/-- The bindings whose groups an instruction reads (R227): groups of the binding's LMUL from its first register. -/
def Thread.bindsRead (t : Thread) (e : QEntry) (i : Instr) : List Bind :=
  t.binds.filter fun b => b.lmul == e.lmul && (readsOf e.anchor i).contains b.vd

/-- The instructions that go on from VSTART element by element, and so can be performed in part (R149, R154). -/
def resumable : Instr → Bool
  | .vldx .. | .vldxo .. | .vst .. | .vsts .. | .vstx .. | .vstxo .. | .vamoAdd .. | .vamoAnd .. | .vamoOr .. | .vamoXor ..
  | .vamoMin .. | .vamoMax .. | .vamoMinn .. | .vamoMaxn .. | .vamoSwp .. | .vmv .. | .vsel .. | .vadd .. | .vsub .. | .vmul ..
  | .vmulh .. | .vdiv .. | .vrem .. | .vmin .. | .vmax .. | .vand .. | .vor .. | .vxor .. | .vsll .. | .vsrl .. | .vsra ..
  | .vsadd .. | .vssub .. | .vabsd .. | .vcmp .. | .vcvt .. | .vfadd .. | .vfsub .. | .vfmul .. | .vfma .. | .vfnma ..
  | .vfms .. | .vfdiv .. | .vfsqrt .. | .vfrsqrt .. | .vfexp2 .. | .vflog2 .. | .vfexp .. | .vfmin .. | .vfmax .. | .vfsgn ..
  | .vfcls .. | .vfcmp .. | .cp .. => true
  | _ => false

/-- What a bound group reads as: its next group's elements (R227), a trap cause with element and address, held, or not
yet there. -/
inductive StreamIn where
  | ok (s : State) (vals : List Nat)
  | trap (cause elem addr : Nat)
  | hold
  | absent
deriving DecidableEq, Repr

/-- The elements of a KIND 0 group that an instruction reads, with their addresses (R227); none once the stream is over. DEDUCED: an
element-wise instruction accesses its present elements alone, as R154 says of a load; every other one all from VSTART to VL - 1
(log 80). -/
def Thread.streamItems (t : Thread) (e : QEntry) (i : Instr) (b : Bind) : List (Nat × Nat) :=
  if b.kind ≠ 0 ∨ b.count ≤ b.next then []
  else
    let pres := presents t e i e.vl
    ((upTo e.vl).zip (unitAddrs (b.base + word b.next * b.stride) e.w e.vl)).filter fun x =>
      decide (t.vstart ≤ x.1) && (!resumable i || pres.getD x.1 false)

/-- The lowest element that fails its check in any of the streams that an instruction reads (R227, R154), with its address and cause. -/
def State.streamFault (s : State) (t : Thread) (e : QEntry) (i : Instr) (used : List Bind) : Option (Nat × Nat × Nat) :=
  used.foldl (fun f b => match f, s.firstFault t .plain .load e.w (t.streamItems e i b) with
    | some x, some y => some (if x.1 ≤ y.1 then x else y)
    | none, y => y
    | x, none => x) none

/-- The next group of a stream (R227), checked and read. A KIND 1 group takes its records from the inbox, whose HEAD moves past them. -/
def State.streamNext (s : State) (h : Nat) (t : Thread) (e : QEntry) (i : Instr) (b : Bind) : StreamIn :=
  if b.kind = 0 then
    if b.count ≤ b.next then .ok s (List.replicate e.vl 0)
    else
      let items := t.streamItems e i b
      match s.firstFault t .plain .load e.w items with
      | some (f, va, c) => .trap c f va
      | none => match s.readItems h t e.w items with
        | .ok (s, vals) => .ok (s.countItems h t .load e.w 64 items) (spread e.vl 0 vals)
        | _ => .hold
  else
    let c := s.coreAt t.core
    match c.inbox with
    | none => .absent
    | some k =>
      if c.tail k - c.head k < 16 * e.vl then .absent
      else
        let at_ := fun i => k * 65536 + (c.head k + 16 * i) % 65536
        .ok (s.setCore t.core { c with fifoHead := tset c.fifoHead k (c.head k + 16 * e.vl) })
          ((upTo e.vl).map fun i => mnat c.banks (at_ i) e.w)

/-- The streams of the bound groups that an instruction reads, one group each. -/
def State.streamAll (s : State) (h : Nat) (t : Thread) (e : QEntry) (i : Instr) : List Bind → Except StreamIn (State × List (Bind × List Nat))
  | [] => .ok (s, [])
  | b :: r =>
    match s.streamNext h t e i b with
    | .ok s' vals =>
      match s'.streamAll h t e i r with
      | .ok y => .ok (y.1, (b, vals) :: y.2)
      | .error x => .error x
    | x => .error x

/-- The FIFO heads of a core as they stood before: nothing is consumed. -/
def State.keepHeads (s old : State) (core : Nat) : State :=
  s.setCore core { s.coreAt core with fifoHead := (old.coreAt core).fifoHead }

/-- The streams' elements standing in the bound groups. -/
def Thread.withData (t : Thread) (e : QEntry) (data : List (Bind × List Nat)) : Thread :=
  data.foldl (fun (t : Thread) x => t.putElems e x.1.vd e.w x.2) t

/-- A register's place in the groups as it was in another record of the thread. -/
def spanFrom (old m : Table Nat) (r : Nat) : Table Nat :=
  match tget old r with
  | some b => tset m r b
  | none => tdel m r

/-- The thread after an instruction that read its bound groups' streams: the bound registers' own contents stand (R227). `t` is the thread
before, `u` as the instruction left it; the instruction has written no bound group. -/
def Thread.unstream (t : Thread) (e : QEntry) (used : List Bind) (u : Thread) : Thread :=
  used.foldl (fun (u : Thread) b =>
    let a := b.vd.toNat * 16384
    let n := b.lmul * e.regLen
    let live := liveBits b.vd.toNat b.lmul
    { u with
      vregs := mpaste (mclear u.vregs a (a + n)) a (mslice t.vregs a (a + n))
      vspan := (upTo b.lmul).foldl (fun m i => spanFrom t.vspan m (b.vd.toNat + i)) u.vspan
      vlive := (u.vlive &&& ~~~live) ||| (t.vlive &&& live) }) u

/-- The width in bytes of the elements that a resumable instruction writes (R147). -/
def partWidth (e : QEntry) : Instr → Nat
  | .vldx .. | .vldxo .. | .vamoAdd .. | .vamoAnd .. | .vamoOr .. | .vamoXor .. | .vamoMin .. | .vamoMax .. | .vamoMinn ..
  | .vamoMaxn .. | .vamoSwp .. | .vmv .. | .vsel .. | .vfsgn .. | .vfcls .. => e.w
  | _ => fmtBits (dDfmt e.desc) / 8

/-- The entry for the elements below a limit: nothing at or above it is written, no tail, and no copy (R154). -/
def QEntry.below (e : QEntry) (lim : Nat) : QEntry :=
  { e with
    vl := min e.vl lim
    vcfg := BitVec.ofNat 14 (e.vcfg.toNat - boolN e.tail * 32)
    feat := BitVec.ofNat 19 (e.feat.toNat - boolN (featD e.feat) * 16) }

/-- An instruction performed on its streams' elements, of which nothing is consumed yet: what it comes to, the state with the registers'
own contents put back. -/
def streamRun (run : State → Nat → Thread → QEntry → VOut) (i : Instr) (used : List Bind) (s : State) (h : Nat) (t : Thread) (e : QEntry) :
    VOut :=
  match s.streamAll h t e i used with
  | .error (.trap c f va) => .trap s c f va (some (64 * (f / 64)))
  | .error .hold => .hold
  | .error _ => .wait s
  | .ok (s', data) =>
    let t2 := ((s'.th h).getD t).withData e data
    match run (s'.setTh h t2) h t2 e with
    | .ok s2 f q => .ok (s2.modTh h (t.unstream e used)) f q
    | .trap s2 c f a v => .trap ((s2.keepHeads s t.core).modTh h (t.unstream e used)) c f a v
    | .hold => .hold
    | .wait s2 => .wait ((s2.keepHeads s t.core).modTh h (t.unstream e used))

/-- The groups that an instruction has read of its streams are consumed (R227). -/
def Thread.consume (t : Thread) (used : List Bind) : Thread :=
  { t with binds := t.binds.map fun b => if used.any (fun x => x.vd = b.vd) then { b with next := b.next + 1 } else b }

/-- A stream's element fails its check (R227, R154): a resumable instruction is performed below the new VSTART, with its flags and its
copy (R151, R89); another is not performed at all, and VSTART stands (log 67). -/
def streamTrap (run : State → Nat → Thread → QEntry → VOut) (i : Instr) (used : List Bind) (s : State) (h : Nat) (t : Thread) (e : QEntry)
    (c f va : Nat) : VOut :=
  let lim := 64 * (f / 64)
  if ¬ resumable i then .trap s c f va none
  else if lim ≤ t.vstart then .trap s c f va (some lim)
  else match streamRun run i used s h t (e.below lim) with
  | .ok s2 fl _ =>
    let copy := fun (u : Thread) => match vdOf i with
      | some d => u.copyBelow e (partWidth e i) d lim
      | none => u
    .trap ((s2.keepHeads s t.core).modTh h fun u => copy (u.setFlags (u.flags ||| BitVec.ofNat 6 fl))) c f va (some lim)
  | x => x

/-- An instruction performed with bound groups standing for their streams (R227): a group is consumed only when the instruction
completes. -/
def withStreams (run : State → Nat → Thread → QEntry → VOut) (i : Instr) (s : State) (h : Nat) (t : Thread) (e : QEntry) : VOut :=
  if t.binds = [] then run s h t e
  else if writesBound t e i then .illegal s
  else
    let used := t.bindsRead e i
    if used = [] then run s h t e
    else match s.streamFault t e i used with
    | some (f, va, c) => streamTrap run i used s h t e c f va
    | none =>
      match streamRun run i used s h t e with
      | .ok s2 f q => .ok (s2.modTh h fun u => u.consume used) f q
      | x => x

end Sys2Proof.Machine
end

