-- ==== Sys2Proof/Machine/Perform.lean ====
section
/-!
DEFINITION. The queued instruction at the VCP: which operation performs each word of the V and M engines (R19, R20, R86),
and the VILL trap (R28, R151).
-/
namespace Sys2Proof.Machine

/-- The words that the VILL trap does not concern: R16 names copy-engine, loop-marking, bundle, object and power
instructions apart from vector, matrix, chorus and message ones (DEDUCED, log 24). -/
def villFree (i : Instr) : Bool :=
  engOf i == some .C ||
  match i with
  | .lmark .. | .lend | .bopen .. | .bseal .. | .babort | .oshape .. | .oseal .. | .ounseal .. | .orel .. | .pwlease ..
  | .pwdrop .. => true
  | _ => false

/-- lend at its commit: the window zeroed where the entry says so (R297). -/
def perfLend (s : State) (h : Nat) (t : Thread) (e : QEntry) : VOut :=
  match e.zero with
  | some (a, b) =>
    .ok (s.setTh h (t.zeroRegs a.toNat (b.toNat + 1 - a.toNat))) 0 none
  | none => .ok s 0 none

/-- A word with no effect of its own at the VCP: its effect was its dispatch's, or is another step's. -/
def perfNone (s : State) (_ : Nat) (_ : Thread) (_ : QEntry) : VOut := .ok s 0 none

/-- The V and M words, each with the operation that performs it; a word of another engine performs nothing here. -/
def performWord (i : Instr) (s : State) (h : Nat) (t : Thread) (e : QEntry) : VOut :=
  match i with
  | .vld d _ _ => perfLoad i d [d] aUnit s h t e
  | .vlds d _ _ _ => perfLoad i d [d] aStride s h t e
  | .vldx d _ b _ => perfLoad i d [d, b] (aIndex b) s h t e
  | .vldxo d _ b _ => perfLoad i d [d, b] (aIndex b) s h t e
  | .vldff d _ f _ => perfLdff i d f s h t e
  | .vldw d _ => perfLdw d s h t e
  | .vst d _ _ => perfStore i d [d] false aUnit s h t e
  | .vsts d _ _ _ => perfStore i d [d] false aStride s h t e
  | .vstx d _ b _ => perfStore i d [d, b] false (aIndex b) s h t e
  | .vstxo d _ b _ => perfStore i d [d, b] true (aIndex b) s h t e
  | .vstw d _ => perfStw d s h t e
  | .vamoAdd d _ b _ => perfAmo i .add d b s h t e
  | .vamoAnd d _ b _ => perfAmo i .and d b s h t e
  | .vamoOr d _ b _ => perfAmo i .or d b s h t e
  | .vamoXor d _ b _ => perfAmo i .xor d b s h t e
  | .vamoMin d _ b _ => perfAmo i .min d b s h t e
  | .vamoMax d _ b _ => perfAmo i .max d b s h t e
  | .vamoMinn d _ b _ => perfAmo i .minn d b s h t e
  | .vamoMaxn d _ b _ => perfAmo i .maxn d b s h t e
  | .vamoSwp d _ b _ => perfAmo i .swp d b s h t e
  | .kand d a b => perfKlogic .and d a b s h t e
  | .kor d a b => perfKlogic .or d a b s h t e
  | .kxor d a b => perfKlogic .xor d a b s h t e
  | .kandn d a b => perfKlogic .andn d a b s h t e
  | .knot d a => perfKlogic .not d a a s h t e
  | .kmv d a => perfKlogic .mv d a a s h t e
  | .ksbf d a _ => perfKset i d a ruleBefore s h t e
  | .ksif d a _ => perfKset i d a ruleUpTo s h t e
  | .ksof d a _ => perfKset i d a ruleOnly s h t e
  | .kpop _ a _ => perfKpop i a s h t e
  | .kfirst _ a _ => perfKfirst i a s h t e
  | .kld d _ => perfKld d s h t e
  | .kst d _ => perfKst d s h t e
  | .vredsum d _ init b _ => perfRed .sum i d b init s h t e
  | .vfredsum d _ init b _ => perfRed .fsum i d b init s h t e
  | .vredmin d _ init b _ => perfRed .min i d b init s h t e
  | .vredmax d _ init b _ => perfRed .max i d b init s h t e
  | .vfredmin d _ init b _ => perfRed .fmin i d b init s h t e
  | .vfredmax d _ init b _ => perfRed .fmax i d b init s h t e
  | .vargmax d _ init b _ => perfRed .argmax i d b init s h t e
  | .vargmin d _ init b _ => perfRed .argmin i d b init s h t e
  | .vgsum d _ b _ => perfGsum .sum i d b s h t e
  | .vfgsum d _ b _ => perfGsum .fsum i d b s h t e
  | .vscan d _ init b _ => perfScan .sum i d b init s h t e
  | .vfscan d _ init b _ => perfScan .fsum i d b init s h t e
  | .vcomp d b _ => perfVcomp i d b s h t e
  | .vexpand d b _ => perfVexpand i d b s h t e
  | .vslup d _ b _ => perfSlide .up i d b s h t e
  | .vsldn d _ b _ => perfSlide .dn i d b s h t e
  | .vsl1up d _ b _ => perfSlide .one_up i d b s h t e
  | .vsl1dn d _ b _ => perfSlide .one_dn i d b s h t e
  | .vgath d a b _ => perfVgath i d a b s h t e
  | .vbsll d _ b => perfBits .left d b s h t e
  | .vbsrl d _ b => perfBits .right d b s h t e
  | .vbfsh d _ b => perfBits .funnel d b s h t e
  | .vopa z a b _ => perfOuter false z a b s h t e
  | .vops z a b _ => perfOuter true z a b s h t e
  | .zclr z => perfZclr z s h t e
  | .zld z _ _ => perfZld z s h t e
  | .zst z _ _ => perfZst z s h t e
  | .zrdv z d _ _ => perfZrdv z d s h t e
  | .zwrv z a _ _ => perfZwrv z a s h t e
  | .vhad d a _ _ => perfVhad i d a s h t e
  | .vhadC a _ _ => perfVhadC i a s h t e
  | .vcvtq d a b (_, k) => perfVcvtq d a b k s h t e
  | .vcvtqC d b (_, k) => perfVcvtqC d b k s h t e
  | .vrand d _ _ _ => perfVrand i d s h t e
  | .vsend d b _ => perfVsend i d b s h t e
  | .vwait a _ b _ _ => perfVwait i a b s h t e
  | .vchorSum d _ _ _ => perfVchor .sum i d s h t e
  | .vchorMin d _ _ _ => perfVchor .min i d s h t e
  | .vchorMax d _ _ _ => perfVchor .max i d s h t e
  | .vchorArgmax d _ _ _ => perfVchor .argmax i d s h t e
  | .vchorArgmin d _ _ _ => perfVchor .argmin i d s h t e
  | .vchorAnd d _ _ _ => perfVchor .and i d s h t e
  | .vchorOr d _ _ _ => perfVchor .or i d s h t e
  | .vchorXor d _ _ _ => perfVchor .xor i d s h t e
  | .bseal _ => perfBseal s h t e
  | .babort => perfBabort s h t e
  | .pwdrop c => perfPwdrop c.toNat s h t e
  | .lend => perfLend s h t e
  | .oshape _ _ => perfOshape s h t e
  | .oseal _ => perfOseal s h t e
  | .ounseal _ _ _ => perfOunseal s h t e
  | .orel _ => perfOrel s h t e
  | .vmv d a _ => perfVmv i d a s h t e
  | .vbcast d _ _ => perfVbcast i d s h t e
  | .vext _ a _ => perfVext a s h t e
  | .vins d _ _ => perfVins d s h t e
  | .vid d _ => perfVid i d s h t e
  | .viota d a _ => perfViota i d a s h t e
  | .vrelease d => perfVrelease d s h t e
  | .vsel d a b _ => perfVsel i d a b s h t e
  | .vadd d a b _ _ x => perfElem (.int .add) i d a (e.bsrc b x) s h t e
  | .vsub d a b _ _ x => perfElem (.int .sub) i d a (e.bsrc b x) s h t e
  | .vmul d a b _ _ x => perfElem (.int .mul) i d a (e.bsrc b x) s h t e
  | .vmulh d a b _ _ x => perfElem (.int .mulh) i d a (e.bsrc b x) s h t e
  | .vdiv d a b _ _ x => perfElem (.int .div) i d a (e.bsrc b x) s h t e
  | .vrem d a b _ _ x => perfElem (.int .rem) i d a (e.bsrc b x) s h t e
  | .vmin d a b _ _ x => perfElem (.int .min) i d a (e.bsrc b x) s h t e
  | .vmax d a b _ _ x => perfElem (.int .max) i d a (e.bsrc b x) s h t e
  | .vand d a b _ _ x => perfElem (.int .and) i d a (e.bsrc b x) s h t e
  | .vor d a b _ _ x => perfElem (.int .or) i d a (e.bsrc b x) s h t e
  | .vxor d a b _ _ x => perfElem (.int .xor) i d a (e.bsrc b x) s h t e
  | .vsll d a b _ _ x => perfElem (.int .sll) i d a (e.bsrc b x) s h t e
  | .vsrl d a b _ _ x => perfElem (.int .srl) i d a (e.bsrc b x) s h t e
  | .vsra d a b _ _ x => perfElem (.int .sra) i d a (e.bsrc b x) s h t e
  | .vsadd d a b _ _ x => perfElem (.int .sadd) i d a (e.bsrc b x) s h t e
  | .vssub d a b _ _ x => perfElem (.int .ssub) i d a (e.bsrc b x) s h t e
  | .vabsd d a b _ _ x => perfElem (.int .absd) i d a (e.bsrc b x) s h t e
  | .vfadd d a b _ _ x => perfElem (.fp .add) i d a (e.bsrc b x) s h t e
  | .vfsub d a b _ _ x => perfElem (.fp .sub) i d a (e.bsrc b x) s h t e
  | .vfmul d a b _ _ x => perfElem (.fp .mul) i d a (e.bsrc b x) s h t e
  | .vfma d a b _ _ x => perfElem (.fp .fma) i d a (e.bsrc b x) s h t e
  | .vfnma d a b _ _ x => perfElem (.fp .fnma) i d a (e.bsrc b x) s h t e
  | .vfms d a b _ _ x => perfElem (.fp .fms) i d a (e.bsrc b x) s h t e
  | .vfdiv d a b _ _ x => perfElem (.fp .div) i d a (e.bsrc b x) s h t e
  | .vfmin d a b _ _ x => perfElem (.fp .min) i d a (e.bsrc b x) s h t e
  | .vfmax d a b _ _ x => perfElem (.fp .max) i d a (e.bsrc b x) s h t e
  | .vfsqrt d a _ _ => perfElem (.un .sqrt) i d a .none s h t e
  | .vfrsqrt d a _ _ => perfElem (.un .rsqrt) i d a .none s h t e
  | .vfexp2 d a _ _ => perfElem (.un .exp2) i d a .none s h t e
  | .vflog2 d a _ _ => perfElem (.un .log2) i d a .none s h t e
  | .vfexp d a _ _ => perfElem (.un .exp) i d a .none s h t e
  | .vfsgn d a b _ _ => perfElem .sgn i d a (.vec b) s h t e
  | .vfcls d a _ _ => perfElem .cls i d a .none s h t e
  | .vcvt d a _ _ => perfElem .cvt i d a .none s h t e
  | .vcmp d c a b _ _ x => perfCmp .cmpI i d c a (e.bsrc b x) s h t e
  | .vfcmp d c a b _ _ x => perfCmp .cmpF i d c a (e.bsrc b x) s h t e
  | .cp g k => perfCp g k s h t e
  | .vbind d _ => perfVbind d s h t e
  | .vunbind d => perfVunbind d s h t e
  | _ => perfNone s h t e

/-- The lines of a thread's green-room overflow in which an uncorrectable error stands, counted from its offset 0x1000; the R and W
bits of their pages do not matter (R326, R334). -/
def State.overflowErrors (s : State) (t : Thread) : List Nat :=
  if s.memErr = [] then []
  else (upTo 2048).filter fun n =>
    let va := t.grbase.toNat + 0x1000 + 128 * n
    match s.pageFor t va with
    | some g => s.lineError (g.at_ va) 128
    | none => false

/-- The block-scale registers that an outer product of E2M1X32 operands reads, one above each group (R61, R183). -/
def scaleRegs (e : QEntry) : Instr → List (Nat × Nat)
  | .vopa _ a b _ | .vops _ a b _ => if dAfmt e.desc = 0x16 then [(a.toNat + e.lmul, 1), (b.toNat + e.lmul, 1)] else []
  | _ => []

/-- A live vector register that a word names is found in error where it has been swapped to (R334): the register, and the address in
the overflow area. Which registers are swapped out, and where they lie there, is free (log 68). -/
def State.swapError (s : State) (t : Thread) (e : QEntry) (i : Instr) : Option (Nat × Nat) :=
  let bad := s.overflowErrors t
  let named := (readsOf e.anchor i).map (fun r => (r.toNat, e.lmul)) ++ scaleRegs e i ++ writesOf e i
  let live := (named.flatMap fun g => (upTo g.2).map (g.1 + ·)).filter fun r => t.vlive.getLsbD r
  let f := Config.freeNat s.freeCtr
  if bad = [] ∨ live = [] ∨ f % 2 = 0 then none
  else some (live.getD (f / 2 % live.length) 0, t.grbase.toNat + 0x1000 + 128 * bad.getD (f / 2 ^ 16 % bad.length) 0)

/-- A word performed over its streams (R227), where no register that it names is in error; else the register is released and the word
traps (R334). -/
def swapped (run : State → Nat → Thread → QEntry → VOut) (i : Instr) (s : State) (h : Nat) (t : Thread) (e : QEntry) : VOut :=
  match s.swapError t e i with
  | some (r, va) => .trap ({ s with freeCtr := s.freeCtr + 1 }.setTh h (t.release r 1)) 6 0 va none
  | none => withStreams run i (if s.overflowErrors t = [] then s else { s with freeCtr := s.freeCtr + 1 }) h t e

/-- A queued word at the VCP: a failed entry (R330), VILL (R151), then the word itself. -/
def perform (i : Instr) (s : State) (h : Nat) (t : Thread) (e : QEntry) : VOut :=
  if e.failed then .illegal s
  else if e.vill ∧ ¬ villFree i then .trap s 2 0 0 none
  else swapped (performWord i) i s h t e

/-- The device writes a swapped vector register of a thread to its green room's overflow area, whatever the R and W bits of the page say
(R326): which line it writes, and when, and the bytes there, are free (log 68). -/
def State.greenRoom (s : State) (h : Nat) : State :=
  match s.th h with
  | none => s
  | some t =>
    let f := Config.freeNat s.freeCtr
    let va := t.grbase.toNat + 0x1000 + f / 2 % 2048 * 128
    match (if t.res = .resident ∧ t.vlive ≠ 0 ∧ f % 2 = 1 then s.pageFor t va else none) with
    | some g =>
      let pa := g.at_ va
      if s.homeServes t.part pa ∧ s.routed pa ∧ s.blockReady pa 128 = .ok () then
        { (s.recall none (pa / 128)).writePhys pa (leBytes 128 (f / 2 ^ 12 % 2 ^ 1024)) with freeCtr := s.freeCtr + 1 }
      else s
    | none => s

end Sys2Proof.Machine
end

