-- ==== Sys2Proof/Machine/Region.lean ====
section
/-!
DEFINITION. The exit region (R177-R179): vxbeg and vexit. The region's instructions are performed when its vexit reaches
them: once to find the unresolved elements and the cut, once more under the cut.
-/
namespace Sys2Proof.Machine

/-- vxbeg (R177): the region opens at its dispatch. -/
def execVxbeg (s : State) : Host.Outcome State Fault Refusal := queueStep .vxbeg s

/-- vexit (R178, R179): dispatched; OPEN and COUNT are cleared, and the entry keeps COUNT in case it traps. -/
def execVexit (c : BitVec 3) (a b : BitVec 6) (k f : BitVec 3) (s : State) : Host.Outcome State Fault Refusal :=
  queueStepWith (.vexit c a b k f) (fun _ _ _ => false)
    (fun s h e => (s, { e with met := ((s.th h).map (·.regionCount)).getD 0 })) s

/-- A load of the region (R178): the elements that pass their checks are read; the others hold free values (log 8). -/
def regionLoad (i : Instr) (vd : BitVec 6) (gs : List (BitVec 6)) (addrs : Thread → QEntry → List Nat) (s : State) (h : Nat)
    (t : Thread) (e : QEntry) : VOut :=
  if ¬ memGroups e (some vd) gs then .illegal s
  else
    let pres := presents t e i e.vlmax
    let items := itemsGo t.vstart 0 pres (addrs t e)
    let good := items.filter fun x => (s.elemFault t .plain .load x.2 e.w).isNone
    let bad := items.filter fun x => (s.elemFault t .plain .load x.2 e.w).isSome
    let free := bad.map fun x => (x.1, Config.freeNat (s.freeCtr + x.1) % 2 ^ e.sew)
    match s.readItems h t e.w good with
    | .ok (s', vals) =>
      let s' := { s' with freeCtr := s'.freeCtr + if bad = [] then 0 else e.vlmax }
      .ok ((s'.countItems h t .load e.w 64 good).modTh h fun t => t.loadDest e vd pres (vals ++ free) none) 0 none
    | .hold => .hold
    | .trap c => .trap s c 0 0 none

/-- The check of a region's load: it traps where an element fails. -/
def regionCheck (i : Instr) (addrs : Thread → QEntry → List Nat) (s : State) (_ : Nat) (t : Thread) (e : QEntry) : VOut :=
  match s.firstFault t .plain .load e.w (itemsGo t.vstart 0 (presents t e i e.vlmax) (addrs t e)) with
  | some (f, va, c) => .trap s c f va none
  | none => .ok s 0 none

/-- The loads that a region admits: destination, groups and addresses. -/
def loadForm : Instr → Option (BitVec 6 × List (BitVec 6) × (Thread → QEntry → List Nat))
  | .vld d _ _ => some (d, [d], aUnit)
  | .vlds d _ _ _ => some (d, [d], aStride)
  | .vldx d _ b _ | .vldxo d _ b _ => some (d, [d, b], aIndex b)
  | _ => none

/-- A region's instruction performed, no load element trapping. -/
def performInRegion (i : Instr) (s : State) (h : Nat) (t : Thread) (e : QEntry) : VOut :=
  match loadForm i with
  | some (d, gs, addrs) =>
    if e.failed then .illegal s
    else if e.vill then .trap s 2 0 0 none
    else swapped (regionLoad i d gs addrs) i s h t e
  | none => perform i s h t e

/-- The lowest element of a region's load that fails, its address and its cause. -/
def failsInRegion (i : Instr) (s : State) (h : Nat) (t : Thread) (e : QEntry) : Option (Nat × Nat × Nat) :=
  match loadForm i with
  | some (_, _, addrs) =>
    match withStreams (regionCheck i addrs) i s h t e with
    | .trap _ c f va _ => some (f, va, c)
    | _ => none
  | none => none

/-- An unresolved element: the entry's place in the region, the element, its address, its cause. -/
abbrev Unresolved := Nat × Nat × Nat × Nat

/-- What a pass over a region's entries comes to. -/
inductive Pass where
  | ok (s : State) (fails : List Unresolved)
  | trap (s : State) (k cause elem addr : Nat) (vstart : Option Nat)
  | hold
deriving DecidableEq, Repr

/-- The flags of an instruction that commits, and VSTART (R56, R142). -/
def State.commitMarks (s : State) (h flags : Nat) : State :=
  s.modTh h fun t => (t.setFlags (t.flags ||| BitVec.ofNat 6 flags)).setVstart 0

/-- The entries of a region performed one after another, the first of them at place k. -/
def State.regionPass (s : State) (h : Nat) : Nat → List QEntry → Pass
  | _, [] => .ok s []
  | k, e :: r =>
    match s.th h, decode e.word with
    | some t, some i =>
      match performInRegion i s h t e with
      | .ok s' fl _ =>
        match (s'.commitMarks h fl).regionPass h (k + 1) r with
        | .ok s2 fails => .ok s2 (((failsInRegion i s h t e).toList.map fun x => (k, x)) ++ fails)
        | x => x
      | .trap s' c f a v => .trap s' k c f a v
      | .hold => .hold
      | .wait _ => .hold
    | _, _ => .trap s k 1 0 0 none

/-- The cut of R178 or the element that cannot be resolved. -/
def cutOf (vl : Nat) (pres : List Bool) (conds : List (Bool × Nat)) (u : Nat) : Option Nat :=
  match (upTo u).find? fun e => pres.getD e false && (conds.getD e (false, 0)).1 with
  | some t => some (t + 1)
  | none => if u < vl then none else some vl

/-- vexit's comparisons (R165, R178). Condition un (6) with an integer AFMT, for which R83 and R178 give no answer, holds for no
element (log 66). -/
def exitConds (t : Thread) (e : QEntry) (c : BitVec 3) (a b : BitVec 6) : List (Bool × Nat) :=
  ((t.elems e a e.w e.vl).zip (t.elems e b e.w e.vl)).map fun x => cmpElem c.toNat e.desc x.1 x.2

/-- vexit's own checks at the VCP (R147, R145): none, or the trap cause. -/
def exitCheck (e : QEntry) (a b : BitVec 6) : Option Nat :=
  if e.failed then some 1
  else if e.vill then some 2
  else if descOk .cmpX e.sew e.desc && groupsOk [(a.toNat, e.lmul), (b.toNat, e.lmul)] then none
  else some 1

/-- What vexit does to its thread when the region closes at a cut (R178, R179): its flags, VL and VSTOP.CUT while no younger
strip has opened, and the VL of the strip's younger instructions. -/
def Thread.closeRegion (t : Thread) (e : QEntry) (cut : Nat) : Thread :=
  let t := if t.strip = e.strip then
      (t.setVl cut).setVstop (BitVec.ofNat 21 (t.vstop.toNat - bitsN t.vstop.toNat 0 15 + cut % 2 ^ 15))
    else t
  t.setQueue (t.queue.map fun x => if x.strip = e.strip then { x with vl := cut } else x)

/-- VSTOP as it stood before vexit was dispatched (R179); what the scalar stream has made of it since is kept for the vexit that
`sret` dispatches again. -/
def Thread.reopen (t : Thread) (e : QEntry) : Thread :=
  { t with
    vstopPast := some t.vstop
    vstop := BitVec.ofNat 21 (bitsN t.vstop.toNat 0 15 + 2 ^ 15 + e.met % 32 * 2 ^ 16) }

/-- vexit's comparisons, with bound groups standing for their streams (R227): the comparisons, a stream element's trap, or held. -/
def State.exitData (s : State) (h : Nat) (t : Thread) (x : QEntry) (i : Instr) (c : BitVec 3) (a b : BitVec 6) :
    Except StreamIn (List (Bool × Nat)) :=
  match s.streamFault t x i (t.bindsRead x i) with
  | some (f, va, k) => .error (.trap k f va)
  | none =>
  match s.streamAll h t x i (t.bindsRead x i) with
  | .ok y => .ok (exitConds (((y.1.th h).getD t).withData x y.2) x c a b)
  | .error y => .error y

/-- The groups of vexit's streams are consumed (R227). -/
def State.exitConsume (s : State) (h : Nat) (x : QEntry) (i : Instr) : State :=
  match s.th h with
  | none => s
  | some t =>
    let used := t.bindsRead x i
    match s.streamAll h t x i used with
    | .ok y => y.1.modTh h fun u => u.consume used
    | .error _ => s

/-- What the commit of a region comes to: closed, with vexit's flags still to be raised; a trap at place k; held. -/
inductive RegionOut where
  | closed (s : State) (n flags cut : Nat)
  | trap (s : State) (k cause elem addr : Nat) (vstart : Option Nat)
  | hold
deriving DecidableEq, Repr

/-- The region traps at an element that it cannot resolve: its load is performed up to that element, and the trap taken there (R178).
DEDUCED: that load is the trap's entry 0 (R322, R325), so the region's older words have committed over their whole VL, their flags
raised and with no tail above a later cut (log 81). -/
def State.exitTrap (s : State) (h : Nat) (es : List QEntry) (x : QEntry) : Option Unresolved → RegionOut
  | none => .hold
  | some y =>
    match s.regionPass h 0 (es.take y.1), es[y.1]? with
    | .ok s2 _, some e =>
      match s2.th h, decode e.word with
      | some t2, some j =>
        match perform j s2 h t2 e with
        | .trap s3 c f ad v => .trap (s3.modTh h fun t => t.reopen x) y.1 c f ad v
        | _ => .hold
      | _, _ => .hold
    | _, _ => .hold

/-- A region whose vexit has been dispatched: `es` its instructions, `x` the vexit's entry (R178). -/
def State.closing (s : State) (h : Nat) (es : List QEntry) (x : QEntry) (c : BitVec 3) (a b : BitVec 6) (i : Instr) : RegionOut :=
  match s.regionPass h 0 es with
  | .hold => .hold
  | .trap s' k c f ad v => .trap s' k c f ad v
  | .ok s1 fails =>
    match s1.th h with
    | none => .hold
    | some t1 =>
      match exitCheck x a b with
      | some c => .trap (s1.modTh h fun t => t.reopen x) es.length c 0 0 none
      | none =>
        match s1.swapError t1 x i with
        | some (r, va) => .trap ({ s1 with freeCtr := s1.freeCtr + 1 }.modTh h fun t => (t.release r 1).reopen x) es.length 6 0 va none
        | none =>
        match s1.exitData h t1 x i c a b with
        | .error (.trap c f va) => .trap (s1.modTh h fun t => t.reopen x) es.length c f va none
        | .error _ => .hold
        | .ok conds =>
          let u := fails.foldl (fun u y => min u y.2.1) x.vl
          let pres := presents t1 x i x.vl
          match cutOf x.vl pres conds u with
          | some cut =>
            let fl := (upTo cut).foldl (fun f e => if pres.getD e false then f ||| (conds.getD e (false, 0)).2 else f) 0
            match s.regionPass h 0 (es.map fun e => { e with vl := cut, met := e.vl }) with
            | .ok s2 _ => .closed (s2.exitConsume h x i) es.length fl cut
            | .trap s' k c f ad v => .trap s' k c f ad v
            | .hold => .hold
          | none => s.exitTrap h es x (fails.find? fun y => y.2.1 == u)

end Sys2Proof.Machine
end

