-- ==== Sys2Proof/Machine/Commit.lean ====
section
/-!
DEFINITION. The commit of queued instructions at the VCP (R19, R20, R90, R322), the pushes of retired ones (R91), the ends of
wait points (R18, R106, R293) and the timeouts of vwait and ounseal (R211, R224).
-/
namespace Sys2Proof.Machine

/-- The lines of a vector-side trap's image are held at their homes (R215, R362): the trap waits. -/
def State.imageHeld (s : State) (t : Thread) : Bool :=
  !t.handler && t.tvec != 0 && (match s.putImage t t.queue with
    | .hold => true
    | _ => false)

/-- A vector-side trap (R322, R325). While a replay is under way it waits for it, the scalar stream with it, and nothing has happened
(R293); nor while its image's lines are held. `old` is the state before the instruction began. -/
def State.vectorTrap (old s : State) (h cause elem addr : Nat) (v : Option Nat) : State :=
  match old.th h, s.th h with
  | some t0, some t =>
    if t0.loop.pending ∧ ¬ t0.handler then 
      old.setTh h ((t0.setLoop { t0.loop with vtrap := true }).setWait (if t0.wait = some .push then some .push else some .replay))
    else if s.imageHeld t then old
    else s.takeTrap h { cause := cause, code := 0, addr := addr, elem := elem, tpc := t.pc, vside := true, vstart := v, unpend := false }
  | _, _ => old

/-- A lease's last issue (R226). -/
def Thread.issued (t : Thread) (e : QEntry) (now : Nat) : Thread :=
  match e.heavy with
  | some c => t.setLease c { t.lease c with last := now }
  | none => t

/-- A queued instruction commits: its token, flags, VSTART, its queue-register entry, its push; it leaves the queue. -/
def State.commitEntry (s : State) (h : Nat) (i : Instr) (eng : Eng) (e : QEntry) (flags : Nat) (q : Option Word) : State :=
  (s.commitMarks h flags).modTh h fun t =>
    let t := ((t.popFor e eng).getD t).setQueue (t.queue.drop 1)
    let t := match qOf i, q with
      | some r, some x => t.deliver r.toNat e.tag x
      | _, _ => t
    (t.pushFor e).issued e s.time

/-- A C-engine word commits: it is the copy engine's from now on (R19, R213). -/
def Thread.commitC (t : Thread) (e : QEntry) : Thread := (Thread.setQueue { t with ceng := t.ceng ++ [e] } (t.queue.drop 1))

/-- The entries of a region before its vexit, and the vexit; none while it has not been dispatched. -/
def regionSplit : List QEntry → Option (List QEntry × QEntry)
  | [] => none
  | e :: r => if e.region then (if e.isVexit then some ([], e) else (regionSplit r).map fun x => (e :: x.1, x.2)) else none

/-- The first n entries of a queue leave it. -/
def State.dropQueue (s : State) (h n : Nat) : State := s.modTh h fun t => t.setQueue (t.queue.drop n)

/-- The oldest entry stands in an exit region: nothing commits before the vexit does (R178). While the scalar stream waits for
an empty queue without it, or where a word dispatched again has failed (R330), entries commit one by one, their unresolved elements left with free values (log 8). -/
def State.commitRegion (s : State) (h : Nat) (t : Thread) : State :=
  match regionSplit t.queue with
  | none =>
    if t.wait = some .drain ∨ t.queue.any (fun e => e.region && e.failed) then
      match s.regionPass h 0 (t.queue.take 1) with
      | .ok s' _ => (s'.dropQueue h 1).modTh h fun u => (t.queue.take 1).foldl (fun u e => u.issued e s.time) u
      | .trap s' _ c f a v => s.vectorTrap s' h c f a v
      | .hold => s
    else s
  | some (es, x) =>
    if t.pushBlocked .V then s
    else match t.popFor x .V, decode x.word with
    | some _, some (.vexit c a b k f) =>
      match s.closing h es x c a b (.vexit c a b k f) with
      | .closed s' n fl cut =>
        (s'.commitMarks h fl).modTh h fun u =>
          let u := ((u.popFor x .V).getD u).setQueue (u.queue.drop (n + 1))
          es.foldl (fun u e => u.issued e s.time) (((u.closeRegion x cut).pushFor x).issued x s.time)
      | .trap s' k c f a v => s.vectorTrap (s'.dropQueue h k) h c f a v
      | .hold => s
    | _, _ => s

/-- A heavy entry that was dispatched before the thread's last resumption, which returned its leases: the class of lease that it asks
for and waits for (R226, R229; log 74). -/
def Thread.awaitsLease (t : Thread) (e : QEntry) : Option Nat :=
  match e.heavy with
  | some c =>
    let l := t.lease c
    if e.failed = false ∧ e.at_ < t.residentAt ∧ l.held = false ∧ l.granted < t.residentAt then some c else none
  | none => none

/-- The words that the oldest queued one commits together with: those of its exit region, up to the vexit (R178). -/
def commitsWith (e : QEntry) (queue : List QEntry) : List QEntry :=
  match (if e.region then regionSplit queue else none) with
  | some (es, x) => es ++ [x]
  | none => [e]

/-- VECTOR_COMMIT (R19, R20): the oldest queued instruction of a resident thread is performed and commits, or traps at the VCP. -/
def State.vectorCommit (s : State) (h : Nat) : State :=
  match s.th h with
  | none => s
  | some t =>
    if t.res ≠ .resident ∨ t.loop.vtrap then s
    else match t.queue with
    | [] => s
    | e :: _ =>
      match decode e.word with
      | none => s.vectorTrap s h 1 0 0 none
      | some i =>
        match (commitsWith e t.queue).findSome? t.awaitsLease with
        | some c => s.requestLease h c
        | none =>
        if e.region then s.commitRegion h t
        else if e.failed then s.vectorTrap s h 1 0 0 none
        else if engOf i = some .C then s.setTh h (t.commitC e)
        else
          let eng : Eng := if engOf i = some .M then .M else .V
          if t.pushBlocked eng ∨ (t.popFor e eng).isNone then s
          else match perform i s h t e with
          | .ok s' fl q => s'.commitEntry h i eng e fl q
          | .trap s' c f a v => s.vectorTrap s' h c f a v
          | .hold => s
          | .wait s' => s'

/-- VECTOR_COMMIT (R19). -/
def execVectorCommit (h : Nat) (s : State) : Host.Outcome State Fault Refusal := .next (s.vectorCommit h)

/-- A push may be made (R91): its FIFO has room, and the V engine's records and bundle lines have arrived at their homes (R210, R357). -/
def State.pushReady (s : State) (h : Nat) (t : Thread) (u : BitVec 4) : Bool :=
  decide (t.token u.toNat < 15) && (fifoFrom u.toNat != .V || !(s.sending h || s.unflipped h))

/-- The first retired push that may be made: its code, and the list without it. -/
def nextPush (ready : BitVec 4 → Bool) : List (BitVec 4) → Option (BitVec 4 × List (BitVec 4))
  | [] => none
  | u :: r => if ready u then some (u, r) else (nextPush ready r).map fun x => (x.1, u :: x.2)

/-- RETIREMENT_PUSH (R91): a token of a retired instruction enters its FIFO. -/
def State.retirementPush (s : State) (h : Nat) : State :=
  s.modTh h fun t => match nextPush (s.pushReady h t) t.retq with
    | some (u, r) => (t.setToken u.toNat (t.token u.toNat + 1)).setRetq r
    | none => t

/-- RETIREMENT_PUSH (R91). -/
def execRetirementPush (h : Nat) (s : State) : Host.Outcome State Fault Refusal := .next (s.retirementPush h)

/-- A wait point's condition holds (R18, R45, R91, R106, R293). lend ends with LOOP_CONFIRMATION (R291); the wait of a heavy word also
ends where its request has been cancelled, for the word to make another (R226); the replay's is one of fence.sv too, but for a trap
at the VCP, which comes before the rest of the queue (R293). -/
def State.waitOver (s : State) (h : Nat) (t : Thread) : Wait → Bool
  | .queueFull => decide (t.queue.length < 64)
  | .qpop q => ((t.q q).head?.bind (·.val)).isSome
  | .popS => decide (0 < t.token (featPop t.feat))
  | .fence k => s.fenceDone h t k
  | .bar => t.arrivals.any fun a => a.pc == t.pc && a.handler == t.handler && a.done
  | .drain => t.queue.isEmpty
  | .lease c => (t.lease c).held || !(t.lease c).req
  | .exit => exitReady t
  | .lend => false
  | .replay => !(t.loop.stage == .replay) && t.loop.depart.isNone && (s.fenceDone h t 2 || t.loop.vtrap)
  | .hold => true
  | .push => t.retq.all fun u => fifoFrom u.toNat != .S

/-- The release at the replay barrier point (R293). -/
def State.releaseReplay (s : State) (h : Nat) (t : Thread) : State :=
  if t.loop.stage = .performed then
    (s.setTh h ((t.setFlags (t.flags ||| t.loop.flags)).setLoop { t.loop with stage := .none, vtrap := false })).setUnd h 4 0 0
  else s.setTh h (t.setLoop { t.loop with vtrap := false })

/-- WAIT_POINT_RELEASE (R18, R45): the waiting scalar stream goes on. -/
def State.waitRelease (s : State) (h : Nat) : State :=
  match s.th h with
  | none => s
  | some t =>
    match t.wait with
    | none => s
    | some w =>
      if t.res = .resident ∧ s.waitOver h t w then
        if w = .replay then s.releaseReplay h (t.setWait none) else s.setTh h (t.setWait none)
      else s

/-- WAIT_POINT_RELEASE (R45). -/
def execWaitPointRelease (h : Nat) (s : State) : Host.Outcome State Fault Refusal := .next (s.waitRelease h)

/-- The oldest queued instruction is of a kind, has begun to issue, and its time has passed. -/
def Thread.timedOut (t : Thread) (kind : Instr → Bool) (late : QEntry → Bool) : Bool :=
  match t.queue with
  | e :: _ => e.since.isSome && late e && ((decode e.word).map kind).getD false
  | [] => false

/-- VWAIT_TIMEOUT (R211): a vwait whose timeout has come completes. -/
def State.vwaitTimeout (s : State) (h : Nat) : State :=
  match s.th h with
  | none => s
  | some t =>
    if t.timedOut (fun i => match i with | .vwait .. => true | _ => false) (fun e => waitLate e s.time) then s.vectorCommit h else s

/-- VWAIT_TIMEOUT (R211). -/
def execVwaitTimeout (h : Nat) (s : State) : Host.Outcome State Fault Refusal := .next (s.vwaitTimeout h)

/-- OUNSEAL_TIMEOUT (R224): an ounseal whose wait is over completes with its cause. -/
def State.ounsealTimeout (s : State) (h : Nat) : State :=
  match s.th h with
  | none => s
  | some t =>
    if t.timedOut (fun i => match i with | .ounseal .. => true | _ => false) (fun e => unsealLate e s.time) then s.vectorCommit h else s

/-- OUNSEAL_TIMEOUT (R224). -/
def execOunsealTimeout (h : Nat) (s : State) : Host.Outcome State Fault Refusal := .next (s.ounsealTimeout h)

end Sys2Proof.Machine
end

