-- ==== Sys2Proof/Machine/Understudy.lean ====
section
/-!
DEFINITION. The Understudy: lmark and lend (R218, R287-R292), confirmation, replay (R293-R295), departures and the hand-back
(R296, R297).
-/
namespace Sys2Proof.Machine

/-- The captures that a die's Understudy holds (R288, R294). -/
def State.captures (s : State) (die : Nat) : Nat :=
  (s.threads.filter fun t => t.2.loop.capDie == die &&
    ((t.2.loop.stage == .rehearsal && t.2.loop.open_ && t.2.loop.cause0 == 0) || (t.2.loop.stage == .replay && t.2.loop.depart.isNone))).length

/-- The first of conditions 0x01-0x03 that fails at lmark (R289). -/
def State.markCause (s : State) (t : Thread) (trip d : Nat) (i : BitVec 5) : Nat :=
  if ¬ t.undEnable then 1
  else if 8 ≤ s.captures (t.core / 128) then 2
  else if ¬ (d < trip ∧ trip < 2 ^ 48 ∧ t.reg i = 0) then 3
  else 0

/-- A marking as lmark opens it (R288). -/
def markedLoop (s : State) (t : Thread) (tr ir : BitVec 5) (f l : BitVec 6) (d : Nat) : Loop where
  stage := .rehearsal
  open_ := true
  trip := (t.reg tr).toNat
  tReg := tr
  iReg := ir
  vF := f
  vL := l
  d := d
  head := t.pc + 4
  init := t.regs
  iter := 0
  lends := false
  body := []
  vcfg := BitVec.ofNat 14 t.vcfg.toNat
  vl := t.vl
  vlmax := t.vlmax
  ret := 0
  retPend := none
  retAnchor := none
  retQueue := []
  retVl := 0
  retVstop := 0
  retChain := false
  capDie := t.core / 128
  vtrap := false
  flags := 0
  cause0 := s.markCause t (t.reg tr).toNat d ir
  lendPc := none
  idx := 0
  disagree := false
  depart := none
  conf := none
  pinned := false
  late := none

/-- lmark as the scalar stream dispatches it (R288, R299). -/
def markPost (tr ir : BitVec 5) (f l : BitVec 6) (p : BitVec 3) (s : State) (h : Nat) (e : QEntry) : State × QEntry :=
  match s.th h with
  | none => (s, e)
  | some t => ((s.setTh h (t.setLoop (markedLoop s t tr ir f l (p.toNat + 2)))).setUnd h 1 0 0, e)

/-- lmark (R218): illegal before an earlier marking's lend; D is p + 2. -/
def execLmark (t i : BitVec 5) (f l : BitVec 6) (p : BitVec 3) (s : State) : Host.Outcome State Fault Refusal :=
  queueStepWith (.lmark t i f l p) (fun _ _ u => u.loop.open_ && !u.loop.lends) (markPost t i f l p) s

/-- Bytes of one vector register in the strip of the loop (R144). -/
def Loop.regLen (l : Loop) : Nat := l.vlmax * 2 ^ bitsN l.vcfg.toNat 0 3 / 2 ^ bitsN l.vcfg.toNat 3 2

/-- The window's registers zeroed; they become live (R292, R297). -/
def Thread.zeroWindow (t : Thread) : Thread :=
  t.zeroRegs t.loop.vF.toNat (t.loop.vL.toNat + 1 - t.loop.vF.toNat)

/-- The rehearsal's last lend: the scalar stream waits there for confirmation (R291). -/
def lendPost (s : State) (h : Nat) (e : QEntry) : State × QEntry :=
  (s.modTh h fun t => if t.loop.stage = .rehearsal ∧ t.loop.iter + 1 = t.loop.d then t.setWait (some .lend) else t, e)

/-- The last lend of a core run after a departure: the window is zeroed, the thread continues at the return point with what it
held there, the marking closes (R297). -/
def State.endCoreRun (s : State) (h : Nat) (t : Thread) : State :=
  let l := t.loop
  let t := { t.zeroWindow with pc := l.ret, pend := l.retPend, anchor := l.retAnchor, queue := l.retQueue, vl := l.retVl, chPend := l.retChain }
  (s.setTh h ((t.setVstop l.retVstop).setLoop { l with stage := .none, open_ := false, retQueue := [] })).setUnd h 6
    (fieldW t.undstat 4 8) (fieldW t.undstat 16 48)

/-- lend (R218, R291, R297). -/
def execLend (s : State) : Host.Outcome State Fault Refusal :=
  match s.running with
  | some (h, t) =>
    if t.loop.stage = .coreRun ∧ t.loop.open_ ∧ t.loop.iter + 1 = t.loop.trip ∧ ¬ t.handler ∧ t.pend.isNone then
      .next (if t.queue = [] then s.endCoreRun h t else s.waitAt h .drain)
    else queueStepWith .lend (fun _ _ u => !u.loop.open_) lendPost s
  | none => .fault .noThread

/-- An affine stream of the body (R289): its direction, its address in iteration 0, what an iteration adds, its stride. -/
structure Stream where
  load : Bool
  base : Nat
  inc : Int
  stride : Int
deriving DecidableEq, Repr

/-- What one iteration adds to a scalar register (R289 condition 0x06). -/
def Loop.inc (l : Loop) (r : BitVec 5) : Int :=
  (l.instrs.findSome? fun x => match x.2 with
    | .addi d _ i => if d = r then some i.toInt else none
    | .add d _ b => if d = r then some ((if b = 0 then 0 else l.init.getD b.toNat 0).toInt) else none
    | _ => none).getD 0

/-- The body's streams in order. -/
def Loop.streamList (l : Loop) : List Stream :=
  let w : Int := (2 ^ bitsN l.vcfg.toNat 0 3 : Nat)
  l.instrs.filterMap fun x =>
    let o := x.1.ops
    let at_ := fun (load : Bool) (a : BitVec 5) (st : Int) =>
      some { load := load, base := (o.getD 0 0).toNat, inc := l.inc a, stride := st : Stream }
    match x.2 with
    | .vld _ a _ => at_ true a w
    | .vst _ a _ => at_ false a w
    | .vlds _ a _ _ => at_ true a (o.getD 1 0).toInt
    | .vsts _ a _ _ => at_ false a (o.getD 1 0).toInt
    | _ => none

/-- Element k of iteration i (R289). -/
def Stream.addr (x : Stream) (i k : Nat) : Int := (x.base : Int) + i * x.inc + k * x.stride

/-- The bytes that a stream spans in iteration i: the first, and how many (R289 condition 0x0A). -/
def Stream.span (x : Stream) (vl w i : Nat) : Int × Nat :=
  if vl = 0 then (0, 0)
  else (min (x.addr i 0) (x.addr i (vl - 1)), ((vl - 1) * x.stride.natAbs) + w)

/-- Condition 0x09 over every iteration: alignment, and the range below the windows (R289). -/
def Loop.affineOk (l : Loop) (x : Stream) : Bool :=
  let w := 2 ^ bitsN l.vcfg.toNat 0 3
  let inside := fun (a : Int) => decide (0 ≤ a) && decide (a + w ≤ 0xFF0000000000)
  decide (l.vl = 0) ||
    (inside (x.addr 0 0) && inside (x.addr 0 (l.vl - 1)) && inside (x.addr (l.trip - 1) 0) &&
      inside (x.addr (l.trip - 1) (l.vl - 1)) && x.base % w == 0 && (decide (l.trip ≤ 1) || x.inc % w == 0) &&
      (decide (l.vl ≤ 1) || x.stride % w == 0))

/-- A page of PLACE 0-2 whose home is in the package (R289, R296). -/
def State.replayable (s : State) (g : Page) : Bool := decide (g.place ≤ 2) && pkgOf g.pa == s.pkg

/-- Condition 0x09 over the rehearsal: every address lies in such a page (R289). -/
def State.placesOk (s : State) (t : Thread) (l : Loop) (x : Stream) : Bool :=
  (upTo l.d).all fun i => (upTo l.vl).all fun k => (s.pageFor t (x.addr i k).toNat).any s.replayable

/-- Some number below n has the property. -/
def anyBelow : Nat → (Nat → Bool) → Bool
  | 0, _ => false
  | n + 1, p => p n || anyBelow n p

/-- Some iteration other than i of a load stream meets the n bytes from a (R289 condition 0x0B): its span starts at b and
has m bytes in iteration 0, and moves by c. -/
def meetsOther (trip i : Nat) (a : Int) (n : Nat) (b : Int) (m : Nat) (c : Int) : Bool :=
  if n = 0 ∨ m = 0 then false
  else
    let lo := a - b - m
    let hi := a - b + n
    if c = 0 then decide (lo < 0) && decide (0 < hi) && decide (1 < trip)
    else
      let lo' := if 0 < c then lo else -hi
      let hi' := if 0 < c then hi else -lo
      let k := c.natAbs
      let first := max (lo' / k + 1) 0
      let last := min ((hi' - 1) / k) ((trip : Int) - 1)
      decide (first < last) || (decide (first = last) && decide (first ≠ (i : Int)))

/-- Condition 0x0B, OVERLAP (R289). -/
def Loop.overlapOk (l : Loop) : Bool :=
  let w := 2 ^ bitsN l.vcfg.toNat 0 3
  let xs := l.streamList
  xs.all fun x => x.load || xs.all fun y => !y.load ||
    !(anyBelow l.trip fun i =>
      let p := x.span l.vl w i
      let q := y.span l.vl w 0
      meetsOther l.trip i p.1 p.2 q.1 q.2 y.inc)

/-- The bytes of condition 0x0A (R289). -/
def Loop.footprint (l : Loop) : Nat :=
  let w := 2 ^ bitsN l.vcfg.toNat 0 3
  let outside := sortN ((l.vecs none).flatMap fun x => x.1.filter fun r => r < l.vF.toNat || l.vL.toNat < r)
  (l.streamList.map fun x => (x.span l.vl w 0).2).foldl (· + ·) 0 + 8192 * outside.length

/-- The first condition of confirmation that fails, 0 for none (R289, R291). -/
def State.confirmCause (s : State) (t : Thread) : Nat :=
  let l := t.loop
  if ¬ (l.streamList.all fun x => l.affineOk x && s.placesOk t l x) then 0x09
  else if 65536 < l.footprint then 0x0A
  else if ¬ l.overlapOk then 0x0B
  else if l.disagree then 0x0C
  else 0

/-- The scalars that the body writes, moved to the start of iteration i (R292, R297). -/
def Thread.loopScalars (t : Thread) (i : Nat) : Thread :=
  let l := t.loop
  l.scalarWrites.foldl (fun (t : Thread) r =>
    t.setReg r (if r = l.iReg then word i else l.init.getD r.toNat 0 + wordI (i * l.inc r))) t

/-- LOOP_CONFIRMATION (R291, R292): the wait at lend, which has the effect of fence.sv (R123), ends, in replay, under the translations of this moment (R294), or in refusal. -/
def State.confirm (s : State) (h : Nat) : State :=
  match s.th h with
  | none => s
  | some t =>
    if t.wait ≠ some .lend ∨ t.queue ≠ [] ∨ ¬ s.fenceDone h t 2 ∨ t.res ≠ .resident then s
    else if t.loop.stage ≠ .rehearsal then s.setTh h (t.setWait none)
    else
      let c := s.confirmCause t
      if c ≠ 0 then
        (s.setTh h ((t.setLoop { t.loop with stage := .refused }).setWait none)).setUnd h 5 c t.loop.d
      else
        let t := (t.loopScalars t.loop.trip).zeroWindow
        (s.setTh h ((t.setLoop { t.loop with stage := .replay, flags := 0, conf := some (s.tables t.vdev), late := none }).setWait none)).setUnd h 2 0 0

/-- LOOP_CONFIRMATION (R291). -/
def execLoopConfirmation (h : Nat) (s : State) : Host.Outcome State Fault Refusal := .next (s.confirm h)

/-- The entry that stands for a body instruction in iteration i (R294): its address operand moves with the iteration. -/
def Loop.entryAt (l : Loop) (i : Nat) (a : Option (BitVec 6)) (x : BodyRec × Instr) : QEntry where
  word := x.1.word
  pc := x.1.pc
  feat := 0
  popDone := false
  ops := match x.2 with
    | .vld _ r _ | .vst _ r _ | .vlds _ r _ _ | .vsts _ r _ _ =>
      match x.1.ops with
      | b :: o => (b + wordI (i * l.inc r)) :: o
      | [] => []
    | _ => x.1.ops
  anchor := match x.2 with
    | .cp .. => a
    | _ => none
  vcfg := l.vcfg
  vl := l.vl
  vlmax := l.vlmax
  vill := false
  strip := 0
  region := false
  bundle := none
  heavy := none
  failed := false
  since := none
  at_ := 0
  tag := 0
  zero := none
  met := 0

/-- One iteration, or several, of the replay: done with its flags; a departure at an iteration for a cause; a request of an
iteration held, the iterations below it performed. -/
inductive Replay where
  | done (s : State) (flags : Nat)
  | depart (s : State) (flags j cause : Nat)
  | hold (s : State) (flags j : Nat)
deriving DecidableEq, Repr

/-- The body's vector instructions performed one after another for iteration i (R294, R296); `flags` so far. -/
def State.replayBody (s : State) (h i : Nat) (flags : Nat) : List (QEntry × Instr) → Replay
  | [] => .done s flags
  | x :: r =>
    match s.th h with
    | none => .hold s flags i
    | some t =>
      match perform x.2 s h (t.setVstart 0) x.1 with
      | .ok s' f _ => s'.replayBody h i (flags ||| f) r
      | .trap _ c _ _ _ => .depart s flags i (if c = 4 then 0x21 else if c = 6 then 0x23 else 0x22)
      | _ => .hold s flags i

/-- An access of iteration i leaves the pages that replay may use: PROTECTION (R296). -/
def State.placeLost (s : State) (t : Thread) (l : Loop) (i : Nat) : Bool :=
  l.streamList.any fun x => (upTo l.vl).any fun k => (s.pageFor t (x.addr i k).toNat).any fun g => !s.replayable g

/-- The thread's own registers stand as they were; what the replay's reads met stays (R292, R294, R359). -/
def State.keepRegs (s : State) (h : Nat) (t : Thread) : State :=
  s.modTh h fun u => { u with
    vregs := t.vregs, vlive := t.vlive, vspan := t.vspan, masks := t.masks, flags := t.flags, vstart := t.vstart }

/-- n iterations from i on, one after another (R294). Where one iteration both leaves the replayable pages and draws another fault, the
spec does not say which cause is recorded: PROTECTION (log 69). -/
def State.replayFrom (s : State) (h : Nat) (t : Thread) (i : Nat) (flags : Nat) : Nat → Replay
  | 0 => .done s flags
  | n + 1 =>
    let l := t.loop
    let is := l.instrs.filter fun x => engOf x.2 == some .V
    let es := (is.zip (anchorsOf none (is.map (·.2)))).map fun x => (l.entryAt i x.2 x.1, x.1.2)
    if s.placeLost t l i then .depart s flags i 0x22
    else match s.replayBody h i flags es with
    | .done s' f => (s'.keepRegs h t).replayFrom h t (i + 1) f n
    | .depart _ _ j c => .depart s flags j c
    | .hold _ _ j => .hold s flags j

/-- REPLAYED of UNDCTL (R300). -/
def Thread.countReplayed (t : Thread) (n : Nat) : Thread :=
  { t with replayed := BitVec.ofNat 32 (min (t.replayed.toNat + n) (2 ^ 32 - 1)) }

/-- The replay of iterations D to n - 1 takes its course under the translations of the confirmation (R294): `last` says what stands at
n, the completion or a departure. A request held for 6,144 cycles departs (R295, R296). -/
def State.replayTo (s : State) (h : Nat) (n : Nat) (last : Option (BitVec 8)) : State :=
  match s.th h with
  | none => s
  | some t =>
    let l := t.loop
    let put := fun (s : State) (f j : Nat) (stage : LoopStage) (d : Option (Nat × BitVec 8)) =>
      s.modTh h fun u => (u.countReplayed (j - l.d)).setLoop { l with stage := stage, flags := BitVec.ofNat 6 f, depart := d, conf := none, late := none }
    let p := t.setLoop { l with pinned := true }
    if l.stage ≠ .replay ∨ l.depart.isSome then s
    else match (s.setTh h p).replayFrom h p l.d 0 (n - l.d) with
    | .done s' f => match last with
      | none => put s' f n .performed none
      | some c => put s' f n .replay (some (n, c))
    | .depart s' f j c => put s' f j .replay (some (j, BitVec.ofNat 8 c))
    | .hold s' f j =>
      match l.late with
      | some (i, at_) =>
        if i ≠ j then s.setTh h (t.setLoop { l with late := some (j, s.time) })
        else if at_ + 6144 ≤ s.time then put s' f j .replay (some (j, 0x24))
        else s
      | none => s.setTh h (t.setLoop { l with late := some (j, s.time) })

/-- REPLAY_COMPLETE (R294): every iteration up to the trip is performed, or the first that cannot be departs (R296). -/
def State.replayAll (s : State) (h : Nat) : State :=
  match s.th h with
  | some t => s.replayTo h t.loop.trip none
  | none => s

/-- REPLAY_COMPLETE (R294). -/
def execReplayComplete (h : Nat) (s : State) : Host.Outcome State Fault Refusal := .next (s.replayAll h)

/-- DEPARTURE (R296): the replay departs at iteration j for a cause of R296. -/
def State.departAt (s : State) (h j : Nat) (cause : BitVec 8) : State :=
  match s.th h with
  | none => s
  | some t =>
    if 0x20 ≤ cause.toNat ∧ cause.toNat ≤ 0x25 ∧ t.loop.d ≤ j ∧ j < t.loop.trip then s.replayTo h j (some cause) else s

/-- DEPARTURE (R296). -/
def execDeparture (h j : Nat) (cause : BitVec 8) (s : State) : Host.Outcome State Fault Refusal := .next (s.departAt h j cause)

/-- The hand-back can begin (R297): the instructions already queued have completed, but for those that a waiting trap or an
open exit region holds. -/
def Thread.handReady (t : Thread) : Bool :=
  t.loop.depart.isSome && t.res == .resident && !t.handler &&
    (t.queue.isEmpty || t.loop.vtrap || (t.queue.head?.map (·.region)).getD false)

/-- HAND_BACK (R297 steps 1 and 2): what the thread holds at the return point is put aside, and it runs iteration j on the core. -/
def State.handBack (s : State) (h : Nat) : State :=
  match s.th h with
  | none => s
  | some t =>
    match t.loop.depart with
    | none => s
    | some (j, c) =>
      if t.handReady then
        let l := t.loop
        let t := (t.loopScalars j).setFlags (t.flags ||| l.flags)
        let l := { l with
          stage := .coreRun, open_ := true, iter := j, lends := false, idx := 0, depart := none, vtrap := false
          ret := t.pc, retPend := t.pend, retAnchor := t.anchor, retQueue := t.queue, retVl := t.vl, retVstop := t.vstop, retChain := t.chPend }
        let t := { t with pc := l.head, pend := none, anchor := none, queue := [], vl := l.vl, wait := none, chPend := false }
        (s.setTh h ((t.setVstop 0).setLoop l)).setUnd h 3 c.toNat j
      else s

/-- HAND_BACK (R297). -/
def execHandBack (h : Nat) (s : State) : Host.Outcome State Fault Refusal := .next (s.handBack h)

end Sys2Proof.Machine
end

