-- ==== Sys2Proof/Machine/Save.lean ====
section
/-!
DEFINITION. Saves and resumptions (R229, R335-R341, R243, R351), the TRAP event (R325) and errors in dirty lines (R334).
-/
namespace Sys2Proof.Machine

/-- The physical address of slot i of a save region (R338). -/
def State.slotAddr (s : State) (region i : Nat) : Nat := s.regionKey region * 2 ^ 30 + i * 2 ^ 20

/-- A save slot is held by a thread (R338). -/
def State.slotHeld (s : State) (pa : Nat) : Bool := s.threads.any fun t => t.2.saveSlot == some pa

/-- The first of n slots of a region, from slot i on, that is free. -/
def State.freeSlotIn (s : State) (region : Nat) : Nat → Nat → Option Nat
  | 0, _ => none
  | n + 1, i => if s.slotHeld (s.slotAddr region i) then s.freeSlotIn region n (i + 1) else some (s.slotAddr region i)

/-- The lowest-numbered free save slot of a partition (R338). -/
def State.freeSlot (s : State) (p : Nat) : Option Nat :=
  (((s.partAt p).map (·.saveRegions)).getD []).findSome? fun r => s.freeSlotIn r 1024 0

/-- The free save slots of a list of save regions (R338). -/
def State.freeSlotsOf (s : State) (regions : List Nat) : Nat :=
  regions.length * 1024 -
    (s.threads.filter fun t => t.2.saveSlot.any fun pa => regions.any fun r => s.regionKey r == pa / 2 ^ 30).length

/-- Numbers below n whose bit is set. -/
def bitList (n x : Nat) : List Nat := (upTo n).filter fun i => bitN x i

/-- Queue-register entries of an image: the slots of q, oldest first, padded with zeros to its depth (R336). -/
def Thread.qWords (t : Thread) (q : Nat) : List Nat :=
  padTo (qDepth q) 0 ((t.q q).map fun e => (e.val.map (·.toNat)).getD 0)

/-- The six indices at which a command stands that has moved so many bytes (R336): dimension 0 is the innermost (R214). -/
def nestIndices (dims : List Dim) (moved : Nat) : List Nat :=
  match dims with
  | [] => []
  | d :: r => moved % max 1 d.count.toNat :: nestIndices r (moved / max 1 d.count.toNat)

/-- The command that a save finds stopped (R229), or moved and not yet retired, and how many records it has of the nest. -/
def Thread.stopped (t : Thread) : Option CopyStop :=
  t.cstop.orElse fun _ =>
    match t.crun, t.ceng with
    | some r, e :: _ =>
      let n := match decode e.word with
        | some (.cpgo _ _ n) => n.toNat
        | _ => 0
      some { dims := t.nest.take n, dst := e.op 0, src := e.op 1, seq := r.seq, moved := r.landed, tails := r.tails }
    | _, _ => none

/-- A stopped command's part of a save image (R336): snapshot, destination, source, n, SEQ and the six indices. -/
def CopyStop.fields (c : CopyStop) : List (Nat × Nat × Nat) :=
  ((upTo 6).zip c.dims).flatMap (fun x => [(0x3D30 + 24 * x.1, 8, x.2.count.toNat), (0x3D38 + 24 * x.1, 8, x.2.ss.toNat),
    (0x3D40 + 24 * x.1, 8, x.2.ds.toNat)]) ++
  [(0x3DC0, 8, c.dst.toNat), (0x3DC8, 8, c.src.toNat), (0x3DD0, 8, c.dims.length), (0x3DD8, 8, c.seq)] ++
  ((upTo 6).zip (nestIndices c.dims c.moved)).map fun x => (0x3DE0 + 8 * x.1, 8, x.2)

/-- The queue image of a save (R229, R336): the copy engine's words that have not begun, and the queue. -/
def Thread.imageQueue (t : Thread) : List QEntry :=
  (((if t.crun.isSome ∨ t.cstop.isSome then t.ceng.drop 1 else t.ceng) ++ t.queue).take 64)

/-- The stage of a marking as a number. -/
def LoopStage.code : LoopStage → Nat
  | .none => 0 | .rehearsal => 1 | .refused => 2 | .replay => 3 | .performed => 4 | .coreRun => 5

/-- The Understudy's and the barrier's part of a save image. R336 gives what it holds and not where: the capture (its die, its stage, D
and iteration), trip and return point, the head and the hand-back's VL and VSTOP, the initial values of the first four scalars that the
body writes, for which its 96 bytes have room, and the instance and count of an arrival (log 49). -/
def Thread.undFields (t : Thread) : List (Nat × Nat × Nat) :=
  let l := t.loop
  [(0x3EA0, 8, packN [(l.capDie, 0), (l.stage.code, 8), (l.d, 16)]), (0x3EA8, 8, l.trip), (0x3EB0, 8, l.ret.toNat),
    (0x3EB8, 8, l.head.toNat), (0x3EC0, 8, l.iter), (0x3EC8, 8, packN [(l.retVl, 0), (l.retVstop.toNat, 16)])] ++
  ((upTo 4).zip l.scalarWrites).map (fun x => (0x3ED0 + 8 * x.1, 8, (l.init.getD x.2.toNat 0).toNat)) ++
  match t.arrivals with
  | a :: _ => [(0x3EF0, 8, packN [(a.scope, 0), (a.inst, 8)]), (0x3EF8, 8, a.count)]
  | [] => []

/-- The thread stands at a wait point of R18 or R140: a held access (R106, R215), a push (R91) and the drain before a trap (R106) are
none. -/
def Thread.atWaitPoint (t : Thread) : Bool :=
  match t.wait with
  | none | some .hold | some .push | some .drain => false
  | some _ => true

/-- The header of a save image (R337). -/
def Thread.saveHeader (t : Thread) (c : Core) (total : Nat) : List (Nat × Nat × Nat) :=
  let banks := c.ownedBanks t.slot
  [(0, 2, 1), (4, 4, 256 * t.stripOct), (8, 8, t.vlive.toNat), (16, 1, t.tdirty.toNat),
    (17, 1, packN [(boolN t.handler, 0), (boolN (t.loop.stage == .replay), 1), (boolN (t.loop.stage == .coreRun), 2),
      (boolN t.carried, 3), (boolN (!t.arrivals.isEmpty), 4), (boolN t.atWaitPoint, 5)]),
    (18, 2, packN (banks.map fun b => (1, b))),
    (20, 3, packN (banks.map fun b => (c.mode b, 2 * b))),
    (24, 8, total)]

/-- The system registers of a save image in their order (R336). -/
def State.saveRegs (s : State) (t : Thread) : List Nat :=
  ([0x010, 0x011, 0x012, 0x016, 0x013, 0x014, 0x021, 0x090, 0x080, 0x050, 0x051, 0x070, 0x060, 0x042, 0x041, 0x040, 0x043,
    0x044, 0x045, 0x0C0].map fun n => (s.sysValue t (BitVec.ofNat 12 n)).toNat) ++
  [t.localReq.toNat, t.remote.toNat, t.offpkg.toNat, t.chstat.toNat]

/-- The fixed part of a save image as fields (R336). -/
def State.saveFields (s : State) (t : Thread) (total : Nat) : List (Nat × Nat × Nat) :=
  t.saveHeader (s.coreAt t.core) total ++
  ((upTo 31).map fun i => (0x40 + 8 * i, 8, (t.reg (BitVec.ofNat 5 (i + 1))).toNat)) ++
  [(0x138, 8, t.pc.toNat)] ++
  ((upTo 24).zip (s.saveRegs t)).map (fun x => (0x140 + 8 * x.1, 8, x.2)) ++
  ((upTo 8).map fun q => (0x3A00 + 8 * q, 8,
    packN [(t.qCount q, 0), (((t.q q).filter fun e => e.val.isNone).length, 8)])) ++
  ((upTo 72).zip ((upTo 8).flatMap t.qWords)).map (fun x => (0x3A40 + 8 * x.1, 8, x.2)) ++
  ((upTo 12).map fun c => (0x3C80 + c, 1, t.token (c + 1))) ++
  [(0x3C90, 8, t.pendWord)] ++
  ((upTo 6).zip t.nest).flatMap (fun x => [(0x3CA0 + 24 * x.1, 8, x.2.count.toNat), (0x3CA8 + 24 * x.1, 8, x.2.ss.toNat),
    (0x3CB0 + 24 * x.1, 8, x.2.ds.toNat)]) ++
  ((t.stopped.map CopyStop.fields).getD []) ++
  [(0x3E10, 8, t.cseq), (0x3E18, 8, packN [(t.faddr.toNat, 0), (boolN t.faulted, 63)])] ++ t.undFields ++
  ((upTo t.imageQueue.length).zip t.imageQueue).flatMap fun x => x.2.fields (0x3F00 + 16 * x.1) (0x4300 + 32 * x.1)

/-- The variable part of a save image: live registers, dirty tiles, owned banks (R336), each with its length. -/
def State.saveTail (s : State) (t : Thread) : List (Nat × Memory) :=
  let n := 256 * t.stripOct
  let c := s.coreAt t.core
  ((bitList 64 t.vlive.toNat).map fun r => (n, cellsOf 0 (t.regBytes n r))) ++
  ((bitList 4 t.tdirty.toNat).map fun z => (16384, mslice t.tiles (z * 16384) (z * 16384 + 16384))) ++
  ((c.ownedBanks t.slot).map fun b => (65536, mslice c.banks (b * 65536) (b * 65536 + 65536)))

/-- Blocks placed one behind another from an address. -/
def pasteAll (m : Memory) (a : Nat) : List (Nat × Memory) → Memory
  | [] => m
  | x :: r => pasteAll (mpaste m a x.2) (a + x.1) r

/-- The length of a save image (R337). -/
def State.saveTotal (s : State) (t : Thread) : Nat := 0x8B00 + ((s.saveTail t).map (·.1)).foldl (· + ·) 0

/-- The save image written at its slot (R336). -/
def State.writeImage (s : State) (t : Thread) (pa : Nat) : State :=
  let total := s.saveTotal t
  let s1 := s.writeBlock pa total (s.saveFields t total)
  let m := mpaste s1.mem (pa + 0x200) (mslice t.masks 2048 16384)
  let m := mpaste m (pa + 0x4B00) (mslice t.ch 0 16384)
  { s1 with mem := pasteAll m (pa + 0x8B00) (s.saveTail t) }

/-- The banks of a slot kept with the thread and returned to CACHE mode; their references stand (R243, R351). -/
def State.stashBanks (s : State) (h : Nat) (t : Thread) : State :=
  let c := s.coreAt t.core
  let banks := c.ownedBanks t.slot
  let saved := banks.map fun b => ({
    bank := b, mode := c.mode b, bytes := mslice c.banks (b * 65536) (b * 65536 + 65536), head := c.head b, tail := c.tail b
    refs := (c.refs.filter fun r => r.1 == b).map (·.2) } : SavedBank)
  let s := s.modTh h fun t => { t with savedBanks := saved }
  let s := s.setCore t.core { c with refs := c.refs.filter fun r => !banks.contains r.1 }
  banks.foldl (fun s b => (s.emptyBank t.core b).setBank t.core b 0 0) s

/-- The oldest queued instruction cannot commit now for a reason that a save does not wait for: it waits on other agents and begins again
after resumption (R229), or for a token (R90), the end of an exit region (R178) or of a replay (R293). -/
def Thread.stuck (t : Thread) : List QEntry → Bool
  | [] => true
  | e :: r =>
    t.loop.vtrap || (e.region && (regionSplit (e :: r)).isNone) ||
    match decode e.word with
    | some (.vwait ..) | some (.ounseal ..) => true
    | some i =>
      let eng : Eng := if engOf i = some .M then .M else .V
      engOf i != some .C && (t.popFor e eng).isNone
    | none => false

/-- An instruction that a save drains (R229, R356). -/
def QEntry.drained (e : QEntry) : Bool :=
  match decode e.word with
  | some (.zld ..) | some (.zst ..) | some (.bseal ..) => true
  | _ => false

/-- How many of the oldest queued instructions a save drains: up to the last such one, with nothing stuck before it. -/
def Thread.drainCount (t : Thread) : List QEntry → Nat
  | [] => 0
  | e :: r =>
    if t.stuck (e :: r) then 0
    else if 0 < t.drainCount r then t.drainCount r + 1
    else if e.drained then 1 else 0

/-- The thread can be saved now (R335, R338, R227): a slot is free, and what a save drains has drained. -/
def State.canSave (s : State) (t : Thread) : Bool :=
  t.res == .resident && !t.svc && (s.freeSlot t.part).isSome && t.drainCount t.queue == 0

/-- What a save drains is committed (R335 step 2), with the pushes of what has retired before it (R91); a trap of it is taken first. -/
def State.drainQueue (s : State) (h : Nat) : Nat → State
  | 0 => s
  | n + 1 =>
    match s.th h with
    | some t =>
      if t.drainCount t.queue = 0 then s
      else ((t.retq.foldl (fun s _ => s.retirementPush h) s).vectorCommit h).drainQueue h n
    | none => s

/-- The copy engine stops (R229, R215): the command at work, if there is one, at some byte, and its lines are released. Whether the
oldest word has begun, and at which byte it stops, is free (log 40). -/
def State.stopCopy (s : State) (h : Nat) : State :=
  match s.th h with
  | none => s
  | some t =>
    let f := Config.freeNat s.freeCtr
    let s := ({ s with freeCtr := s.freeCtr + 1 }.releaseLines h).unseal h
    match t.ceng with
    | [] => s
    | e :: _ =>
      match decode e.word, t.popC e with
      | some (.cpgo _ _ n), some t1 =>
        if t.crun.isSome ∨ t.pushBlocked .C ∨ f % 2 = 0 then s
        else match (s.setTh h t1).copyGo h t1 (t1.copyPlan (e.op 0) (e.op 1) n.toNat) (some (f / 2)) with
        | .ok s' => s'.releaseLines h
        | _ => s
      | _, _ => s

/-- What a save leaves to the scheduler: the thread's octets and slot are free, and it is back in its run queue at the front
of its account's tasks at its level (R309, R335). -/
def State.requeue (s : State) (h : Nat) (t : Thread) (pa : Nat) (migrated : Bool) : State :=
  let s := s.modTh h fun t => { t with
    res := .saved, saveSlot := some pa, entered := s.time, considered := 0, migrateAt := none, migrated := migrated
    wait := if t.wait = some .push then some .push else none
    queue := t.queue.map fun e => { e with since := none }
    seen := [], stale := some s.time }
  let s := { s with tasks := s.tasks.map fun (k : Task) =>
    if k.part = t.part then (if k.num = t.task then { k with order := 0 } else { k with order := k.order + 1 }) else k }
  (s.freeOctets t.core t.slot).reshare t.core

/-- The image of a thread whose agents have stopped is written, and its banks and octets are freed (R335 steps 3 and 4, R336). -/
def State.saveStopped (s : State) (h : Nat) (migrated : Bool) : State :=
  match s.th h with
  | none => s
  | some t =>
    match (if s.canSave t then s.freeSlot t.part else none) with
    | none => s
    | some pa =>
      let s := match t.bopen, t.bcur with
        | true, some b => s.abortBundle b 1
        | _, _ => s
      let s := ((s.stopCopy h).dropLeases h).refuseLoop h 0x0E
      match s.th h with
      | none => s
      | some t =>
        let total := s.saveTotal t
        let s := ((s.writeImage t pa).stashBanks h t).requeue h t pa migrated
        s.tap (t.core / 128) 4 (.part t.part) [s.ticks.headD 1, total, t.task, t.place]

/-- A save (R335): what it drains is drained, then the open bundle is aborted, the copy engine stops, leases are returned, a rehearsal is
refused and the image is written; where something still holds the draining, it is not made yet. -/
def State.saveThread (s : State) (h : Nat) (migrated : Bool) : State := (s.drainQueue h 64).saveStopped h migrated

/-- The thread has been saved. -/
def State.isSaved (s : State) (h : Nat) : Bool := (s.th h).any fun t => t.res == .saved

/-- SAVE (R335). -/
def execSave (h : Nat) (s : State) : Host.Outcome State Fault Refusal := .next (s.saveThread h false)

/-- The banks of a save image stand in CACHE mode on a core and belong to neither slot (R339). -/
def State.banksFit (s : State) (t : Thread) (core : Nat) : Bool :=
  t.savedBanks.all fun b => (s.coreAt core).mode b.bank == 0

/-- The banks of a save image restored on the thread's core (R243, R351). -/
def State.restoreBanks (s : State) (h : Nat) (t : Thread) : State :=
  let s := t.savedBanks.foldl (fun s b =>
    let s := s.setBank t.core b.bank b.mode t.slot
    let c := s.coreAt t.core
    s.setCore t.core { c with
      banks := mpaste (mclear c.banks (b.bank * 65536) (b.bank * 65536 + 65536)) (b.bank * 65536) b.bytes
      fifoHead := if b.mode = 2 then tset c.fifoHead b.bank b.head else c.fifoHead
      fifoTail := if b.mode = 2 then tset c.fifoTail b.bank b.tail else c.fifoTail
      refs := c.refs ++ b.refs.map fun r => (b.bank, r) }) s
  s.modTh h fun t => { t with savedBanks := [] }

/-- LGRANT after resumption on a slot that holds the given octets (R341). -/
def Thread.regrant (t : Thread) (held : List Nat) : Thread :=
  let n := t.stripOct
  { t with
    octets := BitVec.ofNat 8 (packN ((held.take n).map fun b => (1, b)))
    carried := decide (held.length < n) }

/-- RESUMPTION (R339-R341): a saved thread that holds a slot and an octet goes on, once what it sent and committed before the save has
arrived at its homes (R268); an unreadable image ends it (R334). -/
def State.resume (s : State) (h : Nat) : State :=
  match s.th h with
  | none => s
  | some t =>
    match t.saveSlot with
    | none => s
    | some pa =>
      let held := (s.coreAt t.core).octets t.slot
      if t.res ≠ .placed ∨ held = [] ∨ ¬ s.banksFit t t.core ∨ s.sending h ∨ s.unflipped h then s
      else if s.lineError pa (leNat (s.physBytes (pa + 24) 8)) then s.endThread h 0x06
      else
        let s := (s.restoreBanks h t).modTh h fun t => { t.regrant held with
          res := .resident, residentAt := s.time, saveSlot := none, migrated := false }
        s.notice h 4 (packN (held.map fun b => (1, b))) held.length 0

/-- RESUMPTION (R340). -/
def execResumption (h : Nat) (s : State) : Host.Outcome State Fault Refusal := .next (s.resume h)

/-- The causes that stand at the VCP only (R322). -/
def vectorOnly (cause : Nat) : Bool := cause == 2 || cause == 9 || cause == 10

/-- The causes for which TADDR and TELEM read 0 (R325); a scalar-side illegal instruction is a word of R85. -/
def noAddress (cause : Nat) : Bool := [1, 2, 7, 8, 11, 12].contains cause

/-- TRAP (R325): a trap of the given cause of the current thread: at its scalar stream, its queue empty (R106), or at the VCP for a cause
that stands only there (R322); no replay under way (R293). A cause that R322 gives no thread is none. -/
def State.trapEvent (s : State) (cause : BitVec 8) (code : BitVec 20) (addr : Word) (elem : Nat) : State :=
  match s.running with
  | some (h, t) =>
    let c := cause.toNat
    if 1 ≤ c ∧ c ≤ 12 ∧ vectorOnly c = !t.queue.isEmpty ∧ ¬ (t.loop.pending ∧ ¬ t.handler) then
      s.takeTrap h {
        cause := c, code := if c = 11 ∨ c = 12 then code.toNat else 0, addr := if noAddress c then 0 else addr.toNat
        elem := if noAddress c then 0 else elem, tpc := if c = 12 then t.pc + 4 else t.pc, vside := vectorOnly c
        vstart := none, unpend := false }
    else s
  | none => s

/-- TRAP (R325). -/
def execTrap (cause : BitVec 8) (code : BitVec 20) (addr : BitVec 64) (elem : Nat) (s : State) : Host.Outcome State Fault Refusal :=
  .next (s.trapEvent cause code addr elem)

/-- DIRTY_LINE_ERROR (R334): the dirty line is discarded, its home keeps its older value, and each thread resident on the core
is ended with 0x0F. -/
def State.dirtyError (s : State) (core line : Nat) : State :=
  let c := s.coreAt core
  match c.dirty.find? fun d => d.line == line with
  | none => s
  | some d =>
    let s := s.setCore core { c with dirty := c.dirty.filter fun d => d.line != line }
    let s := { s with mem := msetN s.mem (line * 128) d.old }
    (s.threads.filter fun t => t.2.core == core && t.2.res == .resident).foldl (fun s t => s.endThread t.1 0x0F) s

/-- DIRTY_LINE_ERROR (R334). -/
def execDirtyLineError (core line : Nat) (s : State) : Host.Outcome State Fault Refusal := .next (s.dirtyError core line)

end Sys2Proof.Machine
end

