-- ==== Sys2Proof/Machine/Scheduler.lean ====
section
/-!
DEFINITION. The root scheduler (R8-R13, R129, R130, R301-R316, R327): submission and acceptance of launch records, the run
queues and placement, octets, pre-emption, migration, completion records and host messages (R391).
-/
namespace Sys2Proof.Machine

/-- A field of a record of bytes. -/
def recN (b : List Byte) (o n : Nat) : Nat := leNat ((b.drop o).take n)

/-- A virtual address of a virtual device as the scheduler or the management reaches it (R105, R235, R315): DRAM or host
memory, no core's window. -/
def State.locateFor (s : State) (p vd : Nat) (kind : Kind) (va n : Nat) : Except Nat Loc :=
  if 2 ^ 48 ≤ va then .error 5
  else if va % n ≠ 0 then .error 3
  else if 0xFF8000000000 ≤ va then s.window 0 p .V kind va n
  else if 0xFF0000000000 ≤ va then .error 5
  else match s.walk p vd va with
    | none => .error 4
    | some g => if g.admits kind ∧ s.homeServes p (g.at_ va) then .ok (.dram (g.at_ va) g.place) else .error 5

/-- The partition of a virtual device (R394). -/
def vdPart (vd : Nat) : Nat := vd / 4

/-- The thread has neither retired nor been ended. -/
def Thread.live (t : Thread) : Bool := t.res != .retired && t.res != .ended

/-- The context areas of a virtual device in use (R327). -/
def State.areasUsed (s : State) (vd : Nat) : List Nat :=
  match (s.vdevAt vd).bind (·.pool) with
  | none => []
  | some (base, _) => (s.threads.filter fun t => t.2.vdev == vd && t.2.live).map fun t => (t.2.grbase.toNat - base) / 0x41000

/-- The lowest k free context areas, as addresses (R327); fewer where there are fewer. -/
def State.freeAreas (s : State) (vd k : Nat) : List Nat :=
  match (s.vdevAt vd).bind (·.pool) with
  | none => []
  | some (base, n) =>
    let used := s.areasUsed vd
    (((upTo n).filter fun i => !used.contains i).take k).map fun i => base + i * 0x41000

/-- The cores of a partition in a placement instance (R130, R302). -/
def State.instCores (s : State) (p place inst : Nat) : List Nat :=
  (((s.partAt p).map (·.cores)).getD []).filter fun c => decide (4 ≤ place) || instOf s.pkg c place == inst

/-- The free slots of a list of cores, as core and slot (R307). -/
def State.slotsFree (s : State) (cores : List Nat) : List (Nat × Nat) :=
  cores.flatMap fun c => ((upTo 2).filter fun x => (s.inSlot c x).isNone).map fun x => (c, x)

/-- The first of the largest values. -/
def argMax (f : Nat → Nat) : List Nat → Option Nat
  | [] => none
  | x :: r => match argMax f r with
    | some y => some (if f y ≤ f x then x else y)
    | none => some x

/-- The placement instance of a record (R130, R302): the launching thread's, or the one with the most free slots. -/
def State.chooseInst (s : State) (p place : Nat) (core : Option Nat) : Nat :=
  if 4 ≤ place then s.pkg
  else match core with
  | some c => instOf s.pkg c place
  | none =>
    let insts := sortN ((((s.partAt p).map (·.cores)).getD []).map fun c => instOf s.pkg c place)
    (argMax (fun i => (s.slotsFree (s.instCores p place i)).length) insts).getD 0

/-- The lowest CAUSE that applies to a launch record, 0 for none (R129, R130, R303, R327, R228). -/
def State.launchCause (s : State) (vd : Nat) (svc : Bool) (b : List Byte) : Nat :=
  let p := vdPart vd
  let f := recN b
  let w := f 16 8
  let place := bitsN (f 3 1) 0 3
  let lanes := f 14 1
  if f 0 2 ≠ 1 then 1
  else if bitsN (f 2 1) 3 5 ≠ 0 ∨ bitsN (f 3 1) 3 5 ≠ 0 ∨ bitsN (f 15 1) 5 3 ≠ 0 ∨ bitN w 57 then 2
  else if place = 0 ∨ 5 < place ∨ f 4 4 = 0 ∨ f 8 6 % 4 ≠ 0 ∨ lanes < 8 ∨ 64 < lanes ∨ lanes % 8 ≠ 0 ∨ bitsN w 0 48 % 64 ≠ 0 ∨
      (bitN (f 2 1) 1 = false ∧ bitsN w 58 6 ≠ 0) then 3
  else if slotsOf place (1 + (s.podShares p).length) < f 4 4 then 4
  else if (match s.locateFor p vd .fetch (f 8 6) 4, s.locateFor p vd .store (bitsN w 0 48) 64 with
      | .ok _, .ok _ => false
      | _, _ => true) then 5
  else if 4096 ≤ (s.tasks.filter fun k => k.part == p && s.threads.any fun t => t.2.part == p && t.2.task == k.num &&
      t.2.res == .waiting).length then 6
  else if (s.freeAreas vd (f 4 4)).length < f 4 4 then 7
  else if bitN (f 2 1) 2 ∧ ¬ svc then 8
  else 0

/-- A thread at its start (R11, R326): arguments, stack, entry; everything else 0, VILL set. -/
def newThread (p vd task tid : Nat) (entry stack : Word) (args : List Word) (grbase : Nat) (svc : Bool) (now : Nat) : Thread where
  res := .waiting
  part := p
  vdev := vd
  task := task
  tid := tid
  core := 0
  slot := 0
  entered := now
  considered := 0
  residentAt := 0
  saveSlot := none
  migrateAt := none
  migrated := false
  regs := [0, 0, stack] ++ padTo 4 0 args ++ List.replicate 25 0
  pc := entry
  wait := none
  pend := none
  anchor := none
  queue := []
  retq := []
  qregs := List.replicate 8 []
  nextTag := 1
  tokens := List.replicate 12 0
  vregs := []
  vlive := 0
  vspan := []
  masks := []
  tiles := []
  tdirty := 0
  ch := []
  chValid := false
  chPend := false
  chFmt := 0
  chCount := 0
  vcfg := word (2 ^ 63)
  vl := 0
  vlmax := 0
  vstart := 0
  vstop := 0
  avl := 0
  strip := 0
  octets := 0
  stripOct := 0
  carried := false
  flags := 0
  hintdrop := 0
  overlaps := 0
  lastOverlap := 0
  tcause := 0
  tpc := 0
  tvec := 0
  taddr := 0
  telem := 0
  tqimg := 0
  grbase := word grbase
  trapPc := 0
  vstopPast := none
  cfgDirty := false
  imgq := []
  svc := svc
  handler := false
  undstat := 0
  undEnable := true
  replayed := 0
  loop := {
    stage := .none, open_ := false, trip := 0, tReg := 0, iReg := 0, vF := 0, vL := 0, d := 0, head := 0, init := [], iter := 0
    lends := false, body := [], vcfg := 0, vl := 0, vlmax := 0, ret := 0, retPend := none, retAnchor := none, retQueue := []
    retVl := 0, retVstop := 0, retChain := false, capDie := 0, vtrap := false, flags := 0, cause0 := 0, lendPc := none, idx := 0
    disagree := false, depart := none, conf := none, pinned := false, late := none }
  leases := List.replicate 3 Lease.none
  stall := 0
  bopen := false
  bdead := false
  blines := 0
  bname := 0
  bcause := 0
  bserial := 0
  bcur := none
  seen := []
  stale := none
  localReq := 0
  remote := 0
  offpkg := 0
  nest := List.replicate 6 { count := 0, ss := 0, ds := 0 }
  ceng := []
  crun := none
  cstop := none
  cseq := 0
  faddr := 0
  faulted := false
  arrivals := []
  binds := []
  savedBanks := []

/-- Two submissions come from one port or one thread (R303). -/
def Source.same : Source → Source → Bool
  | .thread h _ _, .thread k _ _ => h == k
  | .port v n, .port w m => v == w && n == m
  | .management _, .management _ => true
  | _, _ => false

/-- A status word of R130. -/
def launchStatus (task cause : Nat) : Nat := packN [(if cause = 0 then task else 0, 0), (cause, 32), (boolN (cause != 0), 63)]

/-- A port's status written, BUSY cleared with it (R302). -/
def Port.status (x : Port) (task cause : Nat) : Port :=
  { x with task := if cause = 0 then task else 0, cause := cause, seq := (x.seq + 1) % 2 ^ 16, busy := false, err := cause != 0 }

/-- A virtual device's port changed. -/
def State.modPort (s : State) (vd n : Nat) (f : Port → Port) : State :=
  match s.vdevAt vd with
  | some v => s.setVdev vd { v with ports := setAt Port.reset v.ports n (f (v.ports.getD n Port.reset)) }
  | none => s

/-- The status of a decided submission delivered where it came from (R130, R302, R387). -/
def State.deliverStatus (s : State) (src : Source) (task cause : Nat) : State :=
  match src with
  | .thread h q tag => s.modTh h fun t => t.deliver q tag (word (launchStatus task cause))
  | .port vd n => s.modPort vd n fun x => x.status task cause
  | .management _ => { s with mgmt := s.mgmt.status task cause }

/-- The TIDs of a task that this package places (R307): all, or with PLACE 5 this package's range. -/
def State.ownTids (s : State) (p place threads : Nat) : List Nat :=
  if place = 5 then
    let before := (((s.podShares p).filter fun a => decide (a.pkg < s.pkg)).map (·.slots)).foldl (· + ·) 0
    let mine := 2 * (((s.partAt p).map (·.cores)).getD []).length
    ((upTo mine).map fun i => before + i).filter fun i => decide (i < threads)
  else upTo threads

/-- The threads of an accepted record (R10, R327), in ascending TID order. -/
def State.addThreads (s : State) (p vd task : Nat) (b : List Byte) : List (Nat × Nat) → State
  | [] => s
  | x :: r =>
    let f := recN b
    let t := newThread p vd task x.1 (word (f 8 6)) (word (f 24 8)) ((upTo 4).map fun i => word (f (32 + 8 * i) 8)) x.2 (bitN (f 2 1) 2) s.time
    { s.setTh s.nextH t with nextH := s.nextH + 1 }.addThreads p vd task b r

/-- The next task number that no live task of the partition has, looked for from n on (R14). -/
def State.freshTask (s : State) (p : Nat) : Nat → Nat → Nat
  | 0, n => n
  | k + 1, n => if (s.task p n).isSome then s.freshTask p k ((n + 1) % 2 ^ 32) else n

/-- An accepted record becomes a task (R8, R14, R129). -/
def State.addTask (s : State) (vd : Nat) (core : Option Nat) (b : List Byte) : State × Nat :=
  let p := vdPart vd
  let f := recN b
  let w := f 16 8
  let place := bitsN (f 3 1) 0 3
  match s.partAt p with
  | none => (s, 0)
  | some x =>
    let num := s.freshTask p s.tasks.length x.nextTask
    let k : Task := {
      part := p, num := num, vdev := vd, place := place, inst := s.chooseInst p place core, threads := f 4 4
      entry := word (f 8 6), lanes := f 14 1, prio := bitsN (f 15 1) 0 5, account := bitsN w 48 9, done := word (bitsN w 0 48)
      hostmsg := bitN (f 2 1) 0, cue := bitN (f 2 1) 1, cueslot := bitsN w 58 6, svc := bitN (f 2 1) 2, retired := 0, ended := 0
      firstTid := none, start := s.time, finish := s.time, lanecyc := 0
      order := ((s.tasks.filter fun k => k.part == p).map (·.order)).foldl max 0 + 1 }
    let tids := s.ownTids p place (f 4 4)
    let s1 := { s.setPart p { x with nextTask := (num + 1) % 2 ^ 32 } with tasks := s.tasks ++ [k] }
    (s1.addThreads p vd num b (tids.zip (s.freeAreas vd tids.length)), num)

/-- LAUNCH_ACCEPT (R130, R303): submission n is accepted or refused, unless an older one of its source waits. -/
def State.launchAccept (s : State) (n : Nat) : State :=
  match s.subs[n]? with
  | none => s
  | some x =>
    if (s.subs.take n).any fun y => y.src.same x.src then s
    else
      let svc := match x.src with
        | .management _ => true
        | _ => false
      let c := s.launchCause x.vdev svc x.bytes
      let s := { s with subs := s.subs.eraseIdx n }
      if c ≠ 0 then s.deliverStatus x.src 0 c
      else
        let r := s.addTask x.vdev x.core x.bytes
        r.1.deliverStatus x.src r.2 0

/-- LAUNCH_ACCEPT (R130). -/
def execLaunchAccept (n : Nat) (s : State) : Host.Outcome State Fault Refusal := .next (s.launchAccept n)

/-- LAUNCH_PORT_RECORD (R302): a host write to a port's cell. Only 64 bytes at offset 0, while BUSY is 0, submit a record; any
other write to RECORD is discarded and counted in LOST. -/
def State.portRecord (s : State) (vd n off : Nat) (data : List Byte) : State :=
  match s.vdevAt vd with
  | none => s
  | some v =>
    if 4 ≤ n ∨ 64 ≤ off ∨ 80 ≤ vd then s
    else
      let x := v.ports.getD n Port.reset
      if off = 0 ∧ data.length = 64 ∧ ¬ x.busy then
        let s := s.modPort vd n fun x => { x with busy := true }
        { s with subs := s.subs ++ [{ src := .port vd n, vdev := vd, core := none, bytes := data }] }
      else s.modPort vd n fun x => { x with lost := min (x.lost + 1) (2 ^ 32 - 1) }

/-- LAUNCH_PORT_RECORD (R302). -/
def execLaunchPortRecord (vd port off : Nat) (data : List (BitVec 8)) (s : State) : Host.Outcome State Fault Refusal :=
  .next (s.portRecord vd port off data)

/-- A task's waiting thread of lowest TID (R306). -/
def State.nextWaiting (s : State) (k : Task) : Option (Nat × Thread) :=
  (s.threads.filter fun t => t.2.part == k.part && t.2.task == k.num && (t.2.res == .waiting || t.2.res == .saved)).foldl
    (fun (m : Option (Nat × Thread)) t => match m with
      | some y => if t.2.tid < y.2.tid then some t else some y
      | none => some t) none

/-- A task with its next waiting thread. -/
abbrev Cand := Task × Nat × Thread

/-- The tasks of a partition with a waiting thread whose placement instance holds a core (R306). DESIGN CHOICE: a slot lies in the
instances of several placements at once, its core, quad, die and package; the choice is made among the tasks of all of them (log 84). -/
def State.candidates (s : State) (p core : Nat) : List Cand :=
  (s.tasks.filter fun k => k.part == p && (decide (4 ≤ k.place) || k.inst == instOf s.pkg core k.place)).filterMap fun k =>
    (s.nextWaiting k).map fun x => (k, x)

/-- A waiting task's effective level (R304). -/
def State.candLevel (s : State) (c : Cand) : Nat :=
  min 31 (c.1.prio + (s.time - c.2.2.entered) / max 1 (s.params c.1.part).age)

/-- QUANTUM of an account (R301). -/
def Params.quant (x : Params) (a : Nat) : Nat := max 1 (tgetD x.quantum a (2 ^ 24))

/-- The visits after which an account's DEFICIT is above 0. -/
def drrRounds (deficit : Int) (q : Nat) : Nat := if 0 < deficit then 0 else (deficit.natAbs / q) + 1

/-- The round robin of R306 over the accounts in pointer order: the step at which one is chosen, and which. -/
def drrPick (deficit : Nat → Int) (quant : Nat → Nat) (n : Nat) : Nat → List Nat → Option (Nat × Nat)
  | _, [] => none
  | i, a :: r =>
    let me := drrRounds (deficit a) (quant a) * n + i
    match drrPick deficit quant n (i + 1) r with
    | some y => some (if me ≤ y.1 then (me, a) else y)
    | none => some (me, a)

/-- A number as a signed 64-bit register holds it (R306). -/
def wrap64 (x : Int) : Int := (BitVec.ofInt 64 x).toInt

/-- The partition after the round robin has chosen an account at step k: quanta added, the pointer at it. DESIGN CHOICE: an account that
stands beyond the pointer, with no account that waits between them, is chosen with the pointer moved onto it (log 84). -/
def Partition.drrAfter (x : Partition) (level k : Nat) (a : Nat) (order : List Nat) : Partition :=
  let n := order.length
  { x with
    pointer := tset x.pointer level a
    deficit := (order.zip (upTo n)).foldl (fun (d : Table Int) y =>
      if y.2 < k then tset d y.1 (wrap64 (tgetD d y.1 0 + (x.params.quant y.1 * ((k - y.2 + n - 1) / n) : Nat))) else d) x.deficit }

/-- The oldest of some tasks (R306). -/
def oldestTask : List Cand → Option Cand
  | [] => none
  | c :: r => match oldestTask r with
    | some y => some (if c.1.order ≤ y.1.order then c else y)
    | none => some c

/-- The thread that R306 chooses for the instances that hold a core: the state with its DEFICITs and pointer, and the choice. -/
def State.chooseNext (s : State) (p core : Nat) : Option (State × Cand) :=
  match s.partAt p with
  | none => none
  | some x =>
    let cs := s.candidates p core
    let level := (cs.map s.candLevel).foldl max 0
    let top := cs.filter fun c => s.candLevel c == level
    let accounts := sortN (top.map (·.1.account))
    let ptr := tgetD x.pointer level 0
    let order := (accounts.filter fun a => decide (ptr ≤ a)) ++ accounts.filter fun a => decide (a < ptr)
    match drrPick (fun a => tgetD x.deficit a 0) x.params.quant order.length 0 order with
    | none => none
    | some (k, a) =>
      (oldestTask (top.filter fun c => c.1.account == a)).map fun c => (s.setPart p (x.drrAfter level k a order), c)

/-- Key order of R307: more free octets first, then the lower core, then T0. -/
def State.slotBefore (s : State) (a b : Nat × Nat) : Bool :=
  let free := fun (c : Nat) => ((upTo 8).filter fun o => (s.coreAt c).oct o == 0).length
  decide (free b.1 < free a.1) || (free a.1 == free b.1 && (decide (a.1 < b.1) || (a.1 == b.1 && decide (a.2 ≤ b.2))))

/-- The free slot that R307 and R339 choose for a task's thread. -/
def State.slotFor (s : State) (c : Cand) : Option (Nat × Nat) :=
  (s.slotsFree ((s.instCores c.1.part c.1.place c.1.inst).filter (s.banksFit c.2.2))).foldl
    (fun m x => match m with
      | some y => if s.slotBefore y x then some y else some x
      | none => some x) none

/-- An account that has no waiting task keeps no DEFICIT above 0 (R306). -/
def State.settle (s : State) (p : Nat) : State :=
  match s.partAt p with
  | none => s
  | some x =>
    let waits := fun (a : Nat) => s.tasks.any fun k => k.part == p && k.account == a && (s.nextWaiting k).isSome
    s.setPart p { x with deficit := x.deficit.map fun d => (d.1, if waits d.1 then d.2 else min d.2 0) }

/-- A thread is placed in a slot (R307, R308). -/
def State.placeAt (s : State) (c : Cand) (core slot : Nat) : State :=
  let s := s.modTh c.2.1 fun t => { t with res := .placed, core := core, slot := slot, entered := s.time }
  (s.settle c.1.part).reshare core

/-- A resident thread stands before another as a victim (R309): lower level, then later placed, then the higher core. -/
def State.victimBefore (s : State) (a b : Nat × Thread) : Bool :=
  let la := s.prioOf a.2
  let lb := s.prioOf b.2
  decide (la < lb) || (la == lb && (decide (b.2.entered < a.2.entered) || (a.2.entered == b.2.entered && decide (b.2.core ≤ a.2.core))))

/-- The victim of R309 for a task's thread at a level. -/
def State.victim (s : State) (c : Cand) (level : Nat) : Option (Nat × Thread) :=
  let cores := s.instCores c.1.part c.1.place c.1.inst
  (s.threads.filter fun t => t.2.res == .resident && cores.contains t.2.core && !t.2.svc && decide (s.prioOf t.2 < level) &&
    decide (t.2.residentAt + (s.params c.1.part).minrun ≤ s.time)).foldl
    (fun m x => match m with
      | some y => if s.victimBefore y x then some y else some x
      | none => some x) none

/-- The waiting thread's effective level has risen since the scheduler last considered it (R306). DEDUCED: to enter the run queue counts
as such a rise (log 84). -/
def State.risen (s : State) (c : Cand) : Bool := decide (c.2.2.considered ≤ s.candLevel c)

/-- The scheduler has considered some waiting threads at their present levels. -/
def State.consider (s : State) (cs : List Cand) : State :=
  { s with threads := s.threads.map fun x => match cs.find? fun c => c.2.1 == x.1 with
    | some c => (x.1, { x.2 with considered := s.candLevel c + 1 })
    | none => x }

/-- The scheduler chooses and places a thread in an instance that holds a core, pre-empting a victim where no slot is free
(R306, R307, R309); where neither can be done now, the choice has still given its quanta (R306). DESIGN CHOICE: a free slot whose core
cannot take the banks that the chosen thread has saved (R339) counts as none (log 84). -/
def State.placeNext (s : State) (p core : Nat) : State :=
  match s.chooseNext p core with
  | none => s
  | some (s1, c) =>
    let s1 := s1.consider (s.candidates p core)
    match s1.slotFor c with
    | some (k, x) => s1.placeAt c k x
    | none =>
      match s1.victim c (s.candLevel c) with
      | none => s1
      | some (h, _) =>
        let s2 := s1.saveThread h false
        if s2.isSaved h then
          match s2.slotFor c with
          | some (k, x) => s2.placeAt c k x
          | none => s2
        else s1

/-- A moment at which the scheduler chooses for the instances of a core (R306): a slot is free for a waiting thread, or such a thread's
level has risen. -/
def State.mayChoose (s : State) (p core : Nat) : Bool := (s.candidates p core).any fun c => (s.slotFor c).isSome || s.risen c

/-- THREAD_PLACEMENT (R306, R307, R309). -/
def execThreadPlacement (p core : Nat) (s : State) : Host.Outcome State Fault Refusal :=
  .next (if s.mayChoose p core then s.placeNext p core else s)

/-- LEVEL_AGEING (R304, R306): a waiting task of an instance that holds the core has risen above its PRIO; the scheduler chooses. -/
def execLevelAgeing (p core : Nat) (s : State) : Host.Outcome State Fault Refusal :=
  .next (if (s.candidates p core).any fun c => decide (c.1.prio < s.candLevel c) && s.risen c then s.placeNext p core else s)

/-- The octet is ready to pass by case (a) of R33: the victim has opened a strip since, and every older strip's instruction has
committed. -/
def State.octetReady (s : State) (core oct : Nat) : Bool :=
  match (s.coreAt core).drains.find? fun d => d.oct == oct with
  | none => false
  | some d =>
    match s.inSlot core d.victim with
    | none => true
    | some (_, t) => match d.opened with
      | some n => (t.queue ++ t.imgq).all fun e => decide (n ≤ e.strip)
      | none => false

/-- OCTET_PASS (R33 step 2a, step 3). -/
def execOctetPass (core oct : Nat) (s : State) : Host.Outcome State Fault Refusal :=
  .next (if s.octetReady core oct then s.passOctet core oct else s)

/-- The yield window of a draining octet has elapsed (R33 step 2b): the one in force when it was marked (R301). -/
def State.windowOver (s : State) (core oct : Nat) : Bool :=
  match (s.coreAt core).drains.find? fun d => d.oct == oct with
  | none => false
  | some d => decide (d.until_ ≤ s.time)

/-- YIELD_WINDOW_EXPIRY (R33 steps 2b-4): the victim goes on in carried-length mode. Where case (a) has come first, the octet passes by
it. -/
def State.windowExpiry (s : State) (core oct : Nat) : State :=
  if ¬ s.windowOver core oct then s
  else if s.octetReady core oct then s.passOctet core oct
  else
    let v := (((s.coreAt core).drains.find? fun d => d.oct == oct).map (·.victim)).getD 0
    let s := match s.inSlot core v with
      | some (h, t) => s.setTh h { t with carried := true }
      | none => s
    s.passOctet core oct

/-- YIELD_WINDOW_EXPIRY (R33). -/
def execYieldWindowExpiry (core oct : Nat) (s : State) : Host.Outcome State Fault Refusal := .next (s.windowExpiry core oct)

/-- Some tasks, the oldest first (R306). -/
def byAge (cs : List Cand) : List Cand := (sortN (cs.map (·.1.order))).flatMap fun o => cs.filter fun c => c.1.order == o

/-- The resident threads of a core that R310 pre-empts, each with every waiting task's thread that may take its slot, the oldest first. -/
def State.sliceVictims (s : State) (p core : Nat) : List (Nat × Thread × Cand) :=
  match s.partAt p with
  | none => []
  | some x =>
    let def_ := fun (a : Nat) => tgetD x.deficit a 0
    (upTo 2).flatMap fun slot =>
      match s.inSlot core slot with
      | some (h, t) =>
        if t.res = .resident ∧ t.part = p ∧ ¬ t.svc ∧ t.residentAt + x.params.slice ≤ s.time ∧ def_ (s.accountOf t) ≤ 0 then
          (byAge ((s.candidates p core).filter fun c => s.candLevel c == s.prioOf t && decide (0 < def_ c.1.account))).map
            fun c => (h, t, c)
        else []
      | none => []

/-- The first of some victims that can be saved, with room for the waiting thread in its slot once its banks are free (R339). -/
def State.sliceFrom (s : State) (core : Nat) : List (Nat × Thread × Cand) → State
  | [] => s
  | (h, t, c) :: r =>
    let s2 := s.saveThread h false
    if s2.isSaved h ∧ (s2.inSlot core t.slot).isNone ∧ s2.banksFit c.2.2 core then s2.placeAt c core t.slot else s.sliceFrom core r

/-- SLICE_PREEMPTION (R310): the resident thread is saved, and the waiting thread placed in its slot. -/
def State.slicePreempt (s : State) (p core : Nat) : State := s.sliceFrom core (s.sliceVictims p core)

/-- SLICE_PREEMPTION (R310). -/
def execSlicePreemption (p core : Nat) (s : State) : Host.Outcome State Fault Refusal := .next (s.slicePreempt p core)

/-- A migration begins (R311, R312): its notice is posted, and the save comes YIELD cycles later. -/
def State.startMigration (s : State) (h : Nat) : State :=
  match s.th h with
  | none => s
  | some t =>
    let y := (s.params t.part).yield
    (s.setTh h { t with migrateAt := some (s.time + y) }).notice h 3 0 0 y

/-- Moving the thread would balance octets (R311): it has fewer than its share, and a core of its instance has a free slot and more
free octets than it holds. -/
def State.unbalanced (s : State) (t : Thread) : Bool :=
  t.res == .resident && !t.svc && decide (0 < s.lack t.core t.slot) && (s.task t.part t.task).any fun k =>
    (s.slotsFree (s.instCores k.part k.place k.inst)).any fun x =>
      decide (((s.coreAt t.core).octets t.slot).length < ((upTo 8).filter fun o => (s.coreAt x.1).oct o == 0).length)

/-- MIGRATION_SAVE (R311): the notice period is over and the thread is saved; or a migration that balances octets begins, which R311
leaves to the scheduler: a free choice (log 70). -/
def State.migrationSave (s : State) (h : Nat) : State :=
  match s.th h with
  | none => s
  | some t => match t.migrateAt with
    | some d => if d ≤ s.time then s.saveThread h true else s
    | none =>
      if s.unbalanced t ∧ Config.freeNat s.freeCtr % 2 = 1 then { s with freeCtr := s.freeCtr + 1 }.startMigration h
      else { s with freeCtr := s.freeCtr + 1 }

/-- MIGRATION_SAVE (R311). -/
def execMigrationSave (h : Nat) (s : State) : Host.Outcome State Fault Refusal := .next (s.migrationSave h)

/-- A host message (R391): a record in the device's ring, where one is set. Whether a ring that has been written through once
is full depends on the host, which the manual does not describe: a free choice (log 41). -/
def State.hostMessage (s : State) (vd kind p : Nat) (value : Word) : State :=
  match s.vdevAt vd with
  | none => s
  | some v =>
    match v.ring with
    | none => s
    | some r =>
      let full := r.slots ≤ r.written && (r.slots == 0 || Config.freeNat s.freeCtr % 2 == 1)
      let s := if r.slots ≤ r.written then { s with freeCtr := s.freeCtr + 1 } else s
      if ¬ s.hostFeature 1 then s
      else if full then s.setVdev vd { v with ring := some { r with lost := r.lost + 1 } }
      else
        let bytes := leBytes 8 value.toNat ++ [BitVec.ofNat 8 kind, BitVec.ofNat 8 p] ++ List.replicate 6 0
        { s.setVdev vd { v with ring := some { r with written := r.written + 1 } } with
          hostMem := msetN s.hostMem (r.base + r.written % max 1 r.slots * 16) bytes
          hostOut := s.hostOut ++ [{ vdev := vd, kind := kind, part := p, value := value }] }

/-- The completion record (R315). -/
def Task.record (k : Task) : List Byte :=
  leBytes 8 (packN [(k.num % 2 ^ 32, 0), (1, 32), (1, 63)]) ++ leBytes 4 k.retired ++ leBytes 4 k.ended ++
  leBytes 8 (match k.firstTid with
    | some (tid, cause) => packN [(tid % 2 ^ 22, 0), (cause % 256, 32)]
    | none => 0x3FFFFF) ++
  leBytes 8 k.start ++ leBytes 8 k.finish ++ leBytes 8 k.lanecyc ++ leBytes 2 k.account ++ leBytes 1 k.prio ++ List.replicate 13 0

/-- References on objects that are gone, recorded against banks and kept with saved banks, are discarded (R348, R351). -/
def State.dropRefsOn (s : State) (p : Nat) (objs : List Nat) : State :=
  { s with
    cores := s.cores.map fun (c : Nat × Core) => (c.1, { c.2 with refs := c.2.refs.filter fun r => !(r.2.1 == p && objs.contains r.2.2) })
    threads := s.threads.map fun (t : Nat × Thread) => (t.1, { t.2 with savedBanks := t.2.savedBanks.map fun (b : SavedBank) =>
      { b with refs := b.refs.filter fun r => !(r.1 == p && objs.contains r.2) } }) }

/-- The task leaves the machine: its claims, its objects and every reference on them go with it (R199, R348, R351), and its
threads' records and context areas (R327). -/
def State.forgetTask (s : State) (k : Task) : State :=
  let s := match s.partAt k.part with
    | some x =>
      let gone := (x.objects.filter fun (o : Nat × Obj) => o.2.task == k.num).map fun (o : Nat × Obj) => o.1
      (s.setPart k.part { x with
        registry := x.registry.filter fun c => c.2.task != k.num
        objects := x.objects.filter fun o => o.2.task != k.num }).dropRefsOn k.part gone
    | none => s
  { s with
    tasks := s.tasks.filter fun j => !(j.part == k.part && j.num == k.num)
    threads := s.threads.filter fun t => !(t.2.part == k.part && t.2.task == k.num) }

/-- Every memory effect of the task's threads is performed (R13): the stores of its committed bundles are flipped (R357), its records
have arrived (R210), and its copy engines have no word left (R332). -/
def State.taskQuiet (s : State) (k : Task) : Bool :=
  s.threads.all fun x => !(x.2.part == k.part && x.2.task == k.num) ||
    (!s.sending x.1 && !s.unflipped x.1 && x.2.ceng.isEmpty && x.2.crun.isNone)

/-- The completion record written at DONE (R316): done, refused by a check, or held for now. -/
def State.writeDone (s : State) (k : Task) : Acc State :=
  match s.locateFor k.part k.vdev .store k.done.toNat 64 with
  | .error c => .trap c
  | .ok (.dram pa place) =>
    if ¬ s.routed pa then .hold
    else (s.plainStore none none (pa + 8) place (k.record.drop 8)).bind fun s => s.plainStore none none pa place (k.record.take 8)
  | .ok (.host ha) => .ok { s with hostMem := msetN s.hostMem ha k.record }
  | .ok _ => .trap 5

/-- The TASKDONE event (R374): only the slot CUESLOT of CD0. -/
def State.tapTask (s : State) (k : Task) : State :=
  match tget (s.dieAt 0).slots k.cueslot with
  | some c =>
    if k.cue ∧ c.enable ∧ c.part = k.part ∧ c.event.toNat = 5 then
      s.queueEvent 0 k.cueslot { code := 5, slot := k.cueslot, seq := 0, f := [word k.num, word k.lanecyc, word (k.finish - k.start), word k.ended] }
    else s
  | none => s

/-- TASK_COMPLETION (R13, R315, R316): the last thread has retired or been ended. -/
def State.complete (s : State) (p n : Nat) : State :=
  match s.task p n with
  | none => s
  | some k =>
    if k.retired + k.ended < k.threads ∨ ¬ s.taskQuiet k then s
    else match s.writeDone k with
    | .hold => s
    | .trap _ => (s.hostMessage k.vdev 3 p (word k.num)).forgetTask k
    | .ok s =>
      let s := if k.hostmsg then s.hostMessage k.vdev 1 p (word k.num) else s
      (s.tapTask k).forgetTask k

/-- TASK_COMPLETION (R316). -/
def execTaskCompletion (p task : Nat) (s : State) : Host.Outcome State Fault Refusal := .next (s.complete p task)

end Sys2Proof.Machine
end

