-- ==== Sys2Proof/Machine/Prompter.lean ====
section
/-!
DEFINITION. The Prompter (R374-R383): cue slots and their registers, cue programs and runs, triggers, budgets; temperature,
energy, soft errors and shutdown (R374, R385, R392). Management commands answer through `manage` (R387).
-/
namespace Sys2Proof.Machine

/-- The number that the model gives the management virtual device, which is no partition's (log 42). -/
def mgmtVd : Nat := 124

/-- The management virtual device has appeared (R393). -/
def State.mgmtPresent (s : State) : Bool := (s.vdevAt mgmtVd).isSome

/-- The management port takes a record (R302, R387): the management virtual device is there (R393); a record that comes while the
port's last one is undecided is counted in LOST and does nothing else. -/
def managePort (s s' : State) : Host.Outcome State Fault Refusal :=
  .next (if s.phase ≠ .up ∨ ¬ s.mgmtPresent then s
  else if s.mgmt.busy then { s with mgmt := { s.mgmt with lost := min (s.mgmt.lost + 1) (2 ^ 32 - 1) } }
  else s')

/-- A management command (R387): performed with CAUSE 0, or refused with a CAUSE and nothing changed. -/
def manage (s : State) (r : Except Nat State) : Host.Outcome State Fault Refusal :=
  managePort s (match r with
    | .ok s' => { s' with mgmt := s'.mgmt.status 0 0 }
    | .error c => { s with mgmt := s.mgmt.status 0 c })

/-- The first 8 bytes of a command record as R387 places them: VERSION in bytes 1:0, OP in byte 2, TARGET in bytes 7:4. -/
def headOp (head : BitVec 64) : Nat := fieldW head 16 8
def headTarget (head : BitVec 64) : Nat := fieldW head 32 32
def headOk (head : BitVec 64) : Bool := fieldW head 0 16 == 1 && decide (1 ≤ headOp head) && decide (headOp head ≤ 0x12)

/-- The head of a record of VERSION 1. -/
def recHead (op target : Nat) : BitVec 64 := word (packN [(1, 0), (op, 16), (target, 32)])

/-- A record given to the management port as one of the command `op` (R387): a VERSION or an OP that the table does not have is refused with
CAUSE 1; a valid OP of another command is no record of this one, and nothing happens (log 12). `f` performs the command for its TARGET. -/
def manageHead (op : Nat) (head : BitVec 64) (s : State) (f : Nat → Host.Outcome State Fault Refusal) : Host.Outcome State Fault Refusal :=
  if ¬ headOk head then manage s (.error 1) else if headOp head ≠ op then .next s else f (headTarget head)

/-- A cue slot at reset (R375). -/
def CueSlot.reset : CueSlot where
  enable := false
  part := 0
  event := 0
  loaded := false
  holdoff := 0
  period := 0
  tgtTask := 0
  tgtTid := 0
  tgtThread := false
  tgtHost := false
  runs := 0
  qdrop := 0
  bdrop := 0
  tdrop := 0
  prog := []
  st := []
  trigAt := none
  timer := 0

/-- The fields of a cue word (R376). -/
def cueOp (w : IWord) : Nat := bitsN w.toNat 0 5
def cueD (w : IWord) : Nat := bitsN w.toNat 5 4
def cueA (w : IWord) : Nat := bitsN w.toNat 9 4
def cueB (w : IWord) : Nat := bitsN w.toNat 13 4
def cueImm (w : IWord) : Nat := bitsN w.toNat 17 15

/-- A run as it stands: registers, state words, the trigger payload, instructions executed, instructions to skip. -/
structure Run where
  w : List Word
  st : Table Word
  trig : Option Word
  count : Nat
  skip : Nat
  ended : Bool
deriving DecidableEq, Repr

def Run.reg (r : Run) (n : Nat) : Word := if n = 0 then 0 else r.w.getD n 0
def Run.setReg (r : Run) (n : Nat) (x : Word) : Run := if n = 0 then r else { r with w := setAt 0 r.w n x }
def Run.word (r : Run) (i : Nat) : Word := tgetD r.st i 0
def Run.setWord (r : Run) (i : Nat) (x : Word) : Run := { r with st := tset r.st i x }

/-- S[i] gains n, stopping at all ones (R377). -/
def Run.sat (r : Run) (i n : Nat) : Run := r.setWord i (satInc (r.word i) n)

/-- The sketch hash of row t (R377). -/
def sketch (t k : Nat) (x : Word) : Nat :=
  let m := [0x9E3779B97F4A7C15, 0xC2B2AE3D27D4EB4F, 0x165667B19E3779F9, 0xD6E8FEB86659FD93].getD t 0
  x.toNat * m % 2 ^ 64 / 2 ^ (64 - k)

/-- The state words of a sketch for a key (R377). -/
def sketchWords (imm : Nat) (x : Word) : List Nat :=
  let k := bitsN imm 11 4
  (upTo (bitsN imm 9 2 + 1)).map fun t => bitsN imm 0 9 + t * 2 ^ k + sketch t k x

/-- One cue instruction (R377). -/
def Run.step (r : Run) (e : Event) (now : Nat) (x : IWord) : Run :=
  let r := { r with count := r.count + 1 }
  let d := cueD x
  let a := r.reg (cueA x)
  let b := r.reg (cueB x)
  let imm := cueImm x
  let cond := fun (c : Bool) => if c then { r with skip := imm } else r
  match cueOp x with
  | 0x00 => { r with ended := true }
  | 0x01 => r.setReg d (if imm < 4 then e.f.getD imm 0 else if imm = 4 then e.code.zeroExtend 64 else Machine.word now)
  | 0x02 => r.setReg d (wordI (signed 15 imm))
  | 0x03 => r.setReg d (a + b)
  | 0x04 => r.setReg d (a - b)
  | 0x05 => r.setReg d (a &&& b)
  | 0x06 => r.setReg d (a ||| b)
  | 0x07 => r.setReg d (a ^^^ b)
  | 0x08 => r.setReg d (a <<< imm)
  | 0x09 => r.setReg d (a >>> imm)
  | 0x0A => r.setReg d (if a.toNat ≤ b.toNat then a else b)
  | 0x0B => r.setReg d (if a.toNat ≤ b.toNat then b else a)
  | 0x0C => r.setReg d (Machine.word (if a = 0 then 0 else Nat.log2 a.toNat + 1))
  | 0x0D => r.setReg d (r.word imm)
  | 0x0E => r.setWord imm a
  | 0x0F => r.sat imm a.toNat
  | 0x10 => r.sat (bitsN imm 0 9 + min a.toNat (bitsN imm 9 6)) 1
  | 0x11 =>
    let i := bitsN imm 0 9
    let r := if r.word (i + 2) = 0 then (r.setWord i a).setWord (i + 1) a
      else (r.setWord i (if a.toNat ≤ (r.word i).toNat then a else r.word i)).setWord (i + 1)
        (if (r.word (i + 1)).toNat ≤ a.toNat then a else r.word (i + 1))
    r.sat (i + 2) 1
  | 0x12 => (sketchWords imm a).foldl (fun r i => r.sat i b.toNat) r
  | 0x13 => r.setReg d (Machine.word (((sketchWords imm a).map fun i => (r.word i).toNat).foldl min (2 ^ 64 - 1)))
  | 0x14 => cond (a == b)
  | 0x15 => cond (decide (a.toNat < b.toNat))
  | 0x16 => cond (decide (b.toNat ≤ a.toNat))
  | 0x17 => { r with trig := some a }
  | _ => r

/-- A program run from its first word (R378). -/
def Run.go (r : Run) (e : Event) (now : Nat) : List IWord → Run
  | [] => r
  | x :: l =>
    if r.ended then r
    else if 0 < r.skip then { r with skip := r.skip - 1 }.go e now l
    else (r.step e now x).go e now l

/-- The 64 bits of a trigger (R380). -/
def trigEntry (payload : Word) (slot die : Nat) : Word := word (packN [(fieldW payload 0 32, 0), (slot, 32), (die, 38)])

/-- The thread that a slot's triggers go to, where it is resident and the slot may reach it (R380). -/
def State.trigThread (s : State) (c : CueSlot) : Option Nat :=
  (s.threads.find? fun t => t.2.res == .resident && t.2.task == c.tgtTask.toNat && t.2.tid == c.tgtTid.toNat &&
    (c.part == 31 || t.2.part == c.part)).map (·.1)

/-- A cue slot of a die, and one changed. -/
def State.cueAt (s : State) (die slot : Nat) : CueSlot := tgetD (s.dieAt die).slots slot CueSlot.reset
def State.setCue (s : State) (die slot : Nat) (c : CueSlot) : State :=
  s.setDie die { s.dieAt die with slots := tset (s.dieAt die).slots slot c }

/-- The 64 bits that both deliveries of a trigger carry: OVF is set where the q7 entry displaces an older one (R380). -/
def State.trigBits (s : State) (dest : Option Nat) (e : Word) : Word :=
  if (dest.bind s.th).any fun t => decide (qDepth 7 ≤ (t.q 7).length) then e ||| word (2 ^ 63) else e

/-- The host message of a trigger, with its bytes metered where it is raised (R380, R381). It goes to the partition's first virtual
device, and for firmware to the management virtual device (log 42). -/
def State.trigMessage (s : State) (part : Nat) (x : Word) : State :=
  let s' := s.hostMessage (part * 4) 2 part x
  if s'.hostOut.length = s.hostOut.length ∨ part = 31 then s' else s'.meter part 0 12 16

/-- The trigger of a run that has ended (R380). -/
def State.deliverTrigger (s : State) (die slot : Nat) (payload : Word) : State :=
  let c := s.cueAt die slot
  let early := (c.trigAt.map fun x => decide (s.time < x + c.holdoff.toNat * 64)).getD false
  if early then s.setCue die slot { c with tdrop := satBits c.tdrop }
  else
    let e := trigEntry payload slot die
    let dest := if c.tgtThread then s.trigThread c else none
    let x := s.trigBits dest e
    let s := match dest with
      | some h => s.modTh h fun t => t.post 7 e
      | none => s
    let s := if c.tgtHost then s.trigMessage c.part x else s
    s.setCue die slot { c with
      tdrop := if c.tgtThread ∧ dest.isNone then satBits c.tdrop else c.tdrop
      trigAt := if dest.isSome ∨ c.tgtHost then some s.time else c.trigAt }

/-- The oldest event of a queue may run: no older one of its slot stands in another queue (R378), as it can after a LOADCUE that has
changed the slot's partition. -/
def Die.headReady (d : Die) (q : List Event) : Bool :=
  match q with
  | [] => false
  | e :: _ => d.evq.all fun x => x.2.all fun y => y.slot != e.slot || decide (e.seq ≤ y.seq)

/-- The event queue that the cue engines serve next, round-robin (R382). -/
def Die.nextQueue (d : Die) : Option Nat :=
  let ready := (d.evq.filter fun x => d.headReady x.2).map (·.1)
  (ready.find? fun p => decide (d.evnext ≤ p)).orElse fun _ => ready.head?

/-- CUE_RUN (R378, R380, R382, R383): where it is a partition's queue's turn, its oldest event runs its slot's program. -/
def State.cueRun (s : State) (die p : Nat) : State :=
  let d := (s.dieAt die).rolled s.time
  match (if d.nextQueue = some p then tgetD d.evq p [] else []) with
  | [] => s
  | e :: rest =>
    let s := s.setDie die { d with evq := tset d.evq p rest, evnext := p + 1 }
    let c := s.cueAt die e.slot
    if ¬ c.loaded then s
    else
      let r := Run.go { w := List.replicate 16 0, st := c.st, trig := none, count := 0, skip := 0, ended := false } e s.time c.prog
      let s := s.setCue die e.slot { c with st := r.st, runs := satBits c.runs }
      let d := s.dieAt die
      let s := s.setDie die { d with used := tset d.used c.part (tgetD d.used c.part 0 + r.count) }
      let s := if c.part = 31 then s else s.meter c.part 0 15 r.count
      match r.trig with
      | some x => s.deliverTrigger die e.slot x
      | none => s

/-- CUE_RUN (R378). -/
def execCueRun (die part : Nat) (s : State) : Host.Outcome State Fault Refusal := .next (s.cueRun die part)

/-- A slot's TIMER period has elapsed (R374). -/
def State.timerDue (s : State) (die slot : Nat) : Bool :=
  match tget (s.dieAt die).slots slot with
  | some c => c.enable && c.event.toNat == 11 && c.period != 0 && decide (c.timer + c.period.toNat * 1024 ≤ s.time)
  | none => false

/-- CUE_TIMER (R374). -/
def State.cueTimer (s : State) (die slot : Nat) : State :=
  if s.timerDue die slot then
    (s.setCue die slot { s.cueAt die slot with timer := (s.cueAt die slot).timer + (s.cueAt die slot).period.toNat * 1024 }).queueEvent die slot
      { code := 11, slot := slot, seq := 0, f := [word s.time, 0, 0, 0] }
  else s

/-- CUE_TIMER (R374). -/
def execCueTimer (die slot : Nat) (s : State) : Host.Outcome State Fault Refusal := .next (s.cueTimer die slot)

/-- The Prompter that an event on a die goes to (R374): those of the hub dies, HD0 as 8 and HD1 as 9, go to CD0's and CD4's. -/
def tapDie (die : Nat) : Nat := if die = 8 then 0 else if die = 9 then 4 else die

/-- The stage manager's budget at a temperature in 1/16 °C (R392). -/
def thermalBudget (t16 : Nat) : Nat :=
  if t16 ≤ 1520 then 576 else if 1680 ≤ t16 then 288 else (576 * 160 - 288 * (t16 - 1520)) / 160

/-- A sensor of a die at 115 °C shuts the package down, and the host link reports it (R392). -/
def State.shutIf (s : State) (die t16 : Nat) : State :=
  if 1840 ≤ t16 then { s.setDie die { s.dieAt die with temp := t16 } with phase := .shutdown, shutBy := some (die, t16) } else s

/-- THERMAL_SAMPLE (R374, R392): every 60,000 cycles. -/
def execThermalSample (die t16 power : Nat) (s : State) : Host.Outcome State Fault Refusal :=
  .next (if s.time < (s.dieAt die).thermalAt + 60000 then s
    else
      let s1 := s.setDie die { s.dieAt die with temp := t16, budget := thermalBudget t16, thermalAt := s.time / 60000 * 60000 }
      (s1.tap (tapDie die) 10 .all [t16, power, thermalBudget t16, s1.unitsUsed die]).shutIf die t16)

/-- BUDGET_WINDOW (R383): a window of 600,000 cycles is over and USED returns to 0. -/
def execBudgetWindow (die : Nat) (s : State) : Host.Outcome State Fault Refusal :=
  .next (if (s.dieAt die).windowAt + 600000 ≤ s.time then s.setDie die ((s.dieAt die).rolled s.time) else s)

/-- Energy given out one by one, none beyond what is left: the shares of log 11, fresh in every interval. -/
def shareOut (ctr die uj : Nat) : Nat → List Nat → List (Nat × Nat)
  | _, [] => []
  | left, k :: r =>
    let x := min left (Config.energyShare ctr die uj k)
    (k, x) :: shareOut ctr die uj (left - x) r

/-- Energy that no thread draws, shared among the partitions with cores or home groups on a die (R385). -/
def State.restEnergy (s : State) (die left : Nat) : State :=
  let ps := shareOut s.freeCtr die left left ((s.parts.filter fun p => p.2.cores.any (fun c => c / 128 == die) ||
    p.2.groups.any (fun g => g / 64 == die)).map fun p => 2 ^ 32 + p.1)
  ps.foldl (fun s x => match s.partAt (x.1 - 2 ^ 32) with
    | some p => s.setPart (x.1 - 2 ^ 32) { p with partEnergy := p.partEnergy + x.2 }
    | none => s) { s with freeCtr := s.freeCtr + 1 }

/-- A die's energy of an interval: to the accounts of the threads resident on it, the rest to the partitions there (R385). -/
def State.dieEnergy (s : State) (die uj : Nat) : State :=
  let ths := shareOut s.freeCtr die uj uj ((s.onDie die).map (·.1))
  let left := uj - (ths.map (·.2)).foldl (· + ·) 0
  let s := ths.foldl (fun s x => match s.th x.1 with
    | some t => s.meter t.part (s.accountOf t) 14 x.2
    | none => s) { s with freeCtr := s.freeCtr + 1 }
  s.restEnergy die left

/-- A tower's energy of an interval: by the line requests that it served for each account (R385). -/
def State.towerEnergy (s : State) (die tower uj : Nat) : State :=
  let mine := s.served.filter fun x => x.1 / 2 ^ 14 == die * 2 + tower
  let total := (mine.map (·.2)).foldl (· + ·) 0
  let parts := mine.map fun x => (x.1 % 2 ^ 14, uj * x.2 / max 1 total)
  let s := { s with served := s.served.filter fun x => x.1 / 2 ^ 14 != die * 2 + tower }
  (parts.foldl (fun s x => s.meter (x.1 / 512) (x.1 % 512) 14 x.2) s).restEnergy die (uj - (parts.map (·.2)).foldl (· + ·) 0)

/-- ENERGY_INTERVAL (R385): an interval of 6,000 cycles is over for a die (0 to 7) or for a tower (8 to 23, two of each die). -/
def State.energyInterval (s : State) (die uj : Nat) : State :=
  if die < 8 then
    let d := s.dieAt die
    if s.time < d.energyAt + 6000 then s
    else (s.setDie die { d with energyAt := s.time / 6000 * 6000 }).dieEnergy die uj
  else
    let k := (die - 8) / 2
    let d := s.dieAt k
    if s.time < tgetD d.towerAt (die % 2) 0 + 6000 ∨ 24 ≤ die then s
    else (s.setDie k { d with towerAt := tset d.towerAt (die % 2) (s.time / 6000 * 6000) }).towerEnergy k (die % 2) uj

/-- ENERGY_INTERVAL (R385). -/
def execEnergyInterval (die uj : Nat) (s : State) : Host.Outcome State Fault Refusal := .next (s.energyInterval die uj)

/-- SOFT_ERROR (R374): a corrected error is tapped; nothing else changes. -/
def execSoftError (die kind loc : Nat) (owner : Option Nat) (s : State) : Host.Outcome State Fault Refusal :=
  .next (s.tap (tapDie die) 9 (match owner with
    | some p => .part p
    | none => .firmware) [kind, loc, 0, 0])

/-- THERMAL_SHUTDOWN (R392): a sensor at 115 °C shuts the package down. -/
def execThermalShutdown (die t16 : Nat) (s : State) : Host.Outcome State Fault Refusal := .next (s.shutIf die t16)

/-- A cue slot's registers as words (R375). -/
def CueSlot.ctl (c : CueSlot) : Word :=
  word (packN [(boolN c.enable, 0), (c.part, 1), (c.event.toNat, 6), (boolN c.loaded, 14), (c.holdoff.toNat, 16), (c.period.toNat, 32)])
def CueSlot.tgt (c : CueSlot) : Word :=
  word (packN [(c.tgtTask.toNat, 0), (c.tgtTid.toNat, 32), (boolN c.tgtThread, 54), (boolN c.tgtHost, 55)])
def CueSlot.cnt (c : CueSlot) : Word :=
  word (packN [(c.runs.toNat, 0), (c.qdrop.toNat, 24), (c.bdrop.toNat, 40), (c.tdrop.toNat, 56)])

/-- What a read of 8 bytes of a die's Prompter page answers (R375, R378): a state word, a slot's register, 0 elsewhere. -/
def State.promptRead (s : State) (die off : Nat) : Word :=
  if off < 0x40000 then tgetD (s.cueAt die (off / 0x1000)).st (off % 0x1000 / 8) 0
  else
    let c := s.cueAt die ((off - 0x40000) / 32)
    match off % 32 with
    | 0 => c.ctl
    | 8 => c.tgt
    | 16 => c.cnt
    | _ => 0

/-- PRBUDGET of a partition on a die (R383). -/
def State.prbudget (s : State) (die p : Nat) : Word :=
  word (packN [(s.cueBudget die p, 0), (tgetD ((s.dieAt die).rolled s.time).used p 0, 32)])

/-- A management-window write to the Prompter page of a die (R375): accepted from the management virtual device, or from one of
the slot's partition. -/
def State.promptWrite (s : State) (die off : Nat) (x : Word) : State :=
  if off < 0x40000 then
    let slot := off / 0x1000
    let c := s.cueAt die slot
    if off % 8 = 0 then s.setCue die slot { c with st := tset c.st (off % 0x1000 / 8) x } else s
  else
    let slot := (off - 0x40000) / 32
    let c := s.cueAt die slot
    match off % 32 with
    | 0 =>
      if fieldW x 15 1 ≠ 0 ∨ fieldW x 48 16 ≠ 0 then s
      else
        let on := bitN x.toNat 0
        let per := BitVec.ofNat 16 (fieldW x 32 16)
        s.setCue die slot { c with
          enable := on, holdoff := BitVec.ofNat 16 (fieldW x 16 16), period := per
          timer := if (on ∧ ¬ c.enable) ∨ per ≠ c.period then s.time else c.timer }
    | 8 =>
      if fieldW x 56 8 ≠ 0 then s
      else s.setCue die slot { c with
        tgtTask := BitVec.ofNat 32 (fieldW x 0 32), tgtTid := BitVec.ofNat 22 (fieldW x 32 22)
        tgtThread := bitN x.toNat 54, tgtHost := bitN x.toNat 55 }
    | 16 => s.setCue die slot { c with
        runs := BitVec.ofNat 24 (fieldW x 0 24), qdrop := BitVec.ofNat 16 (fieldW x 24 16)
        bdrop := BitVec.ofNat 16 (fieldW x 40 16), tdrop := BitVec.ofNat 8 (fieldW x 56 8) }
    | _ => s

/-- MGMT_REGISTER_WRITE (R375). -/
def execMgmtRegisterWrite (vd : Option Nat) (die off : Nat) (x : BitVec 64) (s : State) : Host.Outcome State Fault Refusal :=
  let slot := if off < 0x40000 then off / 0x1000 else (off - 0x40000) / 32
  let mine : Bool := match vd with
    | none => true
    | some v => (s.vdevAt v).isSome && (s.cueAt die slot).part == vdPart v
  .next (if s.phase = .up ∧ die < 8 ∧ off < 0x40800 ∧ mine then s.promptWrite die off x else s)

/-- A cue word that an image may hold (R377, R379), standing at word i of n. -/
def cueWordOk (w : IWord) (i n : Nat) : Bool :=
  let d := cueD w
  let a := cueA w
  let b := cueB w
  let imm := cueImm w
  let uses := fun (ud ua ub ui : Bool) => (ud || d == 0) && (ua || a == 0) && (ub || b == 0) && (ui || imm == 0)
  let base := bitsN imm 0 9
  let rows := decide (1 ≤ bitsN imm 11 4) && decide (bitsN imm 11 4 ≤ 9) &&
    decide (base + (bitsN imm 9 2 + 1) * 2 ^ bitsN imm 11 4 ≤ 512)
  match cueOp w with
  | 0x00 => uses false false false false
  | 0x01 => uses true false false true && decide (imm ≤ 5)
  | 0x02 => uses true false false true
  | 0x03 | 0x04 | 0x05 | 0x06 | 0x07 | 0x0A | 0x0B => uses true true true false
  | 0x08 | 0x09 => uses true true false true && decide (imm ≤ 63)
  | 0x0C => uses true true false false
  | 0x0D => uses true false false true && decide (imm ≤ 511)
  | 0x0E | 0x0F => uses false true false true && decide (imm ≤ 511)
  | 0x10 => uses false true false true && decide (base + bitsN imm 9 6 ≤ 511)
  | 0x11 => uses false true false true && bitsN imm 9 6 == 0 && decide (base + 2 ≤ 511)
  | 0x12 => uses false true true true && rows
  | 0x13 => uses true true false true && rows
  | 0x14 | 0x15 | 0x16 => uses false true true true && decide (1 ≤ imm) && decide (imm ≤ 63) && decide (i + imm ≤ n - 1)
  | 0x17 => uses false true false false
  | _ => false

/-- For each word of a program, how long the longest path from it to the end is (R379). -/
def cuePaths : List IWord → List Nat
  | [] => []
  | w :: r =>
    let l := cuePaths r
    let n := if cueOp w = 0 then 0
      else if 0x14 ≤ cueOp w ∧ cueOp w ≤ 0x16 then max (l.headD 0) (l.getD (cueImm w) 0)
      else l.headD 0
    (n + 1) :: l

/-- The program of a cue image: event, slot and words; none where R379 refuses it. -/
def cueImage (s : State) (pa : Nat) : Option (Nat × Nat × List IWord) :=
  let f := fun o n => leNat (s.physBytes (pa + o) n)
  let count := f 2 1
  let prog := (upTo count).map fun i => BitVec.ofNat 32 (f (8 + 4 * i) 4)
  if f 0 1 ≠ 1 ∨ f 1 1 = 0 ∨ 12 < f 1 1 ∨ count = 0 ∨ 64 < count ∨ 63 < f 3 1 ∨ f 4 4 ≠ 0 then none
  else if ((prog.zip (upTo count)).all fun x => cueWordOk x.1 x.2 count) && decide ((cuePaths prog).headD 0 ≤ 32) then
    some (f 1 1, f 3 1, prog)
  else none

/-- LOADCUE (R379, R387). -/
def loadcueFor (p : Nat) (die pa : Nat) (s : State) : Host.Outcome State Fault Refusal :=
  manage s (
    if (s.partAt p).isNone ∧ p ≠ 31 then .error 2
    else if 8 ≤ die then .error 1
    else match cueImage s pa with
    | none => .error 1
    | some (ev, slot, prog) =>
      .ok (s.setCue die slot { s.cueAt die slot with
        enable := false, part := p, event := BitVec.ofNat 8 ev, loaded := true, runs := 0, qdrop := 0, bdrop := 0, tdrop := 0
        prog := prog, st := [] }))

/-- LOADCUE (R379, R387): its record, and its operands. -/
def execLoadcue (head : BitVec 64) (die pa : Nat) (s : State) : Host.Outcome State Fault Refusal :=
  manageHead 0x0B head s fun p => loadcueFor p die pa s

/-- The budgets of a die's partitions but one (R383). -/
def State.budgetsBut (s : State) (die p : Nat) : Nat :=
  ((s.parts.filter fun x => x.1 != p).map fun x => s.cueBudget die x.1).foldl (· + ·) 0

/-- BUDGET (R383, R387). -/
def budgetFor (p : Nat) (die x : Nat) (s : State) : Host.Outcome State Fault Refusal :=
  manage s (match s.partAt p with
    | none => .error 2
    | some q =>
      if 8 ≤ die ∨ 2 ^ 32 ≤ x then .error 1
      else if 2160000 < s.budgetsBut die p + x then .error 3
      else .ok (s.setPart p { q with budget := tset q.budget die x }))

/-- BUDGET (R383, R387): its record, and its operands. -/
def execBudget (head : BitVec 64) (die x : Nat) (s : State) : Host.Outcome State Fault Refusal :=
  manageHead 0x0C head s fun p => budgetFor p die x s

end Sys2Proof.Machine
end

