-- ==== Sys2Proof/Machine/Management.lean ====
section
/-!
DEFINITION. The management commands (R387, R394, R234, R235, R239, R254, R301, R327, R338, R342, R386, R388, R390, R391), with
their operands as constructor arguments (log 12). A refused command changes nothing; its CAUSE is 1, 2 or 3.
-/
namespace Sys2Proof.Machine

/-- No repeats, and every number below a bound. -/
def distinctBelow (n : Nat) (l : List Nat) : Bool := l.all (fun x => decide (x < n)) && decide (l.eraseDups.length = l.length)

/-- A strictly rising list. -/
def rising : List Nat → Bool
  | a :: b :: r => decide (a < b) && rising (b :: r)
  | _ => true

/-- An interleave set (R234): 1, 2, 4 or 8 dies in ascending order, each with a home group of its owner. -/
def interOk (inter groups : List Nat) : Bool :=
  [1, 2, 4, 8].contains inter.length && rising inter && inter.all fun d => decide (d < 8) && groups.any fun g => g / 64 == d

/-- A core, a home group or a region belongs to someone already (R387). -/
def State.coreUsed (s : State) (c : Nat) : Bool := s.parts.any fun p => p.2.cores.contains c
def State.groupUsed (s : State) (g : Nat) : Bool := s.commonsGroups.contains g || s.parts.any fun p => p.2.groups.contains g
def State.regionUsed (s : State) (r : Nat) : Bool := (tget s.regions (s.regionKey r)).any fun x => x.owner != .nobody

/-- Regions marked as save areas of a partition (R338). -/
def State.markSave (s : State) (p : Nat) (l : List Nat) : State :=
  { s with regions := l.foldl (fun m r => tset m (s.regionKey r) { owner := .part p, place := 8, die := 0 }) s.regions }

/-- The pending versions of the lines from lo below hi are dropped with them (R255). DEDUCED, as for a home group that leaves (R363): a
bundle before its commit point aborts with cause 5, and a committed one has no flip left to make there (log 83). -/
def State.dropPending (s : State) (lo hi : Nat) : State :=
  let here := fun (l : BLine) => !l.flipped && decide (lo ≤ l.line) && decide (l.line < hi)
  s.bundles.foldl (fun (s : State) (b : Nat × Bundle) =>
    if ¬ b.2.lines.any here then s
    else if b.2.stage = .committed then
      { s with bundles := tset s.bundles b.1 { b.2 with lines := b.2.lines.map fun l => if here l then { l with bytes := [], flipped := true } else l } }
    else s.abortBundle b.1 5) s

/-- Every line of a range of DRAM is marked clear-pending; the caches drop it without write-back, and with it its pending version
(R255). -/
def State.clearRange (s : State) (pa n : Nat) : State :=
  let lo := pa / 128
  let hi := (pa + n) / 128
  let s := s.dropPending lo hi
  { s with
    clearPend := if lo < hi then s.clearPend ++ [(lo, hi)] else s.clearPend
    cores := s.cores.map fun (c : Nat × Core) => (c.1, { c.2 with dirty := c.2.dirty.filter fun d => decide (d.line < lo) || decide (hi ≤ d.line) }) }

/-- Regions are taken away and cleared (R255). -/
def State.freeRegions (s : State) (l : List Nat) : State :=
  l.foldl (fun s r => { (s.clearRange (s.slotAddr r 0) (2 ^ 30)) with regions := tdel s.regions (s.regionKey r) }) s

/-- A partition as CREATE makes it (R387, R301, R306, R383). -/
def State.newPartition (s : State) (o : CreateOps) : Partition where
  cores := sortN o.cores
  groups := sortN o.groups
  inter := o.inter
  saveRegions := sortN o.saveRegions
  pod := o.pod
  params := Params.default
  deficit := []
  pointer := []
  nextTask := 0
  registry := []
  chorus := []
  chorusWritten := []
  objects := []
  meters := []
  partEnergy := 0
  snapSeq := 0
  apertures := []
  budget := (upTo 8).map fun d => (d, min 108000 (2160000 - s.budgetsBut d 20))

/-- CREATE (R387). -/
def createFor (p : Nat) (ops : CreateOps) (s : State) : Host.Outcome State Fault Refusal :=
  manage s (
    if ¬ (p < 20 ∧ distinctBelow 1024 ops.cores ∧ distinctBelow 512 ops.groups ∧ distinctBelow 768 ops.saveRegions ∧
        interOk ops.inter ops.groups ∧ ops.pod < 2 ^ 16) then .error 1
    else if (s.partAt p).isSome ∨ ops.cores.any s.coreUsed ∨ ops.groups.any s.groupUsed ∨ ops.saveRegions.any s.regionUsed ∨
        (ops.pod ≠ 0 ∧ s.parts.any fun x => x.2.pod == ops.pod) then .error 3
    else .ok ((s.setPart p (s.newPartition ops)).markSave p ops.saveRegions))

/-- CREATE (R387): its record, and its operands. -/
def execCreate (head : BitVec 64) (ops : CreateOps) (s : State) : Host.Outcome State Fault Refusal :=
  manageHead 0x01 head s fun p => createFor p ops s

/-- A thread placed but not yet resident goes back to its run queue; a resident one has a migration notice, and is saved YIELD
cycles later (R311, R312, R342). -/
def State.evict (s : State) (h : Nat) : State :=
  match s.th h with
  | none => s
  | some t =>
    if t.res = .placed then
      let s := s.setTh h { t with res := if t.saveSlot.isSome then .saved else .waiting, entered := s.time, considered := 0 }
      (s.freeOctets t.core t.slot).reshare t.core
    else if t.res = .resident then s.startMigration h
    else s

/-- The threads in the slots of some cores. -/
def State.threadsOn (s : State) (cores : List Nat) : List (Nat × Thread) :=
  s.threads.filter fun t => cores.contains t.2.core && (t.2.res == .resident || t.2.res == .placed)

/-- The pages that the streams of a thread's loop use, over all its iterations, with an address in each (R294, R296): one of which
something holds. -/
def State.streamPage (s : State) (t : Thread) (f : Page → Nat → Bool) : Bool :=
  let l := t.loop
  let t := t.setLoop { l with pinned := true }
  l.streamList.any fun y => anyBelow l.trip fun i => anyBelow l.vl fun k =>
    (s.pageFor t (y.addr i k).toNat).any fun g => f g (y.addr i k).toNat

/-- Home groups leave a partition: a bundle with a line there aborts with cause 5, or flips it after its commit point (R363); a
replay with a stream there departs with RESIZE (R296, R342). -/
def State.groupsLeave (s : State) (p : Nat) (gone : List Nat) : State :=
  let here := fun (s : State) (pa : Nat) => gone.contains (s.homeSlice pa / 4)
  let s := s.bundles.foldl (fun (s : State) (b : Nat × Bundle) =>
    if b.2.stage = .committed then b.2.lines.foldl (fun (s : State) (l : BLine) => if here s (l.line * 128) then s.flipLine b.1 l.line else s) s
    else if b.2.lines.any fun (l : BLine) => here s (l.line * 128) then s.abortBundle b.1 5 else s) s
  s.threads.foldl (fun (s : State) (x : Nat × Thread) =>
    let t := x.2
    let l := t.loop
    let hit := l.stage == .replay && t.part == p && s.streamPage t fun g va => here s (g.at_ va)
    if hit then s.departAt x.1 l.d 0x25 else s) s

/-- The DIE of each die-local region of a partition stands in an interleave set (R234). -/
def State.diesKept (s : State) (p : Nat) (inter : List Nat) : Bool :=
  s.regions.all fun r => r.1 / 2 ^ 15 != s.pkg || r.2.owner != .part p || r.2.place != 2 || inter.contains r.2.die

/-- RESIZE (R342, R338, R363, R387, R234). A set that would leave out the die of a die-local region is in use (log 12). An empty interleave set leaves the partition's as it is. -/
def resizeFor (p : Nat) (ops : ResizeOps) (s : State) : Host.Outcome State Fault Refusal :=
  manage s (match s.partAt p with
    | none => .error 2
    | some x =>
      let groups := sortN ((x.groups.filter fun g => !ops.delGroups.contains g) ++ ops.addGroups)
      let inter := if ops.inter = [] then x.inter else ops.inter
      if ¬ (distinctBelow 1024 ops.addCores ∧ distinctBelow 512 ops.addGroups ∧ distinctBelow 768 ops.addSave ∧
          ops.delCores.all x.cores.contains ∧ ops.delGroups.all x.groups.contains ∧ ops.delSave.all x.saveRegions.contains ∧
          interOk inter groups) then .error 1
      else if ops.addCores.any s.coreUsed ∨ ops.addGroups.any s.groupUsed ∨ ops.addSave.any s.regionUsed then .error 3
      else if (s.threadsOn ops.delCores).any (fun t => t.2.svc) ∨
          ¬ s.diesKept p inter ∨
          s.freeSlotsOf (x.saveRegions.filter fun r => !ops.delSave.contains r) < ((s.threadsOn ops.delCores).filter fun t => t.2.res == .resident).length ∨
          (s.threads.any fun t => t.2.saveSlot.any fun pa => ops.delSave.any fun r => pa / 2 ^ 30 == s.slotAddr r 0 / 2 ^ 30) then .error 3
      else
        let s := s.groupsLeave p ops.delGroups
        let x := (s.partAt p).getD x
        let s := s.setPart p { x with
          cores := sortN ((x.cores.filter fun c => !ops.delCores.contains c) ++ ops.addCores)
          groups := groups
          inter := inter
          saveRegions := sortN ((x.saveRegions.filter fun r => !ops.delSave.contains r) ++ ops.addSave) }
        let s := (s.freeRegions ops.delSave).markSave p ops.addSave
        .ok ((s.threadsOn ops.delCores).foldl (fun s t => s.evict t.1) s))

/-- RESIZE (R342, R338, R363, R387, R234): its record, and its operands. -/
def execResize (head : BitVec 64) (ops : ResizeOps) (s : State) : Host.Outcome State Fault Refusal :=
  manageHead 0x02 head s fun p => resizeFor p ops s

/-- A partition-level meter (R384): the sum over its accounts, and for ENERGY the unattributed energy. -/
def Partition.total (x : Partition) (i : Nat) : Nat :=
  min (2 ^ 64 - 1) (((x.meters.filter fun m => m.1 % 24 == i).map (·.2)).foldl (· + ·) 0 + if i = 14 then x.partEnergy else 0)

/-- A range of physical addresses lies in one package's DRAM, and its home can be reached (R231, R389). -/
def State.hasMemory (s : State) (pa n : Nat) : Bool :=
  s.routed pa && pkgOf (pa + n - 1) == pkgOf pa && decide (pkgOf pa < 1152) && decide (bitsN (pa + n - 1) 30 15 < 768)

/-- Bytes written at an address, each line by its own write (R255, R248). -/
def State.writeBytes (s : State) (pa : Nat) (b : List Byte) : State :=
  let s := (linesOf pa b.length).foldl (fun s l => (s.recall none l).unmark l) s
  { s with mem := msetN s.mem pa b }

/-- A signed snapshot of a partition's meters (R386). -/
def State.snapshotAt (s : State) (p : Nat) (x : Partition) (pa : Nat) : State :=
  let fields : List (Nat × Nat × Nat) :=
    [(0, 2, 1), (2, 2, p), (8, 8, x.snapSeq + 1), (16, 8, s.time)] ++
    (x.meters.map fun m => (0x80 + 8 * m.1, 8, m.2)) ++
    ((upTo 24).map fun i => (0x18080 + 8 * i, 8, x.total i))
  let s := (s.writeBlock pa 0x181B2 fields).writeBytes (pa + 0x18) identityKey
  let s := s.writeBytes (pa + 0x18140) (islandSign (s.physBytes pa 0x18140))
  s.setPart p { x with snapSeq := x.snapSeq + 1 }

/-- SNAPSHOT (R386, R387). -/
def snapshotFor (p : Nat) (pa : Nat) (s : State) : Host.Outcome State Fault Refusal :=
  manage s (match s.partAt p with
    | none => .error 2
    | some x => if s.hasMemory pa 0x181B2 then .ok (s.snapshotAt p x pa) else .error 1)

/-- SNAPSHOT (R386, R387): its record, and its operands. -/
def execSnapshot (head : BitVec 64) (pa : Nat) (s : State) : Host.Outcome State Fault Refusal :=
  manageHead 0x0D head s fun p => snapshotFor p pa s

/-- Everything of a partition's tasks is gone, without completion (R387, R332). -/
def State.endTasks (s : State) (p : Nat) : State :=
  let hs := (s.threads.filter fun t => t.2.part == p).map (·.1)
  let s := hs.foldl (fun (s : State) h => match s.th h with
    | some t => if t.res = .resident ∨ t.res = .placed then s.leave h .ended else s
    | none => s) s
  { s with
    threads := s.threads.filter fun t => t.2.part != p
    tasks := s.tasks.filter fun k => k.part != p
    bars := s.bars.filter fun g => g.part != p
    subs := s.subs.filter fun x => vdPart x.vdev != p
    bundles := s.bundles.filter fun b => !hs.contains b.2.h }

/-- DESTROY (R387, R384, R255): the tasks end, the final snapshot is written, the partition's memory is cleared. -/
def destroyFor (p : Nat) (dst : Nat) (s : State) : Host.Outcome State Fault Refusal :=
  manage s (match s.partAt p with
    | none => .error 2
    | some x =>
      if ¬ s.hasMemory dst 0x181B2 then .error 1
      else
        let s := s.endTasks p
        let mine := (s.regions.filter fun r => r.1 / 2 ^ 15 == s.pkg && r.2.owner == .part p).map fun r => r.1 % 2 ^ 15
        let s := (s.snapshotAt p ((s.partAt p).getD x) dst).freeRegions mine
        .ok { s with parts := tdel s.parts p, vdevs := s.vdevs.filter fun v => vdPart v.1 != p })

/-- DESTROY (R387, R384, R255): its record, and its operands. -/
def execDestroy (head : BitVec 64) (dst : Nat) (s : State) : Host.Outcome State Fault Refusal :=
  manageHead 0x03 head s fun p => destroyFor p dst s

/-- REGION (R234): an unowned region is assigned, or an owned one that is no save area is freed and cleared (R255). The die of a
die-local region must stand in its owner's interleave set: the model's reading of 'such a die' (log 71). -/
def regionFor (idx : Nat) (owner : RegionOwner) (place die : Nat) (s : State) : Host.Outcome State Fault Refusal :=
  manage s (
    if 768 ≤ idx then .error 1
    else match owner with
    | .nobody => if (tget s.regions (s.regionKey idx)).any fun r => r.place == 8 then .error 3 else .ok (s.freeRegions [idx])
    | .commons =>
      if place ≠ 4 ∨ die ≠ 0 then .error 1
      else if s.regionUsed idx then .error 3
      else .ok { s with regions := tset s.regions (s.regionKey idx) { owner := owner, place := 4, die := 0 } }
    | .part p => match s.partAt p with
      | none => .error 2
      | some x =>
        if ¬ (place ≤ 2 ∧ (if place = 2 then x.inter.contains die else die = 0)) then .error 1
        else if s.regionUsed idx then .error 3
        else .ok { s with regions := tset s.regions (s.regionKey idx) { owner := owner, place := place, die := die } })

/-- REGION (R234): its record, and its operands. -/
def execRegion (head : BitVec 64) (owner : RegionOwner) (place die : Nat) (s : State) : Host.Outcome State Fault Refusal :=
  manageHead 0x04 head s fun idx => regionFor idx owner place die s

/-- A virtual device as VDEV makes it: near-layer controls at WAYS 0xFFFF, their policies 0 (R254). -/
def VDev.reset : VDev where
  troot := none
  pool := none
  ports := List.replicate 4 Port.reset
  nlctl := (upTo 6).map fun c => (c, 0xFFFF)
  ring := none

/-- The pages of PLACE 0-2 that a table with n levels left maps, as the walk of R235 admits them: address and size. The spec does not
say which pages are the memory of a virtual device (R255): the model takes these, from its table root on (log 72). -/
def State.leaves (s : State) (p : Nat) : Nat → Nat → List (Nat × Nat)
  | 0, _ => []
  | n + 1, t =>
    if ¬ s.ownRegion p t then []
    else (upTo 512).flatMap fun i =>
      let pte := leNat (s.physBytes (t + 8 * i) 8)
      let base := bitsN pte 12 44 * 4096
      let place := bitsN pte 6 3
      if bitN pte 0 = false ∨ bitN pte 5 ∨ bitsN pte 56 8 ≠ 0 then []
      else if bitN pte 1 = false then (if bitsN pte 2 3 + 8 * bitsN pte 6 6 ≠ 0 then [] else s.leaves p n base)
      else if n = 3 ∨ base % 2 ^ (12 + 9 * n) ≠ 0 ∨ (bitN pte 3 && !bitN pte 2) ∨ 2 < place ∨ (place ≠ 2 ∧ bitsN pte 9 3 ≠ 0) ∨
        ¬ s.regionMatches p base place (bitsN pte 9 3) then []
      else [(base, 2 ^ (12 + 9 * n))]

/-- VDEV (R387): creates a virtual device, or resets one that has no live task, whose memory is cleared (R255). -/
def vdevFor (p : Nat) (idx : Nat) (s : State) : Host.Outcome State Fault Refusal :=
  let vd := p * 4 + idx
  manage s (
    if (s.partAt p).isNone then .error 2
    else if 4 ≤ idx then .error 1
    else if (s.tasks.any fun k => k.vdev == vd) ∨ (s.subs.any fun x => x.vdev == vd) then .error 3
    else
      let pages := match (s.vdevAt vd).bind (·.troot) with
        | some t => s.leaves p 4 t
        | none => []
      .ok ((pages.foldl (fun s x => s.clearRange x.1 x.2) s).setVdev vd VDev.reset))

/-- VDEV (R387): its record, and its operands. -/
def execVdev (head : BitVec 64) (idx : Nat) (s : State) : Host.Outcome State Fault Refusal :=
  manageHead 0x05 head s fun p => vdevFor p idx s

/-- A virtual device changed by a command that names it, as the answer to the command. -/
def State.withVdev (s : State) (vd : Nat) (f : VDev → Except Nat VDev) : Except Nat State :=
  match s.vdevAt vd with
  | none => .error 2
  | some v => match f v with
    | .ok w => .ok (s.setVdev vd w)
    | .error c => .error c

/-- A command on a virtual device of a partition. -/
def onVdev (s : State) (vd : Nat) (f : VDev → Except Nat VDev) : Host.Outcome State Fault Refusal :=
  manage s (if vd = mgmtVd then .error 2 else s.withVdev vd f)

/-- TROOT (R235). -/
def trootFor (vd : Nat) (root : Nat) (s : State) : Host.Outcome State Fault Refusal :=
  onVdev s vd fun v => if root % 4096 ≠ 0 ∨ 2 ^ 56 ≤ root then .error 1 else .ok { v with troot := some root }

/-- TROOT (R235): its record, and its operands. -/
def execTroot (head : BitVec 64) (root : Nat) (s : State) : Host.Outcome State Fault Refusal :=
  manageHead 0x06 head s fun vd => trootFor vd root s

/-- A command record's head (R387): 64 bytes, VERSION 1 and an OP of the table; its OP and TARGET. -/
def recordHead (b : List Byte) : Option (Nat × Nat) :=
  if b.length = 64 ∧ recN b 0 2 = 1 ∧ 1 ≤ recN b 2 1 ∧ recN b 2 1 ≤ 0x12 then some (recN b 2 1, recN b 4 4) else none

/-- A page shares an address with a range. -/
def Page.meets (g : Page) (first len : Nat) : Bool := decide (g.va < first + len) && decide (first < g.va + g.size)

/-- The translations of a virtual device for a range leave every translation cache of the package (R394). -/
def State.forgetPages (s : State) (vd first len : Nat) : State :=
  { s with xlates := s.xlates.map fun x => (x.1, x.2.filter fun y => !(y.1 == vd && y.2.meets first len)) }

/-- INVAL (R394, R239): the caches' translations of the range go, and a replay with a page of a stream there departs (R296). -/
def execInval (record : List (BitVec 8)) (s : State) : Host.Outcome State Fault Refusal :=
  let f := recN record
  let first := f 8 8
  let len := f 16 8
  manage s (match recordHead record with
    | some (7, vd) =>
      if f 3 1 ≠ 0 ∨ 80 ≤ vd ∨ first % 4096 ≠ 0 ∨ 2 ^ 48 ≤ first ∨ len % 4096 ≠ 0 ∨ len < 4096 ∨ 2 ^ 48 < first + len ∨
          f 24 40 ≠ 0 then .error 1
      else if (s.vdevAt vd).isNone then .error 2
      else .ok (s.threads.foldl (fun (s : State) (t : Nat × Thread) =>
        if t.2.vdev = vd ∧ t.2.loop.stage = .replay ∧ s.streamPage t.2 (fun g _ => g.meets first len) then s.departAt t.1 t.2.loop.d 0x20
        else s) (s.forgetPages vd first len))
    | _ => .error 1)

/-- APERTURE (R232): an entry of a partition's table is written at its window offset, in place of one there; size 0 removes it. DESIGN
CHOICE: one that overlaps another entry of the table is refused with CAUSE 3 (log 77). -/
def apertureFor (p : Nat) (off haddr size : Nat) (atomics : Bool) (s : State) : Host.Outcome State Fault Refusal :=
  manage s (match s.partAt p with
    | none => .error 2
    | some x =>
      let rest := x.apertures.filter fun a => a.off != off
      if 2 ^ 39 < off + size ∨ 2 ^ 64 < haddr + size then .error 1
      else if rest.any fun a => decide (a.off < off + size) && decide (off < a.off + a.size) then .error 3
      else .ok (s.setPart p { x with
        apertures := if size = 0 then rest else rest ++ [{ off := off, haddr := haddr, size := size, atomics := atomics }] }))

/-- APERTURE (R232): its record, and its operands. -/
def execAperture (head : BitVec 64) (off haddr size : Nat) (atomics : Bool) (s : State) : Host.Outcome State Fault Refusal :=
  manageHead 0x08 head s fun p => apertureFor p off haddr size atomics s

/-- NLCTL (R254). -/
def nlctlFor (vd : Nat) (cls : Nat) (x : BitVec 64) (s : State) : Host.Outcome State Fault Refusal :=
  onVdev s vd fun v =>
    if 6 ≤ cls ∨ fieldW x 22 42 ≠ 0 ∨ fieldW x 16 2 = 3 ∨ fieldW x 18 2 = 3 ∨ fieldW x 20 2 = 3 then .error 1
    else .ok { v with nlctl := tset v.nlctl cls x }

/-- NLCTL (R254): its record, and its operands. -/
def execNlctl (head : BitVec 64) (cls : Nat) (x : BitVec 64) (s : State) : Host.Outcome State Fault Refusal :=
  manageHead 0x09 head s fun vd => nlctlFor vd cls x s

/-- A scheduling parameter written (R301); none outside its range. -/
def Params.set (x : Params) (k : SchedParam) (v : Nat) : Option Params :=
  match k with
  | .yield => if 1000 ≤ v ∧ v ≤ 10000000 then some { x with yield := v } else none
  | .age => if 600000 ≤ v ∧ v ≤ 600000000 then some { x with age := v } else none
  | .minrun => if v ≤ 60000000 then some { x with minrun := v } else none
  | .slice => if 600000 ≤ v ∧ v ≤ 600000000 then some { x with slice := v } else none
  | .quantum a => if a < 512 ∧ 1 ≤ v ∧ v ≤ 2 ^ 40 then some { x with quantum := tset x.quantum a v } else none
  | .lage => if 6000 ≤ v ∧ v ≤ 6000000 then some { x with lage := v } else none
  | .lhold => if 60000 ≤ v ∧ v ≤ 60000000 then some { x with lhold := v } else none

/-- SCHED (R301). -/
def schedFor (p : Nat) (param : SchedParam) (x : Nat) (s : State) : Host.Outcome State Fault Refusal :=
  manage s (match s.partAt p with
    | none => .error 2
    | some q => match q.params.set param x with
      | some y => .ok (s.setPart p { q with params := y })
      | none => .error 1)

/-- SCHED (R301): its record, and its operands. -/
def execSched (head : BitVec 64) (param : SchedParam) (x : Nat) (s : State) : Host.Outcome State Fault Refusal :=
  manageHead 0x0A head s fun p => schedFor p param x s

/-- MSGRING (R391); the management virtual device has a ring too (log 42). -/
def msgringFor (vd : Nat) (base slots : Nat) (s : State) : Host.Outcome State Fault Refusal :=
  manage s (s.withVdev vd fun v => if slots = 0 ∨ 2 ^ 64 < base + 16 * slots then .error 1
    else .ok { v with ring := some { base := base, slots := slots, written := 0, lost := 0 } })

/-- MSGRING (R391): its record, and its operands. -/
def execMsgring (head : BitVec 64) (base slots : Nat) (s : State) : Host.Outcome State Fault Refusal :=
  manageHead 0x0E head s fun vd => msgringFor vd base slots s

/-- A partition's configuration as bytes, the input of the report's digest (log 12). -/
def Partition.configBytes (x : Partition) : List Byte :=
  (x.cores ++ x.groups ++ x.inter ++ x.saveRegions ++ [x.pod]).flatMap (leBytes 2)

/-- The attestation report (R390), with the firmware image's rollback number; the places of its items are the model's (log 12). -/
def State.report (s : State) (x : Partition) (nonce : List Byte) : List Byte :=
  let b := leBytes 8 1 ++ padTo 32 0 nonce ++ s.meas.flatMap (padTo 64 0) ++
    leBytes 8 (packN [(1, 0), (1, 16), (1, 24), (1, 32), (64, 40), (1, 48)]) ++ leBytes 8 Config.firmwareRollback ++
    shake256 64 x.configBytes
  b ++ islandSign b

/-- ATTEST (R390). -/
def attestFor (p : Nat) (pa : Nat) (nonce : List (BitVec 8)) (s : State) : Host.Outcome State Fault Refusal :=
  manage s (match s.partAt p with
    | none => .error 2
    | some x => if nonce.length ≠ 32 ∨ ¬ s.hasMemory pa 746 then .error 1 else .ok (s.writeBytes pa (s.report x nonce)))

/-- ATTEST (R390): its record, and its operands. -/
def execAttest (head : BitVec 64) (pa : Nat) (nonce : List (BitVec 8)) (s : State) : Host.Outcome State Fault Refusal :=
  manageHead 0x0F head s fun p => attestFor p pa nonce s

/-- CTXPOOL (R327). -/
def ctxpoolFor (vd : Nat) (base n : Nat) (s : State) : Host.Outcome State Fault Refusal :=
  onVdev s vd fun v =>
    if base % 4096 ≠ 0 ∨ 2 ^ 48 < base + n * 0x41000 ∨ 2 ^ 48 ≤ base ∨ 65536 < n then .error 1
    else if s.areasUsed vd ≠ [] then .error 3
    else .ok { v with pool := some (base, n) }

/-- CTXPOOL (R327): its record, and its operands. -/
def execCtxpool (head : BitVec 64) (base n : Nat) (s : State) : Host.Outcome State Fault Refusal :=
  manageHead 0x10 head s fun vd => ctxpoolFor vd base n s

/-- SVCLAUNCH (R228, R387): a record with SVC = 1 is read and submitted; the port stays BUSY until it is decided. -/
def svclaunchFor (vd : Nat) (va : BitVec 64) (s : State) : Host.Outcome State Fault Refusal :=
  let bytes : Except Nat (List Byte) := match s.vdevAt vd with
    | none => .error 2
    | some _ => match s.locateFor (vdPart vd) vd .load va.toNat 64 with
      | .ok (.dram pa _) => .ok (s.physBytes pa 64)
      | .ok (.host ha) => .ok (mgetN s.hostMem ha 64)
      | _ => .error 1
  match bytes with
  | .error c => manage s (.error c)
  | .ok b =>
    if ¬ bitN (recN b 2 1) 2 then manage s (.error 1)
    else managePort s { s with
      mgmt := { s.mgmt with busy := true }
      subs := s.subs ++ [{ src := .management vd, vdev := vd, core := none, bytes := b }] }

/-- SVCLAUNCH (R228, R387): its record, and its operands. -/
def execSvclaunch (head : BitVec 64) (va : BitVec 64) (s : State) : Host.Outcome State Fault Refusal :=
  manageHead 0x11 head s fun vd => svclaunchFor vd va s

/-- COMMONS (R234): home groups and an interleave set for the commons. DESIGN CHOICE: a second one adds its groups to those the commons
has, and its set takes the place of the older one (log 78). -/
def commonsFor (groups inter : List Nat) (s : State) : Host.Outcome State Fault Refusal :=
  manage s (
    let all := sortN (s.commonsGroups ++ groups)
    if ¬ (distinctBelow 512 groups ∧ interOk inter all) then .error 1
    else if groups.any s.groupUsed then .error 3
    else .ok { s with commonsGroups := all, commonsInter := inter })

/-- COMMONS (R234): its record's head with its groups, and its interleave set. -/
def execCommons (groups : BitVec 64 × List Nat) (inter : List Nat) (s : State) : Host.Outcome State Fault Refusal :=
  manageHead 0x12 groups.1 s fun _ => commonsFor groups.2 inter s

end Sys2Proof.Machine
end

