-- ==== Sys2Proof/Machine/Links.lean ====
section
/-!
DEFINITION. Events at the package's edges: a store to a FIFO bank's HEAD (R245), a write of BANKMODE (R241), the background
clearing (R255), the links (R389), error recovery (R266), bring-up (R393) and host-link accesses (R258). An event whose
condition does not hold leaves the state as it is (log 1).
-/
namespace Sys2Proof.Machine

/-- A store of 8 bytes by the current thread to HEAD of a bank: it frees ring space, or takes the protection fault (R245). -/
def State.headWrite (s : State) (bank : Nat) (x : Word) : State :=
  match s.running with
  | none => s
  | some (h, t) =>
    let va := 0xFF0000100000 + 16 * bank
    if 12 ≤ bank then s
    else match s.checkAccess t .S .store va 8 with
      | .error c => s.scalarTrap h (trapHere t c va)
      | .ok loc => match s.storeLoc h t .S t.storeMode loc (leBytes 8 x.toNat) with
        | .ok s => s
        | .hold => s.waitAt h .hold
        | .trap c => s.scalarTrap h (trapHere t c va)

/-- FIFO_HEAD_WRITE (R245). -/
def execFifoHeadWrite (bank : Nat) (x : BitVec 64) (s : State) : Host.Outcome State Fault Refusal := .next (s.headWrite bank x)

/-- BANKMODE_WRITE (R241): the current thread's write, or the illegal-instruction trap. -/
def execBankmodeWrite (x : BitVec 64) (s : State) : Host.Outcome State Fault Refusal :=
  .next (match s.running with
    | none => s
    | some (h, t) => (s.writeBankMode h t.core t.slot x).getD (s.scalarTrap h (trapHere t 1 0)))

/-- A pod generation that a lost route has kept waiting completes: its arrivals from other packages are not the model's, so with
every package reached it has them all (R389, log 27). -/
def State.completeGen (s : State) (g : BarGen) : State :=
  { g.arrived.foldl (fun s k => s.modTh k fun t => t.completed g.scope g.inst) s with bars := s.bars.filter fun x => x != g }

/-- The generations that the return of a route to a package completes: those whose missing arrivals the slots of the other
packages can have made. -/
def State.routeGens (s : State) (pkg : Nat) : List BarGen :=
  s.bars.filter fun g => g.scope == 5 && (s.podShares g.part).any (fun x => x.pkg == pkg) && (s.unreached g.part).isNone &&
    decide (g.count ≤ g.arrived.length + ((s.podShares g.part).map (·.slots)).sum)

/-- BARRIER_ROUTE_RETURN (R389). -/
def execBarrierRouteReturn (pkg : Nat) (s : State) : Host.Outcome State Fault Refusal :=
  .next (if s.podLost.contains pkg then
    let s := { s with podLost := s.podLost.filter fun k => k != pkg }
    (s.routeGens pkg).foldl State.completeGen s
  else s)

/-- BACKGROUND_CLEAR (R255): a clear-pending line is written to zero and its mark cleared. -/
def execBackgroundClear (line : Nat) (s : State) : Host.Outcome State Fault Refusal :=
  .next (if s.clearPending line then s.unmark line else s)

/-- A link port after power-on (R389): down, offering version 1 with the features version 1 defines (log 4). -/
def Link.initial (port : Nat) : Link where
  state := 0
  ver := 0
  lvers := 1
  pvers := 0
  lfeat := if port < 2 then 7 else 3
  pfeat := 0

/-- The highest version that both masks hold, 0 for none (R389). -/
def highestVersion (v : BitVec 16) : Nat := (upTo 16).foldl (fun a i => if bitN v.toNat i then i + 1 else a) 0

/-- A port that has trained against its peer's offer (R389). -/
def Link.train (l : Link) (pvers : BitVec 16) (pfeat : BitVec 32) : Link :=
  let v := highestVersion (l.lvers &&& pvers)
  { l with state := if v = 0 then 3 else 2, ver := v, pvers := pvers, pfeat := pfeat }

/-- LNKSTAT and LNKFEAT of a port as words (R389). -/
def Link.stat (l : Link) : Word := word (packN [(l.state, 0), (l.ver, 8), (l.lvers.toNat, 16), (l.pvers.toNat, 32)])
def Link.feat (l : Link) : Word := word (packN [(l.lfeat.toNat, 0), (l.pfeat.toNat, 32)])

/-- A link port. -/
def State.linkAt (s : State) (port : Nat) : Link := tgetD s.links port (Link.initial port)

/-- A port changed; there are 38 (R389). -/
def State.modLink (s : State) (port : Nat) (f : Link → Link) : State :=
  if port < 38 ∧ s.phase ≠ .off then { s with links := tset s.links port (f (s.linkAt port)) } else s

/-- Once the host link is trained the management virtual device appears, and the pod links begin to train (R393). -/
def State.mgmtAppears (s : State) : State :=
  if s.mgmtPresent ∨ s.hostPorts = [] then s
  else (s.setVdev mgmtVd { VDev.reset with ports := [] } |> fun (s : State) =>
    { s with links := s.links.map fun (l : Nat × Link) => (l.1, if 2 ≤ l.1 ∧ l.2.state = 0 then { l.2 with state := 1 } else l.2) })

/-- LINK_TRAINING (R389); a pod port trains after the management virtual device has appeared (R393). -/
def execLinkTraining (port : Nat) (pvers : BitVec 16) (pfeat : BitVec 32) (s : State) : Host.Outcome State Fault Refusal :=
  .next (if 2 ≤ port ∧ ¬ s.mgmtPresent then s else (s.modLink port fun l => l.train pvers pfeat).mgmtAppears)

/-- A recovery event (R374, R266): the time it takes lengthens what the visibility bounds limit (R360). An event on HD0 goes to CD0's
Prompter, one on HD1 to CD4's; which hub a link port stands on is not stated: a free choice (log 28). -/
def State.recovery (s : State) (die kind port cycles : Nat) : State :=
  ({ s with threads := s.threads.map fun (t : Nat × Thread) => (t.1, { t.2 with stale := t.2.stale.map (· + cycles) }) }).tap die 8 .all [kind, port, cycles, 0]

/-- The Prompter that sees a link port's recoveries. -/
def portDie (s : State) : Nat := Config.freeNat s.freeCtr % 2 * 4

/-- FLIT_RETRANSMIT (R389, R266). -/
def execFlitRetransmit (port cycles : Nat) (s : State) : Host.Outcome State Fault Refusal :=
  .next (if port < 38 then { s with freeCtr := s.freeCtr + 1 }.recovery (portDie s) 1 port cycles else s)

/-- ROUTE_LOST (R389): a port that is up is retrained, or has failed and stays down; a pod route to the package is lost with it. At a
port that is not up nothing is lost (log 1). -/
def State.routeLost (s : State) (port pkg : Nat) (retrained : Bool) : State :=
  if 38 ≤ port ∨ (s.linkAt port).state ≠ 2 then s
  else
    let cycles := Config.freeNat (s.freeCtr + 1)
    let die := portDie s
    let s := { s with
      freeCtr := s.freeCtr + 2
      podLost := if 2 ≤ port then insertN s.podLost pkg else s.podLost }
    let s := s.modLink port fun l => { l with state := if retrained then 2 else 4 }
    if retrained then s.recovery die 2 port cycles else s

/-- ROUTE_LOST (R389). -/
def execRouteLost (port pkg : Nat) (retrained : Bool) (s : State) : Host.Outcome State Fault Refusal :=
  .next (s.routeLost port pkg retrained)

/-- DRAM_READ_RETRY (R266). -/
def execDramReadRetry (die channel cycles : Nat) (s : State) : Host.Outcome State Fault Refusal :=
  .next (if die < 8 then s.recovery die 3 channel cycles else s)

/-- Bring-up (R393, R390): firmware is measured, DRAM is zero, and the host link is in training. -/
def State.bringUp (s : State) : State :=
  { s with
    phase := .up
    mem := []
    clearPend := []
    memErr := []
    meas := (upTo 8).map fun n => shake256 64 (s.meas.getD n [] ++ Config.firmwareDigest n)
    links := (upTo 38).map fun p => (p, { Link.initial p with state := if p < 2 then 1 else 0 }) }

/-- The security island accepts the firmware image (R390). -/
def State.firmwareOk (s : State) : Bool := firmwareSigned && decide (s.rollback ≤ Config.firmwareRollback)

/-- POWER_ON (R393): nothing comes up without an image that the island accepts (R390). -/
def execPowerOn (s : State) : Host.Outcome State Fault Refusal := .next (if s.phase = .off ∧ s.firmwareOk then s.bringUp else s)

/-- A host-link access to device memory counted (R253, R374, R384, R385): its bytes, its request at its home's tower, and its HOMEQ
event, whose time in the bank queue and requesting core are free. -/
def State.countHost (s : State) (p pa bytes : Nat) : State :=
  let f := Config.freeNat s.freeCtr
  let g := s.homeSlice pa / 4
  let s := { s with freeCtr := s.freeCtr + 1 }
  let s := if pkgOf pa = s.pkg then s.noteServed (s.homeDie pa) g p 0 1 else s
  (s.meter p 0 12 bytes).tapIf (f % 2 == 1 && pkgOf pa == s.pkg) (s.homeDie pa) 1 (.part p) [f / 2 % 6145, g, 5, f / 16384 % 1024]

/-- The bytes a host atomic leaves (R115): its operand, and for cas the compared value first. -/
def hostAmo (op : BitVec 4) (old : List Byte) (data : List Byte) : List Byte :=
  let n := old.length
  let o : AmoOp := match op.toNat with
    | 0 => .add | 1 => .and | 2 => .or | 3 => .xor | 4 => .min | 5 => .max | 6 => .minn | 7 => .maxn | 8 => .swp | _ => .cas
  let x := leNat (data.take n)
  leBytes n (amoNew o (8 * n) (leNat old) x (leNat ((data.drop n).take n)))

/-- A host-link access to device memory at its home, in a home of this package (R258, R215, R349, R362, R255): a read, or the
read and the write of a store or an atomic. One that is held, and one that fails a check, changes nothing. -/
def State.hostAccess (s : State) (vd : Nat) (op : HostOp) (va : Nat) (data : List Byte) : State :=
  let p := vdPart vd
  let n := match op with
    | .atomic a => if a.toNat = 9 then data.length / 2 else data.length
    | _ => data.length
  let kind : Kind := match op with | .load => .load | .store => .store | .atomic _ => .atomic | .chorusStore => .store
  match op with
  | .chorusStore =>
    if va + n ≤ 0x40000 ∧ 0 < n then
      match s.partAt p with
      | some x => s.setPart p (x.storeChorus va data)
      | none => s
    else s
  | _ =>
    if ¬ [1, 2, 4, 8, 16, 32, 64, 128].contains n ∨ (kind = .atomic ∧ n ≠ 4 ∧ n ≠ 8) then s
    else match s.locateFor p vd kind va n with
      | .ok (.dram pa place) =>
        if s.lineError pa n ∨ (s.ownerOf (pa / 128)).isSome ∨ ¬ s.routed pa then s
        else
          let r := s.recall none (pa / 128)
          match op with
          | .load => r.countHost p pa n
          | .atomic a =>
            match r.plainStore none none pa place (hostAmo a (r.physBytes pa n) data) with
            | .ok r => r.countHost p pa n
            | _ => s
          | _ =>
            match r.plainStore none none pa place data with
            | .ok r => r.countHost p pa n
            | _ => s
      | _ => s

/-- HOST_LINK_ACCESS (R258). -/
def execHostLinkAccess (vd : Nat) (op : HostOp) (addr : BitVec 64) (data : List (BitVec 8)) (s : State) : Host.Outcome State Fault Refusal :=
  .next (if s.phase = .up then s.hostAccess vd op addr.toNat data else s)

end Sys2Proof.Machine
end

