-- ==== Sys2Proof/Machine/Dispatch.lean ====
section
/-!
DEFINITION. The meaning of every instruction and event: one arm for each constructor of Instr.
-/
namespace Sys2Proof.Machine

/-- The effect of an instruction word of the current thread, or of an event of the part. -/
def exec (i : Instr) (s : State) : Host.Outcome State Fault Refusal :=
  match i with
  | .add d a b => Sys2Proof.Machine.execAdd d a b s
  | .sub d a b => Sys2Proof.Machine.execSub d a b s
  | .and d a b => Sys2Proof.Machine.execAnd d a b s
  | .or d a b => Sys2Proof.Machine.execOr d a b s
  | .xor d a b => Sys2Proof.Machine.execXor d a b s
  | .sll d a b => Sys2Proof.Machine.execSll d a b s
  | .srl d a b => Sys2Proof.Machine.execSrl d a b s
  | .sra d a b => Sys2Proof.Machine.execSra d a b s
  | .slt d a b => Sys2Proof.Machine.execSlt d a b s
  | .sltn d a b => Sys2Proof.Machine.execSltn d a b s
  | .min d a b => Sys2Proof.Machine.execMin d a b s
  | .max d a b => Sys2Proof.Machine.execMax d a b s
  | .minn d a b => Sys2Proof.Machine.execMinn d a b s
  | .maxn d a b => Sys2Proof.Machine.execMaxn d a b s
  | .sel d a b => Sys2Proof.Machine.execSel d a b s
  | .mul d a b => Sys2Proof.Machine.execMul d a b s
  | .mulh d a b => Sys2Proof.Machine.execMulh d a b s
  | .mulhn d a b => Sys2Proof.Machine.execMulhn d a b s
  | .div d a b => Sys2Proof.Machine.execDiv d a b s
  | .divn d a b => Sys2Proof.Machine.execDivn d a b s
  | .rem d a b => Sys2Proof.Machine.execRem d a b s
  | .remn d a b => Sys2Proof.Machine.execRemn d a b s
  | .clz d a => Sys2Proof.Machine.execClz d a s
  | .ctz d a => Sys2Proof.Machine.execCtz d a s
  | .popc d a => Sys2Proof.Machine.execPopc d a s
  | .addi d a y => Sys2Proof.Machine.execAddi d a y s
  | .andi d a y => Sys2Proof.Machine.execAndi d a y s
  | .ori d a y => Sys2Proof.Machine.execOri d a y s
  | .xori d a y => Sys2Proof.Machine.execXori d a y s
  | .slti d a y => Sys2Proof.Machine.execSlti d a y s
  | .slli d a n => Sys2Proof.Machine.execSlli d a n s
  | .srli d a n => Sys2Proof.Machine.execSrli d a n s
  | .srai d a n => Sys2Proof.Machine.execSrai d a n s
  | .bfx d a p l => Sys2Proof.Machine.execBfx d a p l s
  | .bfi d a p l => Sys2Proof.Machine.execBfi d a p l s
  | .lui d y => Sys2Proof.Machine.execLui d y s
  | .addpc d y => Sys2Proof.Machine.execAddpc d y s
  | .ldb d a o => Sys2Proof.Machine.execLdb d a o s
  | .ldh d a o => Sys2Proof.Machine.execLdh d a o s
  | .ldw d a o => Sys2Proof.Machine.execLdw d a o s
  | .ldd d a o => Sys2Proof.Machine.execLdd d a o s
  | .ldbz d a o => Sys2Proof.Machine.execLdbz d a o s
  | .ldhz d a o => Sys2Proof.Machine.execLdhz d a o s
  | .ldwz d a o => Sys2Proof.Machine.execLdwz d a o s
  | .stb a b o => Sys2Proof.Machine.execStb a b o s
  | .sth a b o => Sys2Proof.Machine.execSth a b o s
  | .stw a b o => Sys2Proof.Machine.execStw a b o s
  | .std a b o => Sys2Proof.Machine.execStd a b o s
  | .amoadd d a b w c r => Sys2Proof.Machine.execAmoadd d a b w c r s
  | .amoand d a b w c r => Sys2Proof.Machine.execAmoand d a b w c r s
  | .amoor d a b w c r => Sys2Proof.Machine.execAmoor d a b w c r s
  | .amoxor d a b w c r => Sys2Proof.Machine.execAmoxor d a b w c r s
  | .amomin d a b w c r => Sys2Proof.Machine.execAmomin d a b w c r s
  | .amomax d a b w c r => Sys2Proof.Machine.execAmomax d a b w c r s
  | .amominn d a b w c r => Sys2Proof.Machine.execAmominn d a b w c r s
  | .amomaxn d a b w c r => Sys2Proof.Machine.execAmomaxn d a b w c r s
  | .amoswp d a b w c r => Sys2Proof.Machine.execAmoswp d a b w c r s
  | .amocas d a b w c r => Sys2Proof.Machine.execAmocas d a b w c r s
  | .beq a b o => Sys2Proof.Machine.execBeq a b o s
  | .bne a b o => Sys2Proof.Machine.execBne a b o s
  | .blt a b o => Sys2Proof.Machine.execBlt a b o s
  | .bge a b o => Sys2Proof.Machine.execBge a b o s
  | .bltn a b o => Sys2Proof.Machine.execBltn a b o s
  | .bgen a b o => Sys2Proof.Machine.execBgen a b o s
  | .jal d o => Sys2Proof.Machine.execJal d o s
  | .jalr d a y => Sys2Proof.Machine.execJalr d a y s
  | .qpop d q => Sys2Proof.Machine.execQpop d q s
  | .qcnt d q => Sys2Proof.Machine.execQcnt d q s
  | .fenceAcq v => Sys2Proof.Machine.execFenceAcq v s
  | .fenceRel v => Sys2Proof.Machine.execFenceRel v s
  | .fenceFull v => Sys2Proof.Machine.execFenceFull v s
  | .fenceSv => Sys2Proof.Machine.execFenceSv s
  | .fenceAlias v => Sys2Proof.Machine.execFenceAlias v s
  | .bar a v => Sys2Proof.Machine.execBar a v s
  | .exit => Sys2Proof.Machine.execExit s
  | .syscall c => Sys2Proof.Machine.execSyscall c s
  | .sret => Sys2Proof.Machine.execSret s
  | .brk c => Sys2Proof.Machine.execBrk c s
  | .launch q a => Sys2Proof.Machine.execLaunch q a s
  | .sysrd d n => Sys2Proof.Machine.execSysrd d n s
  | .syswr a n => Sys2Proof.Machine.execSyswr a n s
  | .pfh h a o => Sys2Proof.Machine.execPfh h a o s
  | .setvl d a => Sys2Proof.Machine.execSetvl d a s
  | .setcfg d a => Sys2Proof.Machine.execSetcfg d a s
  | .setvli d l => Sys2Proof.Machine.execSetvli d l s
  | .vld d a k => Sys2Proof.Machine.execVld d a k s
  | .vlds d a b k => Sys2Proof.Machine.execVlds d a b k s
  | .vldx d a b k => Sys2Proof.Machine.execVldx d a b k s
  | .vldxo d a b k => Sys2Proof.Machine.execVldxo d a b k s
  | .vldff d a f k => Sys2Proof.Machine.execVldff d a f k s
  | .vldw d a => Sys2Proof.Machine.execVldw d a s
  | .vst d a k => Sys2Proof.Machine.execVst d a k s
  | .vsts d a b k => Sys2Proof.Machine.execVsts d a b k s
  | .vstx d a b k => Sys2Proof.Machine.execVstx d a b k s
  | .vstxo d a b k => Sys2Proof.Machine.execVstxo d a b k s
  | .vstw d a => Sys2Proof.Machine.execVstw d a s
  | .vamoAdd d a b k => Sys2Proof.Machine.execVamoAdd d a b k s
  | .vamoAnd d a b k => Sys2Proof.Machine.execVamoAnd d a b k s
  | .vamoOr d a b k => Sys2Proof.Machine.execVamoOr d a b k s
  | .vamoXor d a b k => Sys2Proof.Machine.execVamoXor d a b k s
  | .vamoMin d a b k => Sys2Proof.Machine.execVamoMin d a b k s
  | .vamoMax d a b k => Sys2Proof.Machine.execVamoMax d a b k s
  | .vamoMinn d a b k => Sys2Proof.Machine.execVamoMinn d a b k s
  | .vamoMaxn d a b k => Sys2Proof.Machine.execVamoMaxn d a b k s
  | .vamoSwp d a b k => Sys2Proof.Machine.execVamoSwp d a b k s
  | .kand d a b => Sys2Proof.Machine.execKand d a b s
  | .kor d a b => Sys2Proof.Machine.execKor d a b s
  | .kxor d a b => Sys2Proof.Machine.execKxor d a b s
  | .kandn d a b => Sys2Proof.Machine.execKandn d a b s
  | .knot d a => Sys2Proof.Machine.execKnot d a s
  | .kmv d a => Sys2Proof.Machine.execKmv d a s
  | .ksbf d a k => Sys2Proof.Machine.execKsbf d a k s
  | .ksif d a k => Sys2Proof.Machine.execKsif d a k s
  | .ksof d a k => Sys2Proof.Machine.execKsof d a k s
  | .kpop q a k => Sys2Proof.Machine.execKpop q a k s
  | .kfirst q a k => Sys2Proof.Machine.execKfirst q a k s
  | .kld d a => Sys2Proof.Machine.execKld d a s
  | .kst d a => Sys2Proof.Machine.execKst d a s
  | .vredsum d f y b k => Sys2Proof.Machine.execVredsum d f y b k s
  | .vfredsum d f y b k => Sys2Proof.Machine.execVfredsum d f y b k s
  | .vredmin d f y b k => Sys2Proof.Machine.execVredmin d f y b k s
  | .vredmax d f y b k => Sys2Proof.Machine.execVredmax d f y b k s
  | .vfredmin d f y b k => Sys2Proof.Machine.execVfredmin d f y b k s
  | .vfredmax d f y b k => Sys2Proof.Machine.execVfredmax d f y b k s
  | .vargmax d f y b k => Sys2Proof.Machine.execVargmax d f y b k s
  | .vargmin d f y b k => Sys2Proof.Machine.execVargmin d f y b k s
  | .vgsum d f b k => Sys2Proof.Machine.execVgsum d f b k s
  | .vfgsum d f b k => Sys2Proof.Machine.execVfgsum d f b k s
  | .vscan d f y b k => Sys2Proof.Machine.execVscan d f y b k s
  | .vfscan d f y b k => Sys2Proof.Machine.execVfscan d f y b k s
  | .vcomp d b k => Sys2Proof.Machine.execVcomp d b k s
  | .vexpand d b k => Sys2Proof.Machine.execVexpand d b k s
  | .vslup d a b k => Sys2Proof.Machine.execVslup d a b k s
  | .vsldn d a b k => Sys2Proof.Machine.execVsldn d a b k s
  | .vsl1up d a b k => Sys2Proof.Machine.execVsl1up d a b k s
  | .vsl1dn d a b k => Sys2Proof.Machine.execVsl1dn d a b k s
  | .vgath d a b k => Sys2Proof.Machine.execVgath d a b k s
  | .vbsll d a b => Sys2Proof.Machine.execVbsll d a b s
  | .vbsrl d a b => Sys2Proof.Machine.execVbsrl d a b s
  | .vbfsh d a b => Sys2Proof.Machine.execVbfsh d a b s
  | .vxbeg => Sys2Proof.Machine.execVxbeg s
  | .vexit c a b k f => Sys2Proof.Machine.execVexit c a b k f s
  | .vopa z a b f => Sys2Proof.Machine.execVopa z a b f s
  | .vops z a b f => Sys2Proof.Machine.execVops z a b f s
  | .zclr z => Sys2Proof.Machine.execZclr z s
  | .zld z a b => Sys2Proof.Machine.execZld z a b s
  | .zst z a b => Sys2Proof.Machine.execZst z a b s
  | .zrdv z d b f => Sys2Proof.Machine.execZrdv z d b f s
  | .zwrv z a b f => Sys2Proof.Machine.execZwrv z a b f s
  | .vhad d a k f => Sys2Proof.Machine.execVhad d a k f s
  | .vhadC a k f => Sys2Proof.Machine.execVhadC a k f s
  | .vcvtq d a b q => Sys2Proof.Machine.execVcvtq d a b q s
  | .vcvtqC d b q => Sys2Proof.Machine.execVcvtqC d b q s
  | .vrand d a b k => Sys2Proof.Machine.execVrand d a b k s
  | .vsend d b k => Sys2Proof.Machine.execVsend d b k s
  | .vwait a v b k q => Sys2Proof.Machine.execVwait a v b k q s
  | .vchorSum d a b f => Sys2Proof.Machine.execVchorSum d a b f s
  | .vchorMin d a b f => Sys2Proof.Machine.execVchorMin d a b f s
  | .vchorMax d a b f => Sys2Proof.Machine.execVchorMax d a b f s
  | .vchorArgmax d a b f => Sys2Proof.Machine.execVchorArgmax d a b f s
  | .vchorArgmin d a b f => Sys2Proof.Machine.execVchorArgmin d a b f s
  | .vchorAnd d a b f => Sys2Proof.Machine.execVchorAnd d a b f s
  | .vchorOr d a b f => Sys2Proof.Machine.execVchorOr d a b f s
  | .vchorXor d a b f => Sys2Proof.Machine.execVchorXor d a b f s
  | .vclaim d a b => Sys2Proof.Machine.execVclaim d a b s
  | .rclaim d a => Sys2Proof.Machine.execRclaim d a s
  | .rfree d a => Sys2Proof.Machine.execRfree d a s
  | .cpdim c a b n => Sys2Proof.Machine.execCpdim c a b n s
  | .cpgo a b n => Sys2Proof.Machine.execCpgo a b n s
  | .cpstat q => Sys2Proof.Machine.execCpstat q s
  | .bopen n => Sys2Proof.Machine.execBopen n s
  | .bseal q => Sys2Proof.Machine.execBseal q s
  | .babort => Sys2Proof.Machine.execBabort s
  | .pwlease c => Sys2Proof.Machine.execPwlease c s
  | .pwdrop c => Sys2Proof.Machine.execPwdrop c s
  | .lend => Sys2Proof.Machine.execLend s
  | .lmark t y f l p => Sys2Proof.Machine.execLmark t y f l p s
  | .oshape q a => Sys2Proof.Machine.execOshape q a s
  | .oseal a => Sys2Proof.Machine.execOseal a s
  | .ounseal q a b => Sys2Proof.Machine.execOunseal q a b s
  | .orel a => Sys2Proof.Machine.execOrel a s
  | .vmv d a k => Sys2Proof.Machine.execVmv d a k s
  | .vbcast d b k => Sys2Proof.Machine.execVbcast d b k s
  | .vext q a b => Sys2Proof.Machine.execVext q a b s
  | .vins d a b => Sys2Proof.Machine.execVins d a b s
  | .vid d k => Sys2Proof.Machine.execVid d k s
  | .viota d a k => Sys2Proof.Machine.execViota d a k s
  | .vrelease d => Sys2Proof.Machine.execVrelease d s
  | .vsel d a b k => Sys2Proof.Machine.execVsel d a b k s
  | .vadd d a b k f x => Sys2Proof.Machine.execVadd d a b k f x s
  | .vsub d a b k f x => Sys2Proof.Machine.execVsub d a b k f x s
  | .vmul d a b k f x => Sys2Proof.Machine.execVmul d a b k f x s
  | .vmulh d a b k f x => Sys2Proof.Machine.execVmulh d a b k f x s
  | .vdiv d a b k f x => Sys2Proof.Machine.execVdiv d a b k f x s
  | .vrem d a b k f x => Sys2Proof.Machine.execVrem d a b k f x s
  | .vmin d a b k f x => Sys2Proof.Machine.execVmin d a b k f x s
  | .vmax d a b k f x => Sys2Proof.Machine.execVmax d a b k f x s
  | .vand d a b k f x => Sys2Proof.Machine.execVand d a b k f x s
  | .vor d a b k f x => Sys2Proof.Machine.execVor d a b k f x s
  | .vxor d a b k f x => Sys2Proof.Machine.execVxor d a b k f x s
  | .vsll d a b k f x => Sys2Proof.Machine.execVsll d a b k f x s
  | .vsrl d a b k f x => Sys2Proof.Machine.execVsrl d a b k f x s
  | .vsra d a b k f x => Sys2Proof.Machine.execVsra d a b k f x s
  | .vsadd d a b k f x => Sys2Proof.Machine.execVsadd d a b k f x s
  | .vssub d a b k f x => Sys2Proof.Machine.execVssub d a b k f x s
  | .vabsd d a b k f x => Sys2Proof.Machine.execVabsd d a b k f x s
  | .vcmp d c a b k f x => Sys2Proof.Machine.execVcmp d c a b k f x s
  | .vcvt d a k f => Sys2Proof.Machine.execVcvt d a k f s
  | .vfadd d a b k f x => Sys2Proof.Machine.execVfadd d a b k f x s
  | .vfsub d a b k f x => Sys2Proof.Machine.execVfsub d a b k f x s
  | .vfmul d a b k f x => Sys2Proof.Machine.execVfmul d a b k f x s
  | .vfma d a b k f x => Sys2Proof.Machine.execVfma d a b k f x s
  | .vfnma d a b k f x => Sys2Proof.Machine.execVfnma d a b k f x s
  | .vfms d a b k f x => Sys2Proof.Machine.execVfms d a b k f x s
  | .vfdiv d a b k f x => Sys2Proof.Machine.execVfdiv d a b k f x s
  | .vfsqrt d a k f => Sys2Proof.Machine.execVfsqrt d a k f s
  | .vfrsqrt d a k f => Sys2Proof.Machine.execVfrsqrt d a k f s
  | .vfexp2 d a k f => Sys2Proof.Machine.execVfexp2 d a k f s
  | .vflog2 d a k f => Sys2Proof.Machine.execVflog2 d a k f s
  | .vfexp d a k f => Sys2Proof.Machine.execVfexp d a k f s
  | .vfmin d a b k f x => Sys2Proof.Machine.execVfmin d a b k f x s
  | .vfmax d a b k f x => Sys2Proof.Machine.execVfmax d a b k f x s
  | .vfsgn d a b k f => Sys2Proof.Machine.execVfsgn d a b k f s
  | .vfcls d a k f => Sys2Proof.Machine.execVfcls d a k f s
  | .vfcmp d c a b k f x => Sys2Proof.Machine.execVfcmp d c a b k f x s
  | .pfx p m e r o u => Sys2Proof.Machine.execPfx p m e r o u s
  | .cp g h => Sys2Proof.Machine.execCp g h s
  | .vbind d a => Sys2Proof.Machine.execVbind d a s
  | .vunbind d => Sys2Proof.Machine.execVunbind d s
  | .vectorCommit h => Sys2Proof.Machine.execVectorCommit h s
  | .retirementPush h => Sys2Proof.Machine.execRetirementPush h s
  | .waitPointRelease h => Sys2Proof.Machine.execWaitPointRelease h s
  | .barrierRouteReturn pkg => Sys2Proof.Machine.execBarrierRouteReturn pkg s
  | .vwaitTimeout h => Sys2Proof.Machine.execVwaitTimeout h s
  | .ounsealTimeout h => Sys2Proof.Machine.execOunsealTimeout h s
  | .copyCommand h => Sys2Proof.Machine.execCopyCommand h s
  | .copyCommandRetire h => Sys2Proof.Machine.execCopyCommandRetire h s
  | .vsendArrival core => Sys2Proof.Machine.execVsendArrival core s
  | .fifoHeadWrite bank x => Sys2Proof.Machine.execFifoHeadWrite bank x s
  | .bankmodeWrite x => Sys2Proof.Machine.execBankmodeWrite x s
  | .loopConfirmation h => Sys2Proof.Machine.execLoopConfirmation h s
  | .replayComplete h => Sys2Proof.Machine.execReplayComplete h s
  | .departure h j cause => Sys2Proof.Machine.execDeparture h j cause s
  | .handBack h => Sys2Proof.Machine.execHandBack h s
  | .bundleCommit b => Sys2Proof.Machine.execBundleCommit b s
  | .bundleFlip b line => Sys2Proof.Machine.execBundleFlip b line s
  | .serialRetire b => Sys2Proof.Machine.execSerialRetire b s
  | .bundleBudgetExpiry b => Sys2Proof.Machine.execBundleBudgetExpiry b s
  | .staleClear h => Sys2Proof.Machine.execStaleClear h s
  | .trap cause code addr elem => Sys2Proof.Machine.execTrap cause code addr elem s
  | .dirtyLineError core line => Sys2Proof.Machine.execDirtyLineError core line s
  | .threadPlacement p core => Sys2Proof.Machine.execThreadPlacement p core s
  | .octetPass core oct => Sys2Proof.Machine.execOctetPass core oct s
  | .yieldWindowExpiry core oct => Sys2Proof.Machine.execYieldWindowExpiry core oct s
  | .levelAgeing p core => Sys2Proof.Machine.execLevelAgeing p core s
  | .slicePreemption p core => Sys2Proof.Machine.execSlicePreemption p core s
  | .migrationSave h => Sys2Proof.Machine.execMigrationSave h s
  | .save h => Sys2Proof.Machine.execSave h s
  | .resumption h => Sys2Proof.Machine.execResumption h s
  | .taskCompletion p task => Sys2Proof.Machine.execTaskCompletion p task s
  | .launchPortRecord vd port off data => Sys2Proof.Machine.execLaunchPortRecord vd port off data s
  | .launchAccept n => Sys2Proof.Machine.execLaunchAccept n s
  | .leaseGrant die => Sys2Proof.Machine.execLeaseGrant die s
  | .leaseRevoke die => Sys2Proof.Machine.execLeaseRevoke die s
  | .leaseLapse h cls => Sys2Proof.Machine.execLeaseLapse h cls s
  | .cueRun die part => Sys2Proof.Machine.execCueRun die part s
  | .cueTimer die slot => Sys2Proof.Machine.execCueTimer die slot s
  | .thermalSample die t16 power => Sys2Proof.Machine.execThermalSample die t16 power s
  | .budgetWindow die => Sys2Proof.Machine.execBudgetWindow die s
  | .energyInterval die uj => Sys2Proof.Machine.execEnergyInterval die uj s
  | .backgroundClear line => Sys2Proof.Machine.execBackgroundClear line s
  | .linkTraining port pvers pfeat => Sys2Proof.Machine.execLinkTraining port pvers pfeat s
  | .flitRetransmit port cycles => Sys2Proof.Machine.execFlitRetransmit port cycles s
  | .softError die kind loc owner => Sys2Proof.Machine.execSoftError die kind loc owner s
  | .thermalShutdown die t16 => Sys2Proof.Machine.execThermalShutdown die t16 s
  | .powerOn => Sys2Proof.Machine.execPowerOn s
  | .mgmtRegisterWrite vd die off x => Sys2Proof.Machine.execMgmtRegisterWrite vd die off x s
  | .create p ops => Sys2Proof.Machine.execCreate p ops s
  | .resize p ops => Sys2Proof.Machine.execResize p ops s
  | .destroy p dst => Sys2Proof.Machine.execDestroy p dst s
  | .region idx owner place die => Sys2Proof.Machine.execRegion idx owner place die s
  | .vdev p idx => Sys2Proof.Machine.execVdev p idx s
  | .troot vd root => Sys2Proof.Machine.execTroot vd root s
  | .inval record => Sys2Proof.Machine.execInval record s
  | .aperture part off haddr size atomics => Sys2Proof.Machine.execAperture part off haddr size atomics s
  | .nlctl vd cls x => Sys2Proof.Machine.execNlctl vd cls x s
  | .sched p param x => Sys2Proof.Machine.execSched p param x s
  | .loadcue p die pa => Sys2Proof.Machine.execLoadcue p die pa s
  | .budget p die x => Sys2Proof.Machine.execBudget p die x s
  | .snapshot p pa => Sys2Proof.Machine.execSnapshot p pa s
  | .msgring vd base slots => Sys2Proof.Machine.execMsgring vd base slots s
  | .attest p pa nonce => Sys2Proof.Machine.execAttest p pa nonce s
  | .ctxpool vd base n => Sys2Proof.Machine.execCtxpool vd base n s
  | .svclaunch vd va => Sys2Proof.Machine.execSvclaunch vd va s
  | .commons groups inter => Sys2Proof.Machine.execCommons groups inter s
  | .hostLinkAccess vd op addr data => Sys2Proof.Machine.execHostLinkAccess vd op addr data s
  | .routeLost port pkg retrained => Sys2Proof.Machine.execRouteLost port pkg retrained s
  | .dramReadRetry die channel cycles => Sys2Proof.Machine.execDramReadRetry die channel cycles s
  | .leaseAgeing die => Sys2Proof.Machine.execLeaseAgeing die s

end Sys2Proof.Machine
end

