-- ==== Sys2Proof/Machine/Run.lean ====
section
/-!
DEFINITION. What a step of the package is: who moves (log 1), the fetch and the scalar stream's turn (R16, R105, R120), the vector
and copy engines' turns, the internal events, and the passing of time (R305, R321). Machine/Step.lean calls these.
-/
namespace Sys2Proof.Machine

/-- A trap of a word that was not decoded, whether it was read or not: a departure or a vector-side trap that waits comes first (R293,
R297); then the marking's view of the word (R289). -/
def State.wordTrap (s : State) (h : Nat) (t : Thread) (fetched : Bool) (r : TrapReq) : State :=
  if (t.loop.depart.isSome ∧ ¬ t.handler) ∨ t.loop.vtrap then s.waitAt h .replay else (s.loopTrap h none fetched).scalarTrap h r

/-- A word of R85: the illegal-instruction trap at its address, or at its prefix's, whose features are then lost (R89). -/
def State.badWord (s : State) (h : Nat) (t : Thread) : State := s.wordTrap h t true (illegalAt t (pairAt t))

/-- The scalar stream's turn of the current thread: its wait point is left once its condition holds, or its next word is
fetched, decoded and executed or dispatched. -/
def State.scalarTurn (s : State) : Host.Outcome State Fault Refusal :=
  match s.running with
  | none => .next s
  | some (h, t) =>
    match t.wait with
    | some w => if s.waitOver h t w then exec (.waitPointRelease h) s else .next s
    | none =>
      match s.fetchWord h t with
      | .trap c => .next (s.wordTrap h t false (trapHere t c t.pc.toNat))
      | .hold => .next (s.waitAt h .hold)
      | .ok (s, w) =>
        match decode w with
        | some i => exec i s
        | none => .next (s.badWord h t)

/-- The vector engines' turn of the current thread: a token that can enter its FIFO, or else the next commit. -/
def State.vectorTurn (s : State) : Host.Outcome State Fault Refusal :=
  match s.running with
  | none => .next s
  | some (h, t) => if (nextPush (s.pushReady h t) t.retq).isSome then exec (.retirementPush h) s else exec (.vectorCommit h) s

/-- The copy engine's turn of the current thread. -/
def State.copyTurn (s : State) : Host.Outcome State Fault Refusal :=
  match s.running with
  | none => .next s
  | some (h, t) => if t.crun.isSome then exec (.copyCommandRetire h) s else exec (.copyCommand h) s

/-- What an event does: the meaning exec gives its constructor. -/
abbrev Move := State → Host.Outcome State Fault Refusal

/-- The events of one thread that come of themselves; the copy engine of a thread that has ended goes on (R332). -/
def threadMoves (h : Nat) : List Move :=
  [execResumption h, execLoopConfirmation h, execReplayComplete h, execHandBack h, execVwaitTimeout h, execOunsealTimeout h,
   execCopyCommand h, execCopyCommandRetire h, execStaleClear h, execMigrationSave h, execLeaseLapse h 0, execLeaseLapse h 1, execLeaseLapse h 2,
   fun s => .next (s.greenRoom h)]

/-- The events of one core of a partition that come of themselves. -/
def coreMoves (p core : Nat) : List Move :=
  (upTo 8).flatMap (fun o => [execOctetPass core o, execYieldWindowExpiry core o]) ++
  [execVsendArrival core, execThreadPlacement p core, execLevelAgeing p core, execSlicePreemption p core]

/-- The events of one die that come of themselves; a budget window ends when its time is over (R383). -/
def State.dieMoves (s : State) (die : Nat) : List Move :=
  let d := s.dieAt die
  [execLeaseAgeing die, execLeaseGrant die, execLeaseRevoke die] ++ d.nextQueue.toList.map (execCueRun die) ++
  d.slots.map (fun c => execCueTimer die c.1) ++ (if d.windowAt + 600000 ≤ s.time then [execBudgetWindow die] else [])

/-- The events of one bundle that come of themselves. -/
def bundleMoves (b : Nat) (bu : Bundle) : List Move :=
  [execBundleCommit b] ++ bu.lines.map (fun l => execBundleFlip b l.line) ++ [execSerialRetire b, execBundleBudgetExpiry b]

/-- Every event that may come of itself now. -/
def State.moves (s : State) : List Move :=
  (if s.subs.isEmpty then [] else [execLaunchAccept 0]) ++ s.threads.flatMap (fun x => threadMoves x.1) ++
  s.parts.flatMap (fun p => p.2.cores.flatMap (coreMoves p.1)) ++ s.dies.flatMap (fun d => s.dieMoves d.1) ++
  s.bundles.flatMap (fun b => bundleMoves b.1 b.2) ++ s.tasks.map (fun k => execTaskCompletion k.part k.num) ++
  (s.clearPend.take 1).map (fun r => execBackgroundClear r.1)

/-- A list turned so that each of its members comes first in turn. -/
def turned {α : Type} (k : Nat) (l : List α) : List α := l.drop (k % l.length) ++ l.take (k % l.length)

/-- What an event does now, when it does something. -/
def State.tryMove (s : State) (e : Move) : Option State :=
  match e s with
  | .next s' => if { s' with freeCtr := s.freeCtr } = s then none else some s'
  | _ => none

/-- The next resident thread's scalar stream moves next. -/
def State.nextCur (s : State) : State :=
  let l := (s.threads.filter fun x => x.2.res == .resident).map (·.1)
  { s with cur := ((l.find? fun h => decide (s.cur < h)).orElse fun _ => l.head?).getD s.cur }

/-- The devices' turn: one event that may come now. -/
def State.deviceTurn (s : State) : Host.Outcome State Fault Refusal :=
  .next ((((turned s.time s.moves).findSome? s.tryMove).getD s).nextCur)

/-- The lane-cycles of one resident thread over n cycles (R305). -/
def State.laneCycles (s : State) (t : Thread) (n : Nat) : Nat :=
  let c := s.coreAt t.core
  8 * n * ((c.octets t.slot).length + (c.drains.filter fun d => d.victim == t.slot).length)

/-- n cycles pass for one thread: its lane-cycles are charged (R305, R306, R384) and its stall for a lease is counted (R321). -/
def State.chargeThread (n : Nat) (s : State) (x : Nat × Thread) : State :=
  let t := x.2
  if t.res ≠ .resident then s
  else
    let k := s.laneCycles t n
    let a := s.accountOf t
    let s := s.meter t.part a 0 k
    let s := s.modTask t.part t.task fun y => { y with lanecyc := y.lanecyc + k }
    let s := match s.partAt t.part with
      | some p => s.setPart t.part { p with deficit := tset p.deficit a (wrap64 (tgetD p.deficit a 0 - k)) }
      | none => s
    match t.wait with
    | some (.lease _) => s.modTh x.1 fun t => { t with stall := BitVec.ofNat 32 (min (t.stall.toNat + n) (2 ^ 32 - 1)) }
    | _ => s

/-- A step has ended: its cycles pass (log 1). -/
def State.pass (s : State) : State :=
  let n := s.ticks.headD 1
  s.threads.foldl (State.chargeThread n) { s with time := s.time + n, ticks := s.ticks.drop 1 }

/-- Time passes after what a step did. -/
def passed : Host.Outcome State Fault Refusal → Host.Outcome State Fault Refusal
  | .next s => .next s.pass
  | o => o

/-- The instruction is an event of the part, not a word of a thread. -/
def Instr.isEvent (i : Instr) : Bool := (encodeNat i).isNone

/-- Whose turn it is when no event is on the agenda. -/
def State.turnStep (s : State) : Host.Outcome State Fault Refusal :=
  match s.turn with
  | .scalar => ({ s with turn := .vector } : State).scalarTurn
  | .vector => ({ s with turn := .copy } : State).vectorTurn
  | .copy => ({ s with turn := .device } : State).copyTurn
  | .device => ({ s with turn := .scalar } : State).deviceTurn

/-- What a step does: bring-up after power-on (R393), nothing after a shutdown (R392), the event at the head of the agenda, or
the agent whose turn it is. -/
def State.move (s : State) : Host.Outcome State Fault Refusal :=
  match s.phase with
  | .off => exec .powerOn s
  | .shutdown => .next s
  | .up =>
    match s.agenda with
    | e :: r => if Instr.isEvent e then exec e { s with agenda := r } else .next { s with agenda := r }
    | [] => s.turnStep

/-- The place in DRAM from which the current thread's next step fetches its word; none when it fetches none. -/
def State.fetchAt (s : State) : Option Nat :=
  match s.running with
  | none => none
  | some (_, t) =>
    match s.checkAccess t .S .fetch t.pc.toNat 4 with
    | .ok (.dram pa _) => some pa
    | _ => none

/-- Nothing comes before the current thread's next word: no event on the agenda, no other agent's turn, no wait point. -/
def State.readied (s : State) : State :=
  ({ s with phase := .up, agenda := [], turn := .scalar } : State).modTh s.cur fun t => t.setWait none

/-- A loaded program's surroundings (log 43): partition 0 with core 0, its home groups and DRAM region 0, one virtual device whose
page table maps the region's 1 GiB at virtual address 0 and whose context pool has one area, and a task with one thread resident on core 0 at pc 0x10000. -/
def State.loaded (s : State) (svc : Bool) : State :=
  let base := s.pkg * 2 ^ 45
  let p := s.newPartition { cores := [0], groups := upTo 64, inter := [0], saveRegions := [], pod := 0 }
  let t := newThread 0 0 0 0 0x10000 0x100000 [] 0x200000 svc s.time
  { s with
    mem := msetN (msetN s.mem (base + 0x1000) (leBytes 8 (base + 0x2001))) (base + 0x2000) (leBytes 8 (base + 0x1F))
    regions := tset s.regions (s.regionKey 0) { owner := .part 0, place := 0, die := 0 }
    parts := tset s.parts 0 { p with nextTask := 1 }
    vdevs := tset s.vdevs 0 { VDev.reset with troot := some (base + 0x1000), pool := some (0x200000, 1) }
    tasks := { part := 0, num := 0, vdev := 0, place := 0, inst := 0, threads := 1, entry := 0x10000, lanes := 8, prio := 0, account := 0, done := 0, hostmsg := false, cue := false, cueslot := 0, svc := svc, retired := 0, ended := 0, firstTid := none, start := s.time, finish := 0, lanecyc := 0, order := 0 } ::
      s.tasks.filter fun k => k.part != 0 || k.num != 0
    threads := tset s.threads 0 { t with res := .resident, residentAt := s.time }
    cores := tset s.cores 0 { Core.idle with own := 0x5555 }
    cur := 0
    nextH := max 1 s.nextH }

end Sys2Proof.Machine
end

