-- ==== Sys2Proof/Machine/Step.lean ====
section
/-!
DEFINITION. One step of the package, and a state whose next step runs a given word.
-/
namespace Sys2Proof.Machine

/-- One step: bring-up, the event at the head of the agenda, or the agent whose turn it is; then its time passes (log 1). -/
def step (s : State) : Host.Outcome State Fault Refusal := passed s.move

/-- The state with a word stored where its next step fetches; without a thread that fetches, after the load that log 43 gives. -/
def State.withFetchWord (s : State) (nbits w : Nat) : State :=
  let r := s.readied
  let r := if r.fetchAt.isSome then r else s.readied.loaded ((decodeTableWord nbits w).any Instr.serviceOnly)
  match r.fetchAt with
  | some pa => r.writePhys pa (wordBytes (BitVec.ofNat 32 w))
  | none => r

end Sys2Proof.Machine
end

