-- ==== Sys2Proof/Safety.lean ====
section
/-!
DEFINITION. What a sound state is (the canonical form of every byte store), a safe run, a thread that nothing stands before, and
what its registers hold, byte by byte.
-/
namespace Sys2Proof.Machine

/-- Every vector register is one of the 8 from the first of its group on, or has been released (R145, R161; the model's own layout,
log 9). -/
def Thread.spanOk (t : Thread) : Bool :=
  (t.vspan.map (·.1)).all fun r => t.vbase r == 64 || (decide (t.vbase r ≤ r) && decide (r < t.vbase r + 8))

/-- The byte stores of a thread are in canonical form (R144, R164, R189), and its vector registers' layout is sound. -/
def Thread.storesOk (t : Thread) : Bool := t.vregs.wf && t.masks.wf && t.tiles.wf && t.ch.wf && t.spanOk

/-- Keys in strictly rising order. -/
def keysRise : List Nat → Bool
  | a :: b :: r => decide (a < b) && keysRise (b :: r)
  | _ => true

/-- A thread's number stands once in the table of threads, in rising order (the model's own bookkeeping). -/
def State.threadsOk (s : State) : Bool := keysRise (s.threads.map (·.1))

/-- Every byte store of the package is in canonical form, and every thread has one number. -/
def State.storesOk (s : State) : Bool :=
  s.threadsOk && s.mem.wf && s.hostMem.wf && s.threads.all (fun x => x.2.storesOk) && s.cores.all (fun x => x.2.banks.wf) &&
  s.parts.all fun x => x.2.chorus.wf

/-- No step stops: the machine answers a next state (R12, R325: a trap is a step, not a stop). -/
def Goes (s : State) : Prop := ∃ t, step s = .next t

/-- The machine goes on for n steps. -/
def GoesFor : Nat → State → Prop
  | 0, _ => True
  | n + 1, s => ∃ t, step s = .next t ∧ GoesFor n t

/-- Thread h is the current one and runs, and nothing stands before its next word: no wait point (R18), no prefix pending
(R92), no loop marking (R287), no exit region (R177), no open bundle (R219) and no half-made chain (R195). -/
structure Ready (s : State) (h : Nat) (t : Thread) : Prop where
  cur : s.cur = h
  th : s.th h = some t
  res : t.res = .resident
  wait : t.wait = none
  pend : t.pend = none
  closed : t.loop.open_ = false
  stage : t.loop.stage = .none
  depart : t.loop.depart = none
  vtrap : t.loop.vtrap = false
  region : t.regionOpen = false
  bundle : t.bopen = false
  chain : t.chPend = false

/-- Entry e of word i is the oldest in the queue of resident thread h, and nothing holds it there: no trap waits for a replay (R293), no
token is to be pushed first (R91), it stands in no exit region (R177), its strip is legal (R28), no group is bound (R227), it waits for
no lease (R226, R229); of the features it may have P alone (R89); no line of the thread's green-room overflow is in error (R334). -/
structure AtVcp (s : State) (h : Nat) (t : Thread) (e : QEntry) (r : List QEntry) (i : Instr) : Prop where
  th : s.th h = some t
  res : t.res = .resident
  vtrap : t.loop.vtrap = false
  queue : t.queue = e :: r
  word : decode e.word = some i
  failed : e.failed = false
  vill : e.vill = false
  region : e.region = false
  copy : featD e.feat = false
  pop : featPop e.feat = 0
  push : featPush e.feat = 0
  retq : t.retq = []
  binds : t.binds = []
  lease : t.awaitsLease e = none
  swap : s.overflowErrors t = []

/-- Byte q of vector register r, for registers of len bytes (R144). -/
def Thread.regByte (t : Thread) (len r q : Nat) : Byte :=
  if t.vbase r = 64 then 0 else mget t.vregs (t.vbase r * 16384 + (r - t.vbase r) * len + q)

/-- Byte p of the bit string of the register group from a register, for registers of len bytes (R144). -/
def Thread.groupByte (t : Thread) (len reg p : Nat) : Byte := t.regByte len (reg + p / len) (p % len)

/-- Element k of w bytes of a register group, as a number (R144, R5). -/
def Thread.elemAt (t : Thread) (len reg w k : Nat) : Nat :=
  leNat ((List.range w).map fun j => t.groupByte len reg (k * w + j))

/-- Bit k of a mask register; k0 reads as all ones (R6). -/
def Thread.maskAt (t : Thread) (n k : Nat) : Bool := n = 0 || (mget t.masks (n * 2048 + k / 8)).getLsbD (k % 8)

/-- Cell c, row by row, of a tile (R189). -/
def Thread.cellAt (t : Thread) (z c : Nat) : Nat := leNat ((List.range 4).map fun j => mget t.tiles (z * 16384 + 4 * c + j))

/-- Element k of w bytes of the chain buffer (R195). -/
def Thread.chainAt (t : Thread) (w k : Nat) : Nat := leNat ((List.range w).map fun j => mget t.ch (k * w + j))

/-- The bytes of the table entries that a walk with n levels left reads from table t (R235). -/
def State.walkReads (s : State) (va : Nat) : Nat → Nat → List Nat
  | 0, _ => []
  | n + 1, t =>
    let a := t + 8 * bitsN va (39 - 9 * (3 - n)) 9
    let pte := leNat (s.physBytes a 8)
    (upTo 8).map (a + ·) ++ if bitN pte 1 then [] else s.walkReads va n (bitsN pte 12 44 * 4096)

/-- The bytes of the table entries that the translation of a thread's address reads (R235). -/
def State.tableBytes (s : State) (t : Thread) (va : Nat) : List Nat :=
  match (s.vdevAt t.vdev).bind (·.troot) with
  | some x => s.walkReads va 4 x
  | none => []

end Sys2Proof.Machine
end

