-- ==== Sys2Proof/Certificates/Slice0/Obligations.lean ====
section
/-!
DEFINITION. The statements about the model that the provers are asked for, and the few terms they share.
-/
namespace Sys2Proof.Machine

/-- i, executed by a thread that nothing stands before, writes scalar register d with a value x of which P holds, moves the pc to
the next word, and changes nothing else: a write to s0 is discarded and s0 reads as zero (R103). -/
def WritesSome (i : Instr) (d : BitVec 5) (P : Thread → Word → Prop) : Prop :=
  ∀ s h t, Ready s h t → ∃ u x, exec i s = .next (s.setTh h u) ∧ P t x ∧
    u = { t with regs := u.regs, pc := t.pc + 4 } ∧ ∀ n, u.reg n = if n = d ∧ d ≠ 0 then x else t.reg n

/-- As WritesSome, where the value is known. -/
def Writes (i : Instr) (d : BitVec 5) (v : Thread → Word) : Prop := WritesSome i d fun t x => x = v t

/-- The number of a truth value. -/
def oneIf (c : Prop) [Decidable c] : Word := if c then 1 else 0

/-- i, executed by a thread that nothing stands before, moves the pc to a place and changes nothing else. -/
def Moves (i : Instr) (f : Thread → Word) : Prop :=
  ∀ s h t, Ready s h t → exec i s = .next (s.setTh h { t with pc := f t })

/-- Nothing holds or changes an access to a line of DRAM: its home can be reached (R389), no copy engine owns it, no bundle has a pending
version of it or a live tag on it, no sealed object covers it, and no uncorrectable error stands in it. -/
def Quiet (s : State) (line : Nat) : Prop :=
  s.routed (line * 128) = true ∧ s.ownerOf line = none ∧ s.pendingOf line = none ∧ s.tagsOf line = [] ∧ s.sealCount line = 0 ∧
    s.memErr.contains line = false

/-- Nothing of thread h is still on its way to memory: no record of a vsend (R210), no store of a bundle that is sealed or committed
(R356, R357). -/
def Settled (s : State) (h : Nat) : Prop := s.sending h = false ∧ s.unsettled h = false

/-- u is t with other scalar registers, another pc and other line-request counters (R251), and nothing else changed. -/
def OnlyRegs (t u : Thread) : Prop :=
  u = { t with regs := u.regs, pc := u.pc, localReq := u.localReq, remote := u.remote, offpkg := u.offpkg }

/-- No other thread, no host memory and no bank of a core is changed. -/
def Apart (s s' : State) (h : Nat) : Prop :=
  s'.hostMem = s.hostMem ∧ (∀ c, (s'.coreAt c).banks = (s.coreAt c).banks) ∧ ∀ g, g ≠ h → s'.th g = s.th g

/-- i loads n bytes of DRAM into d, the value made from them by v; no byte of DRAM changes (R113, R105). No vwait stands in the thread's
queue, whose flag reads come first (R261; log 61). -/
def Loads (i : Instr) (d a : BitVec 5) (o : BitVec 12) (n : Nat) (v : Nat → Word) : Prop :=
  ∀ s h t pa place, Ready s h t → t.vwaiting = false → s.checkAccess t .S .load (t.reg a + o.signExtend 64).toNat n = .ok (.dram pa place) → pa % n = 0 →
    Quiet s (pa / 128) → ∃ s' u, exec i s = .next s' ∧ s'.th h = some u ∧ OnlyRegs t u ∧ u.pc = t.pc + 4 ∧
      (∀ k, u.reg k = if k = d ∧ d ≠ 0 then v (leNat (s.physBytes pa n)) else t.reg k) ∧
      (∀ c, s'.physByte c = s.physByte c) ∧ Apart s s' h

/-- i stores the low n bytes of b to DRAM, lowest byte first; no other byte of DRAM changes (R113, R105, R5). No committed bundle of the
thread has a line left to flip, for which its later stores wait (R262, R357), and no vwait stands in its queue (R261; log 61). -/
def Stores (i : Instr) (a b : BitVec 5) (o : BitVec 12) (n : Nat) : Prop :=
  ∀ s h t pa place, Ready s h t → t.vwaiting = false → s.unflipped h = false → s.checkAccess t .S .store (t.reg a + o.signExtend 64).toNat n = .ok (.dram pa place) → pa % n = 0 →
    Quiet s (pa / 128) → s.mem.wf = true → ∃ s' u, exec i s = .next s' ∧ s'.th h = some u ∧ OnlyRegs t u ∧ u.pc = t.pc + 4 ∧
      u.regs = t.regs ∧ (∀ k < n, s'.physByte (pa + k) = BitVec.ofNat 8 ((t.reg b).toNat / 2 ^ (8 * k))) ∧
      (∀ c, (c < pa ∨ pa + n ≤ c) → s'.physByte c = s.physByte c) ∧ Apart s s' h

/-- i is an atomic of n bytes: sd receives the old value, sign-extended, and memory f of the old value, the operand and sd (R116). A
release waits for the thread's older accesses first (R115, R123). -/
def Atomic (i : Instr) (release : Bool) (d a b : BitVec 5) (n : Nat) (f : Nat → Nat → Nat → Nat) : Prop :=
  ∀ s h t pa place, Ready s h t → t.vwaiting = false → s.unflipped h = false → (release = true → s.fenceDone h t 1 = true) → s.checkAccess t .S .atomic (t.reg a).toNat n = .ok (.dram pa place) → pa % n = 0 →
    Quiet s (pa / 128) → s.mem.wf = true → ∃ s' u, exec i s = .next s' ∧ s'.th h = some u ∧ OnlyRegs t u ∧ u.pc = t.pc + 4 ∧
      (∀ k, u.reg k = if k = d ∧ d ≠ 0 then (BitVec.ofNat (8 * n) (leNat (s.physBytes pa n))).signExtend 64 else t.reg k) ∧
      leNat (s'.physBytes pa n) =
        f (leNat (s.physBytes pa n)) ((t.reg b).toNat % 2 ^ (8 * n)) ((t.reg d).toNat % 2 ^ (8 * n)) % 2 ^ (8 * n) ∧
      (∀ c, (c < pa ∨ pa + n ≤ c) → s'.physByte c = s.physByte c) ∧ Apart s s' h

/-- A number of n bits as a two's complement integer (R5). -/
def asInt (n x : Nat) : Int := (BitVec.ofNat n x).toInt

/-- A trap of thread h can be taken at once: no handler runs, a handler is set, and the image can be placed (R325). -/
def Trappable (s : State) (t : Thread) : Prop :=
  t.handler = false ∧ t.tvec ≠ 0 ∧ ∃ s1, s.putImage t [] = .ok s1

/-- Thread h, that was t in state s, has taken a trap (R322-R325): TCAUSE, TPC, TADDR and TELEM are written, the handler runs at TVEC, the
queue and the prefix are gone, and no register, mask, tile, token, flag or configuration changed; of memory nothing but the image has
changed, of the banks and the host's memory nothing, and no other thread. -/
def TrapTaken (s s' : State) (h : Nat) (t : Thread) (cause code addr elem : Nat) (tpc : Word) : Prop :=
  (∀ s1, s.putImage t [] = .ok s1 → s'.mem = s1.mem ∧ s'.clearPend = s1.clearPend) ∧ Apart s s' h ∧ ∃ u, s'.th h = some u ∧ u.pc = t.tvec ∧ u.handler = true ∧ u.queue = [] ∧ u.pend = none ∧ u.wait = none ∧
    u.tcause = BitVec.ofNat 64 (cause + code * 4096) ∧ u.tpc = BitVec.ofNat 64 (tpc.toNat % 2 ^ 48) ∧
    u.taddr = BitVec.ofNat 64 addr ∧ u.telem = BitVec.ofNat 64 (elem % 2 ^ 15) ∧
    u.regs = t.regs ∧ u.qregs = t.qregs ∧ u.tokens = t.tokens ∧ u.vregs = t.vregs ∧ u.vspan = t.vspan ∧ u.masks = t.masks ∧
    u.tiles = t.tiles ∧ u.flags = t.flags ∧ u.vcfg = t.vcfg ∧ u.vl = t.vl ∧ u.vlmax = t.vlmax ∧ u.vstart = t.vstart ∧ u.tvec = t.tvec

/-- Word i, dispatched by a thread that nothing stands before (R16): the queue gains an entry that holds the word, its address, the
captured scalars and the thread's configuration (R143, R328); a queue register gains a reservation (R121); the anchor is the group
that the word writes (R95); the pc moves on, and nothing else changes. The queue has room (R17), the lease that the word asks for is
held (R226), a word of service mode meets a service thread (R227), and a pair word finds an anchor (R95). -/
def Dispatches (i : Instr) (q : Option Nat) (ops : Thread → List Word) : Prop :=
  ∀ s h t w, Ready s h t → t.handler = false → (i.serviceOnly = true → t.svc = true) →
    (∀ g k, i = .cp g k → t.anchor ≠ none) → t.queue.length < 64 → encode i = some w →
    (∀ k, q = some k → (t.q k).length < 8) → (∀ c, s.heavyClass t i (ops t) = some c → (t.lease c).held = true) →
    ∃ u e, exec i s = .next (s.setTh h u) ∧
      u = { t with pc := t.pc + 4, queue := t.queue ++ [e], nextTag := t.nextTag + 1, qregs := u.qregs, anchor := u.anchor } ∧
      (∀ k, u.q k = if q = some k then t.q k ++ [{ tag := t.nextTag, val := none }] else t.q k) ∧
      (u.anchor = match i with
        | .cp .. => t.anchor
        | i => if engOf i = some .V then vdOf i else t.anchor) ∧
      e.word = w ∧ e.pc = t.pc ∧ e.ops = ops t ∧ e.vl = t.vl ∧ e.vlmax = t.vlmax ∧ e.vcfg = t.vcfg.setWidth 14 ∧
      e.vill = t.vcfg.getLsbD 63 ∧ e.feat = 0 ∧ e.popDone = false ∧ e.failed = false ∧ e.region = false ∧ e.tag = t.nextTag ∧
      (e.anchor = match i with
        | .cp .. => t.anchor
        | _ => none)

/-- Word i, dispatched by thread h: its entry, with the given captured scalars, ends the queue, and the pc moves on (R16, R328). -/
def Queued (s : State) (h : Nat) (t : Thread) (i : Instr) (ops : List Word) (s' : State) (u : Thread) : Prop :=
  exec i s = .next s' ∧ s'.th h = some u ∧ u.pc = t.pc + 4 ∧ u.regs = t.regs ∧ u.flags = t.flags ∧ u.vregs = t.vregs ∧ u.vspan = t.vspan ∧
    u.masks = t.masks ∧ u.tiles = t.tiles ∧ u.tokens = t.tokens ∧ s'.mem = s.mem ∧
    ∃ e, u.queue = t.queue ++ [e] ∧ some e.word = encode i ∧ e.pc = t.pc ∧ e.ops = ops ∧ e.failed = false

/-- The entry's configuration is that of a strip of 1 to 8 octets (R27, R143), and the byte stores of its thread are canonical. -/
structure Shaped (t : Thread) (e : QEntry) : Prop where
  sew : e.vcfg.toNat % 8 < 4
  octets : ∃ n, 1 ≤ n ∧ n ≤ 8 ∧ e.vlmax * e.w = n * 256 * e.lmul
  vl : e.vl ≤ e.vlmax
  stores : t.storesOk = true

/-- Element k of a register group of w-byte elements, in the entry's strip (R144). -/
def el (e : QEntry) (t : Thread) (g : BitVec 6) (w k : Nat) : Nat := t.elemAt e.regLen g.toNat w k

/-- active(k): the bit of the mask that governs the entry, P's instead of the word's own (R89, R101). -/
def act (e : QEntry) (t : Thread) (km : BitVec 3) (k : Nat) : Bool := t.maskAt (if featP e.feat then featMask e.feat else km.toNat) k

/-- What write leaves in element k, for its value before and its new one (R102). -/
def leaves (e : QEntry) (t : Thread) (active : Bool) (k old new : Nat) : Nat :=
  if k < t.vstart then old else if k < e.vl then (if active then new else if e.mpol then 0 else old) else if e.tail then 0 else old

/-- As leaves, for an element of a mask destination (R150). -/
def leavesBit (e : QEntry) (t : Thread) (active : Bool) (k : Nat) (old new : Bool) : Bool :=
  if k < t.vstart then old else if k < e.vl then (if active then new else if e.mpol then false else old) else if e.tail then false else old

/-- u is t after its oldest word has committed with flags fl (R19, R56, R142): the word has left the queue, VSTART is 0, the flags are
raised, the vector registers and the masks are as said apart, a lease may have been used (R226), and nothing else changed. -/
def Committed (t u : Thread) (e : QEntry) (r : List QEntry) (fl : Nat) : Prop :=
  u = { t with queue := r, vstart := 0, flags := t.flags ||| BitVec.ofNat 6 fl, vregs := u.vregs, vspan := u.vspan, vlive := u.vlive, masks := u.masks, leases := u.leases } ∧
    (e.heavy = none → u.leases = t.leases)

/-- No vector register outside n registers from g changes, in the registers' length of the entry's strip (R144). -/
def OthersStand (e : QEntry) (t u : Thread) (g : BitVec 6) (n : Nat) : Prop :=
  ∀ v q, q < e.regLen → (v < g.toNat ∨ g.toNat + n ≤ v) → u.regByte e.regLen v q = t.regByte e.regLen v q

/-- No vector register changes. -/
def VregsStand (t u : Thread) : Prop := u.vregs = t.vregs ∧ u.vspan = t.vspan ∧ u.vlive = t.vlive

/-- Word i, an element-wise one whose descriptor and groups pass R147 and R145, commits: each written element of vd is f of the elements of its sources, the others are as R102 leaves
them; the flags are those of the written elements (R56), and with SATEN the mask of FMASK gains the saturated elements (R59). -/
def Elementwise (i : Instr) (km : BitVec 3) (form : DForm) (vd va : BitVec 6) (b : QEntry → BSrc)
    (f : Word → Nat → Nat → Nat → Nat × Nat) : Prop :=
  ∀ s h t e r, AtVcp s h t e r i → Shaped t e → descOk form e.sew e.desc = true →
    let w := (if form = .afp then e.sew else fmtBits (dDfmt e.desc)) / 8
    groupsOk ([(vd.toNat, e.emul (8 * w)), (va.toNat, e.lmul)] ++ match b e with
      | .vec g => [(g.toNat, e.lmul)]
      | _ => []) = true →
    let res := fun k => f e.desc (el e t va e.w k) (match b e with
      | .vec g => el e t g e.w k
      | .val c => c % 2 ^ e.sew
      | .none => 0) (el e t vd w k)
    let written := fun k => t.vstart ≤ k ∧ k < e.vl ∧ act e t km k = true
    ∃ u fl, exec (.vectorCommit h) s = .next (s.setTh h u) ∧ Committed t u e r fl ∧
      (∀ k < e.vlmax, el e u vd w k = leaves e t (act e t km k) k (el e t vd w k) ((res k).1 % 2 ^ (8 * w))) ∧
      (∀ j < 6, fl.testBit j = true ↔ ∃ k, written k ∧ (res k).2.testBit j = true) ∧
      OthersStand e t u vd (e.emul (8 * w)) ∧
      ∀ m k, k < 16384 → (u.maskAt m k = true ↔ t.maskAt m k = true ∨
        dSaten e.desc = true ∧ m = dFmask e.desc ∧ written k ∧ (res k).2.testBit 5 = true)

/-- Word i commits and writes the group at vd, element k becoming new k where it is written (R102); no flag, no mask changes. -/
def WritesGroup (i : Instr) (active : QEntry → Thread → Nat → Bool) (vd : BitVec 6) (ok : QEntry → Thread → Prop)
    (new : QEntry → Thread → Nat → Nat) : Prop :=
  ∀ s h t e r, AtVcp s h t e r i → Shaped t e → vd.toNat % e.lmul = 0 → ok e t →
    ∃ u, exec (.vectorCommit h) s = .next (s.setTh h u) ∧ Committed t u e r 0 ∧ u.masks = t.masks ∧ OthersStand e t u vd e.lmul ∧
      ∀ k < e.vlmax, el e u vd e.w k = leaves e t (active e t k) k (el e t vd e.w k) (new e t k % 2 ^ e.sew)

/-- Word i commits and writes mask kd, bit k becoming new k where it is written (R150); k0 takes no write. -/
def WritesMask (i : Instr) (active : QEntry → Thread → Nat → Bool) (kd : BitVec 3) (ok : QEntry → Thread → Prop)
    (new : QEntry → Thread → Nat → Bool × Nat) : Prop :=
  ∀ s h t e r, AtVcp s h t e r i → Shaped t e → ok e t →
    ∃ u fl, exec (.vectorCommit h) s = .next (s.setTh h u) ∧ Committed t u e r fl ∧ VregsStand t u ∧
      (∀ j < 6, fl.testBit j = true ↔ ∃ k, t.vstart ≤ k ∧ k < e.vl ∧ active e t k = true ∧ (new e t k).2.testBit j = true) ∧
      ∀ m k, k < 16384 → u.maskAt m k = if m = kd.toNat ∧ kd ≠ 0 ∧ k < e.vlmax then
        leavesBit e t (active e t k) k (t.maskAt m k) (new e t k).1 else t.maskAt m k

/-- Word i commits and delivers a value under its reservation in a queue register (R121, R162); nothing else changes. -/
def Answers (i : Instr) (q : BitVec 2) (ok : QEntry → Thread → Prop) (x : QEntry → Thread → Word) : Prop :=
  ∀ s h t e r, AtVcp s h t e r i → Shaped t e → ok e t →
    ∃ u, exec (.vectorCommit h) s = .next (s.setTh h u) ∧ Committed (t.deliver q.toNat e.tag (x e t)) u e r 0 ∧ VregsStand t u ∧
      u.masks = t.masks

/-- The elements below VL that are active and whose bit of mask ka is set, in rising order. -/
def hits (e : QEntry) (t : Thread) (km ka : BitVec 3) : List Nat :=
  (List.range e.vl).filter fun k => act e t km k && t.maskAt ka.toNat k

/-- The elements k of which P holds are accesses of w bytes to DRAM at pa k, and nothing holds or changes them (R105, R153, R154). -/
def Reaches (s : State) (t : Thread) (kind : Kind) (w : Nat) (P : Nat → Prop) (addr : Nat → Word) (pa : Nat → Nat) : Prop :=
  ∀ k, P k → (∃ place, s.checkAccess t .V kind (addr k).toNat w = .ok (.dram (pa k) place)) ∧ pa k % w = 0 ∧ Quiet s (pa k / 128)

/-- Thread h, that was t, has committed its oldest word e, with the line requests of its accesses counted (R251); nothing outside
DRAM and the thread has changed. -/
def CommittedMem (s s' : State) (h : Nat) (t u : Thread) (e : QEntry) (r : List QEntry) : Prop :=
  s'.th h = some u ∧ Apart s s' h ∧ ∃ v, Committed t v e r 0 ∧ u = { v with localReq := u.localReq, remote := u.remote, offpkg := u.offpkg }

/-- Elements k below n of a vector memory word, governed by a mask, from VSTART on (R101, R153). -/
def takesPart (t : Thread) (n : Nat) (active : Nat → Bool) (k : Nat) : Prop := t.vstart ≤ k ∧ k < n ∧ active k = true

/-- Word i loads the elements that take part into the group at vd (R153, R102). -/
def LoadsGroup (i : Instr) (len : QEntry → Nat) (active : QEntry → Thread → Nat → Bool) (vd : BitVec 6) (ok : QEntry → Prop)
    (addr : QEntry → Thread → Nat → Word) : Prop :=
  ∀ s h t e r pa, AtVcp s h t e r i → Shaped t e → vd.toNat % e.lmul = 0 → ok e →
    Reaches s t .load e.w (takesPart t (len e) (active e t)) (addr e t) pa →
    ∃ s' u, exec (.vectorCommit h) s = .next s' ∧ CommittedMem s s' h t u e r ∧ u.masks = t.masks ∧ OthersStand e t u vd e.lmul ∧
      (∀ c, s'.physByte c = s.physByte c) ∧
      ∀ k < e.vlmax, el e u vd e.w k =
        leaves { e with vl := len e } t (active e t k) k (el e t vd e.w k) (leNat (s.physBytes (pa k) e.w))

/-- Word i stores to DRAM what val gives for the elements that take part, w bytes each; where two have one location the higher one's
stands, which an unordered word leaves open and is spared here (R153, R157, log 6). The stores meet no page table in use, and no
committed bundle of the thread has a line left to flip, for which its later stores wait (R262, R357). -/
def StoresGroup (i : Instr) (w : QEntry → Nat) (P : QEntry → Thread → Nat → Prop) (ordered : Bool) (ok : QEntry → Prop)
    (addr : QEntry → Thread → Nat → Word) (val : QEntry → Thread → Nat → Nat) : Prop :=
  ∀ s h t e r pa, AtVcp s h t e r i → Shaped t e → ok e → e.bundle = none → s.mem.wf = true → s.unflipped h = false →
    Reaches s t .store (w e) (P e t) (addr e t) pa →
    (∀ j k, P e t j → P e t k → ∀ a ∈ s.tableBytes t (addr e t j).toNat, a < pa k ∨ pa k + w e ≤ a) →
    (ordered = false → ∀ j k, P e t j → P e t k → pa j = pa k → j = k) →
    ∃ s' u, exec (.vectorCommit h) s = .next s' ∧ CommittedMem s s' h t u e r ∧ VregsStand t u ∧ u.masks = t.masks ∧
      (∀ k, P e t k → (∀ j, P e t j → pa j = pa k → j ≤ k) →
        ∀ b < w e, s'.physByte (pa k + b) = BitVec.ofNat 8 (val e t k / 2 ^ (8 * b))) ∧
      ∀ c, (∀ k, P e t k → c < pa k ∨ pa k + w e ≤ c) → s'.physByte c = s.physByte c

/-- Word i performs the atomic f on the elements that take part, at different addresses; vd receives the old values (R116, R153). -/
def AtomicGroup (i : Instr) (vd : BitVec 6) (k : BitVec 3) (ok : QEntry → Prop) (addr : QEntry → Thread → Nat → Word)
    (f : Nat → Nat → Nat → Nat) : Prop :=
  ∀ s h t e r pa, AtVcp s h t e r i → Shaped t e → vd.toNat % e.lmul = 0 → ok e → 4 ≤ e.w → s.mem.wf = true → s.unflipped h = false →
    let P := takesPart t e.vl (act e t k)
    let old := fun j => leNat (s.physBytes (pa j) e.w)
    Reaches s t .atomic e.w P (addr e t) pa →
    (∀ j l, P j → P l → ∀ a ∈ s.tableBytes t (addr e t j).toNat, a < pa l ∨ pa l + e.w ≤ a) →
    (∀ j l, P j → P l → pa j = pa l → j = l) →
    ∃ s' u, exec (.vectorCommit h) s = .next s' ∧ CommittedMem s s' h t u e r ∧ u.masks = t.masks ∧ OthersStand e t u vd e.lmul ∧
      (∀ j < e.vlmax, el e u vd e.w j = leaves e t (act e t k j) j (el e t vd e.w j) (old j)) ∧
      (∀ j, P j → leNat (s'.physBytes (pa j) e.w) = f e.sew (old j) (el e t vd e.w j) % 2 ^ e.sew) ∧
      ∀ c, (∀ j, P j → c < pa j ∨ pa j + e.w ≤ c) → s'.physByte c = s.physByte c

/-- node[l][p] of R66 over elements x: it covers the elements from p * 2^l on. -/
def treeNode (op : ROp) (x : Nat → Option RVal) : Nat → Nat → Option RVal × Nat
  | 0, p => (x p, 0)
  | l + 1, p => combine op (treeNode op x l (2 * p)) (treeNode op x l (2 * p + 1))

/-- combine(... combine(G[0], G[1]) ..., G[m - 1]) of R66. -/
def treeFold (op : ROp) (x : Nat → Option RVal) (m : Nat) : Option RVal × Nat :=
  (List.range m).foldl (fun a g => combine op a (treeNode op x 6 g)) (none, 0)

/-- C[g] of R67. -/
def treeCarry (op : ROp) (x : Nat → Option RVal) (x0 : Option RVal × Nat) : Nat → Option RVal × Nat
  | 0 => x0
  | g + 1 => combine op (treeCarry op x x0 g) (treeNode op x 6 g)

/-- P(k) of R67: the nodes that exactly cover k's group up to k, the largest first. -/
def treePrefix (op : ROp) (x : Nat → Option RVal) (k : Nat) : Option RVal × Nat :=
  [6, 5, 4, 3, 2, 1, 0].foldl (fun a l => if (k % 64 + 1).testBit l then
    combine op a (treeNode op x l ((k / 64 * 64 + (k % 64 + 1) / 2 ^ (l + 1) * 2 ^ (l + 1)) / 2 ^ l)) else a) (none, 0)

/-- What a word of R171 combines: the leaf of a source element and its flags, the operation, the identity, the flags of an initial
value; each for a descriptor. -/
structure Folding where
  leaf : Word → Nat → Nat → RVal × Nat
  op : Word → ROp
  identity : Word → RVal
  initFlag : Word → Nat → Nat

/-- The present elements as leaves (R66, R101). -/
def Folding.leaves (f : Folding) (e : QEntry) (t : Thread) (vb : BitVec 6) (km : BitVec 3) (k : Nat) : Option RVal :=
  if k < e.vl ∧ act e t km k = true then some (f.leaf e.desc k (el e t vb e.w k)).1 else none

/-- The flags of the leaves' conversions (R171). -/
def Folding.leafFlags (f : Folding) (e : QEntry) (t : Thread) (vb : BitVec 6) (km : BitVec 3) : Nat :=
  (List.range e.vl).foldl (fun a k => if act e t km k = true then a ||| (f.leaf e.desc k (el e t vb e.w k)).2 else a) 0

/-- The initial value (R171): with INIT, what vd holds at DFMT; for the arg forms an index and a value. -/
def Folding.start (f : Folding) (e : QEntry) (t : Thread) (vd : BitVec 6) (init arg : Bool) : Option RVal × Nat :=
  let w := fmtBits (dDfmt e.desc) / 8
  let v := if arg then (el e t vd w 0, el e t vd w 1) else (0, el e t vd w 0)
  if init then (some v, f.initFlag e.desc v.2) else (none, 0)

/-- Word i of R171, whose descriptor and groups pass R145 and R147, commits with VSTART 0 (R149) and the flags given; elements of
vd become as new gives them from their old values, nothing else changes. -/
def Reduces (i : Instr) (form : DForm) (sep : Bool) (vd vb : BitVec 6) (flags : QEntry → Thread → Nat)
    (new : QEntry → Thread → Nat → Nat → Nat) : Prop :=
  ∀ s h t e r, AtVcp s h t e r i → Shaped t e → t.vstart = 0 → descOk form e.sew e.desc = true →
    let w := fmtBits (dDfmt e.desc) / 8
    groupsOk [(vd.toNat, e.emul (8 * w)), (vb.toNat, e.lmul)] = true →
    (sep = true → vd.toNat + e.emul (8 * w) ≤ vb.toNat ∨ vb.toNat + e.lmul ≤ vd.toNat) →
    ∃ u, exec (.vectorCommit h) s = .next (s.setTh h u) ∧ Committed t u e r (flags e t) ∧ u.masks = t.masks ∧
      OthersStand e t u vd (e.emul (8 * w)) ∧ ∀ k < e.vlmax, el e u vd w k = new e t k (el e t vd w k) % 2 ^ (8 * w)

/-- Results from element 0 on, then the tail up to VLMAX (R171). -/
def thenTail (e : QEntry) (l : List Nat) (k old : Nat) : Nat :=
  if k < l.length then l.getD k 0 else if e.tail then 0 else old

/-- The integer words: an element enters modulo 2^W (R171). -/
def intFolding (op : Nat → Nat → Nat → Nat) (identity : Nat → Nat) : Folding where
  leaf d k x := ((k, (intVal (dAfmt d) x % (2 ^ fmtBits (dDfmt d) : Nat)).toNat), 0)
  op d a b := ((0, op (dDfmt d) a.2 b.2), 0)
  identity d := (0, identity (dDfmt d))
  initFlag _ _ := 0

/-- An element enters a floating-point word as it is, or rounded once into another DFMT (R171); a signalling NaN raises NV (R50). -/
def fpLeaf (d : Word) (k x : Nat) : RVal × Nat :=
  let v := decF (dAfmt d) x
  if dAfmt d = dDfmt d then ((k, x), sigFlag v)
  else ((k, (roundV (dDfmt d) (dRnd d) v).1), sigFlag v ||| (roundV (dDfmt d) (dRnd d) v).2)

/-- The floating-point words. -/
def fpFolding (op : Word → Nat → Nat → Nat × Nat) (identity : Nat → Nat) : Folding where
  leaf := fpLeaf
  op d a b := ((0, (op d a.2 b.2).1), (op d a.2 b.2).2)
  identity d := (0, identity (dDfmt d))
  initFlag d x := sigFlag (decF (dDfmt d) x)

/-- The arg words (R73): b is picked where it is strictly beyond a, or where it is the first NaN; its index travels with it. -/
def argFolding (beyond : Nat → Nat → Nat → Bool) (edge : Nat → Nat) : Folding where
  leaf d k x := if isIntFmt (dAfmt d) then ((k, x), 0) else ((k, x), sigFlag (decF (dAfmt d) x))
  op d a b := (if beyond (dDfmt d) a.2 b.2 then b else a, 0)
  identity d := (2 ^ fmtBits (dDfmt d) - 1, edge (dDfmt d))
  initFlag d x := if isIntFmt (dDfmt d) then 0 else sigFlag (decF (dDfmt d) x)

/-- A number as a pattern of w bits. -/
def patOf (w : Nat) (x : Int) : Nat := (x % (2 ^ w : Nat)).toNat

/-- Cell c of a tile, or of the FP64 pair that it opens, whose upper halves stand in the next tile (R187, R189). -/
def tileEl (t : Thread) (z : BitVec 2) (fmt c : Nat) : Nat :=
  if fmt = 0x10 then t.cellAt z.toNat c + t.cellAt (z.toNat + 1) c * 2 ^ 32 else t.cellAt z.toNat c

/-- As Committed, for a word of the M engine: it may also write the tiles from z on, one of them or, for FP64, two. -/
def CommittedTile (t u : Thread) (e : QEntry) (r : List QEntry) (fl : Nat) (z : BitVec 2) (fmt : Nat) : Prop :=
  (∃ v, Committed t v e r fl ∧ u = { v with tiles := u.tiles, tdirty := u.tdirty }) ∧ VregsStand t u ∧
    ∀ y < 4, ¬ (y = z.toNat ∨ fmt = 0x10 ∧ y = z.toNat + 1) →
      (∀ c < 4096, u.cellAt y c = t.cellAt y c) ∧ u.tdirty.getLsbD y = t.tdirty.getLsbD y

/-- The values of chunk c of row i of an operand (R184, R185), for elements that are no integers. -/
def chunkVals (f : MForm) (fmt : Nat) (e : QEntry) (t : Thread) (v : BitVec 6) (c i : Nat) : List FVal :=
  if f.kind = .mx then
    (List.range 4).flatMap fun q =>
      let b := el e t v 1 (c * 256 + i * 4 + q)
      let x := (t.groupByte e.regLen (v.toNat + e.lmul) (2 * (c / 4 * 64 + i) + 1)).toNat
      [codeVal (b % 16) x, codeVal (b / 16) x]
  else (List.range f.k).map fun q => decF (if fmt = 0x18 then 0x10 else fmt) (el e t v e.w (c * (64 * f.k) + i * f.k + q))

/-- S of the block that holds chunk c of row i of an operand (R185). -/
def chunkScale (e : QEntry) (t : Thread) (v : BitVec 6) (c i : Nat) : Nat :=
  (t.groupByte e.regLen (v.toNat + e.lmul) (2 * (c / 4 * 64 + i))).toNat

/-- p of R186 for one tile element and one chunk, an integer row apart. -/
def productSum (f : MForm) (e : QEntry) (t : Thread) (a b : BitVec 6) (c i j : Nat) : FVal × Nat :=
  let x := chunkVals f (dAfmt e.desc) e t a c i
  let y := chunkVals f (dBfmt e.desc) e t b c j
  match f.kind with
  | .mx =>
    if chunkScale e t a c i = 255 ∨ chunkScale e t b c j = 255 then (.nan false, 0)
    else ((dotV x y).1.scale ((chunkScale e t a c i : Int) + chunkScale e t b c j - 254), (dotV x y).2)
  | .fp64s => sliceProduct (e.slices + 1) (x.headD (.nan false)) (y.headD (.nan false))
  | _ => dotV x y

/-- p of R186 in an integer row (R71). -/
def intSum (f : MForm) (e : QEntry) (t : Thread) (a b : BitVec 6) (c i j : Nat) : Int :=
  ((List.range f.k).map fun q =>
    intVal (dAfmt e.desc) (el e t a e.w (c * (64 * f.k) + i * f.k + q)) *
      intVal (dBfmt e.desc) (el e t b e.w (c * (64 * f.k) + j * f.k + q))).sum

/-- z[i][j] of R186 and the flags raised at it, after the first c chunks; R186 names no underflow (bit 1). -/
def tileAfter (f : MForm) (neg : Bool) (e : QEntry) (t : Thread) (z : BitVec 2) (a b : BitVec 6) (i j : Nat) : Nat → Nat × Nat
  | 0 => (tileEl t z f.tile (64 * i + j), 0)
  | c + 1 =>
    let w := tileAfter f neg e t z a b i j c
    if f.kind = .int then
      let p := intSum f e t a b c i j
      let y := asInt 32 w.1 + if neg then -p else p
      let x := max (-2 ^ 31) (min y (2 ^ 31 - 1))
      ((x % 2 ^ 32).toNat, w.2 ||| if x = y then 0 else 32)
    else
      let p := productSum f e t a b c i j
      let x := addF f.tile 0 (decF f.tile w.1) (if neg then p.1.neg else p.1)
      (x.1, w.2 ||| p.2 ||| if x.2.testBit 1 then x.2 - 2 else x.2)

/-- vopa, or vops with neg: every element of the tile accumulates every chunk in ascending order; the MAC meter counts (R384). -/
def Outer (i : Instr) (neg : Bool) (z : BitVec 2) (a b : BitVec 6) : Prop :=
  ∀ s h t e r f, AtVcp s h t e r i → Shaped t e → mformOf e.desc = some f → e.sew = f.sew → e.vl % f.mult = 0 →
    a.toNat % e.lmul = 0 → b.toNat % e.lmul = 0 → (f.kind = .fp64s → z.toNat % 2 = 0 ∧ 2 ≤ e.slices) → (f.kind = .mx → scalesOk e a b = true) →
    let n := e.vl / (64 * f.k)
    let meter : Nat × Nat := match f.kind with
      | .mx => (5, 128 * e.vl)
      | .int => (4, 64 * e.vl)
      | .fp64s => (6, 64 * e.vl * ((e.slices + 1) * (e.slices + 2) / 2))
      | .fp => (if f.k = 1 then 1 else if f.k = 2 then 2 else 3, 64 * e.vl)
    ∃ s' u fl, exec (.vectorCommit h) s = .next s' ∧
      s' = (if e.vl = 0 then s.setTh h u else (s.setTh h u).meter t.part (s.accountOf t) meter.1 meter.2) ∧
      CommittedTile t u e r fl z f.tile ∧ u.masks = t.masks ∧
      (∀ i < 64, ∀ j < 64, tileEl u z f.tile (64 * i + j) = (tileAfter f neg e t z a b i j n).1) ∧
      ∀ x < 6, fl.testBit x = true ↔ ∃ i < 64, ∃ j < 64, (tileAfter f neg e t z a b i j n).2.testBit x = true

/-- The elements of a moved tile or a quantised group that saturate mark the mask of FMASK, with SATEN (R59). -/
def Marks (d : Word) (t u : Thread) (P : Nat → Prop) (sat : Nat → Bool) : Prop :=
  ∀ m k, k < 16384 → (u.maskAt m k = true ↔ t.maskAt m k = true ∨ dSaten d = true ∧ m = dFmask d ∧ P k ∧ sat k = true)

/-- The outputs of vhad, or of vhad.c, for the elements below VL (R194); the exact sum and its rounding are the model's. -/
def hadOut (e : QEntry) (t : Thread) (a : BitVec 6) (k : BitVec 3) (j : Nat) : Nat × Nat :=
  hadElem (dDfmt e.desc) (dRnd e.desc) ((List.range 32).map fun v =>
    let x := j / 32 * 32 + v
    if act e t k x then decF (dAfmt e.desc) (el e t a e.w x) else .fin false 0 0) (j % 32)

/-- The bytes that the quantiser writes, and then the tail (R197). -/
def bytesThenTail (e : QEntry) (n p new old : Nat) : Nat := if p < n then new else if e.tail then 0 else old

/-- vcvtq and vcvtq.c on the values src: code bytes into vd, scale pairs into vb, marks and flags (R197, R63, R59); vcvtq.c leaves the chain
buffer empty (R195, R196). -/
def Quantises (s : State) (h : Nat) (t : Thread) (e : QEntry) (r : List QEntry) (d b : BitVec 6) (src : Nat → FVal) (chain : Bool) : Prop :=
  let block := fun (n : Nat) => quantBlock ((List.range 32).map fun j => src (32 * n + j))
  let n := max 1 (4 * e.lmul / e.sew)
  ∃ u fl v, exec (.vectorCommit h) s = .next (s.setTh h u) ∧ u = (if chain then { v with chValid := false, chFmt := 0, chCount := 0 } else v) ∧ Committed t v e r fl ∧
    (∀ p < n * e.regLen, (u.groupByte e.regLen d.toNat p).toNat = bytesThenTail e (e.vl / 2) p
      ((block (p / 16)).1.getD (2 * (p % 16)) 0 + 16 * (block (p / 16)).1.getD (2 * (p % 16) + 1) 0) (t.groupByte e.regLen d.toNat p).toNat) ∧
    (∀ p < e.regLen, (u.groupByte e.regLen b.toNat p).toNat = bytesThenTail e (e.vl / 16) p
      (if p % 2 = 0 then (block (p / 2)).2.1 else (block (p / 2)).2.2.1) (t.groupByte e.regLen b.toNat p).toNat) ∧
    (∀ v q, q < e.regLen → (v < d.toNat ∨ d.toNat + n ≤ v) → v ≠ b.toNat → u.regByte e.regLen v q = t.regByte e.regLen v q) ∧
    Marks e.desc t u (fun k => k < e.vl) (fun k => (block (k / 32)).2.2.2.1.getD (k % 32) false) ∧
    ∀ x < 6, fl.testBit x = true ↔ ∃ k < e.vl / 32, (block k).2.2.2.2.testBit x = true

/-- The integer words where AFMT is an integer format, the others elsewhere (R203). -/
def Folding.orElse (i f : Folding) : Folding where
  leaf d := if isIntFmt (dAfmt d) then i.leaf d else f.leaf d
  op d := if isIntFmt (dAfmt d) then i.op d else f.op d
  identity d := if isIntFmt (dAfmt d) then i.identity d else f.identity d
  initFlag d := if isIntFmt (dAfmt d) then i.initFlag d else f.initFlag d

/-- A chorus operation at the VCP: each written element combines what the members of the group hold at its offset, by rank, in the tree
of R66; an absent member of a group that is not strict is an absent leaf (R204, R205). -/
def Chorus (i : Instr) (form : Word → DForm) (g : Folding) (arg : Bool) (d : BitVec 6) : Prop :=
  ∀ s h t e r strict ms p, AtVcp s h t e r i → Shaped t e → s.storesOk = true → descOk (form e.desc) e.sew e.desc = true →
    let bits := fmtBits (dDfmt e.desc)
    let offset := fun (j : Nat) => (e.op 1 + BitVec.ofNat 64 (j * e.w)).toNat
    let P := takesPart t e.vl (act e t 0)
    d.toNat % e.emul bits = 0 → e.emul bits ≤ 8 → s.chorusGroup t.part (e.op 0) = some (strict, ms) → s.partAt t.part = some p →
    (strict = true → ∀ m ∈ ms, m ∈ p.cores) →
    (∀ j, P j → offset j % e.w = 0 ∧ offset j + e.w ≤ 0xC0000 ∧ ∀ m ∈ ms, m ∈ p.cores → (s.coreAt m).mode (offset j / 65536) = 1) →
    let held := fun (j n : Nat) => match ms[n]? with
      | some m => if p.cores.contains m then some (g.leaf e.desc n (leNat (mgetN (s.coreAt m).banks (offset j) e.w))) else none
      | none => none
    let root := fun (j : Nat) => treeNode (g.op e.desc) (fun n => (held j n).map (·.1)) 10 0
    let flags := fun (j : Nat) => (List.range ms.length).foldl (fun a n => a ||| ((held j n).map (·.2)).getD 0) (root j).2
    let value := fun (j : Nat) => let v := (root j).1.getD (g.identity e.desc); if arg then v.1 else canonR e.desc v.2
    ∃ s' u fl, exec (.vectorCommit h) s = .next s' ∧ s'.th h = some u ∧ Apart s s' h ∧ s'.mem = s.mem ∧ s'.clearPend = s.clearPend ∧
      Committed t u e r fl ∧ u.masks = t.masks ∧ OthersStand e t u d (e.emul bits) ∧
      (∀ j < e.vlmax, el e u d (bits / 8) j = leaves e t (act e t 0 j) j (el e t d (bits / 8) j) (value j % 2 ^ bits)) ∧
      ∀ x < 6, fl.testBit x = true ↔ ∃ j, P j ∧ (flags j).testBit x = true

/-- An address of a copy nest, the first dimension innermost (R213, R214): the strides of byte x of the nest, summed. -/
def nestAt (stride : Dim → Word) : List Dim → Nat → Word
  | [], _ => 0
  | d :: r, x => BitVec.ofNat 64 (x % d.count.toNat) * stride d + nestAt stride r (x / d.count.toNat)

/-- e is the head of the words that thread h's copy engine holds, and nothing holds it there (R213, R91); no save has stopped it
(R229). -/
structure AtCopyEngine (s : State) (h : Nat) (t : Thread) (e : QEntry) (r : List QEntry) (i : Instr) : Prop where
  th : s.th h = some t
  res : t.res = .resident
  ceng : t.ceng = e :: r
  word : decode e.word = some i
  retq : t.retq = []
  stopped : t.cstop = none
  pop : featPop e.feat = 0
  push : featPush e.feat = 0

/-- Thread h, that was t, has taken a trap at the VCP (R322, R325): its queue goes into the image, the handler runs at TVEC; no
scalar register, queue register, vector register of len bytes, mask, tile, token or flag has changed; of memory nothing but the image, of
the banks and the host's memory nothing, and no other thread. -/
def TrapAtVcp (s s' : State) (h : Nat) (t : Thread) (len cause elem addr vstart : Nat) : Prop :=
  (∀ s1, s.putImage t t.queue = .ok s1 → s'.mem = s1.mem ∧ s'.clearPend = s1.clearPend) ∧ Apart s s' h ∧ ∃ u, s'.th h = some u ∧ u.pc = t.tvec ∧ u.handler = true ∧ u.queue = [] ∧ u.imgq = t.queue ∧ u.pend = none ∧ u.wait = none ∧
    u.tcause = BitVec.ofNat 64 (cause + 256) ∧ u.tpc = BitVec.ofNat 64 (t.pc.toNat % 2 ^ 48) ∧ u.taddr = BitVec.ofNat 64 addr ∧
    u.telem = BitVec.ofNat 64 (elem % 2 ^ 15) ∧ u.vstart = vstart ∧ u.regs = t.regs ∧ u.qregs = t.qregs ∧ u.tokens = t.tokens ∧
    u.masks = t.masks ∧ u.tiles = t.tiles ∧ u.flags = t.flags ∧ u.vcfg = t.vcfg ∧ u.vl = t.vl ∧
    ∀ v q, q < len → u.regByte len v q = t.regByte len v q

/-- The bseal entry (R221). -/
def sealWord (serial cause : Nat) : Word := BitVec.ofNat 64 (serial % 2 ^ 48 + cause * 2 ^ 48 + if cause = 0 then 0 else 2 ^ 63)

/-- The entries of oshape and ounseal (R222, R224). -/
def objectWord (x cause : Nat) : Word := BitVec.ofNat 64 (x % 2 ^ 32 + cause * 2 ^ 32 + if cause = 0 then 0 else 2 ^ 63)

/-- A row of R48: code, width, exponent bits, bias, significand bits, and the patterns of infinity, of the canonical NaN and of the
largest finite number. -/
structure FormatRow where
  code : Nat
  bits : Nat
  eb : Nat
  bias : Nat
  sb : Nat
  inf : Option Nat
  nan : Nat
  max : Nat
deriving DecidableEq, Repr

/-- The table of R48. -/
def formatRows : List FormatRow := [
  ⟨0x13, 16, 5, 15, 10, some 0x7C00, 0x7E00, 0x7BFF⟩,
  ⟨0x12, 16, 8, 127, 7, some 0x7F80, 0x7FC0, 0x7F7F⟩,
  ⟨0x11, 32, 8, 127, 23, some 0x7F800000, 0x7FC00000, 0x7F7FFFFF⟩,
  ⟨0x10, 64, 11, 1023, 52, some 0x7FF0000000000000, 0x7FF8000000000000, 0x7FEFFFFFFFFFFFFF⟩,
  ⟨0x15, 8, 5, 15, 2, some 0x7C, 0x7E, 0x7B⟩,
  ⟨0x14, 8, 4, 7, 3, none, 0x7F, 0x7E⟩]

/-- The sign bit of a pattern. -/
def FormatRow.sgn (f : FormatRow) (neg : Bool) : Nat := if neg then 2 ^ (f.bits - 1) else 0

/-- x is finite, of the sign said, and stands for the real number y (R48); a zero has a sign too. -/
def IsReal (x : FVal) (neg : Bool) (y : ℝ) : Prop :=
  ∃ (m : Nat) (e : Int), x = .fin neg m e ∧ y = if neg then -((m : ℝ) * (2 : ℝ) ^ e) else (m : ℝ) * (2 : ℝ) ^ e

/-- x is no NaN and stands for y, an infinity perhaps. -/
def IsExt (x : FVal) (y : EReal) : Prop :=
  (∃ neg z, IsReal x neg z ∧ y = (z : EReal)) ∨ x = .inf true ∧ y = ⊥ ∨ x = .inf false ∧ y = ⊤

/-- a lies below b, with minus zero below plus zero (R72). -/
def Below (a b : FVal) : Prop :=
  (∃ y z, IsExt a y ∧ IsExt b z ∧ y < z) ∨ IsReal a true 0 ∧ IsReal b false 0

/-- r is v units, a magnitude, rounded to whole units by the mode of R54; neg: the number rounded is negative. -/
def RoundsTo (mode : Nat) (neg : Bool) (v : ℝ) (r : Nat) : Prop :=
  ∃ q : Nat, (q : ℝ) ≤ v ∧ v < (q : ℝ) + 1 ∧ (r = q ∨ r = q + 1) ∧ (r = q + 1 ↔ v ≠ (q : ℝ) ∧
    match mode with
    | 0 => (q : ℝ) + 1 / 2 < v ∨ v = (q : ℝ) + 1 / 2 ∧ q % 2 = 1
    | 1 => False
    | 2 => neg = true
    | 3 => neg = false
    | 4 => (q : ℝ) + 1 / 2 ≤ v
    | _ => q % 2 = 0)

/-- x and fl are the magnitude v > 0, of the sign said, rounded once into a format (R54, R55). Its unit is that of its own binade, of
the subnormal numbers below them; beyond the largest finite after rounding with unbounded exponent, x and fl are `beyond`; else x has the
rounded value, NX is raised where it differs, and UF too where the rounding with unbounded exponent lies below the normal numbers. -/
def Rounded (f : FormatRow) (mode : Nat) (neg : Bool) (v : ℝ) (beyond : Nat × Nat) (x fl : Nat) : Prop :=
  ∃ (lg : Int) (r wide : Nat) (top : ℝ), (2 : ℝ) ^ lg ≤ v ∧ v < (2 : ℝ) ^ (lg + 1) ∧ IsReal (decF f.code f.max) false top ∧
    let least := (1 : Int) - f.bias
    let unit := (2 : ℝ) ^ (max lg least - f.sb)
    let fine := (2 : ℝ) ^ (lg - f.sb)
    RoundsTo mode neg (v / unit) r ∧ RoundsTo mode neg (v / fine) wide ∧
      (top < wide * fine → (x, fl) = beyond) ∧
      (wide * fine ≤ top → x < 2 ^ f.bits ∧ (∃ y, IsReal (decF f.code x) neg y ∧ abs y = r * unit) ∧
        (r * unit = v → fl = 0) ∧
        (r * unit ≠ v → (wide * fine < (2 : ℝ) ^ least → fl = 3) ∧ ((2 : ℝ) ^ least ≤ wide * fine → fl = 1)))

/-- p is y, a zero having the sign said, rounded once. -/
def Gives (f : FormatRow) (mode : Nat) (zero : Bool) (y : ℝ) (beyond : Bool → Nat × Nat) (p : Nat × Nat) : Prop :=
  (y = 0 → p = (f.sgn zero, 0)) ∧
    (y ≠ 0 → ∃ neg : Bool, (neg = true ↔ y < 0) ∧ Rounded f mode neg (abs y) (beyond neg) p.1 p.2)

/-- The overflow result of arithmetic, with OF and NX (R54, R56); in E4M3 an infinity becomes a NaN. -/
def overflowOf (f : FormatRow) (mode : Nat) (neg : Bool) : Nat × Nat :=
  let away := match mode with
    | 1 | 5 => false
    | 2 => neg
    | 3 => !neg
    | _ => true
  (if away then (match f.inf with
    | some i => i + f.sgn neg
    | none => f.nan) else f.max + f.sgn neg, 5)

/-- NV where some operand is a signalling NaN (R50). -/
def nvOf (l : List FVal) : Nat := if l.contains (.nan true) then 16 else 0

/-- The integer that an element holds in format c of R46. -/
def readInt (c x : Nat) : Int :=
  if c % 2 = 1 then asInt (8 * 2 ^ ((c - 1) / 2)) x else ((x % 2 ^ (8 * 2 ^ ((c - 1) / 2)) : Nat) : Int)

/-- Pattern x of format c, an integer or a scalar floating-point one, stands for the finite number y, whose sign neg is. -/
def StandsFor (c x : Nat) (neg : Bool) (y : ℝ) : Prop :=
  (1 ≤ c ∧ c ≤ 8 ∧ y = (readInt c x : ℝ) ∧ neg = decide (readInt c x < 0)) ∨
    (0x10 ≤ c ∧ c ≤ 0x15 ∧ IsReal (decF c x) neg y)

/-- The magnitudes of R62. -/
def e2m1Row : List Rat := [0, 1 / 2, 1, 3 / 2, 2, 3, 4, 6]

/-- Code k is the one of R63 for the magnitude s: the nearest of R62, and of two nearest the one whose bit 0 is 0. -/
def NearestCode (s : ℝ) (k : Nat) : Prop :=
  k < 8 ∧ ∀ l < 8, abs (s - ((e2m1Row.getD k 0 : Rat) : ℝ)) < abs (s - ((e2m1Row.getD l 0 : Rat) : ℝ)) ∨
    abs (s - ((e2m1Row.getD k 0 : Rat) : ℝ)) = abs (s - ((e2m1Row.getD l 0 : Rat) : ℝ)) ∧ (l = k ∨ k % 2 = 0)

/-- What R63 calls v[i], e, s[i] and q[i] for a block of 32 values without NaN: the magnitude of s[i] (none: infinite), the code of
q[i] (7 for an infinite one), and |s[i] - q[i]| (none: infinite). -/
structure BlockOf (v : Nat → FVal) (e : Int) (s : Nat → Option ℝ) (k : Nat → Nat) (err : Nat → Option ℝ) : Prop where
  scaled : ∀ i < 32, (∀ n y, IsReal (v i) n y → s i = some (abs y * (2 : ℝ) ^ (-e))) ∧ (∀ n, v i = .inf n → s i = none)
  finite : ∀ i < 32, ∀ x, s i = some x → NearestCode x (k i) ∧ err i = some (abs (x - ((e2m1Row.getD (k i) 0 : Rat) : ℝ)))
  infinite : ∀ i < 32, s i = none → k i = 7 ∧ err i = none

/-- The thread's queue commits n of its words, the oldest first, one step each (R19, R20). -/
def commits (h : Nat) : Nat → State → State → Prop
  | 0, s, s' => s' = s
  | n + 1, s, s' => ∃ m, exec (.vectorCommit h) s = .next m ∧ commits h n m s'

/-- The operations of a pair word's halves, by OP from 1 on, as V3 words of R94 and R95. -/
def halfWords (v b : BitVec 6) (x : Bool) : List (DForm × Instr) := [
  (.int2, .vadd v v b 0 0 x), (.int2, .vsub v v b 0 0 x), (.int2, .vmul v v b 0 0 x), (.int1, .vmin v v b 0 0 x),
  (.int1, .vmax v v b 0 0 x), (.int1, .vand v v b 0 0 x), (.int1, .vor v v b 0 0 x), (.int1, .vxor v v b 0 0 x),
  (.fp2, .vfadd v v b 0 0 x), (.fp2, .vfsub v v b 0 0 x), (.fp2, .vfmul v v b 0 0 x), (.fp1, .vfmin v v b 0 0 x),
  (.fp1, .vfmax v v b 0 0 x), (.int1, .vsll v v b 0 0 x), (.int1, .vsra v v b 0 0 x)]

/-- The entry of the word that a half of pair entry e stands for, its second operand a register, the n-th captured scalar or an immediate,
with its form and the groups that it names; none for OP 0 (R94, R95, R145). -/
def halfEntry (e : QEntry) (v : BitVec 6) (hf : BitVec 12) (n : Nat) : Option (DForm × List (Nat × Nat) × QEntry) :=
  let op := hf.toNat / 256
  let kind := hf.toNat / 64 % 4
  let b := BitVec.ofNat 6 hf.toNat
  let scalar := if kind = 1 then e.op n else b.signExtend 64
  match (if op = 0 then none else (halfWords v (if kind = 2 then 0 else b) (kind != 0))[op - 1]?) with
  | some (form, i) => (encode i).map fun w =>
    (form, [(v.toNat, e.emul (fmtBits (dDfmt e.desc))), (v.toNat, e.lmul)] ++ (if kind = 0 then [(b.toNat, e.lmul)] else []),
      { e with word := w, anchor := none, ops := (if kind = 0 then [] else [scalar]) ++ [e.desc] })
  | none => none

/-- The thread's queue begins with the words of an exit region and its vexit i, whose entry is x, and nothing holds them there (R177,
R178). -/
structure AtVexit (s : State) (h : Nat) (t : Thread) (es : List QEntry) (x : QEntry) (r : List QEntry) (i : Instr) : Prop where
  th : s.th h = some t
  res : t.res = .resident
  vtrap : t.loop.vtrap = false
  queue : t.queue = es ++ x :: r
  word : decode x.word = some i
  plain : ∀ e ∈ x :: es, e.region = true ∧ e.failed = false ∧ e.vill = false ∧ featPop e.feat = 0 ∧ featPush e.feat = 0 ∧ t.awaitsLease e = none
  retq : t.retq = []
  binds : t.binds = []
  swap : s.overflowErrors t = []

/-- An element-wise word of R163 or R164. -/
def ElementWord (i : Instr) : Prop :=
  ∃ (d a b : BitVec 6) (k f : BitVec 3) (x : Bool), i ∈ [
    .vadd d a b k f x, .vsub d a b k f x, .vmul d a b k f x, .vmulh d a b k f x, .vdiv d a b k f x, .vrem d a b k f x, .vmin d a b k f x,
    .vmax d a b k f x, .vand d a b k f x, .vor d a b k f x, .vxor d a b k f x, .vsll d a b k f x, .vsrl d a b k f x, .vsra d a b k f x,
    .vsadd d a b k f x, .vssub d a b k f x, .vabsd d a b k f x, .vfadd d a b k f x, .vfsub d a b k f x, .vfmul d a b k f x,
    .vfma d a b k f x, .vfnma d a b k f x, .vfms d a b k f x, .vfdiv d a b k f x, .vfmin d a b k f x, .vfmax d a b k f x,
    .vfsqrt d a k f, .vfrsqrt d a k f, .vfexp2 d a k f, .vflog2 d a k f, .vfexp d a k f, .vfsgn d a b k f, .vfcls d a k f, .vcvt d a k f]

/-- vexit's condition on two elements, and the flags it raises (R178, R165). -/
def exitCond (x : QEntry) (c : BitVec 3) (a b : Nat) : Bool × Nat :=
  let m := intVal (dAfmt x.desc) a
  let n := intVal (dBfmt x.desc) b
  if 1 ≤ dAfmt x.desc ∧ dAfmt x.desc ≤ 8 then
    ([decide (m = n), decide (m ≠ n), decide (m < n), decide (m ≤ n), decide (n < m), decide (n ≤ m)].getD c.toNat false, 0)
  else cmpElem c.toNat x.desc a b

/-- The region is cut after the first element below u that takes part and whose condition holds (R178). -/
def CutAfter (active holds : Nat → Bool) (u m : Nat) : Prop :=
  m < u ∧ active m = true ∧ holds m = true ∧ ∀ j < m, active j = true → holds j = false

/-- u is t after the region's commit at a cut: VL, VSTOP.CUT while no younger strip has opened, and the VL of the strip's words that stand
in the queue are the cut (R178, R179). -/
def ClosedAt (t u : Thread) (x : QEntry) (r : List QEntry) (cut : Nat) : Prop :=
  u.queue = r.map (fun y => if y.strip = x.strip then { y with vl := cut } else y) ∧ u.vstart = 0 ∧
    (t.strip = x.strip → u.vl = cut ∧ u.vstop.toNat % 2 ^ 15 = cut % 2 ^ 15 ∧ u.vstop.toNat / 2 ^ 15 = t.vstop.toNat / 2 ^ 15) ∧
    (t.strip ≠ x.strip → u.vl = t.vl ∧ u.vstop = t.vstop)

/-- A trap of thread t can be taken at the VCP at once (R325). -/
def TrapReady (s : State) (t : Thread) : Prop :=
  t.handler = false ∧ t.tvec ≠ 0 ∧ t.loop.pending = false ∧ t.bopen = false ∧ (∀ z ∈ t.queue, z.bundle = none) ∧
    ∃ s1, s.putImage t t.queue = .ok s1

/-- The scalar loads of R113: the word, its width and its extension. -/
def loadsOf (d a : BitVec 5) (o : BitVec 12) : List (Instr × Nat × (Nat → Word)) := [
  (.ldb d a o, 1, fun x => (BitVec.ofNat 8 x).signExtend 64), (.ldh d a o, 2, fun x => (BitVec.ofNat 16 x).signExtend 64),
  (.ldw d a o, 4, fun x => (BitVec.ofNat 32 x).signExtend 64), (.ldd d a o, 8, fun x => BitVec.ofNat 64 x),
  (.ldbz d a o, 1, fun x => BitVec.ofNat 64 x), (.ldhz d a o, 2, fun x => BitVec.ofNat 64 x), (.ldwz d a o, 4, fun x => BitVec.ofNat 64 x)]

/-- The scalar stores of R113: the word and its width. -/
def storesOf (a b : BitVec 5) (o : BitVec 12) : List (Instr × Nat) := [(.stb a b o, 1), (.sth a b o, 2), (.stw a b o, 4), (.std a b o, 8)]

/-- The scalar atomics of R115: the word and its width. -/
def atomicsOf (d a b : BitVec 5) (w : Bool) (c : BitVec 3) (r : Bool) : List Instr := [
  .amoadd d a b w c r, .amoand d a b w c r, .amoor d a b w c r, .amoxor d a b w c r, .amomin d a b w c r, .amomax d a b w c r,
  .amominn d a b w c r, .amomaxn d a b w c r, .amoswp d a b w c r, .amocas d a b w c r]

/-- Byte c of DRAM as thread h reads it: the pending version of its own bundle, else the committed one (R219, R354, R355). -/
def ownByte (s : State) (h c : Nat) : Byte := (s.lineBytes h c 1).getD 0 0

/-- In s', thread h reads the n bytes of x at pa, and every other byte, in its own view and in memory, is what it was. -/
def OwnWrite (s s' : State) (h pa n x : Nat) : Prop :=
  (∀ c, s'.physByte c = s.physByte c) ∧ (∀ k < n, ownByte s' h (pa + k) = BitVec.ofNat 8 (x / 2 ^ (8 * k))) ∧
    ∀ c, (c < pa ∨ pa + n ≤ c) → ownByte s' h c = ownByte s h c

/-- Thread h, which is t, of a task of partition p whose placement instance holds a core, waits to be placed: it has the lowest TID of
the task's threads that wait (R306, R10). -/
structure Awaits (s : State) (p core : Nat) (k : Task) (h : Nat) (t : Thread) : Prop where
  task : k ∈ s.tasks
  part : k.part = p
  place : 4 ≤ k.place ∨ k.inst = instOf s.pkg core k.place
  th : s.th h = some t
  own : t.part = p ∧ t.task = k.num
  waits : t.res = .waiting ∨ t.res = .saved
  first : ∀ g u, s.th g = some u → u.part = p → u.task = k.num → (u.res = .waiting ∨ u.res = .saved) → g ≠ h → t.tid < u.tid

/-- The thread's effective level (R304). -/
def levelOf (s : State) (x : Partition) (k : Task) (t : Thread) : Nat := min 31 (k.prio + (s.time - t.entered) / x.params.age)

/-- The accounts that wait at level L, each once, in the order in which its pointer comes to them (R306). -/
structure RoundRobin (x : Partition) (L : Nat) (accounts : Nat → Prop) (order : List Nat) : Prop where
  nodup : order.Nodup
  all : ∀ a, a ∈ order ↔ accounts a
  sorted : order.Pairwise fun a b => a < b ∧ (tgetD x.pointer L 0 ≤ a ∨ b < tgetD x.pointer L 0) ∨ (tgetD x.pointer L 0 ≤ a ∧ b < tgetD x.pointer L 0)

/-- The account of visit i. -/
def visit (order : List Nat) (i : Nat) : Nat := order.getD (i % order.length) 0

/-- An account's DEFICIT at visit i: each of its visits before has added its QUANTUM (R306, R301). -/
def deficitAt (x : Partition) (order : List Nat) (i a : Nat) : Int :=
  tgetD x.deficit a 0 + ((List.range i).filter fun j => visit order j = a).length * tgetD x.params.quantum a (2 ^ 24)

/-- Task k's thread h, which is t, is the one that R306 chooses for the instances that hold a core, at level L: the first m
visits, in pointer order, meet no account with a DEFICIT above 0, the next one does (R304, R306). -/
structure Chosen (s : State) (x : Partition) (p core : Nat) (k : Task) (h : Nat) (t : Thread) (L : Nat) (order : List Nat) (m : Nat) : Prop where
  awaits : Awaits s p core k h t
  level : levelOf s x k t = L
  highest : ∀ k' g u, Awaits s p core k' g u → levelOf s x k' u ≤ L
  robin : RoundRobin x L (fun a => ∃ k' g u, Awaits s p core k' g u ∧ levelOf s x k' u = L ∧ k'.account = a) order
  before : ∀ i < m, deficitAt x order i (visit order i) ≤ 0
  found : 0 < deficitAt x order m (visit order m)
  account : k.account = visit order m
  oldest : ∀ k' g u, Awaits s p core k' g u → levelOf s x k' u = L → k'.account = k.account → k' ≠ k → k.order < k'.order

/-- The scheduler's tables are in order: every thread has one number, the threads of a task have TIDs of their own, parameters and DEFICITs lie in the ranges of R301 and R306. -/
structure Schedulable (s : State) (x : Partition) (p : Nat) : Prop where
  threads : s.threadsOk = true
  tids : ∀ g u g' u', s.th g = some u → s.th g' = some u' → u.part = p → u'.part = p → u.task = u'.task → u.tid = u'.tid → g = g'
  part : s.partAt p = some x
  age : 0 < x.params.age
  quantum : ∀ a, 1 ≤ tgetD x.params.quantum a (2 ^ 24) ∧ tgetD x.params.quantum a (2 ^ 24) ≤ 2 ^ 40
  deficit : ∀ a, -2 ^ 62 ≤ tgetD x.deficit a 0 ∧ tgetD x.deficit a 0 ≤ 2 ^ 62

/-- Slot j of core i is free and in the task's placement instance, and the core's banks can take what the thread has saved (R307, R339). -/
def Fits (s : State) (x : Partition) (k : Task) (t : Thread) (i j : Nat) : Prop :=
  i ∈ x.cores ∧ (4 ≤ k.place ∨ instOf s.pkg i k.place = k.inst) ∧ j < 2 ∧ s.inSlot i j = none ∧ s.banksFit t i = true

/-- The free octets of a core. -/
def freeOf (s : State) (i : Nat) : Nat := ((List.range 8).filter fun o => (s.coreAt i).oct o == 0).length

/-- Thread g, which is w, may be the victim of a thread that is placed at level L (R309). -/
def Yields (s : State) (x : Partition) (k : Task) (L g : Nat) (w : Thread) : Prop :=
  s.th g = some w ∧ w.res = .resident ∧ w.core ∈ x.cores ∧ (4 ≤ k.place ∨ instOf s.pkg w.core k.place = k.inst) ∧ w.svc = false ∧
    s.prioOf w < L ∧ w.residentAt + x.params.minrun ≤ s.time

end Sys2Proof.Machine

open Sys2Proof Sys2Proof.Machine

/-- R107, the words without a corner: sums, logic, shifts, comparisons, selection and products. R107 and R47: quotients and remainders
truncate towards zero; a divisor of 0 gives all ones and the dividend, and the most negative number over minus one gives itself and 0.
R107: counts of leading zeros, trailing zeros and ones, as numbers from 0 to 64.
It says that exec answers a next state for: add, sub, and, or, xor, sll, srl, sra, slt, sltn, min, max, minn, maxn, sel, mul, mulh, mulhn,
div, divn, rem, remn, clz, ctz, popc. -/
def Obligations.RegisterArithmetic : Prop :=
  (∀ d a b : BitVec 5,
    Writes (.add d a b) d (fun t => t.reg a + t.reg b) ∧
    Writes (.sub d a b) d (fun t => t.reg a - t.reg b) ∧
    Writes (.and d a b) d (fun t => t.reg a &&& t.reg b) ∧
    Writes (.or d a b) d (fun t => t.reg a ||| t.reg b) ∧
    Writes (.xor d a b) d (fun t => t.reg a ^^^ t.reg b) ∧
    Writes (.sll d a b) d (fun t => t.reg a <<< ((t.reg b).toNat % 64)) ∧
    Writes (.srl d a b) d (fun t => t.reg a >>> ((t.reg b).toNat % 64)) ∧
    Writes (.sra d a b) d (fun t => (t.reg a).sshiftRight ((t.reg b).toNat % 64)) ∧
    Writes (.slt d a b) d (fun t => oneIf ((t.reg a).toInt < (t.reg b).toInt)) ∧
    Writes (.sltn d a b) d (fun t => oneIf ((t.reg a).toNat < (t.reg b).toNat)) ∧
    Writes (.min d a b) d (fun t => if (t.reg a).toInt ≤ (t.reg b).toInt then t.reg a else t.reg b) ∧
    Writes (.max d a b) d (fun t => if (t.reg a).toInt ≤ (t.reg b).toInt then t.reg b else t.reg a) ∧
    Writes (.minn d a b) d (fun t => if (t.reg a).toNat ≤ (t.reg b).toNat then t.reg a else t.reg b) ∧
    Writes (.maxn d a b) d (fun t => if (t.reg a).toNat ≤ (t.reg b).toNat then t.reg b else t.reg a) ∧
    Writes (.sel d a b) d (fun t => if t.reg d ≠ 0 then t.reg a else t.reg b) ∧
    Writes (.mul d a b) d (fun t => BitVec.ofNat 64 ((t.reg a).toNat * (t.reg b).toNat)) ∧
    WritesSome (.mulh d a b) d (fun t x => x.toInt * 2 ^ 64 ≤ (t.reg a).toInt * (t.reg b).toInt ∧
      (t.reg a).toInt * (t.reg b).toInt < (x.toInt + 1) * 2 ^ 64) ∧
    Writes (.mulhn d a b) d (fun t => BitVec.ofNat 64 ((t.reg a).toNat * (t.reg b).toNat / 2 ^ 64))) ∧
  ((∀ d a b : BitVec 5,
    WritesSome (.div d a b) d (fun t q => (t.reg b = 0 → q = BitVec.allOnes 64) ∧
      (t.reg b = BitVec.allOnes 64 → q = -t.reg a) ∧
      (t.reg b ≠ 0 → t.reg b ≠ BitVec.allOnes 64 → q.toInt = (t.reg a).toInt.tdiv (t.reg b).toInt)) ∧
    Writes (.divn d a b) d (fun t => if t.reg b = 0 then BitVec.allOnes 64 else BitVec.ofNat 64 ((t.reg a).toNat / (t.reg b).toNat)) ∧
    WritesSome (.rem d a b) d (fun t r => (t.reg b = 0 → r = t.reg a) ∧
      (t.reg b ≠ 0 → r.toInt = (t.reg a).toInt.tmod (t.reg b).toInt)) ∧
    Writes (.remn d a b) d (fun t => if t.reg b = 0 then t.reg a else BitVec.ofNat 64 ((t.reg a).toNat % (t.reg b).toNat))) ∧
  (∀ d a : BitVec 5,
    WritesSome (.clz d a) d (fun t n => n.toNat ≤ 64 ∧ (t.reg a).toNat < 2 ^ (64 - n.toNat) ∧
      (n.toNat < 64 → 2 ^ (63 - n.toNat) ≤ (t.reg a).toNat)) ∧
    WritesSome (.ctz d a) d (fun t n => n.toNat ≤ 64 ∧ (t.reg a).toNat % 2 ^ n.toNat = 0 ∧
      (n.toNat < 64 → (t.reg a).toNat / 2 ^ n.toNat % 2 = 1)) ∧
    Writes (.popc d a) d (fun t => BitVec.ofNat 64 ((List.range 64).filter fun i => (t.reg a).getLsbD i).length)))

/-- R48 to R51, R54 to R56, R74 and R75: what the floating-point operations of the elements give, in numbers of the real line. A
pattern of a format stands for the number of R48; sum, product, fused product and sum, quotient and root are exact and rounded once;
an exact zero has the sign of IEEE 754; NaNs and infinities follow R50 and R74. Of the functions of R75: the reciprocal root everywhere,
the others where their exact value is a power of two, an integer or a special case. -/
def Obligations.FloatingPointValues : Prop :=
  ∀ f ∈ formatRows,
    (∀ x < 2 ^ f.bits,
      let neg := decide (x / 2 ^ (f.bits - 1) = 1)
      let ex : Nat := x / 2 ^ f.sb % 2 ^ f.eb
      let fr : Nat := x % 2 ^ f.sb
      let special := ex = 2 ^ f.eb - 1 ∧ (f.inf ≠ none ∨ fr = 2 ^ f.sb - 1)
      (special → f.inf ≠ none → fr = 0 → decF f.code x = .inf neg) ∧
      (special → f.inf ≠ none → fr ≠ 0 → decF f.code x = .nan (decide (fr < 2 ^ (f.sb - 1)))) ∧
      (special → f.inf = none → decF f.code x = .nan false) ∧
      (¬special → ∃ y, IsReal (decF f.code x) neg y ∧ abs y =
        if ex = 0 then (fr : ℝ) / 2 ^ f.sb * (2 : ℝ) ^ ((1 : Int) - f.bias)
        else (1 + (fr : ℝ) / 2 ^ f.sb) * (2 : ℝ) ^ ((ex : Int) - f.bias))) ∧
    (∀ mode < 6, ∀ a b d : FVal,
      let beyond := overflowOf f mode
      let product := fun (k : Bool) => ∃ m n, k = (m != n) ∧ (a = .inf m ∧ b = .inf n ∨
        ∃ y, y ≠ 0 ∧ (a = .inf m ∧ IsReal b n y ∨ IsReal a m y ∧ b = .inf n));
      (∀ m n y z, IsReal a m y → IsReal b n z →
        Gives f mode (if m = n then m else mode == 2) (y + z) beyond (addF f.code mode a b) ∧
        Gives f mode (m != n) (y * z) beyond (mulF f.code mode a b) ∧
        (z ≠ 0 → Gives f mode (m != n) (y / z) beyond (divF f.code mode a b)) ∧
        (∀ k w, IsReal d k w → Gives f mode (if (m != n) = k then k else mode == 2) (y * z + w) beyond (fmaF f.code mode a b d)) ∧
        (y = 0 → z = 0 → divF f.code mode a b = (f.nan, 16)) ∧
        (∀ i, f.inf = some i → y ≠ 0 → z = 0 → divF f.code mode a b = (i + f.sgn (m != n), 8)) ∧
        (0 ≤ y → Gives f mode m (Real.sqrt y) beyond (sqrtF f.code mode a)) ∧
        (y < 0 → sqrtF f.code mode a = (f.nan, 16))) ∧
      ((a.isNan = true ∨ b.isNan = true) → addF f.code mode a b = (f.nan, nvOf [a, b]) ∧
        mulF f.code mode a b = (f.nan, nvOf [a, b]) ∧ divF f.code mode a b = (f.nan, nvOf [a, b]) ∧
        fmaF f.code mode a b d = (f.nan, nvOf [a, b, d])) ∧
      (a.isNan = true → sqrtF f.code mode a = (f.nan, nvOf [a])) ∧
      (∀ m n y z, IsReal a m y → IsReal b n z → d.isNan = true → fmaF f.code mode a b d = (f.nan, nvOf [d])) ∧
      (∀ m n, a = .inf m → b = .inf n →
        (m ≠ n → addF f.code mode a b = (f.nan, 16)) ∧ divF f.code mode a b = (f.nan, 16)) ∧
      (∀ m n y, (a = .inf m ∧ IsReal b n y ∨ b = .inf m ∧ IsReal a n y) → y = 0 → mulF f.code mode a b = (f.nan, 16) ∧
        (d.isNan = false → fmaF f.code mode a b d = (f.nan, 16))) ∧
      (∀ k, product k → d = .inf (!k) → fmaF f.code mode a b d = (f.nan, 16)) ∧
      (∀ m n y, IsReal a m y → b = .inf n → divF f.code mode a b = (f.sgn (m != n), 0)) ∧
      sqrtF f.code mode (.inf true) = (f.nan, 16) ∧
      ∀ i, f.inf = some i →
        sqrtF f.code mode (.inf false) = (i, 0) ∧
        (∀ m, a = .inf m → b = .inf m → addF f.code mode a b = (i + f.sgn m, 0)) ∧
        (∀ m n y, (a = .inf m ∧ IsReal b n y ∨ b = .inf m ∧ IsReal a n y) → addF f.code mode a b = (i + f.sgn m, 0)) ∧
        (∀ m n y, a = .inf m → IsReal b n y → divF f.code mode a b = (i + f.sgn (m != n), 0)) ∧
        (∀ k, product k → mulF f.code mode a b = (i + f.sgn k, 0) ∧
          ((d = .inf k ∨ ∃ n w, IsReal d n w) → fmaF f.code mode a b d = (i + f.sgn k, 0))) ∧
        (∀ m n k y z, IsReal a m y → IsReal b n z → d = .inf k → fmaF f.code mode a b d = (i + f.sgn k, 0))) ∧
    (f.code = 0x11 ∨ f.code = 0x12 → ∀ c p, (c = 0x11 ∨ c = 0x12) → ∀ i, f.inf = some i →
      let a := decF c p
      let beyond := overflowOf f 0
      let nan := (f.nan, nvOf [a])
      (∀ m y, IsReal a m y →
        (0 < y → Gives f 0 false (1 / Real.sqrt y) beyond (rsqrtF f.code a)) ∧
        (y = 0 → rsqrtF f.code a = (i + f.sgn m, 8) ∧ log2F f.code a = (i + f.sgn true, 8) ∧ Gives f 0 false 1 beyond (expF f.code a)) ∧
        (y < 0 → rsqrtF f.code a = (f.nan, 16) ∧ log2F f.code a = (f.nan, 16)) ∧
        (∀ k : Int, (y = (k : ℝ) → Gives f 0 false ((2 : ℝ) ^ k) beyond (exp2F f.code a)) ∧
          (y = (2 : ℝ) ^ k → Gives f 0 false (k : ℝ) beyond (log2F f.code a)))) ∧
      (a.isNan = true → rsqrtF f.code a = nan ∧ exp2F f.code a = nan ∧ expF f.code a = nan ∧ log2F f.code a = nan) ∧
      (a = .inf false → rsqrtF f.code a = (0, 0) ∧ exp2F f.code a = (i, 0) ∧ expF f.code a = (i, 0) ∧ log2F f.code a = (i, 0)) ∧
      (a = .inf true → rsqrtF f.code a = (f.nan, 16) ∧ exp2F f.code a = (0, 0) ∧ expF f.code a = (0, 0) ∧
        log2F f.code a = (f.nan, 16)))

/-- R110, R111 and R112: immediates, bit fields and upper immediates.
It says that exec answers a next state for: addi, andi, ori, xori, slti, slli, srli, srai, bfx, bfi, lui, addpc. -/
def Obligations.ImmediateForms : Prop :=
  ∀ (d a : BitVec 5) (i : BitVec 15) (n p l : BitVec 6) (u : BitVec 20),
    Writes (.addi d a i) d (fun t => t.reg a + i.signExtend 64) ∧
    Writes (.andi d a i) d (fun t => t.reg a &&& i.zeroExtend 64) ∧
    Writes (.ori d a i) d (fun t => t.reg a ||| i.zeroExtend 64) ∧
    Writes (.xori d a i) d (fun t => t.reg a ^^^ i.zeroExtend 64) ∧
    Writes (.slti d a i) d (fun t => oneIf ((t.reg a).toInt < i.toInt)) ∧
    Writes (.slli d a n) d (fun t => t.reg a <<< n.toNat) ∧
    Writes (.srli d a n) d (fun t => t.reg a >>> n.toNat) ∧
    Writes (.srai d a n) d (fun t => (t.reg a).sshiftRight n.toNat) ∧
    WritesSome (.bfx d a p l) d (fun t x => ∀ k, x.getLsbD k = (decide (k ≤ l.toNat) && (t.reg a).getLsbD (p.toNat + k))) ∧
    (p.toNat + l.toNat < 64 → WritesSome (.bfi d a p l) d (fun t x => ∀ k < 64, x.getLsbD k =
      if p.toNat ≤ k ∧ k ≤ p.toNat + l.toNat then (t.reg a).getLsbD (k - p.toNat) else (t.reg d).getLsbD k)) ∧
    Writes (.lui d u) d (fun _ => (u ++ (0 : BitVec 12)).signExtend 64) ∧
    Writes (.addpc d u) d (fun t => t.pc + (u ++ (0 : BitVec 12)).signExtend 64)

/-- R118 and R119: a branch goes to its target where its condition holds and to the next word otherwise; the jumps write their
link, which jalr does after its source is read; a misaligned target of jalr takes the alignment trap (3) and writes no link.
It says that exec answers a next state for: beq, bne, blt, bge, bltn, bgen, jal, jalr. -/
def Obligations.BranchesAndJumps : Prop :=
  (∀ (a b : BitVec 5) (o : BitVec 15),
    let goes := fun (t : Thread) (c : Bool) => if c then t.pc + BitVec.ofInt 64 (4 * o.toInt) else t.pc + 4
    Moves (.beq a b o) (fun t => goes t (decide (t.reg a = t.reg b))) ∧
    Moves (.bne a b o) (fun t => goes t (decide (t.reg a ≠ t.reg b))) ∧
    Moves (.blt a b o) (fun t => goes t (decide ((t.reg a).toInt < (t.reg b).toInt))) ∧
    Moves (.bge a b o) (fun t => goes t (decide ((t.reg b).toInt ≤ (t.reg a).toInt))) ∧
    Moves (.bltn a b o) (fun t => goes t (decide ((t.reg a).toNat < (t.reg b).toNat))) ∧
    Moves (.bgen a b o) (fun t => goes t (decide ((t.reg b).toNat ≤ (t.reg a).toNat)))) ∧
  (∀ (d : BitVec 5) (o : BitVec 20) (s : State) (h : Nat) (t : Thread), Ready s h t →
    exec (.jal d o) s = .next (s.setTh h { t.setReg d (t.pc + 4) with pc := t.pc + BitVec.ofInt 64 (4 * o.toInt) })) ∧
  (∀ (d a : BitVec 5) (i : BitVec 15) (s : State) (h : Nat) (t : Thread), Ready s h t →
    let target := t.reg a + i.signExtend 64
    (target.toNat % 4 = 0 → exec (.jalr d a i) s = .next (s.setTh h { t.setReg d (t.pc + 4) with pc := target })) ∧
    (target.toNat % 4 ≠ 0 → t.queue = [] → Trappable s t →
      ∃ s', exec (.jalr d a i) s = .next s' ∧ TrapTaken s s' h t 3 0 target.toNat 0 t.pc))

/-- R113: the loads, with their widths and extensions. R113: the stores, with their widths.
It says that exec answers a next state for: ldb, ldh, ldw, ldd, ldbz, ldhz, ldwz, stb, sth, stw, std. -/
def Obligations.ScalarLoadsAndStores : Prop :=
  (∀ (d a : BitVec 5) (o : BitVec 12),
    Loads (.ldb d a o) d a o 1 (fun x => (BitVec.ofNat 8 x).signExtend 64) ∧
    Loads (.ldh d a o) d a o 2 (fun x => (BitVec.ofNat 16 x).signExtend 64) ∧
    Loads (.ldw d a o) d a o 4 (fun x => (BitVec.ofNat 32 x).signExtend 64) ∧
    Loads (.ldd d a o) d a o 8 (fun x => BitVec.ofNat 64 x) ∧
    Loads (.ldbz d a o) d a o 1 (fun x => BitVec.ofNat 64 x) ∧
    Loads (.ldhz d a o) d a o 2 (fun x => BitVec.ofNat 64 x) ∧
    Loads (.ldwz d a o) d a o 4 (fun x => BitVec.ofNat 64 x)) ∧
  (∀ (a b : BitVec 5) (o : BitVec 12),
    Stores (.stb a b o) a b o 1 ∧ Stores (.sth a b o) a b o 2 ∧ Stores (.stw a b o) a b o 4 ∧ Stores (.std a b o) a b o 8)

/-- R116 and R115: the atomics on 4 and on 8 bytes, with and without release.
It says that exec answers a next state for: amoadd, amoand, amoor, amoxor, amomin, amomax, amominn, amomaxn, amoswp, amocas. -/
def Obligations.ScalarAtomics : Prop :=
  ∀ (d a b : BitVec 5) (w : Bool) (c : BitVec 3) (r : Bool),
    let n := if w then 8 else 4
    Atomic (.amoadd d a b w c r) r d a b n (fun x y _ => x + y) ∧
    Atomic (.amoand d a b w c r) r d a b n (fun x y _ => x &&& y) ∧
    Atomic (.amoor d a b w c r) r d a b n (fun x y _ => x ||| y) ∧
    Atomic (.amoxor d a b w c r) r d a b n (fun x y _ => x ^^^ y) ∧
    Atomic (.amomin d a b w c r) r d a b n (fun x y _ => if asInt (8 * n) x ≤ asInt (8 * n) y then x else y) ∧
    Atomic (.amomax d a b w c r) r d a b n (fun x y _ => if asInt (8 * n) x ≤ asInt (8 * n) y then y else x) ∧
    Atomic (.amominn d a b w c r) r d a b n (fun x y _ => min x y) ∧
    Atomic (.amomaxn d a b w c r) r d a b n (fun x y _ => max x y) ∧
    Atomic (.amoswp d a b w c r) r d a b n (fun _ y _ => y) ∧
    Atomic (.amocas d a b w c r) r d a b n (fun x y z => if x = z then y else x)

/-- R105 steps 1 and 2 on loads and stores: an address with a bit of 63:48 set takes the protection fault (5), one that is not a
multiple of the width the alignment trap (3), with the address in TADDR; sd and memory stand: no register changes, no byte of DRAM but the trap image's, no bank and no byte of the host's. -/
def Obligations.BadAddressesTrap : Prop :=
  ∀ (d a b : BitVec 5) (o : BitVec 12) (s : State) (h : Nat) (t : Thread), Ready s h t → t.queue = [] → Trappable s t →
    let va := (t.reg a + o.signExtend 64).toNat
    let traps := fun (i : Instr) (n : Nat) =>
      (2 ^ 48 ≤ va → ∃ s', exec i s = .next s' ∧ TrapTaken s s' h t 5 0 va 0 t.pc) ∧
      (va < 2 ^ 48 → va % n ≠ 0 → ∃ s', exec i s = .next s' ∧ TrapTaken s s' h t 3 0 va 0 t.pc)
    traps (.ldb d a o) 1 ∧ traps (.ldh d a o) 2 ∧ traps (.ldw d a o) 4 ∧ traps (.ldd d a o) 8 ∧ traps (.ldbz d a o) 1 ∧
    traps (.ldhz d a o) 2 ∧ traps (.ldwz d a o) 4 ∧ traps (.stb a b o) 1 ∧ traps (.sth a b o) 2 ∧ traps (.stw a b o) 4 ∧
    traps (.std a b o) 8

/-- R127: syscall traps with TPC at the next word, brk with TPC at itself; both with their immediate in TCAUSE, and both after every
older queued instruction has committed. R329: sret outside a handler is a word of R85: the illegal-instruction trap (1) at it.
It says that exec answers a next state for: syscall, brk. -/
def Obligations.SystemCallsAndStraySret : Prop :=
  (∀ (c : BitVec 20) (s : State) (h : Nat) (t : Thread), Ready s h t → t.queue = [] → Trappable s t →
    (∃ s', exec (.syscall c) s = .next s' ∧ TrapTaken s s' h t 0x0C c.toNat 0 0 (t.pc + 4)) ∧
    (∃ s', exec (.brk c) s = .next s' ∧ TrapTaken s s' h t 0x0B c.toNat 0 0 t.pc)) ∧
  (∀ (c : BitVec 20) (s : State) (h : Nat) (t : Thread), Ready s h t → t.queue ≠ [] →
    exec (.syscall c) s = .next (s.setTh h { t with wait := some .drain }) ∧
    exec (.brk c) s = .next (s.setTh h { t with wait := some .drain })) ∧
  (∀ (s : State) (h : Nat) (t : Thread), Ready s h t → t.queue = [] → Trappable s t →
    ∃ s', exec .sret s = .next s' ∧ TrapTaken s s' h t 1 0 0 0 t.pc)

/-- R332, R329 and R325: a trap without a handler ends the thread with its cause, a trap in the handler ends it with cause 0x0E, and
one whose image cannot be placed with cause 0x0D; the task counts the thread as ended, and the first one by TID and cause. R329: in the
handler a word that would enter the vector instruction queue or open a strip is a word of R85, whose trap so ends the thread. -/
def Obligations.UnhandledTrapsEnd : Prop :=
  let counted := fun (s : State) (h : Nat) (t : Thread) (k : Task) (cause : Nat) => ∃ u k', s.th h = some u ∧ u.res = .ended ∧ u.queue = [] ∧
    s.task t.part t.task = some k' ∧ k'.ended = k.ended + 1 ∧ (k.ended = 0 → k'.firstTid = some (t.tid, cause))
  (∀ (s : State) (h : Nat) (t : Thread) (r : TrapReq) (k : Task), s.threadsOk = true → s.th h = some t → s.task t.part t.task = some k →
    (t.handler = true → counted (s.takeTrap h r) h t k 0x0E) ∧
    (t.handler = false → t.tvec = 0 → counted (s.takeTrap h r) h t k r.cause) ∧
    (∀ c, t.handler = false → t.tvec ≠ 0 → s.putImage (r.of t) (if r.vside then t.queue else []) = .trap c →
      counted (s.takeTrap h r) h t k 0x0D)) ∧
  (∀ (i : Instr) (s : State) (h : Nat) (t : Thread) (k : Task), queued i = true ∨ opensStrip i = true → Ready s h t → t.handler = true →
    t.queue = [] → s.threadsOk = true → s.task t.part t.task = some k → ∃ s', exec i s = .next s' ∧ counted s' h t k 0x0E)

/-- R330: sret in a handler whose image holds no queue entry: the thread runs on at TPC, outside the handler, with an empty queue; it
writes no scalar register, vector register, mask, tile, flag or token. R78 and R329: where TPC is no multiple of 4 the transfer's alignment
trap, in a handler, ends the thread.
It says that exec answers a next state for: sret. -/
def Obligations.ReturnFromTrap : Prop :=
  (∀ (s : State) (h : Nat) (t : Thread) (pa place : Nat), Ready s h t → t.handler = true → t.queue = [] → t.imgq = [] →
    t.tpc.toNat % 4 = 0 → s.checkAccess t .S .load t.grbase.toNat 4096 = .ok (.dram pa place) → (∀ l ∈ linesOf pa 4096, Quiet s l) →
    ∃ s' u, exec .sret s = .next s' ∧ s'.th h = some u ∧ u.pc = t.tpc ∧ u.handler = false ∧ u.queue = [] ∧ u.regs = t.regs ∧
      u.vregs = t.vregs ∧ u.vspan = t.vspan ∧ u.masks = t.masks ∧ u.tiles = t.tiles ∧ u.flags = t.flags ∧ u.tokens = t.tokens ∧
      u.qregs = t.qregs ∧ u.tcause = t.tcause ∧ u.tvec = t.tvec ∧ Apart s s' h ∧ ∀ c, s'.physByte c = s.physByte c) ∧
  (∀ (s : State) (h : Nat) (t : Thread), Ready s h t → t.handler = true → t.queue = [] → t.tpc.toNat % 4 ≠ 0 →
    ∃ s' u, exec .sret s = .next s' ∧ s'.th h = some u ∧ u.res = .ended)

/-- R121 and R122: qpop takes the oldest entry of its queue register; qcnt counts the entries and takes none. R88 and R138: a prefix lends its
features to the next word and does nothing else.
It says that exec answers a next state for: qpop, qcnt, pfx. -/
def Obligations.QueueRegistersAndPrefixes : Prop :=
  (∀ (d : BitVec 5) (q : BitVec 3),
    (∀ s h t e r x, Ready s h t → t.q q.toNat = e :: r → e.val = some x →
      ∃ u, exec (.qpop d q) s = .next (s.setTh h u) ∧ u = { t with regs := u.regs, qregs := u.qregs, pc := t.pc + 4 } ∧
        u.q q.toNat = r ∧ (∀ p, p ≠ q.toNat → u.q p = t.q p) ∧ ∀ k, u.reg k = if k = d ∧ d ≠ 0 then x else t.reg k) ∧
    Writes (.qcnt d q) d (fun t => BitVec.ofNat 64 ((t.q q.toNat).filter fun e => e.val.isSome).length)) ∧
  (∀ (p : Bool) (m : BitVec 3) (e : Bool) (r : BitVec 6) (o u : BitVec 4) (s : State) (h : Nat) (t : Thread), Ready s h t →
    ∃ w x, exec (.pfx p m e r o u) s = .next (s.setTh h w) ∧ w = { t with pc := t.pc + 4, pend := some x } ∧
      x.popDone = false ∧ featP x.feat = p ∧ featMask x.feat = m.toNat ∧ featD x.feat = e ∧ featDreg x.feat = r.toNat ∧
      featPop x.feat = o.toNat ∧ featPush x.feat = u.toNat)

/-- R123, R124 and R38: with nothing older in the vector queue or on its way a fence completes, and so does a barrier for one thread;
only the pc changes. R36: an arrival that does not complete its generation waits and is counted; the one that completes it lets the
others go. R38: a barrier that has arrived waits until its generation completes, and then departs (that the `bar` at its address takes up
an arrival which a trap has left standing is the model's choice, log 75). R125: a count of 0 or above the instance's slots is illegal, one
that differs from the open generation's takes the barrier-count trap (8). R125 and R389: at POD scope a package that cannot be reached over
the pod barrier network gives the protection fault with the lowest such package in TADDR; else the arrival is counted.
It says that exec answers a next state for: fenceAcq, fenceRel, fenceFull, fenceSv, fenceAlias, bar. -/
def Obligations.FencesAndBarriers : Prop :=
  (∀ (v : BitVec 3) (a : BitVec 5) (s : State) (h : Nat) (t : Thread), Ready s h t → t.queue = [] → Settled s h →
    (∀ i ∈ [Instr.fenceAcq v, .fenceRel v, .fenceFull v, .fenceSv, .fenceAlias v], exec i s = .next (s.setTh h { t with pc := t.pc + 4 })) ∧
    (t.arrivalHere v.toNat = none → 1 ≤ v.toNat → v.toNat ≤ 4 → t.reg a = 1 →
      (∀ g ∈ s.bars, ¬ (g.part = t.part ∧ g.task = t.task ∧ g.scope = v.toNat)) →
      ∃ s', exec (.bar a v) s = .next s' ∧ s'.th h = some { t with pc := t.pc + 4 } ∧ s'.threads = (s.setTh h { t with pc := t.pc + 4 }).threads)) ∧
  (∀ (a : BitVec 5) (v : BitVec 3) (s : State) (h g : Nat) (t : Thread), Ready s h t → t.queue = [] → Settled s h →
    t.arrivalHere v.toNat = none → 1 ≤ v.toNat → v.toNat ≤ 4 → t.reg a = 2 → g ≠ h →
    (∀ b ∈ s.bars, ¬ (b.part = t.part ∧ b.task = t.task ∧ b.scope = v.toNat)) →
    let inst := instOf s.pkg t.core v.toNat
    (∃ s' u, exec (.bar a v) s = .next s' ∧ s'.th h = some u ∧ u.wait = some .bar ∧ u.pc = t.pc ∧
      u.arrivals = t.arrivals ++ [{ pc := t.pc, handler := t.handler, scope := v.toNat, inst := inst, count := 2, done := false }] ∧
      ∃ b ∈ s'.bars, b.part = t.part ∧ b.task = t.task ∧ b.scope = v.toNat ∧ b.inst = inst ∧ b.count = 2 ∧ b.arrived = [h]) ∧
    (∀ w, s.th g = some w →
      let b : BarGen := { part := t.part, task := t.task, scope := v.toNat, inst := inst, count := 2, arrived := [g] }
      ∃ s' u, exec (.bar a v) { s with bars := b :: s.bars } = .next s' ∧ s'.th h = some u ∧ u.pc = t.pc + 4 ∧ u.arrivals = t.arrivals ∧
        s'.th g = some { w with arrivals := w.arrivals.map fun x => if x.scope = v.toNat ∧ x.inst = inst then { x with done := true } else x } ∧
        ∀ c ∈ s'.bars, ¬ (c.part = t.part ∧ c.task = t.task ∧ c.scope = v.toNat))) ∧
  (∀ (a : BitVec 5) (v : BitVec 3) (s : State) (h : Nat) (t : Thread) (x : Arrival), Ready s h t → t.arrivalHere v.toNat = some x →
    (x.done = true →
      exec (.bar a v) s = .next (s.setTh h { t with pc := t.pc + 4, arrivals := t.arrivals.filter fun y => y != x })) ∧
    (x.done = false → exec (.bar a v) s = .next (s.setTh h { t with wait := some .bar }))) ∧
  (∀ (a : BitVec 5) (v : BitVec 3) (s : State) (h : Nat) (t : Thread), Ready s h t → t.queue = [] → Settled s h → Trappable s t →
    t.arrivalHere v.toNat = none → 1 ≤ v.toNat → v.toNat ≤ 4 →
    let n := (t.reg a).toNat
    let slots := [2, 8, 256, 2048].getD (v.toNat - 1) 0
    let same := fun (b : BarGen) => b.part = t.part ∧ b.task = t.task ∧ b.scope = v.toNat ∧ b.inst = instOf s.pkg t.core v.toNat
    (n = 0 ∨ slots < n → ∃ s', exec (.bar a v) s = .next s' ∧ TrapTaken s s' h t 1 0 0 0 t.pc) ∧
    (n ≠ 0 → n ≤ slots → (∃ b ∈ s.bars, same b) → (∀ b ∈ s.bars, same b → b.count ≠ n) →
      ∃ s', exec (.bar a v) s = .next s' ∧ TrapTaken s s' h t 8 0 0 0 t.pc)) ∧
  (∀ (a : BitVec 5) (s : State) (h : Nat) (t : Thread) (p : Partition), Ready s h t → t.queue = [] → Settled s h → t.arrivalHere 5 = none →
    s.partAt t.part = some p → p.pod ≠ 0 → (∀ b ∈ s.bars, ¬ (b.part = t.part ∧ b.task = t.task ∧ b.scope = 5)) →
    let others := s.shares.filter fun x => x.pod == p.pod && x.pkg != s.pkg
    let net := ∃ l ∈ s.links, 2 ≤ l.1 ∧ l.2.state = 2 ∧ l.2.lfeat.getLsbD 1 = true ∧ l.2.pfeat.getLsbD 1 = true
    let away := fun (k : Nat) => (∃ x ∈ others, x.pkg = k) ∧ (¬ net ∨ k ∈ s.podLost)
    let n := (t.reg a).toNat
    let one := { t with pc := t.pc + 4 }
    (n = 0 ∨ 2048 * (1 + others.length) < n → Trappable s t → ∃ s', exec (.bar a 5) s = .next s' ∧ TrapTaken s s' h t 1 0 0 0 t.pc) ∧
    (n ≠ 0 → n ≤ 2048 * (1 + others.length) →
      (∀ k, away k → (∀ j, away j → k ≤ j) → Trappable s t → ∃ s', exec (.bar a 5) s = .next s' ∧ TrapTaken s s' h t 5 0 k 0 t.pc) ∧
      ((∀ k, ¬ away k) → n = 1 → ∃ s', exec (.bar a 5) s = .next s' ∧ s'.threads = (s.setTh h one).threads ∧ s'.bars = s.bars) ∧
      ((∀ k, ¬ away k) → 2 ≤ n → ∃ s' u, exec (.bar a 5) s = .next s' ∧ s'.th h = some u ∧ u.wait = some .bar ∧ u.pc = t.pc ∧
        u.arrivals = t.arrivals ++ [{ pc := t.pc, handler := t.handler, scope := 5, inst := s.pkg, count := n, done := false }] ∧
        s'.bars = s.bars ++ [{ part := t.part, task := t.task, scope := 5, inst := s.pkg, count := n, arrived := [h] }])))

/-- R230, R244, R245 and R251: the core's own windows. The bytes of a bank in SCRATCH mode are plain storage to scalar and vector loads and
stores; those of a bank in FIFO mode are loaded and take no store; a bank in CACHE mode admits neither; no atomic is admitted. A load of
the FIFO control window gives HEAD or TAIL; a store to HEAD of a multiple of 16 from HEAD to TAIL is performed, every other takes the
protection fault. The counters read as the thread's line requests. A vwait in the queue holds scalar accesses, the model's reading (log 61). -/
def Obligations.CoreStoreAccesses : Prop :=
  (∀ (d a b : BitVec 5) (o : BitVec 12) (s : State) (h : Nat) (t : Thread), Ready s h t → t.vwaiting = false → s.unflipped h = false →
    let va := (t.reg a + o.signExtend 64).toNat
    let core := s.coreAt t.core
    let loads := fun (i : Instr) (x : Word) => ∃ s' u, exec i s = .next s' ∧ s'.th h = some u ∧ OnlyRegs t u ∧ u.pc = t.pc + 4 ∧
      (∀ k, u.reg k = if k = d ∧ d ≠ 0 then x else t.reg k) ∧ (∀ c, s'.physByte c = s.physByte c) ∧ Apart s s' h
    let stores := fun (i : Instr) (P : Core → Prop) => ∃ s' u, exec i s = .next s' ∧ s'.th h = some u ∧ OnlyRegs t u ∧ u.pc = t.pc + 4 ∧
      u.regs = t.regs ∧ (∀ c, s'.physByte c = s.physByte c) ∧ s'.hostMem = s.hostMem ∧ (∀ g, g ≠ h → s'.th g = s.th g) ∧
      (∀ c, c ≠ t.core → s'.coreAt c = s.coreAt c) ∧ P (s'.coreAt t.core)
    let faults := fun (i : Instr) => t.queue = [] → Trappable s t → ∃ s', exec i s = .next s' ∧ TrapTaken s s' h t 5 0 va 0 t.pc
    (∀ p, p < 0xC0000 → va = 0xFF0000000000 + p →
      let mode := core.mode (p / 65536)
      (∀ i n v, (i, n, v) ∈ loadsOf d a o → p % n = 0 →
        (mode = 1 ∨ mode = 2 → loads i (v (leNat (mgetN core.banks p n)))) ∧ (mode = 0 → faults i)) ∧
      (∀ i n, (i, n) ∈ storesOf a b o → p % n = 0 →
        (mode = 1 → core.banks.wf = true → stores i fun y =>
          (∀ k < n, mget y.banks (p + k) = BitVec.ofNat 8 ((t.reg b).toNat / 2 ^ (8 * k))) ∧
          (∀ c, (c < p ∨ p + n ≤ c) → mget y.banks c = mget core.banks c) ∧ y = { core with banks := y.banks }) ∧
        (mode ≠ 1 → faults i)) ∧
      (∀ w c r, o = 0 → p % (if w then 8 else 4) = 0 → (r = true → s.fenceDone h t 1 = true) → ∀ i ∈ atomicsOf d a b w c r, faults i)) ∧
    (∀ k : Nat, k < 12 → core.mode k = 2 →
      let x := (t.reg b).toNat
      (va = 0xFF0000100000 + 16 * k → loads (.ldd d a o) (BitVec.ofNat 64 (core.head k)) ∧
        (x % 16 = 0 → core.head k ≤ x → x ≤ core.tail k → stores (.std a b o) fun y =>
          y.head k = x ∧ (∀ j, j ≠ k → y.head j = core.head j) ∧ y = { core with fifoHead := y.fifoHead }) ∧
        (x % 16 ≠ 0 ∨ x < core.head k ∨ core.tail k < x → faults (.std a b o))) ∧
      (va = 0xFF0000100008 + 16 * k → loads (.ldd d a o) (BitVec.ofNat 64 (core.tail k)) ∧ faults (.std a b o))) ∧
    (va = 0xFF0000200000 → loads (.ldd d a o) t.localReq) ∧ (va = 0xFF0000200008 → loads (.ldd d a o) t.remote) ∧
    (va = 0xFF0000200010 → loads (.ldd d a o) t.offpkg)) ∧
  (∀ (d : BitVec 6) (a : BitVec 5) (k : BitVec 3) (s : State) (h : Nat) (t : Thread) (e : QEntry) (r : List QEntry) (p : Nat),
    Shaped t e → d.toNat % e.lmul = 0 → e.op 0 = BitVec.ofNat 64 (0xFF0000000000 + p) → p % e.w = 0 → p + e.vl * e.w ≤ 0xC0000 →
    let P := takesPart t e.vl (act e t k)
    let core := s.coreAt t.core
    let at_ := fun (n : Nat) => p + n * e.w
    (AtVcp s h t e r (.vld d a k) → s.sending h = false → (∀ n, P n → core.mode (at_ n / 65536) = 1 ∨ core.mode (at_ n / 65536) = 2) →
      core.banks.wf = true →
      ∃ s' u, exec (.vectorCommit h) s = .next s' ∧ CommittedMem s s' h t u e r ∧ u.masks = t.masks ∧ OthersStand e t u d e.lmul ∧
        (∀ c, s'.physByte c = s.physByte c) ∧
        ∀ n < e.vlmax, el e u d e.w n = leaves e t (act e t k n) n (el e t d e.w n) (leNat (mgetN core.banks (at_ n) e.w))) ∧
    (AtVcp s h t e r (.vst d a k) → e.bundle = none → s.unflipped h = false → (∀ n, P n → core.mode (at_ n / 65536) = 1) →
      core.banks.wf = true →
      ∃ s' u, exec (.vectorCommit h) s = .next s' ∧ s'.th h = some u ∧ Committed t u e r 0 ∧ VregsStand t u ∧ u.masks = t.masks ∧
        (∀ c, s'.physByte c = s.physByte c) ∧ (∀ c, c ≠ t.core → s'.coreAt c = s.coreAt c) ∧ (∀ g, g ≠ h → s'.th g = s.th g) ∧
        (∀ n, P n → ∀ j < e.w, mget (s'.coreAt t.core).banks (at_ n + j) = BitVec.ofNat 8 (el e t d e.w n / 2 ^ (8 * j))) ∧
        ∀ c, (∀ n, P n → c < at_ n ∨ at_ n + e.w ≤ c) → mget (s'.coreAt t.core).banks c = mget core.banks c))

/-- R131, R132 and the registers' own rules: what sysrd reads of every register of R131. Which word VCP names while the queue is empty is
the model's choice (log 62).
It says that exec answers a next state for: sysrd. -/
def Obligations.SystemRegisterReads : Prop :=
  let reads := fun (n : BitVec 12) (v : State → Thread → Nat) => ∀ (d : BitVec 5) s h t, Ready s h t →
    ∃ u, exec (.sysrd d n) s = .next (s.setTh h u) ∧ u = { t with regs := u.regs, pc := t.pc + 4 } ∧
      ∀ k, u.reg k = if k = d ∧ d ≠ 0 then BitVec.ofNat 64 (v s t) else t.reg k
  let bits := fun (t : Thread) (f : Lease → Bool) => ((List.range 3).map fun c => boolN (f (t.lease c)) * 2 ^ c).sum
  reads 0x000 (fun _ t => t.tid % 2 ^ 22) ∧ reads 0x001 (fun _ t => t.task % 2 ^ 32) ∧
  reads 0x002 (fun s t => t.slot % 2 + t.core % 1024 * 2 + s.pkg % 2 ^ 11 * 2 ^ 11) ∧
  reads 0x003 (fun _ t => 1 + 2 ^ 16 + 2 ^ 24 + 2 ^ 32 + 64 * 2 ^ 40 + 2 ^ 48 + boolN t.svc * 2 ^ 49 + boolN t.handler * 2 ^ 50) ∧
  reads 0x010 (fun _ t => t.vcfg.toNat % 2 ^ 7 + t.vcfg.toNat / 2 ^ 8 % 2 ^ 6 * 2 ^ 8 + t.vcfg.toNat / 2 ^ 63 * 2 ^ 63) ∧
  reads 0x011 (fun _ t => t.vl % 2 ^ 15) ∧ reads 0x012 (fun _ t => t.vlmax) ∧ reads 0x013 (fun _ t => t.vstart % 2 ^ 15) ∧
  reads 0x014 (fun _ t => t.vstop.toNat) ∧
  reads 0x015 (fun _ t => match t.queue with
    | [] => (t.pc.toNat + 4) % 2 ^ 48 + 2 ^ 63
    | e :: _ => e.pc.toNat % 2 ^ 48 + t.queue.length % 2 ^ 7 * 2 ^ 48) ∧
  reads 0x016 (fun _ t => t.avl.toNat) ∧
  reads 0x020 (fun s t => (s.coreAt t.core).own.toNat + (s.coreAt t.core).next.toNat * 2 ^ 16) ∧
  reads 0x021 (fun s t => t.octets.toNat + ((List.range 8).filter fun b => t.octets.getLsbD b).length * 2 ^ 8 + boolN t.carried * 2 ^ 12 +
    boolN ((List.range 8).any fun b => t.octets.getLsbD b && (s.coreAt t.core).own.toNat / 4 ^ b % 4 == 3) * 2 ^ 13) ∧
  reads 0x030 (fun s t => (s.coreAt t.core).bankMode.toNat + (s.coreAt t.core).bankOwn.toNat * 2 ^ 24) ∧
  reads 0x040 (fun _ t => t.tcause.toNat) ∧ reads 0x041 (fun _ t => t.tpc.toNat) ∧ reads 0x042 (fun _ t => t.tvec.toNat) ∧
  reads 0x043 (fun _ t => t.taddr.toNat) ∧ reads 0x044 (fun _ t => t.telem.toNat) ∧ reads 0x045 (fun _ t => t.tqimg.toNat) ∧
  reads 0x050 (fun _ t => t.undstat.toNat) ∧ reads 0x051 (fun _ t => boolN t.undEnable + t.replayed.toNat * 2 ^ 32) ∧
  reads 0x060 (fun _ t => boolN t.bopen + boolN t.bdead * 2 + t.blines.toNat * 2 ^ 2 + t.bname.toNat * 2 ^ 16 + t.bcause.toNat * 2 ^ 32 +
    t.bserial.toNat * 2 ^ 40) ∧
  reads 0x070 (fun _ t => bits t (·.held) + bits t (·.req) * 2 ^ 4 + bits t (·.revoked) * 2 ^ 8 + t.stall.toNat * 2 ^ 16) ∧
  reads 0x080 (fun _ t => t.hintdrop.toNat) ∧ reads 0x090 (fun _ t => t.flags.toNat) ∧ reads 0x0A0 (fun _ t => t.grbase.toNat) ∧
  reads 0x0B0 (fun _ t => boolN t.chValid + boolN t.chPend * 2 + t.chFmt.toNat * 2 ^ 8 + t.chCount % 2 ^ 14 * 2 ^ 16) ∧
  reads 0x0C0 (fun s t => ((s.partAt t.part).map fun p => p.registry.length).getD 0 % 2 ^ 9 + t.overlaps.toNat * 2 ^ 16 + t.lastOverlap.toNat * 2 ^ 32)

/-- R131, R133 and R241: what syswr writes of the writable registers, outside and inside a handler, where the value has no reserved bit
set; and what it refuses: a write of a handler's register outside one, a reserved bit or code, and a mode of banks that R241 refuses take the
illegal-instruction trap (1); a register that R131 lets nobody write is named by no instruction (R85). That a handler's write of VL takes
every 15-bit value, where R142 maps it as 0 to VLMAX, and that its write of VCFG keeps VILL, bit 63, are the model's reading (log 23, DEDUCED).
It says that exec answers a next state for: syswr. -/
def Obligations.SystemRegisterWrites : Prop :=
  (∀ (a : BitVec 5) (s : State) (h : Nat) (t : Thread), Ready s h t →
    let x := t.reg a
    let n := x.toNat
    (n < 2 ^ 6 → exec (.syswr a 0x090) s = .next (s.setTh h { t with pc := t.pc + 4, flags := BitVec.ofNat 6 n })) ∧
    (n < 2 ^ 48 → exec (.syswr a 0x080) s = .next (s.setTh h { t with pc := t.pc + 4, hintdrop := BitVec.ofNat 48 n })) ∧
    (n < 2 ^ 48 → n % 4 = 0 → exec (.syswr a 0x042) s = .next (s.setTh h { t with pc := t.pc + 4, tvec := x })) ∧
    (n / 2 % 2 ^ 31 = 0 → exec (.syswr a 0x051) s =
      .next (s.setTh h { t with pc := t.pc + 4, undEnable := decide (n % 2 = 1), replayed := BitVec.ofNat 32 (n / 2 ^ 32) })) ∧
    (∀ s1, s.writeBankMode h t.core t.slot x = some s1 → ∃ s', exec (.syswr a 0x030) s = .next s' ∧ s'.cores = s1.cores ∧ s'.mem = s.mem ∧
      ∃ u, s'.th h = some u ∧ u.pc = t.pc + 4 ∧ u.regs = t.regs ∧ u.flags = t.flags ∧ ∀ g, g ≠ h → s'.th g = s1.th g) ∧
    (t.handler = true → n < 2 ^ 48 → exec (.syswr a 0x041) s = .next (s.setTh h { t with pc := t.pc + 4, tpc := x })) ∧
    (t.handler = true → n < 2 ^ 15 → exec (.syswr a 0x013) s = .next (s.setTh h { t with pc := t.pc + 4, vstart := n })) ∧
    (t.handler = true → n < 2 ^ 15 → exec (.syswr a 0x011) s = .next (s.setTh h { t with pc := t.pc + 4, vl := n, cfgDirty := true })) ∧
    (t.handler = true → n < 2 ^ 21 → n / 2 ^ 16 ≤ 16 →
      exec (.syswr a 0x014) s = .next (s.setTh h { t with pc := t.pc + 4, vstop := BitVec.ofNat 21 n })) ∧
    (t.handler = true → n % 8 < 4 → n / 2 ^ 7 % 2 = 0 → n / 2 ^ 8 % 8 ≠ 7 → n / 2 ^ 14 % 2 ^ 49 = 0 →
      let c := BitVec.ofNat 64 (n % 2 ^ 14 + t.vcfg.toNat / 2 ^ 63 * 2 ^ 63)
      exec (.syswr a 0x010) s = .next (s.setTh h { t with pc := t.pc + 4, cfgDirty := true, vcfg := c })) ∧
    (t.handler = true → exec (.syswr a 0x016) s = .next (s.setTh h { t with pc := t.pc + 4, avl := x })) ∧
    (t.queue = [] → Trappable s t →
      let refused := fun (k : BitVec 12) => ∃ s', exec (.syswr a k) s = .next s' ∧ TrapTaken s s' h t 1 0 0 0 t.pc
      (∀ k ∈ [0x010, 0x011, 0x013, 0x014, 0x016, 0x041], refused k) ∧ (2 ^ 6 ≤ n → refused 0x090) ∧ (2 ^ 48 ≤ n → refused 0x080) ∧
      (2 ^ 48 ≤ n ∨ n % 4 ≠ 0 → refused 0x042) ∧ (n / 2 % 2 ^ 31 ≠ 0 → refused 0x051) ∧
      (2 ^ 36 ≤ n ∨ s.writeBankMode h t.core t.slot x = none → refused 0x030))) ∧
  (∀ (a : BitVec 5) (n : BitVec 12), n ∉ ([0x010, 0x011, 0x013, 0x014, 0x016, 0x030, 0x041, 0x042, 0x051, 0x080, 0x090] : List (BitVec 12)) →
    ∀ w, decode w ≠ some (.syswr a n))

/-- R27, R28, R29, R24 and R152: setcfg, setvl and setvli open a strip: VLMAX from the octets the thread owns now and from VCFG, VILL by its
four conditions, and the grant; LGRANT shows those octets, not carried, and VSTOP is 0. That VLMAX is 0 for a SEW code that R27 gives no
width is the model's choice (log 15, DEDUCED).
It says that exec answers a next state for: setvl, setcfg, setvli. -/
def Obligations.StripOpening : Prop :=
  ∀ (d a : BitVec 5) (l : BitVec 15) (s : State) (h : Nat) (t : Thread), Ready s h t → t.handler = false →
    let owned := (List.range 8).filter fun b => (s.coreAt t.core).own.toNat / 4 ^ b % 4 = t.slot + 1
    let count := owned.length
    let limit := fun (x : Nat) => if x % 8 < 4 then count * 8 * 256 * 2 ^ (x / 8 % 4) / (8 * 2 ^ (x % 8)) else 0
    let ill := fun (x : Nat) => 4 ≤ x % 8 ∨ x / 2 ^ 8 % 8 = 7 ∨ x / 2 ^ 7 % 2 = 1 ∨ x / 2 ^ 14 % 2 ^ 49 ≠ 0 ∨ limit x < 64
    let opens := fun (i : Instr) (cfg : Nat) (vl : Nat) (sd : Nat) (avl : Word) => ∃ s' u, exec i s = .next s' ∧ s'.th h = some u ∧
      u.pc = t.pc + 4 ∧ u.vlmax = limit cfg ∧ u.vl = vl ∧ u.avl = avl ∧ u.vstop = 0 ∧ u.carried = false ∧
      (∀ b < 8, u.octets.getLsbD b = owned.contains b) ∧ u.vstart = t.vstart ∧ u.vcfg.toNat % 2 ^ 63 = cfg % 2 ^ 63 ∧
      (u.vcfg.toNat / 2 ^ 63 = 1 ↔ ill cfg) ∧ (∀ k, u.reg k = if k = d ∧ d ≠ 0 then BitVec.ofNat 64 sd else t.reg k) ∧
      u.vregs = t.vregs ∧ u.vspan = t.vspan ∧ u.masks = t.masks ∧ u.tiles = t.tiles ∧ u.flags = t.flags ∧ Apart s s' h ∧
      ∀ c, s'.physByte c = s.physByte c
    let c := t.vcfg.toNat
    let x := (t.reg a).toNat
    (ill x → opens (.setcfg d a) x 0 0 t.avl) ∧ (¬ ill x → opens (.setcfg d a) x 0 (limit x) t.avl) ∧
    (ill c → opens (.setvl d a) c 0 0 (t.reg a)) ∧ (¬ ill c → opens (.setvl d a) c (min x (limit c / 64 * 64)) (min x (limit c / 64 * 64)) (t.reg a)) ∧
    (ill c → opens (.setvli d l) c 0 0 (l.zeroExtend 64)) ∧
    (¬ ill c → opens (.setvli d l) c (min l.toNat (limit c / 64 * 64)) (min l.toNat (limit c / 64 * 64)) (l.zeroExtend 64))

/-- R42: vclaim on a claim record in DRAM takes min(AVL grant, what is left) from it: sd receives the old counter, VL the grant, and the
counter goes up by the grant. R199 and R200: rclaim registers the range of its record and answers with a result word; rfree frees an entry.
It says that exec answers a next state for: vclaim, rclaim, rfree. -/
def Obligations.ClaimsOfWorkAndDraws : Prop :=
  (∀ (d a b : BitVec 5) (s : State) (h : Nat) (t : Thread) (pa place : Nat), Ready s h t → t.handler = false → s.mem.wf = true →
    t.vwaiting = false → s.unflipped h = false →
    let r := t.openStrip ((s.coreAt t.core).sample t.slot) t.vcfg.toNat
    s.checkAccess t .S .atomic (t.reg a).toNat 16 = .ok (.dram pa place) → pa % 16 = 0 → Quiet s (pa / 128) →
    r.vcfg.toNat / 2 ^ 63 = 0 →
    let old := leNat (s.physBytes pa 8)
    let lim := leNat (s.physBytes (pa + 8) 8)
    let g := min (min (t.reg b).toNat (r.vlmax / 64 * 64)) (lim - old)
    ∃ s' u, exec (.vclaim d a b) s = .next s' ∧ s'.th h = some u ∧ u.pc = t.pc + 4 ∧ u.vl = g ∧ u.avl = t.reg b ∧ u.vlmax = r.vlmax ∧
      (∀ k, u.reg k = if k = d ∧ d ≠ 0 then BitVec.ofNat 64 old else t.reg k) ∧
      leNat (s'.physBytes pa 8) = (old + g) % 2 ^ 64 ∧ ∀ c, (c < pa ∨ pa + 8 ≤ c) → s'.physByte c = s.physByte c) ∧
  ((∀ (d a : BitVec 5) (s : State) (h : Nat) (t : Thread) (p : Partition) (s1 s2 s3 : State) (x0 x1 x2 n : Nat), Ready s h t →
    (s.setTh h t).scalarRead h t (t.reg a).toNat 8 = .ok (s1, x0) → s1.scalarRead h t ((t.reg a).toNat + 8) 8 = .ok (s2, x1) →
    s2.scalarRead h t ((t.reg a).toNat + 16) 8 = .ok (s3, x2) → s3.partAt t.part = some p → p.registry = [] → x2 / 2 ^ 32 % 2 ^ 32 = n + 1 →
    ∃ s' u q, exec (.rclaim d a) s = .next s' ∧ s'.th h = some u ∧ u.pc = t.pc + 4 ∧
      (d ≠ 0 → u.reg d = 0) ∧ s'.partAt t.part = some q ∧
      q.registry = [(0, { key := BitVec.ofNat 64 x0, prefix_ := BitVec.ofNat 64 x1, base := x2 % 2 ^ 32, count := n + 1, task := t.task })]) ∧
  (∀ (d a : BitVec 5) (s : State) (h : Nat) (t : Thread) (p : Partition) (c : Claim), Ready s h t → s.partAt t.part = some p →
    (t.reg a).toNat < 256 → tget p.registry (t.reg a).toNat = some c →
    ∃ s' u q, exec (.rfree d a) s = .next s' ∧ s'.th h = some u ∧ u.pc = t.pc + 4 ∧ (d ≠ 0 → u.reg d = 0) ∧
      s'.partAt t.part = some q ∧ tget q.registry (t.reg a).toNat = none))

/-- R135 and R136: pfh never traps and always completes: it changes no register but HINTDROP, which counts it when it is dropped, and, for
the write-back of `.evict`, the line-request counters (R249); memory and banks stand. One that fails its check is counted; `.evict` (4), where it is not counted, leaves its line no dirty copy in the
core's scalar cache. Whether a resource was free is a free value (log 14).
It says that exec answers a next state for: pfh. -/
def Obligations.HintsChangeNothing : Prop :=
  ∀ (hint : BitVec 3) (a : BitVec 5) (o : BitVec 12) (s : State) (h : Nat) (t : Thread), Ready s h t →
    ∃ s' u, exec (.pfh hint a o) s = .next s' ∧ s'.th h = some u ∧ u = { t with pc := t.pc + 4, hintdrop := u.hintdrop, localReq := u.localReq, remote := u.remote, offpkg := u.offpkg } ∧
      (hint ≠ 4 → u.localReq = t.localReq ∧ u.remote = t.remote ∧ u.offpkg = t.offpkg) ∧
      (u.hintdrop = t.hintdrop ∨ u.hintdrop.toNat = min (t.hintdrop.toNat + 1) (2 ^ 48 - 1)) ∧ s'.mem = s.mem ∧ s'.clearPend = s.clearPend ∧ Apart s s' h ∧
      let va := (t.reg a + o.signExtend 64).toNat
      ((∃ c, s.checkAccess t .S (if hint = 3 then .store else .load) va 1 = .error c) →
        u.hintdrop.toNat = min (t.hintdrop.toNat + 1) (2 ^ 48 - 1)) ∧
      ∀ pa place, hint = 4 → s.checkAccess t .S .load va 1 = .ok (.dram pa place) →
        u.hintdrop.toNat = min (t.hintdrop.toNat + 1) (2 ^ 48 - 1) ∨ ∀ y ∈ (s'.coreAt t.core).dirty, y.line ≠ pa / 128

/-- R130: launch submits the 64-byte record at sa, reserves an entry of its queue register, and goes on. R12 and R126: exit with empty queues
retires the thread, and its task counts it.
It says that exec answers a next state for: launch, exit. -/
def Obligations.LaunchAndExit : Prop :=
  (∀ (q : BitVec 2) (a : BitVec 5) (s : State) (h : Nat) (t : Thread) (pa place : Nat), Ready s h t → s.fenceDone h t 1 = true →
    (t.q q.toNat).length < 8 → s.checkAccess t .S .load (t.reg a).toNat 64 = .ok (.dram pa place) → pa % 64 = 0 → Quiet s (pa / 128) →
    ∃ s' u, exec (.launch q a) s = .next s' ∧ s'.th h = some u ∧ u.pc = t.pc + 4 ∧ u.regs = t.regs ∧
      u.q q.toNat = t.q q.toNat ++ [{ tag := t.nextTag, val := none }] ∧
      s'.subs = s.subs ++ [{ src := .thread h q.toNat t.nextTag, vdev := t.vdev, core := some t.core, bytes := s.physBytes pa 64 }] ∧
      (∀ c, s'.physByte c = s.physByte c) ∧ Apart s s' h) ∧
  (∀ (s : State) (h : Nat) (t : Thread) (k : Task), Ready s h t → s.threadsOk = true → t.queue = [] → t.ceng = [] → t.crun = none →
    t.cstop = none → t.retq = [] → s.task t.part t.task = some k → ∃ s' u k', exec .exit s = .next s' ∧ s'.th h = some u ∧ u.res = .retired ∧
      s'.task t.part t.task = some k' ∧ k'.retired = k.retired + 1 ∧ k'.ended = k.ended)

/-- R304, R306, R307 and R309: which thread the scheduler chooses, where it places it, and whom it pre-empts. The level is the highest
effective one; the accounts are visited in pointer order, each visit to one without a DEFICIT above 0 adding its QUANTUM; of the account's
tasks the oldest one's waiting thread is taken. It takes the free slot whose core has the most free octets, then the lowest core, then T0;
with none free, the resident thread of the lowest level, most recently placed, of the highest core is saved for it. With no free slot, no
risen level or no waiting thread nothing changes. The tasks are those of every instance that holds the core, the pointer stays at the
chosen account, a slot whose banks do not fit counts as none, and to enter the queue counts as a rise: the model's choices (log 84). -/
def Obligations.ChoiceAndPlacement : Prop :=
  ∀ (s : State) (x : Partition) (p core : Nat), Schedulable s x p →
    (∀ k h t L order m, Chosen s x p core k h t L order m →
      (∀ i j, Fits s x k t i j →
        (∀ i' j', Fits s x k t i' j' → freeOf s i' < freeOf s i ∨ freeOf s i' = freeOf s i ∧ (i < i' ∨ i = i' ∧ j ≤ j')) →
        ∃ s' u y, exec (.threadPlacement p core) s = .next s' ∧ s'.th h = some u ∧ u.core = i ∧ u.slot = j ∧ u.entered = s.time ∧
          (u.res = .placed ∨ u.res = .resident) ∧ u.regs = t.regs ∧ u.pc = t.pc ∧ s'.partAt p = some y ∧
          tget y.pointer L = some (visit order m) ∧
          ∀ a, ((∃ k' ∈ s.tasks, k'.part = p ∧ k'.account = a ∧ ∃ g w, g ≠ h ∧ s.th g = some w ∧ w.part = p ∧ w.task = k'.num ∧
                (w.res = .waiting ∨ w.res = .saved)) → tgetD y.deficit a 0 = deficitAt x order m a) ∧
            ((¬∃ k' ∈ s.tasks, k'.part = p ∧ k'.account = a ∧ ∃ g w, g ≠ h ∧ s.th g = some w ∧ w.part = p ∧ w.task = k'.num ∧
                (w.res = .waiting ∨ w.res = .saved)) → tgetD y.deficit a 0 = min (deficitAt x order m a) 0)) ∧
      ((∀ i j, ¬Fits s x k t i j) → t.considered ≤ L →
        (∀ g w pa, Yields s x k L g w → t.savedBanks = [] → w.slot < 2 → s.canSave w = true → s.freeSlot w.part = some pa →
          (∀ o v, Yields s x k L o v → o ≠ g → s.prioOf w < s.prioOf v ∨ s.prioOf w = s.prioOf v ∧
            (v.entered < w.entered ∨ v.entered = w.entered ∧ v.core < w.core)) →
          (∀ o v, s.th o = some v → o ≠ g → (v.res = .resident ∨ v.res = .placed) → v.core = w.core → v.slot ≠ w.slot) →
          ∃ s' u v, exec (.threadPlacement p core) s = .next s' ∧ s'.th g = some v ∧ v.res = .saved ∧ v.saveSlot = some pa ∧
            s'.th h = some u ∧ u.core = w.core ∧ u.slot = w.slot ∧ u.entered = s.time ∧ (u.res = .placed ∨ u.res = .resident) ∧
            u.regs = t.regs ∧ u.pc = t.pc) ∧
        ((∀ g w, ¬Yields s x k L g w) →
          ∃ s' u, exec (.threadPlacement p core) s = .next s' ∧ s'.th h = some u ∧ u = { t with considered := u.considered }))) ∧
    ((∀ k h t, Awaits s p core k h t → (∀ i j, ¬Fits s x k t i j) ∧ levelOf s x k t < t.considered) →
      exec (.threadPlacement p core) s = .next s ∧ exec (.levelAgeing p core) s = .next s) ∧
    ((∀ k h t, Awaits s p core k h t → levelOf s x k t ≤ k.prio ∨ levelOf s x k t < t.considered) →
      exec (.levelAgeing p core) s = .next s) ∧
    ((∃ k h t, Awaits s p core k h t ∧ k.prio < levelOf s x k t ∧ t.considered ≤ levelOf s x k t) →
      exec (.levelAgeing p core) s = exec (.threadPlacement p core) s)

/-- R16, R146 and R328: the element-wise words are dispatched with the scalar that x = 1 names and the descriptor of slot f.
It says that exec answers a next state for: vadd, vsub, vmul, vmulh, vdiv, vrem, vmin, vmax, vand, vor, vxor, vsll, vsrl, vsra, vsadd, vssub,
vabsd, vcmp, vcvt, vfadd, vfsub, vfmul, vfma, vfnma, vfms, vfdiv, vfsqrt, vfrsqrt, vfexp2, vflog2, vfexp, vfmin, vfmax, vfsgn, vfcls, vfcmp. -/
def Obligations.DispatchOfArithmetic : Prop :=
  (∀ (d a b : BitVec 6) (k f : BitVec 3) (x : Bool),
    (∀ y ∈ [Instr.vadd d a b k f x, .vsub d a b k f x, .vmul d a b k f x, .vmulh d a b k f x, .vdiv d a b k f x, .vrem d a b k f
      x, .vmin d a b k f x, .vmax d a b k f x, .vand d a b k f x, .vor d a b k f x, .vxor d a b k f x, .vsll d a b k f x,
      .vsrl d a b k f x, .vsra d a b k f x, .vsadd d a b k f x, .vssub d a b k f x, .vabsd d a b k f x, .vfadd d a b k f x,
      .vfsub d a b k f x, .vfmul d a b k f x, .vfma d a b k f x, .vfnma d a b k f x, .vfms d a b k f x, .vfdiv d a b k f x,
      .vfmin d a b k f x, .vfmax d a b k f x],
      Dispatches y none (fun t => (if x then [t.reg (b.setWidth 5)] else []) ++ [t.reg (24 + f.setWidth 5)]))) ∧
  (∀ (d c k f : BitVec 3) (a b : BitVec 6) (x : Bool),
    (∀ y ∈ [Instr.vcmp d c a b k f x, .vfcmp d c a b k f x],
      Dispatches y none (fun t => (if x then [t.reg (b.setWidth 5)] else []) ++ [t.reg (24 + f.setWidth 5)]))) ∧
  (∀ (d a : BitVec 6) (k f : BitVec 3),
    (∀ y ∈ [Instr.vcvt d a k f, .vfsqrt d a k f, .vfrsqrt d a k f, .vfexp2 d a k f, .vflog2 d a k f, .vfexp d a k f, .vfcls d a k
      f],
      Dispatches y none (fun t => [t.reg (24 + f.setWidth 5)]))) ∧
  (∀ (d a b : BitVec 6) (k f : BitVec 3),
    Dispatches (.vfsgn d a b k f) none (fun t => [t.reg (24 + f.setWidth 5)]))

/-- R16, R153 and R190: the memory words of the vector and the matrix engine are dispatched with their base, and their stride where they have
one. R16, R121 and R162: mask, move, slide and reduction words are dispatched with their scalars; those that answer in a queue register
reserve its entry.
It says that exec answers a next state for: vld, vlds, vldx, vldxo, vldff, vldw, vst, vsts, vstx, vstxo, vstw, vamoAdd, vamoAnd, vamoOr,
vamoXor, vamoMin, vamoMax, vamoMinn, vamoMaxn, vamoSwp, kld, kst, zld, zst, kand, kor, kxor, kandn, knot, kmv, ksbf, ksif, ksof, kpop,
kfirst, vredsum, vfredsum, vredmin, vredmax, vfredmin, vfredmax, vargmax, vargmin, vgsum, vfgsum, vscan, vfscan, vcomp, vexpand, vslup,
vsldn, vsl1up, vsl1dn, vgath, vbsll, vbsrl, vbfsh, vmv, vbcast, vext, vins, vid, viota, vrelease, vsel. -/
def Obligations.DispatchOfMemoryMaskAndMoveWords : Prop :=
  ((∀ (d : BitVec 6) (a : BitVec 5) (k : BitVec 3),
    (∀ y ∈ [Instr.vld d a k, .vst d a k],
      Dispatches y none (fun t => [t.reg a]))) ∧
  (∀ (d b : BitVec 6) (a : BitVec 5) (k : BitVec 3),
    (∀ y ∈ [Instr.vldx d a b k, .vldxo d a b k, .vstx d a b k, .vstxo d a b k, .vamoAdd d a b k, .vamoAnd d a b k, .vamoOr d a b
      k, .vamoXor d a b k, .vamoMin d a b k, .vamoMax d a b k, .vamoMinn d a b k, .vamoMaxn d a b k, .vamoSwp d a b k],
      Dispatches y none (fun t => [t.reg a]))) ∧
  (∀ (d : BitVec 6) (a : BitVec 5) (f k : BitVec 3),
    Dispatches (.vldff d a f k) none (fun t => [t.reg a])) ∧
  (∀ (d : BitVec 6) (a : BitVec 5),
    (∀ y ∈ [Instr.vldw d a, .vstw d a],
      Dispatches y none (fun t => [t.reg a]))) ∧
  (∀ (d : BitVec 3) (a : BitVec 5),
    (∀ y ∈ [Instr.kld d a, .kst d a],
      Dispatches y none (fun t => [t.reg a]))) ∧
  (∀ (d : BitVec 6) (a b : BitVec 5) (k : BitVec 3),
    (∀ y ∈ [Instr.vlds d a b k, .vsts d a b k],
      Dispatches y none (fun t => [t.reg a, t.reg b]))) ∧
  (∀ (z : BitVec 2) (a b : BitVec 5),
    (∀ y ∈ [Instr.zld z a b, .zst z a b],
      Dispatches y none (fun t => [t.reg a, t.reg b])))) ∧
  ((∀ (d a b : BitVec 3),
    (∀ y ∈ [Instr.kand d a b, .kor d a b, .kxor d a b, .kandn d a b],
      Dispatches y none (fun _ => []))) ∧
  (∀ (d a : BitVec 3),
    (∀ y ∈ [Instr.knot d a, .kmv d a],
      Dispatches y none (fun _ => []))) ∧
  (∀ (d a k : BitVec 3),
    (∀ y ∈ [Instr.ksbf d a k, .ksif d a k, .ksof d a k],
      Dispatches y none (fun _ => []))) ∧
  (∀ (d b : BitVec 6) (k : BitVec 3),
    (∀ y ∈ [Instr.vcomp d b k, .vexpand d b k],
      Dispatches y none (fun _ => []))) ∧
  (∀ (d a b : BitVec 6) (k : BitVec 3),
    (∀ y ∈ [Instr.vgath d a b k, .vsel d a b k],
      Dispatches y none (fun _ => []))) ∧
  (∀ (d a : BitVec 6) (k : BitVec 3),
    Dispatches (.vmv d a k) none (fun _ => [])) ∧
  (∀ (d : BitVec 6) (k : BitVec 3),
    Dispatches (.vid d k) none (fun _ => [])) ∧
  (∀ (d : BitVec 6) (a k : BitVec 3),
    Dispatches (.viota d a k) none (fun _ => [])) ∧
  (∀ (d : BitVec 6),
    Dispatches (.vrelease d) none (fun _ => [])) ∧
  (∀ (q : BitVec 2) (a k : BitVec 3),
    (∀ y ∈ [Instr.kpop q a k, .kfirst q a k],
      Dispatches y (some q.toNat) (fun _ => []))) ∧
  (∀ (d b : BitVec 6) (f k : BitVec 3) (i : Bool),
    (∀ y ∈ [Instr.vredsum d f i b k, .vfredsum d f i b k, .vredmin d f i b k, .vredmax d f i b k, .vfredmin d f i b k, .vfredmax d
      f i b k, .vargmax d f i b k, .vargmin d f i b k, .vscan d f i b k, .vfscan d f i b k],
      Dispatches y none (fun t => [t.reg (24 + f.setWidth 5)]))) ∧
  (∀ (d b : BitVec 6) (f k : BitVec 3),
    (∀ y ∈ [Instr.vgsum d f b k, .vfgsum d f b k],
      Dispatches y none (fun t => [t.reg (24 + f.setWidth 5)]))) ∧
  (∀ (d b : BitVec 6) (a : BitVec 5) (k : BitVec 3),
    (∀ y ∈ [Instr.vslup d a b k, .vsldn d a b k, .vsl1up d a b k, .vsl1dn d a b k],
      Dispatches y none (fun t => [t.reg a]))) ∧
  (∀ (d b : BitVec 6) (a : BitVec 5),
    (∀ y ∈ [Instr.vbsll d a b, .vbsrl d a b, .vbfsh d a b],
      Dispatches y none (fun t => [t.reg a]))) ∧
  (∀ (d : BitVec 6) (b : BitVec 5) (k : BitVec 3),
    Dispatches (.vbcast d b k) none (fun t => [t.reg b])) ∧
  (∀ (q : BitVec 2) (a : BitVec 6) (b : BitVec 5),
    Dispatches (.vext q a b) (some q.toNat) (fun t => [t.reg b])) ∧
  (∀ (d : BitVec 6) (a b : BitVec 5),
    Dispatches (.vins d a b) none (fun t => [t.reg a, t.reg b])))

/-- R354, R355, R219 and R220: stores inside an open bundle. Such a store goes into the line's pending version, which the thread's own loads
return and no other access sees; memory stands. A 65th line and a line that is pending in another uncommitted bundle abort the bundle; a
line that a committed one has not flipped yet holds the store; a sealed line, a commons page and a page of another package take the
protection fault, and the bundle aborts with cause 5. Stores of a bundle that has aborted are discarded. -/
def Obligations.BundleStores : Prop :=
  (∀ (d a b : BitVec 5) (o : BitVec 12) (s0 : State) (h : Nat) (t0 : Thread) (g : Nat) (x : Bundle) (pa place : Nat), Ready s0 h t0 →
    let t := { t0 with bopen := true, bdead := false, bcur := some g }
    let s := s0.setTh h t
    t.vwaiting = false → tget s.bundles g = some x → x.h = h → x.stage = .open_ → s.mem.wf = true →
    let va := (t.reg a + o.signExtend 64).toNat
    let line := pa / 128
    let own := ∃ l, s.pendingOf line = some (g, x, l)
    (∀ i n v, (i, n, v) ∈ loadsOf d a o → s.checkAccess t .S .load va n = .ok (.dram pa place) → pa % n = 0 → s.routed pa = true →
      s.ownerOf line = none → s.memErr.contains line = false → s.tagsOf line = [] → own →
      ∃ s' u, exec i s = .next s' ∧ s'.th h = some u ∧ OnlyRegs t u ∧ u.pc = t.pc + 4 ∧
        ∀ k, u.reg k = if k = d ∧ d ≠ 0 then v (leNat ((List.range n).map fun j => ownByte s h (pa + j))) else t.reg k) ∧
    (∀ i n, (i, n) ∈ storesOf a b o → s.checkAccess t .S .store va n = .ok (.dram pa place) → pa % n = 0 → s.routed pa = true →
      let runs := fun (P : State → Thread → Bundle → Prop) => ∃ s' u y, exec i s = .next s' ∧ s'.th h = some u ∧ u.pc = t.pc + 4 ∧
        u.regs = t.regs ∧ u.bopen = true ∧ u.bcur = some g ∧ tget s'.bundles g = some y ∧ P s' u y
      let stays := fun (s' : State) => ∀ c, s'.physByte c = s.physByte c
      let faults := t.queue = [] → Trappable s t → ∃ s' y, exec i s = .next s' ∧ TrapTaken s s' h t 5 0 va 0 t.pc ∧
        tget s'.bundles g = some y ∧ y.stage = .aborted ∧ y.lines = [] ∧ y.cause = 5
      let plain := place ≠ 4 ∧ pkgOf pa = s.pkg
      (plain → s.sealCount line = 0 → s.ownerOf line = none →
        (s.pendingOf line = none → x.lines.length < 64 → s.pendingAt (s.homeSlice pa) < 256 → runs fun s' u y =>
          OwnWrite s s' h pa n (t.reg b).toNat ∧ u.bdead = false ∧ y.stage = .open_ ∧ y.lines.length = x.lines.length + 1 ∧
            u.blines.toNat = y.lines.length ∧ (s.clearPending line = true → s'.clearPending line = false)) ∧
        (s.pendingOf line = none → 64 ≤ x.lines.length → runs fun s' u y =>
          stays s' ∧ u.bdead = true ∧ u.bcause = 2 ∧ y.stage = .aborted ∧ y.lines = []) ∧
        (s.pendingOf line = none → x.lines.length < 64 → 256 ≤ s.pendingAt (s.homeSlice pa) → ∃ s' u, exec i s = .next s' ∧
          s'.th h = some u ∧ u.wait = some .hold ∧ u.pc = t.pc ∧ s'.bundles = s.bundles ∧ stays s') ∧
        (own → runs fun s' u y => OwnWrite s s' h pa n (t.reg b).toNat ∧ u.bdead = false ∧ y.stage = .open_ ∧ y.lines.length = x.lines.length) ∧
        (∀ g' x' l, s.pendingOf line = some (g', x', l) → g' ≠ g →
          (x'.stage ≠ .committed → runs fun s' u y => stays s' ∧ u.bdead = true ∧ u.bcause = 3 ∧ y.stage = .aborted ∧ y.lines = []) ∧
          (x'.stage = .committed → ∃ s' u, exec i s = .next s' ∧ s'.th h = some u ∧ u.wait = some .hold ∧ u.pc = t.pc ∧
            s'.bundles = s.bundles ∧ stays s'))) ∧
      (place = 4 ∨ (pkgOf pa ≠ s.pkg ∧ s.podFeature 0 = false) ∨ (plain ∧ 0 < s.sealCount line) → faults) ∧
      (let s2 := s.setTh h { t with bdead := true }
        ∃ s' u, exec i s2 = .next s' ∧ s'.th h = some u ∧ u.pc = t.pc + 4 ∧ u.regs = t.regs ∧ u.bdead = true ∧
          s'.bundles = s.bundles ∧ stays s'))) ∧
  (∀ (d : BitVec 6) (a : BitVec 5) (k : BitVec 3) (s : State) (h : Nat) (t : Thread) (e : QEntry) (r : List QEntry) (g line : Nat)
      (x : Bundle) (pa : Nat → Nat),
    AtVcp s h t e r (.vst d a k) → Shaped t e → d.toNat % e.lmul = 0 → e.bundle = some g → tget s.bundles g = some x → x.h = h →
    (x.stage = .open_ ∨ x.stage = .sealing) → s.mem.wf = true →
    let P := takesPart t e.vl (act e t k)
    let addr := fun (n : Nat) => e.op 0 + BitVec.ofNat 64 (n * e.w);
    (∀ n, P n → (∃ place, s.checkAccess t .V .store (addr n).toNat e.w = .ok (.dram (pa n) place) ∧ place ≠ 4) ∧ pa n % e.w = 0 ∧ pa n / 128 = line) →
    pkgOf (line * 128) = s.pkg → s.routed (line * 128) = true → s.sealCount line = 0 → s.ownerOf line = none →
    (s.pendingOf line = none ∧ x.lines.length < 64 ∧ s.pendingAt (s.homeSlice (line * 128)) < 256 ∨ ∃ l, s.pendingOf line = some (g, x, l)) →
    (∀ i j, P i → P j → pa i = pa j → i = j) →
    ∃ s' u, exec (.vectorCommit h) s = .next s' ∧ s'.th h = some u ∧ u.queue = r ∧ VregsStand t u ∧ u.masks = t.masks ∧
      (∀ c, s'.physByte c = s.physByte c) ∧
      (∀ n, P n → ∀ j < e.w, ownByte s' h (pa n + j) = BitVec.ofNat 8 (el e t d e.w n / 2 ^ (8 * j))) ∧
      ∀ c, (∀ n, P n → c < pa n ∨ pa n + e.w ≤ c) → ownByte s' h c = ownByte s h c)

/-- R16, R121, R203, R211, R213 and R95: matrix, quantiser, random, chorus, message, copy, object, lease and stream words, and the pair
word, are dispatched with their scalars: vopa, vops, vhad, vcvtq, zclr, zrdv, zwrv, vrand, vsend, vwait, vchor.sum, .min, .max, .argmax, .argmin, .and,
.or and .xor, cpdim, cpgo, cpstat, pwdrop, oshape, oseal, orel, ounseal, vbind, vunbind, cp. A pair word without an anchor is illegal: it takes the
illegal-instruction trap (1).
It says that exec answers a next state for: vopa, vops, zclr, zrdv, zwrv, vhad, vcvtq, vrand, vsend, vwait, vchorSum, vchorMin, vchorMax,
vchorArgmax, vchorArgmin, vchorAnd, vchorOr, vchorXor, cpdim, cpgo, cpstat, pwdrop, oshape, oseal, ounseal, orel, cp, vbind, vunbind. -/
def Obligations.DispatchOfMatrixCooperationAndCopyWords : Prop :=
  (∀ (z : BitVec 2) (a b : BitVec 6) (f : BitVec 3),
    (∀ y ∈ [Instr.vopa z a b f, .vops z a b f],
      Dispatches y none (fun t => [t.reg (24 + f.setWidth 5)]))) ∧
  (∀ (d a : BitVec 6) (k f : BitVec 3),
    Dispatches (.vhad d a k f) none (fun t => [t.reg (24 + f.setWidth 5)])) ∧
  (∀ (d a b : BitVec 6) (f k : BitVec 3),
    Dispatches (.vcvtq d a b (f, k)) none (fun t => [t.reg (24 + f.setWidth 5)])) ∧
  (∀ (z : BitVec 2),
    Dispatches (.zclr z) none (fun _ => [])) ∧
  (∀ (z : BitVec 2) (d : BitVec 6) (b : BitVec 5) (f : BitVec 3),
    Dispatches (.zrdv z d b f) none (fun t => [t.reg b, t.reg (24 + f.setWidth 5)])) ∧
  (∀ (z : BitVec 2) (a : BitVec 6) (b : BitVec 5) (f : BitVec 3),
    Dispatches (.zwrv z a b f) none (fun t => [t.reg b, t.reg (24 + f.setWidth 5)])) ∧
  (∀ (d : BitVec 6) (a b : BitVec 5) (k : BitVec 3),
    Dispatches (.vrand d a b k) none (fun t => [t.reg a, t.reg b, t.reg (b + 1)])) ∧
  (∀ (d b : BitVec 6) (k : BitVec 3),
    Dispatches (.vsend d b k) none (fun _ => [])) ∧
  (∀ (a b : BitVec 6) (s : BitVec 5) (k : BitVec 3) (q : BitVec 2),
    Dispatches (.vwait a s b k q) (some q.toNat) (fun t => [t.reg s])) ∧
  (∀ (d : BitVec 6) (a b : BitVec 5) (f : BitVec 3),
    (∀ y ∈ [Instr.vchorSum d a b f, .vchorMin d a b f, .vchorMax d a b f, .vchorArgmax d a b f, .vchorArgmin d a b f, .vchorAnd d
      a b f, .vchorOr d a b f, .vchorXor d a b f],
      Dispatches y none (fun t => [t.reg a, t.reg b, t.reg (24 + f.setWidth 5)]))) ∧
  (∀ (c a b : BitVec 5) (n : BitVec 3),
    Dispatches (.cpdim c a b n) none (fun t => [t.reg c, t.reg a, t.reg b])) ∧
  (∀ (a b : BitVec 5) (n : BitVec 3),
    Dispatches (.cpgo a b n) none (fun t => [t.reg a, t.reg b])) ∧
  (∀ (q : BitVec 2),
    Dispatches (.cpstat q) (some q.toNat) (fun _ => [])) ∧
  (∀ (c : BitVec 2),
    Dispatches (.pwdrop c) none (fun _ => [])) ∧
  (∀ (q : BitVec 2) (a : BitVec 5),
    Dispatches (.oshape q a) (some q.toNat) (fun t => [t.reg a])) ∧
  (∀ (a : BitVec 5),
    (∀ y ∈ [Instr.oseal a, .orel a],
      Dispatches y none (fun t => [t.reg a]))) ∧
  (∀ (q : BitVec 2) (a b : BitVec 5),
    Dispatches (.ounseal q a b) (some q.toNat) (fun t => [t.reg a, t.reg b])) ∧
  (∀ (d : BitVec 6) (a : BitVec 5),
    Dispatches (.vbind d a) none (fun t => [t.reg a])) ∧
  (∀ (d : BitVec 6),
    Dispatches (.vunbind d) none (fun _ => [])) ∧
  (∀ (g h : BitVec 12),
    Dispatches (.cp g h) none (fun t => halfScalars t g ++ halfScalars t h ++ [t.reg 24])) ∧
  (∀ (g k : BitVec 12) (s : State) (h : Nat) (t : Thread), Ready s h t → t.handler = false → t.anchor = none → t.queue = [] → Trappable s t →
    ∃ s', exec (.cp g k) s = .next s' ∧ TrapTaken s s' h t 1 0 0 0 t.pc)

/-- R177, R179 and R195: vxbeg opens an exit region; vexit in it closes it for the scalar stream; vhad.c opens a chain, and vcvtq.c closes it.
R219, R220 and R221: bopen opens a bundle with its name; bseal seals it and closes it; babort aborts it and closes it. Without an open
bundle the two change no bundle.
It says that exec answers a next state for: vxbeg, vexit, vhadC, vcvtqC, bopen, bseal, babort. -/
def Obligations.DispatchOpensAndCloses : Prop :=
  (∀ (c k f : BitVec 3) (a b d : BitVec 6) (s : State) (h : Nat) (t : Thread), Ready s h t → t.handler = false → t.queue.length < 64 →
    (∃ s' u, Queued s h t .vxbeg [] s' u ∧ u.regionOpen = true ∧ u.regionCount = 0) ∧
    (∀ n, (∀ y, s.heavyClass t (.vexit c a b k f) [t.reg (24 + f.setWidth 5)] = some y → (t.lease y).held = true) → n < 32 →
      let t1 := { t with vstop := BitVec.ofNat 21 (t.vstop.toNat % 2 ^ 15 + 2 ^ 15 + n * 2 ^ 16) }
      ∃ s' u, Queued (s.setTh h t1) h t1 (.vexit c a b k f) [t.reg (24 + f.setWidth 5)] s' u ∧ u.regionOpen = false ∧ u.regionCount = 0) ∧
    (∃ s' u, Queued s h t (.vhadC a k f) [t.reg (24 + f.setWidth 5)] s' u ∧ u.chPend = true) ∧
    (let t1 := { t with chPend := true }
      ∃ s' u, Queued (s.setTh h t1) h t1 (.vcvtqC d b (f, k)) [t.reg (24 + f.setWidth 5)] s' u ∧ u.chPend = false)) ∧
  (∀ (n : BitVec 16) (q : BitVec 2) (s : State) (h : Nat) (t : Thread), Ready s h t → t.handler = false → t.queue.length < 64 →
    (t.q q.toNat).length < 8 →
    (∃ s' u b, Queued s h t (.bopen n) [] s' u ∧ u.bopen = true ∧ u.bcur = some b ∧ u.bname = n ∧ u.blines = 0 ∧
      ∃ x, tget s'.bundles b = some x ∧ x.h = h ∧ x.name = n ∧ x.lines = [] ∧ x.stage = .open_) ∧
    (∃ s' u, Queued s h t (.bseal q) [] s' u ∧ s'.bundles = s.bundles ∧
      u.q q.toNat = t.q q.toNat ++ [{ tag := t.nextTag, val := none }]) ∧
    (∃ s' u, Queued s h t .babort [] s' u ∧ s'.bundles = s.bundles) ∧
    (∀ b x, tget s.bundles b = some x → x.h = h → x.stage = .open_ →
      let t1 := { t with bopen := true, bcur := some b }
      (∃ s' u, Queued (s.setTh h t1) h t1 (.bseal q) [] s' u ∧ u.bopen = false ∧
        tget s'.bundles b = some { x with stage := .sealing } ∧ u.q q.toNat = t.q q.toNat ++ [{ tag := t.nextTag, val := none }]) ∧
      (∃ s' u y, Queued (s.setTh h t1) h t1 .babort [] s' u ∧ u.bopen = false ∧ u.bcause = 7 ∧
        tget s'.bundles b = some y ∧ y.stage = .aborted ∧ y.lines = [])))

/-- R58, R165 and R72: conversions between the formats with scalar elements, comparisons, minimum and maximum. A conversion rounds and
then clamps; a comparison takes infinities as ends of the line, minus zero as equal to zero, and NaNs by the table; minimum and maximum
take minus zero below zero, take the other operand of a NaN, and round what they take where it is of another format. -/
def Obligations.ConversionsAndComparisons : Prop :=
  (∀ mode < 6, ∀ c x : Nat, ∀ f ∈ formatRows,
    let r := convert c f.code mode x
    (∀ neg y, StandsFor c x neg y → Gives f mode neg y (fun n => (f.max + f.sgn n, if c ≤ 8 then 32 else 33)) r) ∧
    (0x10 ≤ c → c ≤ 0x15 →
      (∀ n, decF c x = .inf n → r = match f.inf with
        | some i => (i + f.sgn n, 0)
        | none => (f.max + f.sgn n, 32)) ∧
      (∀ sig, decF c x = .nan sig → r = (f.nan, if sig then 16 else 0)))) ∧
  (∀ mode < 6, ∀ c x k : Nat, 1 ≤ k → k ≤ 8 →
    let r := convert c k mode x
    let w := 8 * 2 ^ ((k - 1) / 2)
    let lo : Int := if k % 2 = 1 then -2 ^ (w - 1) else 0
    let hi : Int := if k % 2 = 1 then 2 ^ (w - 1) - 1 else 2 ^ w - 1
    let clamp := if c ≤ 8 then 32 else 33
    (∀ neg y, StandsFor c x neg y → ∃ n : Nat, RoundsTo mode neg (abs y) n ∧
      let z : Int := if neg then -n else n
      (z < lo → r = (patOf w lo, clamp)) ∧ (hi < z → r = (patOf w hi, clamp)) ∧
      (lo ≤ z → z ≤ hi → r.1 = patOf w z ∧ ((n : ℝ) = abs y → r.2 = 0) ∧ ((n : ℝ) ≠ abs y → r.2 = 1))) ∧
    (0x10 ≤ c → c ≤ 0x15 →
      (∀ n, decF c x = .inf n → r = (patOf w (if n then lo else hi), 32)) ∧ (∀ sig, decF c x = .nan sig → r = (0, 48)))) ∧
  (∀ (d : Word) (c x y : Nat), 0x10 ≤ dAfmt d → c < 7 →
    let a := decF (dAfmt d) x
    let b := decF (dBfmt d) y
    (∀ p q, IsExt a p → IsExt b q → ∃ bit, cmpElem c d x y = (bit, 0) ∧ (bit = true ↔ match c with
      | 0 => p = q
      | 1 => p ≠ q
      | 2 => p < q
      | 3 => p ≤ q
      | 4 => q < p
      | 5 => q ≤ p
      | _ => False)) ∧
    ((a.isNan = true ∨ b.isNan = true) → cmpElem c d x y = match c with
      | 0 => (false, nvOf [a, b])
      | 1 | 6 => (true, nvOf [a, b])
      | _ => (false, 16))) ∧
  ∀ mode < 6, ∀ f ∈ formatRows, ∀ (greatest : Bool) (ca cb x y : Nat),
    let a := decF ca x
    let b := decF cb y
    let r := minmaxF greatest ca cb f.code mode x y
    let nv := nvOf [a, b]
    let takes := fun (c z : Nat) => (c = f.code → r = (z, nv)) ∧ (c ≠ f.code →
      (∀ n v, IsReal (decF c z) n v → ∃ p, Gives f mode n v (overflowOf f mode) p ∧ r = (p.1, nv ||| p.2)) ∧
      (∀ n i, decF c z = .inf n → f.inf = some i → r = (i + f.sgn n, nv)));
    (a.isNan = true → b.isNan = true → r = (f.nan, nv)) ∧
    (a.isNan = true → b.isNan = false → takes cb y) ∧
    (a.isNan = false → b.isNan = true → takes ca x) ∧
    (a.isNan = false → b.isNan = false →
      ((if greatest then Below a b else Below b a) → takes cb y) ∧ (¬(if greatest then Below a b else Below b a) → takes ca x))

/-- R218, R287 and R288: lmark opens a marking in rehearsal with D = p + 2, over the window vF to vL; lend ends an iteration, and the
rehearsal's last one waits for confirmation (R291). UNDSTAT shows the rehearsal (R299). R297: the last lend of the core run after a
hand-back zeroes the window and goes on at the return point, so that the back-branch is not executed. R226 and R318: pwlease asks the stage manager of the thread's die for a lease of its class, once.
It says that exec answers a next state for: pwlease, lend, lmark. -/
def Obligations.DispatchOfLoopAndLeaseWords : Prop :=
  (∀ (a i : BitVec 5) (f l : BitVec 6) (p : BitVec 3) (s : State) (h : Nat) (t : Thread), Ready s h t → t.handler = false →
    t.queue.length < 64 →
    (∃ s' u, Queued s h t (.lmark a i f l p) [t.reg a] s' u ∧ u.loop.open_ = true ∧ u.loop.stage = .rehearsal ∧ u.loop.iter = 0 ∧
      u.loop.d = p.toNat + 2 ∧ u.loop.trip = (t.reg a).toNat ∧ u.loop.head = t.pc + 4 ∧ u.loop.tReg = a ∧ u.loop.iReg = i ∧
      u.loop.vF = f ∧ u.loop.vL = l ∧ u.undstat = BitVec.ofNat 64 (1 + (p.toNat + 2) * 2 ^ 12)) ∧
    (∀ n, 0 < n → let t1 := { t with loop := { t.loop with open_ := true, stage := .rehearsal, iter := 0, lends := false, d := n } }
      ∃ s' u, Queued (s.setTh h t1) h t1 .lend [] s' u ∧ u.loop.lends = true ∧ u.loop.lendPc = some t.pc ∧
        u.wait = if n = 1 then some .lend else none) ∧
    (t.queue = [] → Trappable s t → ∃ s', exec .lend s = .next s' ∧ TrapTaken s s' h t 1 0 0 0 t.pc)) ∧
  (∀ (s : State) (h : Nat) (t : Thread), s.cur = h → s.th h = some t → t.res = .resident → t.handler = false → t.pend = none →
    t.loop.stage = .coreRun → t.loop.open_ = true → t.loop.iter + 1 = t.loop.trip → t.storesOk = true →
    (t.queue ≠ [] → exec .lend s = .next (s.setTh h { t with wait := some .drain })) ∧
    (t.queue = [] → ∃ s' u, exec .lend s = .next s' ∧ s'.th h = some u ∧ u.pc = t.loop.ret ∧ u.undstat.toNat % 16 = 6 ∧
      u.undstat.toNat / 16 % 256 = t.undstat.toNat / 16 % 256 ∧ u.loop.stage = .none ∧ u.loop.open_ = false ∧ u.wait = t.wait ∧
      u.regs = t.regs ∧ u.masks = t.masks ∧ u.tiles = t.tiles ∧ u.flags = t.flags ∧ u.tokens = t.tokens ∧ u.vcfg = t.vcfg ∧ s'.mem = s.mem ∧
      Apart s s' h ∧ ∀ len v q, q < len → len ≤ 2048 → u.regByte len v q =
        if t.loop.vF.toNat ≤ v ∧ v ≤ t.loop.vL.toNat then 0 else t.regByte len v q)) ∧
  (∀ (c : BitVec 2) (s : State) (h : Nat) (t : Thread), Ready s h t → t.handler = false → t.queue.length < 64 → c ≠ 3 →
    ((t.lease c.toNat).held = false → (t.lease c.toNat).req = false →
      ∃ s' u, Queued s h t (.pwlease c) [] s' u ∧ (u.lease c.toNat).req = true ∧ (u.lease c.toNat).held = false ∧
        (s'.dieAt (t.core / 128)).leaseQ = (s.dieAt (t.core / 128)).leaseQ ++ [{ h := h, cls := c.toNat, at_ := s.time }]) ∧
    ((t.lease c.toNat).held = true ∨ (t.lease c.toNat).req = true →
      ∃ s' u, Queued s h t (.pwlease c) [] s' u ∧ u.leases = t.leases ∧ s'.dies = s.dies))

/-- R163, R101, R102 and R56: the integer words on the elements of their groups. W is the destination's width, X and Y the numbers that
AFMT and BFMT make of the elements; a division by 0 raises DZ (bit 3), a clamped sum SAT (bit 5). -/
def Obligations.IntegerElements : Prop :=
  ∀ (d a b : BitVec 6) (k f : BitVec 3) (x : Bool),
    let run := fun (i : Instr) (form : DForm) (g : Nat → Int → Int → Nat × Nat) =>
      Elementwise i k form d a (fun e => e.bsrc b x)
        fun c m n _ => g (fmtBits (dDfmt c)) (intVal (dAfmt c) m) (intVal (dBfmt c) n)
    let bits := fun (i : Instr) (g : Nat → Nat → Nat) =>
      Elementwise i k .int1 d a (fun e => e.bsrc b x) fun _ m n _ => (g m n, 0)
    let shift := fun (i : Instr) (g : Nat → Nat → Nat → Nat) =>
      Elementwise i k .int1 d a (fun e => e.bsrc b x)
        fun c m n _ => (g (fmtBits (dDfmt c)) m (n % fmtBits (dDfmt c)), 0)
    let wrap := fun (w : Nat) (z : Int) => (z % (2 ^ w : Nat)).toNat
    let sat := fun (i : Instr) (g : Int → Int → Int) =>
      Elementwise i k .int1 d a (fun e => e.bsrc b x)
        fun c m n _ =>
          let z := g (intVal (dAfmt c) m) (intVal (dBfmt c) n)
          let y := max (intMin (dDfmt c)) (min z (intMax (dDfmt c)))
          (wrap (fmtBits (dDfmt c)) y, if y = z then 0 else 32)
    run (.vadd d a b k f x) .int2 (fun w m n => (wrap w (m + n), 0)) ∧
    run (.vsub d a b k f x) .int2 (fun w m n => (wrap w (m - n), 0)) ∧
    run (.vmul d a b k f x) .int2 (fun w m n => (wrap w (m * n), 0)) ∧
    run (.vmulh d a b k f x) .int1 (fun w m n => (wrap w (m * n / (2 ^ w : Nat)), 0)) ∧
    run (.vdiv d a b k f x) .int1 (fun w m n => if n = 0 then (2 ^ w - 1, 8) else (wrap w (m.tdiv n), 0)) ∧
    run (.vrem d a b k f x) .int1 (fun w m n => if n = 0 then (wrap w m, 8) else (wrap w (m.tmod n), 0)) ∧
    run (.vmin d a b k f x) .int1 (fun w m n => (wrap w (min m n), 0)) ∧
    run (.vmax d a b k f x) .int1 (fun w m n => (wrap w (max m n), 0)) ∧
    run (.vabsd d a b k f x) .int1 (fun w m n => (wrap w (m - n).natAbs, 0)) ∧
    bits (.vand d a b k f x) (fun m n => m &&& n) ∧ bits (.vor d a b k f x) (fun m n => m ||| n) ∧ bits (.vxor d a b k f x) (fun m n => m ^^^ n) ∧
    shift (.vsll d a b k f x) (fun w m n => m * 2 ^ n % 2 ^ w) ∧ shift (.vsrl d a b k f x) (fun _ m n => m / 2 ^ n) ∧
    shift (.vsra d a b k f x) (fun w m n => wrap w ((if m < 2 ^ (w - 1) then (m : Int) else m - (2 ^ w : Nat)) / (2 ^ n : Nat))) ∧
    sat (.vsadd d a b k f x) (fun m n => m + n) ∧ sat (.vssub d a b k f x) (fun m n => m - n)

/-- R164, R167, R74 and R75: the floating-point words and the conversion on the elements of their groups. The fused ones read their
destination as the third operand; the rounding functions of R55 are the model's. -/
def Obligations.FloatingElements : Prop :=
  ∀ (d a b : BitVec 6) (k f : BitVec 3) (x : Bool),
    let run := fun (i : Instr) (form : DForm) (src : QEntry → BSrc) (g : Word → Nat → Nat → Nat → Nat × Nat) =>
      Elementwise i k form d a src g
    let two := fun (i : Instr) (form : DForm) (g : Nat → Nat → FVal → FVal → Nat × Nat) =>
      run i form (fun e => e.bsrc b x) fun c m n _ => g (dDfmt c) (dRnd c) (decF (dAfmt c) m) (decF (dBfmt c) n)
    let three := fun (i : Instr) (g : Nat → Nat → FVal → FVal → FVal → Nat × Nat) =>
      run i .fp2 (fun e => e.bsrc b x) fun c m n z => g (dDfmt c) (dRnd c) (decF (dAfmt c) m) (decF (dBfmt c) n) (decF (dDfmt c) z)
    let one := fun (i : Instr) (form : DForm) (g : Nat → Nat → FVal → Nat × Nat) =>
      run i form (fun _ => .none) fun c m _ _ => g (dDfmt c) (dRnd c) (decF (dAfmt c) m)
    two (.vfadd d a b k f x) .fp2 (fun c m y z => addF c m y z) ∧ two (.vfsub d a b k f x) .fp2 (fun c m y z => addF c m y z.neg) ∧
    two (.vfmul d a b k f x) .fp2 (fun c m y z => mulF c m y z) ∧ two (.vfdiv d a b k f x) .fp1 (fun c m y z => divF c m y z) ∧
    three (.vfma d a b k f x) (fun c m y z v => fmaF c m y z v) ∧ three (.vfnma d a b k f x) (fun c m y z v => fmaF c m y.neg z v) ∧
    three (.vfms d a b k f x) (fun c m y z v => fmaF c m y z v.neg) ∧
    run (.vfmin d a b k f x) .fp1 (fun e => e.bsrc b x) (fun c m n _ => minmaxF false (dAfmt c) (dBfmt c) (dDfmt c) (dRnd c) m n) ∧
    run (.vfmax d a b k f x) .fp1 (fun e => e.bsrc b x) (fun c m n _ => minmaxF true (dAfmt c) (dBfmt c) (dDfmt c) (dRnd c) m n) ∧
    one (.vfsqrt d a k f) .sqrt (fun c m y => sqrtF c m y) ∧ one (.vfrsqrt d a k f) .trans (fun c _ y => rsqrtF c y) ∧
    one (.vfexp2 d a k f) .trans (fun c _ y => exp2F c y) ∧ one (.vflog2 d a k f) .trans (fun c _ y => log2F c y) ∧
    one (.vfexp d a k f) .trans (fun c _ y => expF c y) ∧
    run (.vfsgn d a b k f) .afp (fun _ => .vec b) (fun c m n _ =>
      let top := 2 ^ (fmtBits (dAfmt c) - 1)
      (m % top + n / top * top, 0)) ∧
    run (.vfcls d a k f) .afp (fun _ => .none) (fun c m _ _ => (clsElem c m).1 |> fun y => (y, 0)) ∧
    run (.vcvt d a k f) .cvt (fun _ => .none) (fun c m _ _ => convert (dAfmt c) (dDfmt c) (dRnd c) m)

/-- R165, R168 and R169: comparisons, mask logic, and the mask words that look for the first set bit. R169, R160 and R162: the words that
answer in a queue register. -/
def Obligations.MaskAndQueueDestinations : Prop :=
  ((∀ (d c k f : BitVec 3) (a b : BitVec 6) (x : Bool),
    let src := fun (e : QEntry) (t : Thread) (j : Nat) => if x then (e.op 0).toNat % 2 ^ e.sew else el e t b e.w j
    let ok := fun (form : DForm) (e : QEntry) (_ : Thread) => descOk form e.sew e.desc = true ∧ a.toNat % e.lmul = 0 ∧ (x = false → b.toNat % e.lmul = 0)
    WritesMask (.vcmp d c a b k f x) (fun e t j => act e t k j) d (ok .cmpI) (fun e t j =>
      let m := intVal (dAfmt e.desc) (el e t a e.w j)
      let n := intVal (dBfmt e.desc) (src e t j)
      ([decide (m = n), decide (m ≠ n), decide (m < n), decide (m ≤ n), decide (n < m), decide (n ≤ m)].getD c.toNat false, 0)) ∧
    WritesMask (.vfcmp d c a b k f x) (fun e t j => act e t k j) d (ok .cmpF) (fun e t j => cmpElem c.toNat e.desc (el e t a e.w j) (src e t j))) ∧
  (∀ d a b : BitVec 3,
    let logic := fun (i : Instr) (g : Bool → Bool → Bool) => WritesMask i (fun _ _ _ => true) d (fun _ _ => True) fun _ t j =>
      (g (t.maskAt a.toNat j) (t.maskAt b.toNat j), 0)
    logic (.kand d a b) (fun y z => y && z) ∧ logic (.kor d a b) (fun y z => y || z) ∧ logic (.kxor d a b) (fun y z => y != z) ∧
    logic (.kandn d a b) (fun y z => y && !z) ∧ logic (.knot d a) (fun y _ => !y) ∧ logic (.kmv d a) (fun y _ => y)) ∧
  (∀ d a k : BitVec 3,
    let set := fun (i : Instr) (g : List Nat → Nat → Bool) => WritesMask i (fun e t j => act e t k j) d (fun _ t => t.vstart = 0) fun e t j =>
      (g (hits e t k a) j, 0)
    set (.ksbf d a k) (fun l j => l.all fun y => decide (j < y)) ∧ set (.ksif d a k) (fun l j => l.all fun y => decide (j ≤ y)) ∧
    set (.ksof d a k) (fun l j => l.head? == some j))) ∧
  (∀ (q : BitVec 2) (a k : BitVec 3) (v : BitVec 6) (b : BitVec 5),
    Answers (.kpop q a k) q (fun _ t => t.vstart = 0) (fun e t => BitVec.ofNat 64 (hits e t k a).length) ∧
    Answers (.kfirst q a k) q (fun _ t => t.vstart = 0) (fun e t => ((hits e t k a).head?.map (BitVec.ofNat 64)).getD (BitVec.allOnes 64)) ∧
    Answers (.vext q v b) q (fun e _ => v.toNat % e.lmul = 0)
      (fun e t => if (e.op 0).toNat < e.vl then BitVec.ofNat 64 (el e t v e.w (e.op 0).toNat) else 0))

/-- R63: what the quantiser gives for a block of 32 values of FP32 or BF16, in numbers of the real line. R76 and R77: the word that a
draw of vrand gives, by the ten rounds. -/
def Obligations.QuantiserAndDraws : Prop :=
  (∀ (c : Nat) (p : Nat → Nat), (c = 0x11 ∨ c = 0x12) →
    let v := fun (i : Nat) => decF c (p i)
    let r := quantBlock ((List.range 32).map v)
    let code := fun (i : Nat) => r.1.getD i 0
    let sat := fun (i : Nat) => r.2.2.2.1.getD i false
    let fl := r.2.2.2.2;
    ((∃ i < 32, (v i).isNan = true) →
      (∀ i < 32, code i = 0 ∧ sat i = (v i).isNan) ∧ r.2.1 = 255 ∧ r.2.2.1 = 0 ∧ fl = 48) ∧
    ((∀ i < 32, (v i).isNan = false) → ∃ (most : ℝ) (e : Int) (s : Nat → Option ℝ) (k : Nat → Nat) (err : Nat → Option ℝ),
      (∀ i < 32, (∀ n y, IsReal (v i) n y → abs y ≤ most) ∧ (∀ n, v i = .inf n → (2 - (2 : ℝ) ^ (-23 : Int)) * (2 : ℝ) ^ (127 : Int) ≤ most)) ∧
      (∃ i < 32, (∃ n y, IsReal (v i) n y ∧ abs y = most) ∨
        (∃ n, v i = .inf n) ∧ most = (2 - (2 : ℝ) ^ (-23 : Int)) * (2 : ℝ) ^ (127 : Int)) ∧
      (most = 0 → e = -127) ∧
      (∀ lg : Int, (2 : ℝ) ^ lg ≤ most → most < (2 : ℝ) ^ (lg + 1) → e = max (-127) (min 127 (lg - 2))) ∧
      BlockOf v e s k err ∧ r.2.1 = (e + 127).toNat ∧
      let negative := fun (i : Nat) => ∃ y, IsReal (v i) true y ∨ v i = .inf true
      let plain := fun (i : Nat) => (k i = 0 → code i = 0) ∧ (k i ≠ 0 → (negative i → code i = 8 + k i) ∧ (¬negative i → code i = k i))
      let excess := fun (i : Nat) => s i = none ∨ ∃ x, s i = some x ∧ 6 < x;
      ((∀ i < 32, err i = some 0) → r.2.2.1 = 0 ∧ ∀ i < 32, plain i ∧ sat i = false) ∧
      ((∀ i < 32, err i = some 0) → fl = 0) ∧
      ∀ j < 32, err j ≠ some 0 →
        (∀ i < 32, err j = none ∨ ∃ x y, err i = some x ∧ err j = some y ∧ x ≤ y) →
        (∀ i < j, err i ≠ err j) →
        code j = 8 ∧ (∀ i < 32, i ≠ j → plain i ∧ (sat i = true ↔ excess i)) ∧ (sat j = true ↔ s j = none) ∧
        ∃ f ∈ formatRows, f.code = 0x14 ∧ ∃ neg : Bool, (neg = true ↔ negative j) ∧
          (∀ x, s j = some x → (∃ g, Gives f 0 neg (if neg then -x else x) (fun n => (f.max + f.sgn n, 33)) (r.2.2.1, g))) ∧
          (s j = none → r.2.2.1 = f.max + f.sgn neg) ∧
          (fl.testBit 0 = true ↔ (∃ i < 32, i ≠ j ∧ err i ≠ some 0) ∨ s j = none ∨
            ∃ x y, s j = some x ∧ (∃ n, IsReal (decF 0x14 r.2.2.1) n y) ∧ abs y ≠ x) ∧
          (fl.testBit 5 = true ↔ ∃ i < 32, sat i = true) ∧ ∀ b, b ≠ 0 → b ≠ 5 → fl.testBit b = false)) ∧
  ∀ key ctr c2 : Nat, ∃ c : Nat → Nat × Nat × Nat × Nat,
    c 0 = (ctr % 2 ^ 32, ctr / 2 ^ 32 % 2 ^ 32, c2 % 2 ^ 32, 0) ∧
    (∀ r < 10,
      let k0 := (key % 2 ^ 32 + r * 0x9E3779B9) % 2 ^ 32
      let k1 := (key / 2 ^ 32 % 2 ^ 32 + r * 0xBB67AE85) % 2 ^ 32
      let p0 := 0xD2511F53 * (c r).1
      let p1 := 0xCD9E8D57 * (c r).2.2.1
      c (r + 1) = ((p1 / 2 ^ 32) ^^^ (c r).2.1 ^^^ k0, p1 % 2 ^ 32, (p0 / 2 ^ 32) ^^^ (c r).2.2.2 ^^^ k1, p0 % 2 ^ 32)) ∧
    draw key ctr c2 = (c 10).1

/-- R160, R161 and R166: the moves between registers, and the release of a group, whose registers read as 0 and are not live. An element that
vins names at or above the cut of its exit region is a tail element (R178, log 37). R173, R174, R175 and R176: compress, expand, slides,
gather, and the shifts of a group as one bit string of VL × SEW bits. -/
def Obligations.VectorMovesAndPermutations : Prop :=
  (∀ (d a b : BitVec 6) (c k : BitVec 3) (x y : BitVec 5),
    WritesGroup (.vmv d a k) (fun e t j => act e t k j) d (fun e _ => a.toNat % e.lmul = 0) (fun e t j => el e t a e.w j) ∧
    WritesGroup (.vbcast d x k) (fun e t j => act e t k j) d (fun _ _ => True) (fun e _ _ => (e.op 0).toNat) ∧
    WritesGroup (.vid d k) (fun e t j => act e t k j) d (fun _ _ => True) (fun _ _ j => j) ∧
    WritesGroup (.viota d c k) (fun e t j => act e t k j) d (fun _ t => t.vstart = 0)
      (fun e t j => ((hits e t k c).filter fun z => decide (z < j)).length) ∧
    WritesGroup (.vsel d a b k) (fun _ _ _ => true) d (fun e _ => a.toNat % e.lmul = 0 ∧ b.toNat % e.lmul = 0)
      (fun e t j => if act e t k j then el e t a e.w j else el e t b e.w j) ∧
    (∀ s h t e r, AtVcp s h t e r (.vins d x y) → Shaped t e → d.toNat % e.lmul = 0 →
      ∃ u, exec (.vectorCommit h) s = .next (s.setTh h u) ∧ Committed t u e r 0 ∧ u.masks = t.masks ∧ OthersStand e t u d e.lmul ∧
        ∀ j < e.vlmax, el e u d e.w j = if j = (e.op 1).toNat ∧ t.vstart ≤ j ∧ j < e.vl then (e.op 0).toNat % 2 ^ e.sew else
          if j = (e.op 1).toNat ∧ e.tail = true ∧ e.vl ≤ j ∧ j < e.met then 0 else el e t d e.w j) ∧
    (∀ s h t e r, AtVcp s h t e r (.vrelease d) → Shaped t e → d.toNat % e.lmul = 0 →
      ∃ u, exec (.vectorCommit h) s = .next (s.setTh h u) ∧ Committed t u e r 0 ∧ u.masks = t.masks ∧ OthersStand e t u d e.lmul ∧
        (∀ v q, d.toNat ≤ v → v < d.toNat + e.lmul → q < e.regLen → u.regByte e.regLen v q = 0) ∧
        ∀ v < 64, u.vlive.getLsbD v = (t.vlive.getLsbD v && !(decide (d.toNat ≤ v) && decide (v < d.toNat + e.lmul))))) ∧
  (∀ (d a b : BitVec 6) (x : BitVec 5) (k : BitVec 3),
    let apart := fun (g : BitVec 6) (e : QEntry) (t : Thread) => t.vstart = 0 ∧ g.toNat % e.lmul = 0 ∧ g ≠ d
    let below := fun (e : QEntry) (t : Thread) (j : Nat) => if j < e.vl then el e t b e.w j else 0
    WritesGroup (.vslup d x b k) (fun e t j => act e t k j) d (apart b)
      (fun e t j => if j < (e.op 0).toNat then el e t d e.w j else el e t b e.w (j - (e.op 0).toNat)) ∧
    WritesGroup (.vsldn d x b k) (fun e t j => act e t k j) d (fun e t => t.vstart = 0 ∧ b.toNat % e.lmul = 0)
      (fun e t j => below e t (j + (e.op 0).toNat)) ∧
    WritesGroup (.vsl1up d x b k) (fun e t j => act e t k j) d (apart b)
      (fun e t j => if j = 0 then (e.op 0).toNat else el e t b e.w (j - 1)) ∧
    WritesGroup (.vsl1dn d x b k) (fun e t j => act e t k j) d (fun e t => t.vstart = 0 ∧ b.toNat % e.lmul = 0)
      (fun e t j => if j + 1 = e.vl then (e.op 0).toNat else below e t (j + 1)) ∧
    WritesGroup (.vgath d a b k) (fun e t j => act e t k j) d (fun e t => apart a e t ∧ apart b e t)
      (fun e t j => if el e t b e.w j < e.vl then el e t a e.w (el e t b e.w j) else 0) ∧
    WritesGroup (.vexpand d b k) (fun e t j => act e t k j) d (apart b)
      (fun e t j => el e t b e.w ((List.range j).filter fun z => act e t k z).length) ∧
    (∀ s h t e r, AtVcp s h t e r (.vcomp d b k) → Shaped t e → d.toNat % e.lmul = 0 → apart b e t →
      let l := (List.range e.vl).filter fun j => act e t k j
      ∃ u, exec (.vectorCommit h) s = .next (s.setTh h u) ∧ Committed t u e r 0 ∧ u.masks = t.masks ∧ OthersStand e t u d e.lmul ∧
        ∀ j < e.vlmax, el e u d e.w j = if j < l.length then el e t b e.w (l.getD j 0) else if e.tail then 0 else el e t d e.w j) ∧
    (let string := fun (e : QEntry) (t : Thread) (g : BitVec 6) => ((List.range e.vl).map fun j => el e t g e.w j * 2 ^ (e.sew * j)).sum
      let shift := fun (i : Instr) (g : Nat → Nat → Nat → Nat → Nat) => ∀ s h t e r, AtVcp s h t e r i → Shaped t e → d.toNat % e.lmul = 0 →
        b.toNat % e.lmul = 0 → t.vstart = 0 →
        ∃ u, exec (.vectorCommit h) s = .next (s.setTh h u) ∧ Committed t u e r 0 ∧ u.masks = t.masks ∧ OthersStand e t u d e.lmul ∧
          ∀ j < e.vlmax, el e u d e.w j = if j < e.vl then
            g (string e t d) (string e t b) (e.vl * e.sew) (e.op 0).toNat / 2 ^ (e.sew * j) % 2 ^ e.sew
          else if e.tail then 0 else el e t d e.w j
      shift (.vbsll d x b) (fun _ y n z => if n ≤ z then 0 else y * 2 ^ z % 2 ^ n) ∧
      shift (.vbsrl d x b) (fun _ y n z => if n ≤ z then 0 else y / 2 ^ z) ∧
      shift (.vbfsh d x b) (fun w y n z => if 2 * n ≤ z then 0 else (w * 2 ^ n + y) / 2 ^ z % 2 ^ n)))

/-- R95: what a committed pair word does: the two words that its halves stand for, with the anchor as destination and first source, one
after the other; where a half fails its checks neither is performed and the illegal-instruction trap is taken. -/
def Obligations.PairWordsAtVcp : Prop :=
  ∀ (a b : BitVec 12) (s : State) (h : Nat) (t : Thread) (e : QEntry) (r : List QEntry) (v : BitVec 6),
    AtVcp s h t e r (.cp a b) → Shaped t e → e.anchor = some v → t.vstart = 0 →
    let halves := (halfEntry e v a 0).toList ++ (halfEntry e v b (if 256 ≤ a.toNat ∧ a.toNat / 64 % 4 = 1 then 1 else 0)).toList
    let s0 := s.setTh h { t with queue := halves.map (·.2.2) ++ r };
    ((∀ y ∈ halves, descOk y.1 e.sew e.desc = true ∧ groupsOk y.2.1 = true) →
      ∃ s' u, exec (.vectorCommit h) s = .next s' ∧ commits h halves.length s0 s' ∧ s'.th h = some u ∧ u.queue = r ∧ u.handler = t.handler) ∧
    (TrapReady s t → (∃ y ∈ halves, descOk y.1 e.sew e.desc = false ∨ groupsOk y.2.1 = false) →
      ∃ s', exec (.vectorCommit h) s = .next s' ∧ TrapAtVcp s s' h t e.regLen 1 0 0 t.vstart)

/-- R153, R101, R102, R156, R159 and R170: the vector loads. A fault of vldff at an element f after its first leaves the elements
below f loaded and sets the mask from f on; that the elements from f to VL - 1 stand is the model's reading (log 20). -/
def Obligations.VectorLoads : Prop :=
  ∀ (d b : BitVec 6) (a c : BitVec 5) (f k : BitVec 3),
    let unit := fun (e : QEntry) (_ : Thread) (j : Nat) => e.op 0 + BitVec.ofNat 64 (j * e.w)
    let index := fun (e : QEntry) (t : Thread) (j : Nat) => e.op 0 + BitVec.ofNat 64 (el e t b e.w j)
    let masked := fun (e : QEntry) (t : Thread) (j : Nat) => act e t k j
    LoadsGroup (.vld d a k) (·.vl) masked d (fun _ => True) unit ∧
    LoadsGroup (.vlds d a c k) (·.vl) masked d (fun _ => True) (fun e _ j => e.op 0 + BitVec.ofNat 64 j * e.op 1) ∧
    LoadsGroup (.vldx d a b k) (·.vl) masked d (fun e => b.toNat % e.lmul = 0) index ∧
    LoadsGroup (.vldxo d a b k) (·.vl) masked d (fun e => b.toNat % e.lmul = 0) index ∧
    LoadsGroup (.vldw d a) (·.vlmax) (fun _ _ _ => true) d (fun _ => True) unit ∧
    (∀ s h t e r pa n, AtVcp s h t e r (.vldff d a f k) → Shaped t e → d.toNat % e.lmul = 0 →
      let P := takesPart t e.vl (act e t k)
      Reaches s t .load e.w (fun j => P j ∧ j < n) (unit e t) pa →
      (e.vl ≤ n ∨ (P n ∧ (∃ j, P j ∧ j < n) ∧ ∃ x, s.checkAccess t .V .load (unit e t n).toNat e.w = .error x)) →
      ∃ s' u, exec (.vectorCommit h) s = .next s' ∧ CommittedMem s s' h t u e r ∧ OthersStand e t u d e.lmul ∧
        (∀ x, s'.physByte x = s.physByte x) ∧
        (∀ j < e.vlmax, el e u d e.w j = if n ≤ j ∧ j < e.vl then el e t d e.w j else
          leaves e t (act e t k j) j (el e t d e.w j) (leNat (s.physBytes (pa j) e.w))) ∧
        ∀ m j, j < 16384 → u.maskAt m j = if m = f.toNat ∧ f ≠ 0 ∧ j < e.vlmax then
          leavesBit e t (act e t k j) j (t.maskAt m j) (decide (n ≤ j)) else t.maskAt m j) ∧
    (∀ s h t e r pa, AtVcp s h t e r (.kld f a) → Shaped t e →
      Reaches s t .load 1 (fun j => t.vstart / 8 ≤ j ∧ j < (e.vl + 7) / 8) (fun j => e.op 0 + BitVec.ofNat 64 j) pa →
      ∃ s' u, exec (.vectorCommit h) s = .next s' ∧ CommittedMem s s' h t u e r ∧ VregsStand t u ∧
        (∀ x, s'.physByte x = s.physByte x) ∧
        ∀ m j, j < 16384 → u.maskAt m j = if m = f.toNat ∧ f ≠ 0 ∧ j < e.vlmax then
          leavesBit e t true j (t.maskAt m j) ((s.physByte (pa (j / 8))).getLsbD (j % 8)) else t.maskAt m j)

/-- R153, R157, R159 and R170: the vector stores. kst stores whole bytes from the one that holds bit VSTART; the bits of the last
one above VL are 0. -/
def Obligations.VectorStores : Prop :=
  ∀ (d b : BitVec 6) (a c : BitVec 5) (f k : BitVec 3),
    let unit := fun (e : QEntry) (_ : Thread) (j : Nat) => e.op 0 + BitVec.ofNat 64 (j * e.w)
    let index := fun (e : QEntry) (t : Thread) (j : Nat) => e.op 0 + BitVec.ofNat 64 (el e t b e.w j)
    let masked := fun (e : QEntry) (t : Thread) (j : Nat) => takesPart t e.vl (act e t k) j
    let aligned := fun (g : BitVec 6) (e : QEntry) => d.toNat % e.lmul = 0 ∧ g.toNat % e.lmul = 0
    let element := fun (e : QEntry) (t : Thread) (j : Nat) => el e t d e.w j
    StoresGroup (.vst d a k) (·.w) masked false (aligned d) unit element ∧
    StoresGroup (.vsts d a c k) (·.w) masked false (aligned d) (fun e _ j => e.op 0 + BitVec.ofNat 64 j * e.op 1) element ∧
    StoresGroup (.vstx d a b k) (·.w) masked false (aligned b) index element ∧
    StoresGroup (.vstxo d a b k) (·.w) masked true (aligned b) index element ∧
    StoresGroup (.vstw d a) (·.w) (fun e t j => t.vstart ≤ j ∧ j < e.vlmax) false (aligned d) unit element ∧
    StoresGroup (.kst f a) (fun _ => 1) (fun e t j => t.vstart / 8 ≤ j ∧ j < (e.vl + 7) / 8) false (fun _ => True)
      (fun e _ j => e.op 0 + BitVec.ofNat 64 j)
      (fun e t j => ((List.range 8).map fun x => if 8 * j + x < e.vl ∧ t.maskAt f.toNat (8 * j + x) then 2 ^ x else 0).sum)

/-- R153, R116 and R157: the vector atomics on elements of 4 and 8 bytes. -/
def Obligations.VectorAtomics : Prop :=
  ∀ (d b : BitVec 6) (a : BitVec 5) (k : BitVec 3),
    let atomic := fun (i : Instr) (f : Nat → Nat → Nat → Nat) =>
      AtomicGroup i d k (fun e => b.toNat % e.lmul = 0) (fun e t j => e.op 0 + BitVec.ofNat 64 (el e t b e.w j)) f
    atomic (.vamoAdd d a b k) (fun _ x y => x + y) ∧
    atomic (.vamoAnd d a b k) (fun _ x y => x &&& y) ∧
    atomic (.vamoOr d a b k) (fun _ x y => x ||| y) ∧
    atomic (.vamoXor d a b k) (fun _ x y => x ^^^ y) ∧
    atomic (.vamoMin d a b k) (fun n x y => if asInt n x ≤ asInt n y then x else y) ∧
    atomic (.vamoMax d a b k) (fun n x y => if asInt n x ≤ asInt n y then y else x) ∧
    atomic (.vamoMinn d a b k) (fun _ x y => min x y) ∧
    atomic (.vamoMaxn d a b k) (fun _ x y => max x y) ∧
    atomic (.vamoSwp d a b k) (fun _ _ y => y)

/-- R66, R171, R73, R50 and R56: the reductions and the folds of groups of 64, by the tree and the fold that R66 spells out. R67 and R171: the
inclusive scans, with the carry across groups; elements not present are written by the policy (R102). That the carry raises its rounding
flags where no later element uses it is the model's choice (log 65). -/
def Obligations.ReductionsAndScansByTheTree : Prop :=
  (∀ (d b : BitVec 6) (f k : BitVec 3) (init : Bool),
    let groups := fun (e : QEntry) => (e.vl + 63) / 64
    let total := fun (g : Folding) (arg : Bool) (e : QEntry) (t : Thread) =>
      combine (g.op e.desc) (g.start e t d init arg) (treeFold (g.op e.desc) (g.leaves e t b k) (groups e))
    let reduce := fun (i : Instr) (form : DForm) (g : Folding) =>
      Reduces i form false d b (fun e t => g.leafFlags e t b k ||| (total g false e t).2)
        fun e t => thenTail e [canonR e.desc ((total g false e t).1.getD (g.identity e.desc)).2]
    let arg := fun (i : Instr) (g : Folding) =>
      Reduces i .arg false d b (fun e t => g.leafFlags e t b k ||| (total g true e t).2)
        fun e t => let v := (total g true e t).1.getD (g.identity e.desc)
          thenTail e [v.1, canonR e.desc v.2]
    let fold := fun (i : Instr) (form : DForm) (g : Folding) =>
      let nodes := fun (e : QEntry) (t : Thread) => (List.range (groups e)).map (treeNode (g.op e.desc) (g.leaves e t b k) 6)
      Reduces i form true d b (fun e t => (nodes e t).foldl (fun a x => a ||| x.2) (g.leafFlags e t b k))
        fun e t => thenTail e ((nodes e t).map fun x => canonR e.desc (x.1.getD (g.identity e.desc)).2)
    let sum := intFolding (fun c x y => (x + y) % 2 ^ fmtBits c) (fun _ => 0)
    let fsum := fpFolding (fun c x y => addF (dDfmt c) (dRnd c) (decF (dDfmt c) x) (decF (dDfmt c) y)) (fun _ => 0)
    let edge := fun (top : Bool) (c : Nat) =>
      if isIntFmt c then patOf (fmtBits c) (if top then intMin c else intMax c) else infBits c top
    let beyond := fun (top : Bool) (c x y : Nat) =>
      if isIntFmt c then (if top then decide (intVal c x < intVal c y) else decide (intVal c y < intVal c x))
      else !(decF c x).isNan && ((decF c y).isNan || if top then ltV true (decF c x) (decF c y) else ltV true (decF c y) (decF c x))
    reduce (.vredsum d f init b k) .red2 sum ∧
    reduce (.vredmin d f init b k) .redEq (intFolding (fun c x y => if intVal c y < intVal c x then y else x) (edge false)) ∧
    reduce (.vredmax d f init b k) .redEq (intFolding (fun c x y => if intVal c x < intVal c y then y else x) (edge true)) ∧
    reduce (.vfredsum d f init b k) .fred2 fsum ∧
    reduce (.vfredmin d f init b k) .fredEq (fpFolding (fun c x y => minmaxF false (dDfmt c) (dDfmt c) (dDfmt c) 0 x y) (edge false)) ∧
    reduce (.vfredmax d f init b k) .fredEq (fpFolding (fun c x y => minmaxF true (dDfmt c) (dDfmt c) (dDfmt c) 0 x y) (edge true)) ∧
    arg (.vargmax d f init b k) (argFolding (beyond true) (edge true)) ∧
    arg (.vargmin d f init b k) (argFolding (beyond false) (edge false)) ∧
    fold (.vgsum d f b k) .red2 sum ∧ fold (.vfgsum d f b k) .fred2 fsum) ∧
  (∀ (d b : BitVec 6) (f k : BitVec 3) (init : Bool),
    let scan := fun (i : Instr) (form : DForm) (g : Folding) =>
      let carry := fun (e : QEntry) (t : Thread) (n : Nat) => treeCarry (g.op e.desc) (g.leaves e t b k) (g.start e t d init false) n
      let at_ := fun (e : QEntry) (t : Thread) (j : Nat) =>
        combine (g.op e.desc) ((carry e t (j / 64)).1, 0) (treePrefix (g.op e.desc) (g.leaves e t b k) j)
      Reduces i form false d b
        (fun e t => (List.range e.vl).foldl (fun a j => if act e t k j = true then a ||| (at_ e t j).2 else a)
          ((List.range ((e.vl + 63) / 64)).foldl (fun a n => a ||| (carry e t n).2) (g.leafFlags e t b k)))
        fun e t j old => leaves e t (act e t k j) j old (canonR e.desc (((at_ e t j).1.map (·.2)).getD 0))
    scan (.vscan d f init b k) .red2 (intFolding (fun c x y => (x + y) % 2 ^ fmtBits c) (fun _ => 0)) ∧
    scan (.vfscan d f init b k) .fred2
      (fpFolding (fun c x y => addF (dDfmt c) (dRnd c) (decF (dDfmt c) x) (decF (dDfmt c) y)) (fun _ => 0)))

/-- R178 and R179: what vexit does when it commits. A region of element-wise words closes at the cut: each of its words has the effect
that it has alone under VL = cut, and the condition is tested on what they compute under the whole VL. A region of one load: elements that
fail a check are unresolved; the cut comes after the first element below them whose condition holds; without one the load traps at the
lowest of them, with OPEN and COUNT as they were before vexit. -/
def Obligations.ExitRegionsAtVcp : Prop :=
  ∀ (c k f : BitVec 3) (a b : BitVec 6) (s : State) (h : Nat) (t : Thread) (es : List QEntry) (x : QEntry) (r : List QEntry),
    AtVexit s h t es x r (.vexit c a b k f) → descOk .cmpX x.sew x.desc = true →
    groupsOk [(a.toNat, x.lmul), (b.toNat, x.lmul)] = true → Shaped t x →
    ((∀ e ∈ es, ∃ i, decode e.word = some i ∧ ElementWord i) → ∀ sf uf cut,
      let under := fun (n : Option Nat) => s.setTh h { t with
        queue := (es.map fun e => { e with region := false, vl := n.getD e.vl, met := e.vl }) ++ x :: r }
      let cond := fun (n : Nat) => exitCond x c (el x uf a x.w n) (el x uf b x.w n)
      commits h es.length (under none) sf → sf.th h = some uf → uf.queue = x :: r → uf.handler = t.handler →
      ((∃ m, CutAfter (act x uf k) (fun n => (cond n).1) x.vl m ∧ cut = m + 1) ∨
        (∀ m, ¬CutAfter (act x uf k) (fun n => (cond n).1) x.vl m) ∧ cut = x.vl) →
      ∃ sc uc v fl, commits h es.length (under (some cut)) sc ∧ sc.th h = some uc ∧ uc.queue = x :: r ∧
        exec (.vectorCommit h) s = .next (sc.setTh h v) ∧ ClosedAt t v x r cut ∧
        v = { uc with queue := v.queue, vstart := 0, vl := v.vl, vstop := v.vstop, flags := uc.flags ||| BitVec.ofNat 6 fl, leases := v.leases } ∧
        ∀ j < 6, fl.testBit j = true ↔ ∃ n < cut, act x uf k n = true ∧ (cond n).2.testBit j = true) ∧
    (∀ e m sa (pa : Nat → Nat) u, es = [e] → decode e.word = some (.vld a sa m) → featD e.feat = false → Shaped t e → a.toNat % e.lmul = 0 →
      e.vcfg = x.vcfg → e.vl = x.vl → e.vlmax = x.vlmax →
      let P := takesPart t e.vl (act e t m)
      let addr := fun (n : Nat) => e.op 0 + BitVec.ofNat 64 (n * e.w)
      let good := fun (n : Nat) => (∃ place, s.checkAccess t .V .load (addr n).toNat e.w = .ok (.dram (pa n) place)) ∧ pa n % e.w = 0 ∧ Quiet s (pa n / 128)
      let bad := fun (n : Nat) => ∃ cause, s.checkAccess t .V .load (addr n).toNat e.w = .error cause
      let mem := fun (n : Nat) => leNat (s.physBytes (pa n) e.w)
      let held := fun (g : BitVec 6) (n : Nat) => if g = a then leaves e t (act e t m n) n (el e t a e.w n) (mem n) else el e t g e.w n
      let cond := fun (n : Nat) => exitCond x c (held a n) (held b n)
      (∀ n, P n → good n ∨ bad n) → (∀ n, P n → n < u → good n) → (u = e.vl ∨ P u ∧ bad u) →
      (∀ cut, ((∃ n, CutAfter (act x t k) (fun n => (cond n).1) u n ∧ cut = n + 1) ∨
          (∀ n, ¬CutAfter (act x t k) (fun n => (cond n).1) u n) ∧ u = e.vl ∧ cut = e.vl) →
        ∃ s' v fl, exec (.vectorCommit h) s = .next s' ∧ s'.th h = some v ∧ Apart s s' h ∧ (∀ y, s'.physByte y = s.physByte y) ∧
          ClosedAt t v x r cut ∧ OthersStand e t v a e.lmul ∧
          v = { t with queue := v.queue, vstart := 0, vl := v.vl, vstop := v.vstop, flags := t.flags ||| BitVec.ofNat 6 fl, vregs := v.vregs, vspan := v.vspan, vlive := v.vlive, leases := v.leases, localReq := v.localReq, remote := v.remote, offpkg := v.offpkg } ∧
          (∀ j < 6, fl.testBit j = true ↔ ∃ n < cut, act x t k n = true ∧ (cond n).2.testBit j = true) ∧
          ∀ n < e.vlmax, el e v a e.w n = leaves { e with vl := cut } t (act e t m n) n (el e t a e.w n) (mem n)) ∧
      (∀ cause, (∀ n, ¬CutAfter (act x t k) (fun n => (cond n).1) u n) → u < e.vl → 64 * (u / 64) ≤ t.vstart →
        s.checkAccess t .V .load (addr u).toNat e.w = .error cause →
        let t1 := { t with vstop := BitVec.ofNat 21 (t.vstop.toNat % 2 ^ 15 + 2 ^ 15 + x.met % 32 * 2 ^ 16), vstopPast := some t.vstop };
        TrapReady (s.setTh h t1) t1 →
        ∃ s' v, exec (.vectorCommit h) s = .next s' ∧ TrapAtVcp (s.setTh h t1) s' h t1 e.regLen cause u (addr u).toNat (64 * (u / 64)) ∧
          s'.th h = some v ∧ v.vstop = t1.vstop))

/-- R183 to R187, R70, R71, R65 and R62: the outer products, in every row of R183's table. R189 to R193: a tile zeroed, loaded, stored, read
into a vector group and written from one. -/
def Obligations.OuterProductsAndTileMoves : Prop :=
  (∀ (z : BitVec 2) (a b : BitVec 6) (f : BitVec 3), Outer (.vopa z a b f) false z a b ∧ Outer (.vops z a b f) true z a b) ∧
  (∀ (z : BitVec 2) (d : BitVec 6) (a b : BitVec 5) (f : BitVec 3),
    let cell := fun (e : QEntry) (_ : Thread) (c : Nat) => e.op 0 + BitVec.ofNat 64 (c / 64) * e.op 1 + BitVec.ofNat 64 (4 * (c % 64))
    let rows := fun (t : Thread) (c : Nat) => t.vstart / 64 ≤ c / 64 ∧ c < 4096
    let fits := fun (e : QEntry) (tile other : Nat) => descRnd e.desc = true ∧ (tile = 0x11 ∨ tile = 5 ∨ tile = 0x10 ∧ z.toNat % 2 = 0) ∧
      (isIntFmt other || isFpFmt other) = true ∧ fmtBits other = e.sew ∧ (e.op 0).toNat + (e.vl + 63) / 64 ≤ 64 ∧ d.toNat % e.lmul = 0
    (∀ s h t e r, AtVcp s h t e r (.zclr z) → t.storesOk = true →
      ∃ u, exec (.vectorCommit h) s = .next (s.setTh h u) ∧ CommittedTile t u e r 0 z 0 ∧ u.masks = t.masks ∧ ∀ c < 4096, u.cellAt z.toNat c = 0) ∧
    (∀ s h t e r pa, AtVcp s h t e r (.zld z a b) → t.storesOk = true → Reaches s t .load 4 (rows t) (cell e t) pa →
      ∃ s' u, exec (.vectorCommit h) s = .next s' ∧ s'.th h = some u ∧ Apart s s' h ∧ (∀ c, s'.physByte c = s.physByte c) ∧
        (∃ v, CommittedTile t v e r 0 z 0 ∧ u = { v with localReq := u.localReq, remote := u.remote, offpkg := u.offpkg }) ∧ u.masks = t.masks ∧
        ∀ c < 4096, u.cellAt z.toNat c = if t.vstart / 64 ≤ c / 64 then leNat (s.physBytes (pa c) 4) else t.cellAt z.toNat c) ∧
    StoresGroup (.zst z a b) (fun _ => 4) (fun _ t c => rows t c) false (fun _ => True) cell (fun _ t c => t.cellAt z.toNat c) ∧
    (∀ s h t e r, AtVcp s h t e r (.zrdv z d b f) → Shaped t e → fits e (dAfmt e.desc) (dDfmt e.desc) →
      let res := fun (j : Nat) => convert (dAfmt e.desc) (dDfmt e.desc) (dRnd e.desc) (tileEl t z (dAfmt e.desc) (64 * (e.op 0).toNat + j))
      let P := fun (j : Nat) => t.vstart ≤ j ∧ j < e.vl
      ∃ u fl, exec (.vectorCommit h) s = .next (s.setTh h u) ∧ Committed t u e r fl ∧ OthersStand e t u d e.lmul ∧
        (∀ j < e.vlmax, el e u d e.w j = leaves e t true j (el e t d e.w j) ((res j).1 % 2 ^ e.sew)) ∧
        Marks e.desc t u P (fun j => (res j).2.testBit 5) ∧ ∀ x < 6, fl.testBit x = true ↔ ∃ j, P j ∧ (res j).2.testBit x = true) ∧
    (∀ s h t e r, AtVcp s h t e r (.zwrv z d b f) → Shaped t e → fits e (dDfmt e.desc) (dAfmt e.desc) →
      let res := fun (j : Nat) => convert (dAfmt e.desc) (dDfmt e.desc) (dRnd e.desc) (el e t d e.w j)
      let P := fun (j : Nat) => t.vstart ≤ j ∧ j < e.vl
      ∃ u fl, exec (.vectorCommit h) s = .next (s.setTh h u) ∧ CommittedTile t u e r fl z (dDfmt e.desc) ∧
        (∀ c < 4096, let j := c - 64 * (e.op 0).toNat
          tileEl u z (dDfmt e.desc) c = if 64 * (e.op 0).toNat + t.vstart ≤ c ∧ j < e.vl
            then (res j).1 % 2 ^ fmtBits (dDfmt e.desc) else tileEl t z (dDfmt e.desc) c) ∧
        Marks e.desc t u P (fun j => (res j).2.testBit 5) ∧ ∀ x < 6, fl.testBit x = true ↔ ∃ j, P j ∧ (res j).2.testBit x = true))

/-- R227: vbind binds a group to the stream that its descriptor in memory describes, and takes the illegal-instruction trap where the
descriptor is invalid or the group bound; vunbind ends a binding. An instruction that reads the bound group consumes the stream's next
group: its elements in memory, zeros past COUNT, or the low bytes of the next records of the core's inbox, for which it waits; the
register's own contents stand. A read that traps consumes nothing; a write of a bound group traps. Of a stream in memory an element-wise
word reads the elements that are present alone (the model's reading, log 80). -/
def Obligations.StreamsAtVcp : Prop :=
  ∀ (d a : BitVec 6) (sa : BitVec 5) (k : BitVec 3) (s : State) (h : Nat) (t : Thread) (e : QEntry) (r : List QEntry), s.th h = some t →
    let at_ := fun (i : Instr) => AtVcp (s.setTh h { t with binds := [] }) h { t with binds := [] } e r i
    let va := (e.op 0).toNat
    let traps := fun (cause elem addr vstart : Nat) => TrapReady s t →
      ∃ s' u, exec (.vectorCommit h) s = .next s' ∧ TrapAtVcp s s' h t e.regLen cause elem addr vstart ∧ s'.th h = some u ∧ u.binds = t.binds
    let after := fun (u : Thread) (l : List Bind) => u = { t with queue := r, vstart := 0, binds := l, vregs := u.vregs, vspan := u.vspan, vlive := u.vlive, leases := u.leases, localReq := u.localReq, remote := u.remote, offpkg := u.offpkg };
    (at_ (.vbind d sa) → groupsOk [(d.toNat, e.lmul)] = true →
      (∀ pa place, s.checkAccess t .V .load va 32 = .ok (.dram pa place) → pa % 32 = 0 → Quiet s (pa / 128) →
        let f := fun (o n : Nat) => leNat (s.physBytes (pa + o) n)
        (f 0 1 < 2 → f 1 7 = 0 → (∀ y ∈ t.binds, y.vd ≠ d) →
          ∃ s' u, exec (.vectorCommit h) s = .next s' ∧ s'.th h = some u ∧ Apart s s' h ∧ (∀ y, s'.physByte y = s.physByte y) ∧
            VregsStand t u ∧ after u (t.binds ++ [{
              vd := d, lmul := e.lmul, kind := f 0 1, base := BitVec.ofNat 64 (f 8 8), stride := BitVec.ofNat 64 (f 16 8), count := f 24 8, next := 0 }])) ∧
        ((2 ≤ f 0 1 ∨ f 1 7 ≠ 0 ∨ ∃ y ∈ t.binds, y.vd = d) → traps 1 0 0 t.vstart)) ∧
      (∀ cause, s.checkAccess t .V .load va 32 = .error cause → traps cause 0 va 0)) ∧
    (at_ (.vbind d sa) → groupsOk [(d.toNat, e.lmul)] = false → traps 1 0 0 t.vstart) ∧
    (at_ (.vunbind d) → groupsOk [(d.toNat, e.lmul)] = true →
      ∃ u, exec (.vectorCommit h) s = .next (s.setTh h u) ∧ VregsStand t u ∧ after u (t.binds.filter fun y => y.vd != d)) ∧
    (∀ b ∈ t.binds, at_ (.vmv d b.vd k) → Shaped t e → d.toNat % e.lmul = 0 → b.vd.toNat % e.lmul = 0 → b.lmul = e.lmul → t.binds.Nodup →
      (∀ y ∈ t.binds, (y = b ∨ y.vd ≠ b.vd) ∧ (d.toNat + e.lmul ≤ y.vd.toNat ∨ y.vd.toNat + y.lmul ≤ d.toNat)) →
      let P := takesPart t e.vl (act e t k)
      let addr := fun (n : Nat) => b.base + BitVec.ofNat 64 b.next * b.stride + BitVec.ofNat 64 (n * e.w)
      let core := s.coreAt t.core
      let reads := fun (val : Nat → Nat) => ∃ s' u, exec (.vectorCommit h) s = .next s' ∧ s'.th h = some u ∧ Apart s s' h ∧
        (∀ y, s'.physByte y = s.physByte y) ∧ u.masks = t.masks ∧ OthersStand e t u d e.lmul ∧
        after u (t.binds.map fun y => if y.vd = b.vd then { y with next := y.next + 1 } else y) ∧
        (∀ n < e.vlmax, el e u d e.w n = leaves e t (act e t k n) n (el e t d e.w n) (val n)) ∧
        ∀ q, b.kind = 1 → core.inbox = some q → (s'.coreAt t.core).head q = core.head q + 16 * e.vl
      (∀ pa, b.kind = 0 → b.next < b.count → Reaches s t .load e.w P addr pa → reads fun n => leNat (s.physBytes (pa n) e.w)) ∧
      (b.kind = 0 → b.count ≤ b.next → reads fun _ => 0) ∧
      (∀ q, b.kind = 1 → core.inbox = some q → 16 * e.vl ≤ core.tail q - core.head q →
        reads fun n => leNat (mgetN core.banks (q * 65536 + (core.head q + 16 * n) % 65536) e.w)) ∧
      (b.kind = 1 → (core.inbox = none ∨ ∃ q, core.inbox = some q ∧ core.tail q - core.head q < 16 * e.vl) →
        exec (.vectorCommit h) s = .next s) ∧
      (∀ n cause, b.kind = 0 → b.next < b.count → 64 * (n / 64) ≤ t.vstart → P n → (∀ j < n, P j → ∃ pa place,
          s.checkAccess t .V .load (addr j).toNat e.w = .ok (.dram pa place) ∧ Quiet s (pa / 128)) →
        s.checkAccess t .V .load (addr n).toNat e.w = .error cause → traps cause n (addr n).toNat (64 * (n / 64)))) ∧
    (at_ (.vmv d a k) → (∃ y ∈ t.binds, d.toNat < y.vd.toNat + y.lmul ∧ y.vd.toNat < d.toNat + e.lmul) → traps 1 0 0 t.vstart)

/-- R194, R195, R197, R63, R198 and R77: the Hadamard stages, the quantiser and the random words. -/
def Obligations.HadamardQuantiserAndRandom : Prop :=
  ∀ (d a b : BitVec 6) (x y : BitVec 5) (f k : BitVec 3),
    let had := fun (e : QEntry) => descRnd e.desc = true ∧ (dAfmt e.desc = 0x11 ∨ dAfmt e.desc = 0x12 ∨ dAfmt e.desc = 0x13) ∧
      fmtBits (dAfmt e.desc) = e.sew ∧ (dDfmt e.desc = dAfmt e.desc ∨ dDfmt e.desc = 0x11) ∧ e.vl % 32 = 0 ∧ a.toNat % e.lmul = 0
    let flagsOf := fun (fl : Nat) (t : Thread) (e : QEntry) =>
      ∀ n < 6, fl.testBit n = true ↔ ∃ j, t.vstart ≤ j ∧ j < e.vl ∧ act e t k j = true ∧ (hadOut e t a k j).2.testBit n = true
    let quant := fun (e : QEntry) => descBase e.desc = true ∧ (dAfmt e.desc = 0x11 ∨ dAfmt e.desc = 0x12) ∧ fmtBits (dAfmt e.desc) = e.sew ∧
      dDfmt e.desc = 0x16 ∧ e.vl % 32 = 0 ∧ featP e.feat = false ∧ d.toNat % max 1 (4 * e.lmul / e.sew) = 0 ∧
      (b.toNat < d.toNat ∨ d.toNat + max 1 (4 * e.lmul / e.sew) ≤ b.toNat)
    (∀ s h t e r, AtVcp s h t e r (.vhad d a k f) → Shaped t e → had e →
      let w := fmtBits (dDfmt e.desc)
      groupsOk [(d.toNat, e.emul w), (a.toNat, e.lmul)] = true →
      ∃ u fl, exec (.vectorCommit h) s = .next (s.setTh h u) ∧ Committed t u e r fl ∧ u.masks = t.masks ∧ OthersStand e t u d (e.emul w) ∧
        flagsOf fl t e ∧ ∀ j < e.vlmax, el e u d (w / 8) j = leaves e t (act e t k j) j (el e t d (w / 8) j) ((hadOut e t a k j).1 % 2 ^ w)) ∧
    (∀ s h t e r, AtVcp s h t e r (.vhadC a k f) → Shaped t e → had e → e.vl * fmtBits (dDfmt e.desc) ≤ 131072 →
      let w := fmtBits (dDfmt e.desc)
      ∃ u v fl, exec (.vectorCommit h) s = .next (s.setTh h u) ∧ Committed t v e r fl ∧ VregsStand t v ∧ v.masks = t.masks ∧ flagsOf fl t e ∧
        u = { v with ch := u.ch, chValid := true, chFmt := BitVec.ofNat 8 (dDfmt e.desc), chCount := e.vl } ∧
        ∀ j < e.vl, u.chainAt (w / 8) j = leaves e t (act e t k j) j (t.chainAt (w / 8) j) ((hadOut e t a k j).1 % 2 ^ w)) ∧
    (∀ s h t e r, AtVcp s h t e r (.vcvtq d a b (f, 0)) → Shaped t e → quant e → groupsOk [(d.toNat, max 1 (4 * e.lmul / e.sew)), (a.toNat, e.lmul)] = true →
      (b.toNat < a.toNat ∨ a.toNat + e.lmul ≤ b.toNat) →
      Quantises s h t e r d b (fun j => decF (dAfmt e.desc) (el e t a e.w j)) false) ∧
    (∀ s h t e r, AtVcp s h t e r (.vcvtqC d b (f, 0)) → Shaped t e → quant e → e.vl = t.chCount → dAfmt e.desc = t.chFmt.toNat →
      Quantises s h t e r d b (fun j => decF (dAfmt e.desc) (t.chainAt e.w j)) true) ∧
    WritesGroup (.vrand d x y k) (fun e t j => act e t k j) d (fun e _ => e.sew = 32)
      (fun e _ j => draw (e.op 0).toNat (e.op 1).toNat ((e.op 2).toNat % 2 ^ 32 + j))

/-- R203 to R206, R66 and R73: the chorus operations over the cores of a group. -/
def Obligations.ChorusOperations : Prop :=
  ∀ (d : BitVec 6) (a b : BitVec 5) (f : BitVec 3),
    let chorus := fun (i : Instr) (fi ff : DForm) (g : Folding) => Chorus i (fun c => if isIntFmt (dAfmt c) then fi else ff) g false d
    let edge := fun (top : Bool) (c : Nat) =>
      if isIntFmt c then patOf (fmtBits c) (if top then intMin c else intMax c) else infBits c top
    let beyond := fun (top : Bool) (c x y : Nat) =>
      if isIntFmt c then (if top then decide (intVal c x < intVal c y) else decide (intVal c y < intVal c x))
      else !(decF c x).isNan && ((decF c y).isNan || if top then ltV true (decF c x) (decF c y) else ltV true (decF c y) (decF c x))
    chorus (.vchorSum d a b f) .red2 .fred2 ((intFolding (fun c x y => (x + y) % 2 ^ fmtBits c) (fun _ => 0)).orElse
      (fpFolding (fun c x y => addF (dDfmt c) (dRnd c) (decF (dDfmt c) x) (decF (dDfmt c) y)) (fun _ => 0))) ∧
    chorus (.vchorMin d a b f) .redEq .fredEq ((intFolding (fun c x y => if intVal c y < intVal c x then y else x) (edge false)).orElse
      (fpFolding (fun c x y => minmaxF false (dDfmt c) (dDfmt c) (dDfmt c) 0 x y) (edge false))) ∧
    chorus (.vchorMax d a b f) .redEq .fredEq ((intFolding (fun c x y => if intVal c x < intVal c y then y else x) (edge true)).orElse
      (fpFolding (fun c x y => minmaxF true (dDfmt c) (dDfmt c) (dDfmt c) 0 x y) (edge true))) ∧
    Chorus (.vchorArgmax d a b f) (fun _ => .arg) (argFolding (beyond true) (edge true)) true d ∧
    Chorus (.vchorArgmin d a b f) (fun _ => .arg) (argFolding (beyond false) (edge false)) true d ∧
    chorus (.vchorAnd d a b f) .redEq .redEq (intFolding (fun _ x y => x &&& y) (fun c => 2 ^ fmtBits c - 1)) ∧
    chorus (.vchorOr d a b f) .redEq .redEq (intFolding (fun _ x y => x ||| y) (fun _ => 0)) ∧
    chorus (.vchorXor d a b f) .redEq .redEq (intFolding (fun _ x y => x ^^^ y) (fun _ => 0))

/-- R207, R208 and R211: vsend sends each target its elements in order as one message, which is on its way until VSEND_ARRIVAL, once no
line of a bundle that an older bseal committed is left to flip (R262); vwait delivers 0 where every flag has met its
value, the unmet elements at its timeout, and waits otherwise.
It says that exec answers a next state for: vectorCommit, vwaitTimeout. -/
def Obligations.MessagesAndFlagWaits : Prop :=
  ∀ (a b : BitVec 6) (x : BitVec 5) (k : BitVec 3) (q : BitVec 2),
    (∀ s h t e r p, AtVcp s h t e r (.vsend a b k) → s.unflipped h = false → Shaped t e → 2 ≤ e.w → a.toNat % e.lmul = 0 → b.toNat % e.lmul = 0 →
      s.partAt t.part = some p →
      let P := takesPart t e.vl (act e t k)
      let target := fun (j : Nat) => el e t b e.w j
      (∀ j, P j → target j < 2048 ∧ target j % 1024 ∈ p.cores) →
      let sent := fun (n : Nat) => (List.range e.vl).filter fun j => decide (t.vstart ≤ j) && act e t k j && target j == n
      ∃ u added, exec (.vectorCommit h) s = .next ({ s with msgs := s.msgs ++ added }.setTh h u) ∧ Committed t u e r 0 ∧ VregsStand t u ∧
        u.masks = t.masks ∧ added.Nodup ∧ ∀ m, m ∈ added ↔ ∃ n, sent n ≠ [] ∧
          m = { h := h, lost := false, core := n % 1024, slot := n / 1024, source := t.core + 1024 * t.slot, sew := e.vcfg.toNat % 8,
                data := (sent n).map fun j => BitVec.ofNat 64 (el e t a e.w j) }) ∧
    (∀ s h t e r pa, AtVcp s h t e r (.vwait a x b k q) → Shaped t e → e.w = 8 → a.toNat % e.lmul = 0 → b.toNat % e.lmul = 0 →
      let met := fun (j : Nat) => e.since.isSome && e.met.testBit j
      let P := fun (j : Nat) => takesPart t e.vl (act e t k) j ∧ met j = false
      let equal := fun (j : Nat) => leNat (s.physBytes (pa j) 8) = el e t b 8 j
      let late := e.op 0 ≠ BitVec.allOnes 64 ∧ e.since.getD s.time + (e.op 0).toNat ≤ s.time
      Reaches s t .load 8 P (fun j => BitVec.ofNat 64 (el e t a 8 j)) pa →
      ((∀ j, P j → equal j) → ∃ s' u, exec (.vectorCommit h) s = .next s' ∧ CommittedMem s s' h (t.deliver q.toNat e.tag 0) u e r ∧
        VregsStand t u ∧ u.masks = t.masks) ∧
      ((∃ j, P j ∧ ¬ equal j) → late → ∃ s' u y, exec (.vectorCommit h) s = .next s' ∧ CommittedMem s s' h (t.deliver q.toNat e.tag y) u e r ∧
        VregsStand t u ∧ u.masks = t.masks ∧
        (∀ n < 63, y.getLsbD n = true ↔ P n ∧ ¬ equal n) ∧ (y.getLsbD 63 = true ↔ ∃ j, 63 ≤ j ∧ P j ∧ ¬ equal j) ∧
        (e.since.isSome = true → exec (.vwaitTimeout h) s = .next s')) ∧
      ((∃ j, P j ∧ ¬ equal j) → ¬ late → ∃ s' u n, exec (.vectorCommit h) s = .next s' ∧ s'.th h = some u ∧ Apart s s' h ∧
        u = { t with queue := { e with met := n, since := some (e.since.getD s.time) } :: r, localReq := u.localReq, remote := u.remote, offpkg := u.offpkg } ∧
        ∀ j < e.vl, n.testBit j = true ↔ met j = true ∨ P j ∧ equal j))

/-- R19, R213, R214, R215, R216 and R217: a copy word passes from the queue to the copy engine; cpdim sets a record of the nest, cpstat
delivers the fault address, cpgo moves the bytes of a nest in which none is both read and written (R214 leaves the rest open) and
owns the lines written until its retirement, which delivers the entry of q5.
It says that exec answers a next state for: vectorCommit, copyCommand, copyCommandRetire. -/
def Obligations.CopyEngine : Prop :=
  (∀ s h t e r i, AtVcp s h t e r i → engOf i = some .C →
    exec (.vectorCommit h) s = .next (s.setTh h { t with queue := r, ceng := t.ceng ++ [e] })) ∧
  (∀ s h t e r c a b (n : BitVec 3), AtCopyEngine s h t e r (.cpdim c a b n) → t.crun = none → n.toNat < t.nest.length →
    exec (.copyCommand h) s = .next (s.setTh h { t with ceng := r, nest := t.nest.set n.toNat ⟨e.op 0, e.op 1, e.op 2⟩ })) ∧
  (∀ s h t e r (q : BitVec 2), AtCopyEngine s h t e r (.cpstat q) → t.crun = none →
    let x := BitVec.ofNat 64 (t.faddr.toNat + if t.faulted then 2 ^ 63 else 0)
    exec (.copyCommand h) s = .next (s.setTh h ({ t with ceng := r, faulted := false }.deliver q.toNat e.tag x))) ∧
  (∀ s h t e r a b (n : BitVec 3) (ps pd place : Nat → Nat), AtCopyEngine s h t e r (.cpgo a b n) → t.crun = none → s.mem.wf = true →
    let dims := t.nest.take n.toNat
    let bytes := (dims.map fun d => d.count.toNat).prod
    (∀ d ∈ dims, 1 ≤ d.count.toNat ∧ d.count.toNat < 2 ^ 32) →
    (∀ x < bytes, (∃ y, s.checkAccess t .C .load (e.op 1 + nestAt Dim.ss dims x).toNat 1 = .ok (.dram (ps x) y)) ∧ Quiet s (ps x / 128)) →
    (∀ x < bytes, s.checkAccess t .C .store (e.op 0 + nestAt Dim.ds dims x).toNat 1 = .ok (.dram (pd x) (place x)) ∧ Quiet s (pd x / 128)) →
    (∀ x < bytes, ∀ y < bytes, pd x ≠ ps y ∧ (pd x = pd y → x = y)) →
    ∃ s' u, exec (.copyCommand h) s = .next s' ∧ s'.th h = some u ∧ Apart s s' h ∧
      u = { t with crun := some { seq := t.cseq, cause := 0, landed := bytes, tails := [], banks := [] }, cseq := (t.cseq + 1) % 2 ^ 32, localReq := u.localReq, remote := u.remote, offpkg := u.offpkg } ∧
      (∀ x < bytes, s'.physByte (pd x) = s.physByte (ps x)) ∧ (∀ c, (∀ x < bytes, pd x ≠ c) → s'.physByte c = s.physByte c) ∧
      (bytes ≤ 4096 → ∀ x < bytes, place x ≠ 4 → s'.ownerOf (pd x / 128) = some h)) ∧
  (∀ s h t e r i y, AtCopyEngine s h t e r i → t.crun = some y →
    ∃ s', exec (.copyCommandRetire h) s = .next s' ∧
      s'.th h = some { ({ t with crun := none }.post 5 (BitVec.ofNat 64 (y.seq + y.cause * 2 ^ 32))) with ceng := r } ∧
      (∀ l, s'.ownerOf l ≠ some h) ∧ s'.mem = s.mem ∧ s'.clearPend = s.clearPend ∧ Apart s s' h)

/-- R221, R220, R356 and R363: the cause that bseal delivers, with the serial of a bundle that committed, and babort. A bundle with no store
commits with cause 0 once nothing that the thread sent before is on its way, and with cause 4 from the end of its budget on. -/
def Obligations.BundlesAtVcp : Prop :=
  ∀ (q : BitVec 2),
    let sealed := fun (s : State) (h : Nat) (t : Thread) (e : QEntry) (r : List QEntry) (cause serial : Nat) (named : Bool) =>
      ∃ s' u, exec (.vectorCommit h) s = .next s' ∧ s'.th h = some u ∧ Apart s s' h ∧ s'.mem = s.mem ∧ VregsStand t u ∧ u.masks = t.masks ∧
        Committed { t.deliver q.toNat e.tag (sealWord serial cause) with
          bcause := BitVec.ofNat 8 cause, bserial := if named && cause == 0 then BitVec.ofNat 24 serial else t.bserial } u e r 0
    (∀ s h t e r, AtVcp s h t e r (.bseal q) →
      (e.bundle = none → sealed s h t e r 6 0 false) ∧
      ∀ b, e.bundle = some b →
        (tget s.bundles b = none → sealed s h t e r 5 0 true) ∧
        ∀ x, tget s.bundles b = some x →
          (x.stage = .aborted → sealed s h t e r x.cause 0 true) ∧
          (x.stage = .committed → sealed s h t e r 0 x.serial true) ∧
          ((x.stage = .open_ ∨ x.stage = .sealing) →
            (x.lead = none → x.opened + 120000 ≤ s.time → sealed s h t e r 4 0 true) ∧
            (x.lead = none → s.time < x.opened + 120000 → s.settled h = true → sealed s h t e r 0 0 true) ∧
            (x.lead = none → s.time < x.opened + 120000 → s.settled h = false → exec (.vectorCommit h) s = .next s) ∧
            (x.lead ≠ none → exec (.vectorCommit h) s = .next s))) ∧
    (∀ s h t e r b, AtVcp s h t e r .babort → ∃ u, Committed t u e r 0 ∧ VregsStand t u ∧ u.masks = t.masks ∧
      (e.bundle = some b → exec (.vectorCommit h) s = .next ({ s with bundles := tdel s.bundles b }.setTh h u)) ∧
      (e.bundle = none → exec (.vectorCommit h) s = .next (s.setTh h u)))

/-- R222, R223, R224, R348, R349, R351, R352 and R226: the words of coherence objects and pwdrop, at the VCP. oseal raises the seal counts
of the object's lines first, and then waits while one of them is owned by a copy engine or pending in a bundle. oshape answers CAUSE 1
where the table is full (no stale translation stands in a cache, log 13), and 2 where a field of the record is out of its range or a page is not as R348 wants it. That the cycles of an
ounseal count from when it stood at the head of the queue (e.since) is the model's reading (log 58, DEDUCED).
It says that exec answers a next state for: vectorCommit, ounsealTimeout. -/
def Obligations.ObjectsAtVcp : Prop :=
  ∀ (a b : BitVec 5) (q c : BitVec 2) (s : State) (h : Nat) (t : Thread) (e : QEntry) (r : List QEntry) (p : Partition) (o : Obj),
    s.partAt t.part = some p →
    let n := (e.op 0).toNat
    let plain := fun (u : Thread) => VregsStand t u ∧ u.masks = t.masks
    let put := fun (x : Obj) => { p with objects := tset p.objects n x }
    let fresh := ∀ va, s.cachedPage t.core t.vdev va = none ∨ s.cachedPage t.core t.vdev va = s.walk t.part t.vdev va
    let answers := fun (cause : Nat) (x : Obj) => ∃ u, exec (.vectorCommit h) s = .next ((s.setPart t.part (put x)).setTh h u) ∧
      Committed (t.deliver q.toNat e.tag (objectWord x.refs cause)) u e r 0 ∧ plain u
    (∀ pa y lines k, AtVcp s h t e r (.oshape q a) → s.checkAccess t .V .load n 64 = .ok (.dram pa y) → pa % 64 = 0 → Quiet s (pa / 128) →
      fresh → s.shapeBound t (s.physBytes pa 64) = some lines → k < 4096 → tget p.objects k = none → (∀ j < k, tget p.objects j ≠ none) →
      ∃ s' u x p', exec (.vectorCommit h) s = .next s' ∧ CommittedMem s s' h (t.deliver q.toNat e.tag (objectWord k 0)) u e r ∧ plain u ∧
        s'.partAt t.part = some p' ∧ tget p'.objects k = some x ∧ x = { task := t.task, lines := lines, isSealed := false, sealing := none, refs := 0 } ∧
        (∀ j, j ≠ k → tget p'.objects j = tget p.objects j) ∧ ∀ z, s'.physByte z = s.physByte z) ∧
    (∀ pa y, AtVcp s h t e r (.oshape q a) → s.checkAccess t .V .load n 64 = .ok (.dram pa y) → pa % 64 = 0 → Quiet s (pa / 128) → fresh →
      let f := fun (o w : Nat) => leNat (s.physBytes (pa + o) w)
      let fails := fun (cause : Nat) => ∃ s' u p', exec (.vectorCommit h) s = .next s' ∧
        CommittedMem s s' h (t.deliver q.toNat e.tag (objectWord 0 cause)) u e r ∧ plain u ∧ s'.partAt t.part = some p' ∧ p'.objects = p.objects
      ((∃ lines, s.shapeBound t (s.physBytes pa 64) = some lines) → (∀ j < 4096, tget p.objects j ≠ none) → fails 1) ∧
      (f 0 2 ≠ 1 ∨ f 3 1 = 0 ∨ 4 < f 3 1 ∨ f 4 4 ≠ 0 ∨ 2 ^ 48 ≤ f 8 8 ∨ (∃ d < 4, d < f 3 1 ∧ f (16 + 4 * d) 4 = 0) ∨
        (∃ d < 4, f 3 1 ≤ d ∧ (f (16 + 4 * d) 4 ≠ 0 ∨ f (32 + 8 * d) 8 ≠ 0)) ∨
        (∀ g, s.pageFor t (f 8 8 / 128 * 128) = some g → g.r = false ∨ 2 < g.place ∨ pkgOf (g.at_ (f 8 8 / 128 * 128)) ≠ s.pkg) → fails 2)) ∧
    (n < 4096 → tget p.objects n = some o →
      (AtVcp s h t e r (.oseal a) →
        let free := ∀ l ∈ o.lines, s.ownerOf l = none ∧ s.pendingOf l = none
        let seals := ∃ s' u, exec (.vectorCommit h) s = .next s' ∧ s'.th h = some u ∧ Committed t u e r 0 ∧ plain u ∧ Apart s s' h ∧
          s'.mem = s.mem ∧ s'.partAt t.part = some (put { o with isSealed := true, sealing := none })
        (o.sealing = none → o.isSealed = false → (∀ l ∈ o.lines, s.sealCount l < 15) →
          (free → seals) ∧
          (¬ free → ∃ s', exec (.vectorCommit h) s = .next s' ∧ s'.th h = some t ∧ Apart s s' h ∧ s'.mem = s.mem ∧
            s'.partAt t.part = some (put { o with sealing := some h }))) ∧
        (o.sealing = some h → (free → seals) ∧ (¬ free → exec (.vectorCommit h) s = .next (s.setPart t.part (put o))))) ∧
      (AtVcp s h t e r (.orel a) → ∃ s' u, exec (.vectorCommit h) s = .next s' ∧ s'.th h = some u ∧ Committed t u e r 0 ∧ plain u ∧ Apart s s' h ∧
        s'.mem = s.mem ∧ (o.refs ≠ 0 → s'.partAt t.part = some (put { o with refs := o.refs - 1 })) ∧ (o.refs = 0 → s' = s.setTh h u)) ∧
      (AtVcp s h t e r (.ounseal q a b) → o.isSealed = true → o.refs = 0 → answers 0 { o with isSealed := false }) ∧
      (AtVcp s h t e r (.ounseal q a b) → o.isSealed = true → o.refs ≠ 0 → e.since.getD s.time + (e.op 1).toNat ≤ s.time →
        ∃ u, exec (.vectorCommit h) s = .next (s.setTh h u) ∧ Committed (t.deliver q.toNat e.tag (objectWord o.refs 1)) u e r 0 ∧ plain u ∧
          (e.since.isSome = true → exec (.ounsealTimeout h) s = .next (s.setTh h u))) ∧
      (AtVcp s h t e r (.ounseal q a b) → o.isSealed = true → o.refs ≠ 0 → s.time < e.since.getD s.time + (e.op 1).toNat →
        exec (.vectorCommit h) s = .next (s.setTh h { t with queue := { e with since := some (e.since.getD s.time) } :: r })) ∧
      (AtVcp s h t e r (.ounseal q a b) → o.isSealed = false →
        ∃ u, exec (.vectorCommit h) s = .next (s.setTh h u) ∧ Committed (t.deliver q.toNat e.tag (objectWord o.refs 2)) u e r 0 ∧ plain u)) ∧
    (AtVcp s h t e r (.ounseal q a b) → s.objectAt t.part (e.op 0) = none →
      ∃ u, exec (.vectorCommit h) s = .next (s.setTh h u) ∧ Committed (t.deliver q.toNat e.tag (objectWord 0 3)) u e r 0 ∧ plain u) ∧
    (AtVcp s h t e r (.pwdrop c) → ∃ u v, exec (.vectorCommit h) s =
        .next ((s.setDie (t.core / 128) { s.dieAt (t.core / 128) with
          leaseQ := (s.dieAt (t.core / 128)).leaseQ.filter fun x => !(x.h == h && x.cls == c.toNat) }).setTh h u) ∧
      v = t.setLease c.toNat { t.lease c.toNat with held := false, req := false } ∧ Committed v u e r 0 ∧ plain u)

/-- R28, R53, R197, R154, R89, R90 and R91, on words that stand for the rest: a strip that is illegal traps with VILL, an invalid descriptor
and a mask of vcvtq or vcvtq.c other than k0 as illegal instruction, a load at the first element that fails its check; a token is popped before a word begins and pushed after it,
and D copies the destination. -/
def Obligations.TrapsAndFeaturesAtVcp : Prop :=
  ∀ (d a b : BitVec 6) (x : BitVec 5) (k f : BitVec 3) (y : Bool) (s : State) (h : Nat) (t : Thread) (e : QEntry) (r : List QEntry),
    let traps := t.handler = false ∧ t.tvec ≠ 0 ∧ t.loop.pending = false ∧ t.bopen = false ∧ (∀ z ∈ t.queue, z.bundle = none) ∧ ∃ s1, s.putImage t t.queue = .ok s1
    (traps → AtVcp s h t { e with vill := false } r (.vadd d a b k f y) →
      let v := { t with queue := { e with vill := true } :: r }
      ∃ s', exec (.vectorCommit h) (s.setTh h v) = .next s' ∧ TrapAtVcp (s.setTh h v) s' h v e.regLen 2 0 0 t.vstart) ∧
    (traps → AtVcp s h t e r (.vadd d a b k f y) → descOk .int2 e.sew e.desc = false →
      ∃ s', exec (.vectorCommit h) s = .next s' ∧ TrapAtVcp s s' h t e.regLen 1 0 0 t.vstart) ∧
    (traps → k ≠ 0 → (AtVcp s h t e r (.vcvtq d a b (f, k)) ∨ AtVcp s h t e r (.vcvtqC d b (f, k))) →
      ∃ s', exec (.vectorCommit h) s = .next s' ∧ TrapAtVcp s s' h t e.regLen 1 0 0 t.vstart) ∧
    (∀ n c, traps → AtVcp s h t e r (.vld d x k) → Shaped t e → d.toNat % e.lmul = 0 →
      let va := (e.op 0 + BitVec.ofNat 64 (n * e.w)).toNat
      64 * (n / 64) ≤ t.vstart → takesPart t e.vl (act e t k) n → (∀ j < n, ¬ takesPart t e.vl (act e t k) j) → s.checkAccess t .V .load va e.w = .error c →
      ∃ s', exec (.vectorCommit h) s = .next s' ∧ TrapAtVcp s s' h t e.regLen c n va (64 * (n / 64))) ∧
    (∀ pop push, s.th h = some t → t.res = .resident → t.loop.vtrap = false → t.queue = e :: r → decode e.word = some (.vmv d a k) →
      e.failed = false → e.vill = false → e.region = false → t.binds = [] → t.awaitsLease e = none → s.overflowErrors t = [] → Shaped t e → d.toNat % e.lmul = 0 → a.toNat % e.lmul = 0 →
      featPop e.feat = pop → featPush e.feat = push → (featD e.feat = true → dregOk e d e.lmul = true) →
      let takes := pop ≠ 0 ∧ fifoTo pop = .V
      ((t.retq.any fun z => fifoFrom z.toNat == .V) = true → exec (.vectorCommit h) s = .next s) ∧
      (takes → t.token pop = 0 → exec (.vectorCommit h) s = .next s) ∧
      (t.retq = [] → (takes → 0 < t.token pop) →
        ∃ u, exec (.vectorCommit h) s = .next (s.setTh h u) ∧
          Committed { (if takes then t.setToken pop (t.token pop - 1) else t) with
            retq := if push = 0 then [] else [BitVec.ofNat 4 push] } u e r 0 ∧
          ∀ j < e.vlmax, el e u d e.w j = leaves e t (act e t k j) j (el e t d e.w j) (el e t a e.w j % 2 ^ e.sew) ∧
            (featD e.feat = true → t.vstart ≤ j → el e u (BitVec.ofNat 6 (featDreg e.feat)) e.w j = el e u d e.w j)))

/-- Events of a thread: R91 (a push of a retired word), R18 and R45 (wait points), R226 (a lease lapses), R360 (the stale condition), R322
and R323 (a trap between two words, or at the VCP for the causes that stand only there: 0x02, 0x09 and 0x0A), R208 and R209 (a message lands),
R245 (a write of HEAD), R241 and R365 (a write of BANKMODE, which stops a resident thread's copy command in flight in a bank that leaves
SCRATCH mode with CAUSE 2, as cpstat then reports it, R217; at which byte it stops is the model's choice, log 79). The stale condition waits
for the flips that a lost route keeps from their homes (log 56).
It says that exec answers a next state for: retirementPush, waitPointRelease, vsendArrival, fifoHeadWrite, bankmodeWrite, staleClear, trap,
leaseLapse. -/
def Obligations.ThreadEvents : Prop :=
  ∀ (s : State) (h : Nat) (t : Thread), s.th h = some t →
    (∀ f r, t.retq = f :: r → t.token f.toNat < 15 → (fifoFrom f.toNat = .V → s.sending h = false ∧ s.unflipped h = false) →
      exec (.retirementPush h) s = .next (s.setTh h { t.setToken f.toNat (t.token f.toNat + 1) with retq := r })) ∧
    (∀ w, t.res = .resident → t.wait = some w →
      ((w = .queueFull ∧ t.queue.length < 64) ∨ (w = .popS ∧ 0 < t.token (featPop t.feat)) ∨ (w = .hold) ∨
        (w = .bar ∧ ∃ a ∈ t.arrivals, a.pc = t.pc ∧ a.handler = t.handler ∧ a.done = true) ∨
        (w = .drain ∧ t.queue = []) ∨ (∃ k, w = .fence k ∧ s.fenceDone h t k = true) ∨
        (∃ c, w = .lease c ∧ ((t.lease c).held = true ∨ (t.lease c).req = false)) ∨
        (∃ (q : Nat) (x : Nat × Word) (l : List QSlot), w = .qpop q ∧ t.q q = { tag := x.1, val := some x.2 } :: l)) →
      exec (.waitPointRelease h) s = .next (s.setTh h { t with wait := none })) ∧
    (∀ c, (t.lease c).held = true → max (t.lease c).granted (t.lease c).last + 60000 ≤ s.time →
      exec (.leaseLapse h c) s = .next (s.setTh h (t.setLease c { t.lease c with held := false }))) ∧
    (∀ x, t.stale = some x → x + 24000 ≤ s.time →
      (∀ b ∈ s.bundles, b.2.stage = .committed → b.2.opened ≤ x → ∀ l ∈ b.2.lines, l.flipped = true) → exec (.staleClear h) s = .next (s.setTh h { t with stale := none })) ∧
    (∀ x b w l, t.stale = some x → tget s.bundles b = some w → w.stage = .committed → w.opened ≤ x → l ∈ w.lines → l.flipped = false →
      s.routed (l.line * 128) = false → exec (.staleClear h) s = .next s) ∧
    (∀ (cause : BitVec 8) (code : BitVec 20) (addr : BitVec 64) (elem : Nat),
      let c := cause.toNat
      let bare := c ∈ [1, 2, 7, 8, 0x0B, 0x0C]
      (Ready s h t → t.queue = [] → Trappable s t → 1 ≤ c → c ≤ 0x0C → c ∉ [2, 9, 0x0A] →
        ∃ s', exec (.trap cause code addr elem) s = .next s' ∧ TrapTaken s s' h t c (if c = 0x0B ∨ c = 0x0C then code.toNat else 0)
          (if bare then 0 else addr.toNat) (if bare then 0 else elem) (if c = 0x0C then t.pc + 4 else t.pc)) ∧
      (Ready s h t → t.queue ≠ [] → (∀ z ∈ t.queue, z.bundle = none) → t.handler = false → t.tvec ≠ 0 → (∃ s1, s.putImage t t.queue = .ok s1) →
        c ∈ [2, 9, 0x0A] → ∃ s', exec (.trap cause code addr elem) s = .next s' ∧
          ∀ len, TrapAtVcp s s' h t len c (if bare then 0 else elem) (if bare then 0 else addr.toNat) t.vstart)) ∧
    (∀ core b m l, s.msgs = m :: l → m.core = core → m.lost = false → (s.coreAt core).inbox = some b → (s.coreAt core).tail b % 16 = 0 →
      (s.coreAt core).head b ≤ (s.coreAt core).tail b → (s.coreAt core).tail b + 16 * m.data.length ≤ (s.coreAt core).head b + 65536 →
      (s.coreAt core).banks.wf = true → s.inSlot core m.slot = some (h, t) → t.res = .resident → (t.q 4).length < 16 →
      let at_ := fun (i : Nat) => b * 65536 + ((s.coreAt core).tail b + 16 * i) % 65536
      ∃ s', exec (.vsendArrival core) s = .next s' ∧ s'.msgs = l ∧ s'.mem = s.mem ∧
        (s'.coreAt core).tail b = (s.coreAt core).tail b + 16 * m.data.length ∧
        (∀ i < m.data.length, mgetN (s'.coreAt core).banks (at_ i) 16 = leBytes 8 (m.data.getD i 0).toNat ++ leBytes 8 (m.source + m.sew * 2 ^ 16)) ∧
        (∀ a, (∀ i < m.data.length, a < at_ i ∨ at_ i + 16 ≤ a) → mget (s'.coreAt core).banks a = mget (s.coreAt core).banks a) ∧
        ∃ u, s'.th h = some u ∧ u = { t with qregs := u.qregs } ∧
          u.q 4 = t.q 4 ++ [{ tag := 0, val := some (BitVec.ofNat 64 (m.data.length + m.source * 2 ^ 32)) }]) ∧
    (∀ bank (x : BitVec 64), Ready s h t → bank < 12 → (s.coreAt t.core).mode bank = 2 → x.toNat % 16 = 0 → (s.coreAt t.core).head bank ≤ x.toNat →
      x.toNat ≤ (s.coreAt t.core).tail bank →
      exec (.fifoHeadWrite bank x) s =
        .next (s.setCore t.core { s.coreAt t.core with fifoHead := tset (s.coreAt t.core).fifoHead bank x.toNat })) ∧
    (∀ x : BitVec 64, Ready s h t →
      let mode := fun (b : Nat) => x.toNat / 2 ^ (2 * b) % 4
      (∀ b < 12, mode b < 3) → (∃ b < 12, mode b = 0) →
      (∀ b < 12, mode b ≠ (s.coreAt t.core).mode b → (s.coreAt t.core).mode b = 0 ∨ (s.coreAt t.core).bankOwner b = t.slot) →
      t.slot < 2 → (s.coreAt t.core).banks.wf = true → ∃ s', exec (.bankmodeWrite x) s = .next s' ∧ s'.mem = s.mem ∧
        (let leaves := fun (b : Nat) => b < 12 ∧ (s.coreAt t.core).mode b = 1 ∧ mode b ≠ 1
          ∀ g u, s.th g = some u → ∃ v, s'.th g = some v ∧
            v = { u with crun := v.crun, faulted := v.faulted, faddr := v.faddr, localReq := v.localReq, remote := v.remote, offpkg := v.offpkg } ∧
            (g ≠ h → v.localReq = u.localReq ∧ v.remote = u.remote ∧ v.offpkg = u.offpkg) ∧
            ((∃ r, u.crun = some r ∧ r.cause = 0 ∧ u.core = t.core ∧ u.res = .resident ∧ (∃ b ∈ r.banks, leaves b.1) ∧
                v.crun = some { r with cause := 2 } ∧ v.faulted = true ∧ ∃ b ∈ r.banks, leaves b.1 ∧ v.faddr = BitVec.ofNat 48 b.2) ∨
              ((∀ r, u.crun = some r → ¬ (r.cause = 0 ∧ u.core = t.core ∧ u.res = .resident ∧ ∃ b ∈ r.banks, leaves b.1)) ∧
                v.crun = u.crun ∧ v.faulted = u.faulted ∧ v.faddr = u.faddr))) ∧
        ∀ b < 12,
        (s'.coreAt t.core).mode b = mode b ∧
        (mode b = (s.coreAt t.core).mode b → (s'.coreAt t.core).bankOwner b = (s.coreAt t.core).bankOwner b ∧
          ∀ k < 65536, mget (s'.coreAt t.core).banks (b * 65536 + k) = mget (s.coreAt t.core).banks (b * 65536 + k)) ∧
        (mode b ≠ (s.coreAt t.core).mode b → (mode b ≠ 0 → (s'.coreAt t.core).bankOwner b = t.slot) ∧
          ∀ k < 65536, mget (s'.coreAt t.core).banks (b * 65536 + k) = 0))

/-- R291, R292, R293, R294, R295, R296, R297 and R299: the marked loop is confirmed or refused at lend, replayed under the translations of its
confirmation to its end or to a departure, which a request held for 6,144 cycles is, released at the replay barrier point, and handed back. What the iterations do is the model's replay of the body. The model's
choices: that the replay is made in one step, that the iterations before a held request stand undone until the 6,144 cycles have passed, and
that a departure's iteration is the event's (the three clauses with replayFrom: log 52, DESIGN CHOICE); how the confirmation compares
streams and counts the footprint (confirmCause, the first two clauses: log 34, DEDUCED).
It says that exec answers a next state for: waitPointRelease, loopConfirmation, replayComplete, departure, handBack. -/
def Obligations.LoopEvents : Prop :=
  ∀ (s : State) (h : Nat) (t : Thread), s.th h = some t →
    let status := fun (u : Thread) (n : Nat) => u.undstat.toNat % 16 = n
    (t.wait = some .lend → t.queue = [] → s.sending h = false → t.res = .resident →
      (t.loop.stage ≠ .rehearsal → exec (.loopConfirmation h) s = .next (s.setTh h { t with wait := none })) ∧
      (t.loop.stage = .rehearsal → s.confirmCause t = 0 → t.storesOk = true →
        ∃ s' u, exec (.loopConfirmation h) s = .next s' ∧ s'.th h = some u ∧ status u 2 ∧ u.loop.stage = .replay ∧ u.wait = none ∧ u.flags = t.flags ∧
          u.masks = t.masks ∧ u.vcfg = t.vcfg ∧ u.vl = t.vl ∧ u.pc = t.pc ∧
          (∀ r, u.reg r = if r ∈ t.loop.scalarWrites ∧ r ≠ 0 then
            (if r = t.loop.iReg then BitVec.ofNat 64 t.loop.trip
              else t.loop.init.getD r.toNat 0 + BitVec.ofInt 64 (t.loop.trip * t.loop.inc r)) else t.reg r) ∧
          ∀ v q, q < t.loop.regLen → t.loop.regLen ≤ 2048 → u.regByte t.loop.regLen v q =
            if t.loop.vF.toNat ≤ v ∧ v ≤ t.loop.vL.toNat then 0 else t.regByte t.loop.regLen v q) ∧
      (t.loop.stage = .rehearsal → s.confirmCause t ≠ 0 → ∃ s' u, exec (.loopConfirmation h) s = .next s' ∧ s'.th h = some u ∧ status u 5 ∧
        u.undstat.toNat / 16 % 256 = s.confirmCause t ∧ u = { t with wait := none, undstat := u.undstat, loop := { t.loop with stage := .refused } })) ∧
    (∀ s1 v f n, t.loop.stage = .replay → t.loop.depart = none → t.loop.d ≤ n → n ≤ t.loop.trip →
      let p := { t with loop := { t.loop with pinned := true } }
      (s.setTh h p).replayFrom h p t.loop.d 0 (n - t.loop.d) = .done s1 f → s1.th h = some v →
      let counted := BitVec.ofNat 32 (min (v.replayed.toNat + (n - t.loop.d)) (2 ^ 32 - 1))
      let next := fun (stage : LoopStage) (j : Option (Nat × BitVec 8)) =>
        s1.setTh h { v with replayed := counted, loop := { t.loop with stage := stage, flags := BitVec.ofNat 6 f, depart := j, conf := none, late := none } }
      (n = t.loop.trip → exec (.replayComplete h) s = .next (next .performed none)) ∧
      ∀ cause : BitVec 8, 0x20 ≤ cause.toNat → cause.toNat ≤ 0x25 → n < t.loop.trip →
        exec (.departure h n cause) s = .next (next .replay (some (n, cause)))) ∧
    (∀ s1 v f j, t.loop.stage = .replay → t.loop.depart = none → t.loop.d ≤ t.loop.trip →
      let p := { t with loop := { t.loop with pinned := true } }
      (s.setTh h p).replayFrom h p t.loop.d 0 (t.loop.trip - t.loop.d) = .hold s1 f j → s1.th h = some v →
      (t.loop.late = none → exec (.replayComplete h) s = .next (s.setTh h { t with loop := { t.loop with late := some (j, s.time) } })) ∧
      (∀ x, t.loop.late = some (j, x) → (s.time < x + 6144 → exec (.replayComplete h) s = .next s) ∧
        (x + 6144 ≤ s.time → exec (.replayComplete h) s = .next (s1.setTh h { v with
          replayed := BitVec.ofNat 32 (min (v.replayed.toNat + (j - t.loop.d)) (2 ^ 32 - 1)), loop := { t.loop with stage := .replay, flags := BitVec.ofNat 6 f, depart := some (j, 0x24), conf := none, late := none } })))) ∧
    (t.res = .resident → t.wait = some .replay → t.loop.stage = .performed → t.loop.depart = none →
      (t.queue = [] ∧ s.sending h = false ∨ t.loop.vtrap = true) →
      ∃ s' u, exec (.waitPointRelease h) s = .next s' ∧ s'.th h = some u ∧ status u 4 ∧ u.flags = t.flags ||| t.loop.flags ∧ u.wait = none ∧
        u.loop.stage = .none ∧ u.regs = t.regs ∧ u.pc = t.pc) ∧
    (∀ j c, t.loop.depart = some (j, c) → t.res = .resident → t.handler = false → t.queue = [] →
      ∃ s' u, exec (.handBack h) s = .next s' ∧ s'.th h = some u ∧ status u 3 ∧ u.undstat.toNat / 16 % 256 = c.toNat ∧ u.loop.stage = .coreRun ∧
        u.loop.iter = j ∧ u.loop.ret = t.pc ∧ u.pc = t.loop.head ∧ u.flags = t.flags ||| t.loop.flags ∧ u.loop.depart = none ∧ VregsStand t u ∧
        ∀ r, u.reg r = if r ∈ t.loop.scalarWrites ∧ r ≠ 0 then
          (if r = t.loop.iReg then BitVec.ofNat 64 j else t.loop.init.getD r.toNat 0 + BitVec.ofInt 64 (j * t.loop.inc r)) else t.reg r)

/-- R302, R130, R303, R307, R33, R335, R311, R340, R310, R306 and R304: submissions and their answers, placement and octets, saves and
resumptions. Which thread and which slot are chosen, ChoiceAndPlacement states. The model's choices: a resumption restores the thread record whatever
the bytes of the image in memory hold (the last clause; log 49, DESIGN CHOICE), and the end of a window sets CARRIED in every case (b) of R33
(the yieldWindowExpiry clause; log 48, DEDUCED).
It says that exec answers a next state for: threadPlacement, octetPass, yieldWindowExpiry, levelAgeing, slicePreemption, migrationSave, save,
resumption, launchPortRecord, launchAccept. -/
def Obligations.SchedulerEvents : Prop :=
  (∀ (s : State) vd n off data v x, s.vdevAt vd = some v → vd < 80 → n < 4 → v.ports[n]? = some x → off < 64 →
    exec (.launchPortRecord vd n off data) s = .next (
      if off = 0 ∧ data.length = 64 ∧ x.busy = false then
        { s.setVdev vd { v with ports := v.ports.set n { x with busy := true } } with
          subs := s.subs ++ [{ src := .port vd n, vdev := vd, core := none, bytes := data }] }
      else s.setVdev vd { v with ports := v.ports.set n { x with lost := min (x.lost + 1) (2 ^ 32 - 1) } })) ∧
  (∀ (s : State) h q tag vd core b r t, s.subs = { src := .thread h q tag, vdev := vd, core := core, bytes := b } :: r → s.th h = some t →
    (s.launchCause vd false b ≠ 0 → exec (.launchAccept 0) s = .next ({ s with subs := r }.setTh h
      (t.deliver q tag (BitVec.ofNat 64 (s.launchCause vd false b * 2 ^ 32 + 2 ^ 63))))) ∧
    (∀ p, s.launchCause vd false b = 0 → s.partAt (vdPart vd) = some p → h < s.nextH → leNat ((b.drop 3).take 1) % 8 ≠ 5 →
      let count := leNat ((b.drop 4).take 4)
      let entry := BitVec.ofNat 64 (leNat ((b.drop 8).take 6))
      ∃ s' k p', exec (.launchAccept 0) s = .next s' ∧ s'.subs = r ∧ s'.tasks = s.tasks ++ [k] ∧ s'.partAt (vdPart vd) = some p' ∧
        p'.nextTask = (k.num + 1) % 2 ^ 32 ∧ k.part = vdPart vd ∧ (s.task (vdPart vd) p.nextTask = none → k.num = p.nextTask) ∧ k.vdev = vd ∧ k.threads = count ∧ k.entry = entry ∧
        k.retired = 0 ∧ k.ended = 0 ∧ s'.th h = some (t.deliver q tag (BitVec.ofNat 64 k.num)) ∧
        ∀ tid < count, ∃ g u, s'.th g = some u ∧ u.tid = tid ∧ u.task = k.num ∧ u.part = vdPart vd ∧ u.res = .waiting ∧ u.pc = entry ∧ u.tvec = 0 ∧
          u.queue = [] ∧ u.vregs = [] ∧ u.flags = 0)) ∧
  (∀ (s s1 : State) p core c k x t, s.chooseNext p core = some (s1, c) → s1.slotFor c = some (k, x) → s.threadsOk = true → s.th c.2.1 = some t →
    ∃ s' u, exec (.threadPlacement p core) s = .next s' ∧ s'.th c.2.1 = some u ∧ u.core = k ∧ u.slot = x ∧ u.entered = s.time ∧
      (u.res = .placed ∨ u.res = .resident) ∧ u.regs = t.regs ∧
      ((∃ y ∈ s.candidates p core, y.1.prio < s.candLevel y ∧ s.risen y = true) → exec (.levelAgeing p core) s = .next s')) ∧
  (∀ (s : State) core oct d, oct < 8 → (s.coreAt core).drains.find? (fun y => y.oct == oct) = some d →
    let next := (s.coreAt core).octNext oct
    let passed := fun (s' : State) => (s'.coreAt core).oct oct = next ∧ (s'.coreAt core).drains = (s.coreAt core).drains.filter fun y => y.oct != oct
    next = 1 ∨ next = 2 →
    (s.inSlot core d.victim = none → ∃ s', exec (.octetPass core oct) s = .next s' ∧ passed s') ∧
    (∀ h t n, s.inSlot core d.victim = some (h, t) → d.opened = some n → (∀ e ∈ t.queue ++ t.imgq, n ≤ e.strip) →
      ∃ s', exec (.octetPass core oct) s = .next s' ∧ passed s') ∧
    (∀ h t, s.threadsOk = true → s.inSlot core d.victim = some (h, t) → d.until_ ≤ s.time → s.octetReady core oct = true →
      exec (.yieldWindowExpiry core oct) s = exec (.octetPass core oct) s) ∧
    (∀ h t, s.threadsOk = true → s.inSlot core d.victim = some (h, t) → d.until_ ≤ s.time → s.octetReady core oct = false →
      ∃ s' u, exec (.yieldWindowExpiry core oct) s = .next s' ∧ passed s' ∧ s'.th h = some u ∧ u.carried = true ∧ u.octets = t.octets ∧
        u.regs = t.regs)) ∧
  (∀ (s : State) h t pa, s.threadsOk = true → s.th h = some t → s.canSave t = true → s.freeSlot t.part = some pa →
    let saved := fun (i : Instr) (migrated : Bool) => ∃ s' u, exec i s = .next s' ∧ s'.th h = some u ∧ u.res = .saved ∧ u.saveSlot = some pa ∧
      u.migrated = migrated ∧ u.migrateAt = none ∧ u.seen = [] ∧ u.regs = t.regs ∧ VregsStand t u ∧ u.masks = t.masks ∧ u.tiles = t.tiles ∧ u.pc = t.pc ∧
      (t.ceng = [] → u.tokens = t.tokens) ∧ u.flags = t.flags
    saved (.save h) false ∧ (∀ y, t.migrateAt = some y → y ≤ s.time → saved (.migrationSave h) true) ∧
    (∀ p core c r, s.sliceVictims p core = (h, t, c) :: r →
      let s2 := s.saveThread h false
      (s2.inSlot core t.slot).isNone = true → s2.banksFit c.2.2 core = true → saved (.slicePreemption p core) false)) ∧
  (∀ (s : State) h t pa, s.th h = some t → t.res = .placed → t.saveSlot = some pa → (s.coreAt t.core).octets t.slot ≠ [] →
    s.banksFit t t.core = true → s.sending h = false → s.unflipped h = false → s.lineError pa (leNat (s.physBytes (pa + 24) 8)) = false →
    ∃ s' u, exec (.resumption h) s = .next s' ∧ s'.th h = some u ∧ u.res = .resident ∧ u.saveSlot = none ∧ u.residentAt = s.time ∧
      u.carried = decide (((s.coreAt t.core).octets t.slot).length < t.stripOct) ∧ u.regs = t.regs ∧ VregsStand t u ∧ u.masks = t.masks ∧
      u.pc = t.pc ∧ u.savedBanks = [])

/-- R315, R316, R317, R318, R319 and R389: a task completes with its record at DONE, and with the host message that HOSTMSG asks for (R391);
where DONE fails its check the task completes with no record, and a message of kind 3. The leases of a die are granted, revoked and put into
the order of their levels; the route of a pod barrier comes back. R226 and R229: a heavy word that was dispatched before a save is not
performed without its lease, which it asks for after the resumption (where it asks is the model's choice, log 74).
It says that exec answers a next state for: barrierRouteReturn, taskCompletion, leaseGrant, leaseRevoke, leaseAgeing. -/
def Obligations.TaskAndLeaseEvents : Prop :=
  (∀ (s : State) p n k pa place, s.task p n = some k → k.threads ≤ k.retired + k.ended →
    (∀ x ∈ s.threads, x.2.part = p → x.2.task = n → s.sending x.1 = false ∧ s.unflipped x.1 = false ∧ x.2.ceng = [] ∧ x.2.crun = none) → s.mem.wf = true →
    s.locateFor k.part k.vdev .store k.done.toNat 64 = .ok (.dram pa place) → pa % 64 = 0 → Quiet s (pa / 128) →
    ∃ s', exec (.taskCompletion p n) s = .next s' ∧ s'.task p n = none ∧ (∀ h t, s'.th h = some t → ¬ (t.part = p ∧ t.task = n)) ∧
      leNat (s'.physBytes pa 8) = n % 2 ^ 32 + 2 ^ 32 + 2 ^ 63 ∧ leNat (s'.physBytes (pa + 8) 4) = k.retired % 2 ^ 32 ∧
      leNat (s'.physBytes (pa + 12) 4) = k.ended % 2 ^ 32 ∧
      leNat (s'.physBytes (pa + 16) 8) = (match k.firstTid with
        | some (tid, cause) => tid % 2 ^ 22 + cause % 2 ^ 8 * 2 ^ 32
        | none => 2 ^ 22 - 1) ∧
      leNat (s'.physBytes (pa + 24) 8) = k.start % 2 ^ 64 ∧ leNat (s'.physBytes (pa + 32) 8) = k.finish % 2 ^ 64 ∧
      leNat (s'.physBytes (pa + 40) 8) = k.lanecyc % 2 ^ 64 ∧ leNat (s'.physBytes (pa + 48) 2) = k.account % 2 ^ 16 ∧
      leNat (s'.physBytes (pa + 50) 1) = k.prio % 2 ^ 8 ∧ leNat (s'.physBytes (pa + 51) 13) = 0 ∧
      (∀ c, (c < pa ∨ pa + 64 ≤ c) → s'.physByte c = s.physByte c) ∧
      (k.hostmsg = false → s'.hostOut = s.hostOut ∧ s'.hostMem = s.hostMem) ∧
      ∀ v ring, k.hostmsg = true → s.vdevAt k.vdev = some v → v.ring = some ring → ring.written < ring.slots → s.hostFeature 1 = true →
        s.hostMem.wf = true → s'.hostOut = s.hostOut ++ [{ vdev := k.vdev, kind := 1, part := p, value := BitVec.ofNat 64 n }] ∧
          mgetN s'.hostMem (ring.base + ring.written * 16) 16 = leBytes 8 (n % 2 ^ 64) ++ [1, BitVec.ofNat 8 p] ++ List.replicate 6 0) ∧
  (∀ (s : State) p n k c, s.task p n = some k → k.threads ≤ k.retired + k.ended →
    (∀ x ∈ s.threads, x.2.part = p → x.2.task = n → s.sending x.1 = false ∧ s.unflipped x.1 = false ∧ x.2.ceng = [] ∧ x.2.crun = none) →
    s.locateFor k.part k.vdev .store k.done.toNat 64 = .error c →
    ∃ s', exec (.taskCompletion p n) s = .next s' ∧ s'.task p n = none ∧ (∀ h t, s'.th h = some t → ¬ (t.part = p ∧ t.task = n)) ∧ s'.mem = s.mem ∧
      ∀ v ring, s.vdevAt k.vdev = some v → v.ring = some ring → ring.written < ring.slots → s.hostFeature 1 = true →
        s'.hostOut = s.hostOut ++ [{ vdev := k.vdev, kind := 3, part := p, value := BitVec.ofNat 64 n }]) ∧
  (∀ (s : State) h t e r i c, s.th h = some t → t.res = .resident → t.loop.vtrap = false → t.queue = e :: r → decode e.word = some i →
    e.region = false → e.failed = false → e.heavy = some c → e.at_ < t.residentAt → (t.lease c).held = false → (t.lease c).granted < t.residentAt →
    ((t.lease c).req = true → exec (.vectorCommit h) s = .next s) ∧
    ((t.lease c).req = false → ∃ s' u, exec (.vectorCommit h) s = .next s' ∧ s'.th h = some u ∧ u = { t with leases := u.leases } ∧
      (u.lease c).req = true ∧ s'.mem = s.mem ∧
      (s'.dieAt (t.core / 128)).leaseQ = (s.dieAt (t.core / 128)).leaseQ ++ [{ h := h, cls := c, at_ := s.time }])) ∧
  (∀ (s : State) die r rest t, s.leaseOrder die = r :: rest → s.th r.h = some t →
    (s.unitsUsed die + leaseCost r.cls ≤ (s.dieAt die).budget →
      ∃ s', exec (.leaseGrant die) s = .next s' ∧ (s'.dieAt die).leaseQ = rest ∧ s'.th r.h =
        some (t.setLease r.cls { held := true, req := false, revoked := false, granted := s.time, last := s.time })) ∧
    (∀ g h c u, (s.dieAt die).budget < s.unitsUsed die + leaseCost r.cls → oldest (s.revocable die) = some (g, h, c) → s.th h = some u →
      exec (.leaseRevoke die) s = .next (s.setTh h (u.setLease c { u.lease c with held := false, revoked := true })))) ∧
  (∀ (s : State) die, ∃ l, exec (.leaseAgeing die) s = .next (s.setDie die { s.dieAt die with leaseQ := l }) ∧ l.Perm (s.dieAt die).leaseQ ∧
    l.Pairwise fun a b => s.leaseBefore a b = true) ∧
  (∀ (s : State) pkg, pkg ∈ s.podLost →
    ∃ s', exec (.barrierRouteReturn pkg) s = .next s' ∧ s'.podLost = (s.podLost.filter fun k => k != pkg) ∧
      (∀ g ∈ s.bars, g.scope ≠ 5 → g ∈ s'.bars) ∧ s'.mem = s.mem ∧
      ∀ g ∈ s.bars, g ∈ s'.bars ∨ ∀ h ∈ g.arrived, ∀ t, s.th h = some t → ∃ u, s'.th h = some u ∧ u = { t with arrivals := u.arrivals } ∧
        ∀ a ∈ u.arrivals, a.scope = g.scope → a.inst = g.inst → a.done = true)

/-- R356, R357, R360, R363, R255, R334 and R258: a bundle commits, its homes flip its lines, its serial retires, its budget expires; the
background clearing; an error in a dirty line; accesses over a host link.
It says that exec answers a next state for: bundleCommit, bundleFlip, serialRetire, bundleBudgetExpiry, dirtyLineError, backgroundClear,
hostLinkAccess. -/
def Obligations.MemoryEvents : Prop :=
  (∀ (s : State) b x, tget s.bundles b = some x →
    (∀ t e r q, x.stage = .sealing → x.lead ≠ none → s.time < x.opened + 120000 → s.settled x.h = true → s.th x.h = some t → t.res = .resident → t.queue = e :: r →
      e.bundle = some b → decode e.word = some (.bseal q) →
      exec (.bundleCommit b) s = .next { s with bundles := tset s.bundles b { x with stage := .committed } }) ∧
    (∀ line l, x.stage = .committed → x.lines.find? (fun y => y.line == line && !y.flipped) = some l → s.mem.wf = true →
      (l.bytes.map (·.1)).Nodup → (∀ y ∈ l.bytes, y.1 / 128 = line) →
      ∃ s', exec (.bundleFlip b line) s = .next s' ∧ (∀ y ∈ l.bytes, s'.physByte y.1 = y.2) ∧
        (∀ c, (∀ y ∈ l.bytes, y.1 ≠ c) → s'.physByte c = s.physByte c) ∧ s'.threads = s.threads ∧
        tget s'.bundles b = some { x with lines := x.lines.map fun m => if m.line = line then { m with flipped := true } else m }) ∧
    (x.stage = .committed → (∀ l ∈ x.lines, l.flipped = true) → (∀ t, s.th x.h = some t → ∀ e ∈ t.queue, e.bundle ≠ some b) →
      ∃ s', exec (.serialRetire b) s = .next s' ∧ s'.bundles = tdel s.bundles b ∧ s'.mem = s.mem ∧
        ∀ h t, s.th h = some t → s'.th h = some { t with seen := t.seen.filter fun g => g.bundle != b }) ∧
    ((x.stage = .open_ ∨ x.stage = .sealing) → x.opened + 120000 ≤ s.time →
      ∃ s', exec (.bundleBudgetExpiry b) s = .next s' ∧ tget s'.bundles b = some { x with stage := .aborted, lines := [], cause := 4 } ∧
        s'.mem = s.mem ∧ ∀ t, s.th x.h = some t → s'.th x.h = some (if t.bopen ∧ t.bcur = some b then { t with bdead := true, bcause := 4 } else t))) ∧
  (∀ (s : State) line, s.mem.wf = true → s.clearPending line = true → ∃ s', exec (.backgroundClear line) s = .next s' ∧ s'.clearPending line = false ∧
    s'.threads = s.threads ∧ ∀ c, s'.physByte c = s.physByte c) ∧
  (∀ (s : State) core line d, (s.coreAt core).dirty.find? (fun y => y.line == line) = some d → s.clearPending line = false → s.mem.wf = true →
    d.old.length = 128 → s.threadsOk = true →
    ∃ s', exec (.dirtyLineError core line) s = .next s' ∧ (∀ i < 128, s'.physByte (line * 128 + i) = d.old.getD i 0) ∧
      (∀ c, c / 128 ≠ line → s'.physByte c = s.physByte c) ∧
      ∀ h t, s.th h = some t → t.core = core → t.res = .resident → ∃ u, s'.th h = some u ∧ u.res = .ended) ∧
  (∀ (s : State) vd addr (data : List (BitVec 8)) pa place, s.phase = .up → s.mem.wf = true → Quiet s (pa / 128) →
    let n := data.length
    (n ∈ [1, 2, 4, 8, 16, 32, 64, 128] → pa % n = 0 → s.locateFor (vdPart vd) vd .store addr.toNat n = .ok (.dram pa place) →
      ∃ s', exec (.hostLinkAccess vd .store addr data) s = .next s' ∧ (∀ i < n, s'.physByte (pa + i) = data.getD i 0) ∧
        (∀ c, (c < pa ∨ pa + n ≤ c) → s'.physByte c = s.physByte c) ∧ s'.threads = s.threads) ∧
    (n ∈ [1, 2, 4, 8, 16, 32, 64, 128] → pa % n = 0 → s.locateFor (vdPart vd) vd .load addr.toNat n = .ok (.dram pa place) →
      ∃ s', exec (.hostLinkAccess vd .load addr data) s = .next s' ∧ (∀ c, s'.physByte c = s.physByte c) ∧ s'.threads = s.threads) ∧
    (n ∈ [4, 8] → pa % n = 0 → s.locateFor (vdPart vd) vd .atomic addr.toNat n = .ok (.dram pa place) →
      ∃ s', exec (.hostLinkAccess vd (.atomic 0) addr data) s = .next s' ∧
        leNat (s'.physBytes pa n) = (leNat (s.physBytes pa n) + leNat data) % 2 ^ (8 * n) ∧
        (∀ c, (c < pa ∨ pa + n ≤ c) → s'.physByte c = s.physByte c) ∧ s'.threads = s.threads)) ∧
  (∀ (s : State) vd (addr : BitVec 64) data p, s.phase = .up → s.partAt (vdPart vd) = some p → p.chorus.wf = true → 0 < data.length →
    addr.toNat % 4096 + data.length ≤ 2056 → addr.toNat < 0x40000 →
    ∃ s' p', exec (.hostLinkAccess vd .chorusStore addr data) s = .next s' ∧ s'.partAt (vdPart vd) = some p' ∧ s'.mem = s.mem ∧
      s'.threads = s.threads ∧ p'.chorusBytes addr.toNat data.length = data)

/-- R374, R376 to R378, R380, R383, R385, R389, R392, R393 and R375: the Prompter's runs, timers and windows, the sensors, the links,
bring-up and shutdown, and a write of CUECTL. An event that is only told of changes nothing but the queues of the Prompters. The model's
choices: an event that comes before its time, is at a port that is not up, or trains a pod link before the management virtual device has
appeared, changes nothing (log 1); the form in which the shutdown's report stands (shutBy), and the stale condition's lengthening by the
cycles of a recovery (log 56).
It says that exec answers a next state for: cueRun, cueTimer, thermalSample, budgetWindow, energyInterval, linkTraining, flitRetransmit,
softError, thermalShutdown, powerOn, mgmtRegisterWrite, routeLost, dramReadRetry. -/
def Obligations.PackageEvents : Prop :=
  (∀ (s : State) die p e rest c, s.time < (s.dieAt die).windowAt + 600000 → (s.dieAt die).nextQueue = some p → tgetD (s.dieAt die).evq p [] = e :: rest → tget (s.dieAt die).slots e.slot = some c → c.loaded = true →
    let r := Run.go { w := List.replicate 16 0, st := c.st, trig := none, count := 0, skip := 0, ended := false } e s.time c.prog
    r.trig = none → ∃ s', exec (.cueRun die p) s = .next s' ∧ tgetD (s'.dieAt die).evq p [] = rest ∧
      tget (s'.dieAt die).slots e.slot = some { c with st := r.st, runs := satBits c.runs } ∧
      tgetD (s'.dieAt die).used c.part 0 = tgetD (s.dieAt die).used c.part 0 + r.count ∧ s'.threads = s.threads ∧ s'.mem = s.mem) ∧
  (∀ (r : Run) (e : Event) now (x : IWord), cueD x ≠ 0 → r.w.length = 16 → cueD x < 16 →
    let a := r.reg (cueA x)
    let b := r.reg (cueB x)
    let gives := fun (op : Nat) (v : Word) => cueOp x = op → (r.step e now x).reg (cueD x) = v ∧ (r.step e now x).st = r.st
    gives 0x03 (a + b) ∧ gives 0x04 (a - b) ∧ gives 0x05 (a &&& b) ∧ gives 0x06 (a ||| b) ∧ gives 0x07 (a ^^^ b) ∧
    gives 0x0A (if a.toNat ≤ b.toNat then a else b) ∧ gives 0x0B (if a.toNat ≤ b.toNat then b else a) ∧ gives 0x0D (r.word (cueImm x)) ∧
    gives 0x08 (a <<< cueImm x) ∧ gives 0x09 (a >>> cueImm x) ∧
    (a ≠ 0 → cueOp x = 0x0C → ∃ n < 64, (r.step e now x).reg (cueD x) = BitVec.ofNat 64 (n + 1) ∧ 2 ^ n ≤ a.toNat ∧ a.toNat < 2 ^ (n + 1))) ∧
  (∀ (r : Run) (e : Event) now (x : IWord), cueD x = 0 →
    let a := r.reg (cueA x)
    let b := r.reg (cueB x)
    let s := r.step e now x
    let i := cueImm x
    (cueOp x = 0x17 → s.trig = some a ∧ s.st = r.st) ∧
    (cueOp x = 0x0E → s.word i = a ∧ ∀ j, j ≠ i → s.word j = r.word j) ∧
    (cueOp x = 0x0F → (s.word i).toNat = min ((r.word i).toNat + a.toNat) (2 ^ 64 - 1) ∧ ∀ j, j ≠ i → s.word j = r.word j) ∧
    (cueOp x = 0x14 → s.skip = if a = b then i else r.skip) ∧
    (cueOp x = 0x15 → s.skip = if a.toNat < b.toNat then i else r.skip) ∧
    (cueOp x = 0x16 → s.skip = if b.toNat ≤ a.toNat then i else r.skip)) ∧
  (∀ (s : State) die slot c, tget (s.dieAt die).slots slot = some c → c.enable = true → c.event = 11 → c.period ≠ 0 →
    c.timer + c.period.toNat * 1024 ≤ s.time → s.time < (s.dieAt die).windowAt + 600000 → s.cueBudget die c.part > tgetD (s.dieAt die).used c.part 0 + 32 →
    (tgetD (s.dieAt die).evq c.part []).length < 64 → ∃ s', exec (.cueTimer die slot) s = .next s' ∧
      tget (s'.dieAt die).slots slot = some { c with timer := c.timer + c.period.toNat * 1024 } ∧ s'.threads = s.threads ∧
      tgetD (s'.dieAt die).evq c.part [] = tgetD (s.dieAt die).evq c.part [] ++ [{ code := 11, slot := slot, seq := (s.dieAt die).evseq, f := [BitVec.ofNat 64 s.time, 0, 0, 0] }]) ∧
  (∀ (s : State) die t16 power, s.time < (s.dieAt die).thermalAt + 60000 → exec (.thermalSample die t16 power) s = .next s) ∧
  (∀ (s : State) die t16 power, (s.dieAt die).thermalAt + 60000 ≤ s.time → ∃ s', exec (.thermalSample die t16 power) s = .next s' ∧
    (s'.dieAt die).temp = t16 ∧ (s'.dieAt die).thermalAt = s.time / 60000 * 60000 ∧
    (if 1840 ≤ t16 then s'.phase = .shutdown ∧ s'.shutBy = some (die, t16) else s'.phase = s.phase ∧ s'.shutBy = s.shutBy) ∧
    (s'.dieAt die).budget = (if t16 ≤ 1520 then 576 else if 1680 ≤ t16 then 288 else (576 * 160 - 288 * (t16 - 1520)) / 160) ∧
    s'.threads = s.threads ∧ s'.mem = s.mem) ∧
  (∀ (s : State) die, (s.dieAt die).windowAt + 600000 ≤ s.time → exec (.budgetWindow die) s =
    .next (s.setDie die { s.dieAt die with used := [], windowAt := s.time / 600000 * 600000 })) ∧
  (∀ (s : State) die uj, die < 8 → (s.dieAt die).energyAt + 6000 ≤ s.time → ∃ s', exec (.energyInterval die uj) s = .next s' ∧ s'.threads = s.threads ∧
    s'.mem = s.mem ∧ s'.dies = tset s.dies die { s.dieAt die with energyAt := s.time / 6000 * 6000 }) ∧
  (∀ (s : State) k w uj, k < 8 → w < 2 → tgetD (s.dieAt k).towerAt w 0 + 6000 ≤ s.time → ∃ s', exec (.energyInterval (8 + 2 * k + w) uj) s = .next s' ∧
    s'.threads = s.threads ∧ s'.mem = s.mem ∧ tgetD (s'.dieAt k).towerAt w 0 = s.time / 6000 * 6000 ∧ ∀ y ∈ s'.served, y.1 / 2 ^ 14 ≠ k * 2 + w) ∧
  (∀ (s : State) die t16, 1840 ≤ t16 → exec (.thermalShutdown die t16) s =
    .next { s.setDie die { s.dieAt die with temp := t16 } with phase := .shutdown, shutBy := some (die, t16) }) ∧
  (∀ (s : State), s.phase = .off → ∃ s', exec .powerOn s = .next s' ∧
    if s.firmwareOk then s'.phase = .up ∧ s'.threads = s.threads ∧ s'.meas.length = 8 ∧ (∀ c, s'.physByte c = 0) ∧
      ∀ p < 38, ∃ l, tget s'.links p = some l ∧ l.state = (if p < 2 then 1 else 0) ∧ l.lvers = 1
    else s' = s) ∧
  (∀ (s : State) port v f, 2 ≤ port → s.mgmtPresent = false → exec (.linkTraining port v f) s = .next s) ∧
  (∀ (s : State) port (v : BitVec 16) (f : BitVec 32) l, port < 38 → s.phase ≠ .off → tget s.links port = some l → (port < 2 ∨ s.mgmtPresent = true) →
    ∃ s' l', exec (.linkTraining port v f) s = .next s' ∧ tget s'.links port = some l' ∧ s'.threads = s.threads ∧ s'.mem = s.mem ∧
      (s.mgmtPresent = true → s' = { s with links := tset s.links port l' }) ∧
      (s.mgmtPresent = false → l'.state = 2 → s'.mgmtPresent = true ∧
        ∀ k m, 2 ≤ k → tget s.links k = some m → m.state = 0 → tget s'.links k = some { m with state := 1 }) ∧
      l' = { l with state := l'.state, ver := l'.ver, pvers := v, pfeat := f } ∧
      (∀ n < 16, (l.lvers &&& v).getLsbD n = true → (∀ k < 16, (l.lvers &&& v).getLsbD k = true → k ≤ n) → l'.ver = n + 1 ∧ l'.state = 2) ∧
      (l.lvers &&& v = 0 → l'.ver = 0 ∧ l'.state = 3)) ∧
  (∀ (s : State) port pkg back, port < 38 → (s.linkAt port).state ≠ 2 → exec (.routeLost port pkg back) s = .next s) ∧
  (∀ (s : State) port pkg back l, port < 38 → s.phase ≠ .off → tget s.links port = some l → l.state = 2 → ∃ s', exec (.routeLost port pkg back) s = .next s' ∧
    tget s'.links port = some { l with state := if back then 2 else 4 } ∧ (2 ≤ port → pkg ∈ s'.podLost) ∧ (port < 2 → s'.podLost = s.podLost) ∧
    s'.mem = s.mem ∧ ∃ c, ∀ h t, s.th h = some t → s'.th h = some (if back then { t with stale := t.stale.map fun x => x + c } else t)) ∧
  (∀ (s : State) die kind loc owner, ∃ s', exec (.softError die kind loc owner) s = .next s' ∧
    s' = { s with dies := s'.dies, freeCtr := s'.freeCtr }) ∧
  (∀ (s : State) i cycles, (∃ port, port < 38 ∧ i = .flitRetransmit port cycles) ∨ (∃ die channel, die < 8 ∧ i = .dramReadRetry die channel cycles) →
    ∃ s', exec i s = .next s' ∧ s' = { s with dies := s'.dies, freeCtr := s'.freeCtr, threads := s'.threads } ∧
      ∀ h t, s.th h = some t → s'.th h = some { t with stale := t.stale.map fun x => x + cycles }) ∧
  (∀ (s : State) die slot (x : BitVec 64), s.phase = .up → die < 8 → slot < 64 → x.toNat / 2 ^ 15 % 2 = 0 → x.toNat / 2 ^ 48 = 0 →
    ∃ c, exec (.mgmtRegisterWrite none die (0x40000 + 32 * slot) x) s = .next (s.setCue die slot c) ∧ c.enable = x.getLsbD 0 ∧
      c.holdoff.toNat = x.toNat / 2 ^ 16 % 2 ^ 16 ∧ c.period.toNat = x.toNat / 2 ^ 32 % 2 ^ 16 ∧ c.prog = (s.cueAt die slot).prog ∧
      c.part = (s.cueAt die slot).part)

/-- R387, R302 and R393: the management commands. Bring-up is over, the management virtual device has appeared and the port is free; a command that is performed answers CAUSE 0, a
refused one changes nothing but the port's status. A record whose VERSION is not 1 or whose OP is no command's is refused with CAUSE 1. The
model's choices: operand places, and that a TARGET which does not exist answers CAUSE 2 also where other fields are bad (log 12, DESIGN
CHOICE); that TROOT, NLCTL and CTXPOOL for the management virtual device are refused with CAUSE 2 (log 42); that a second COMMONS adds its
groups (log 78); that a freed region's pending lines go with it (log 83).
It says that exec answers a next state for: create, resize, destroy, region, vdev, troot, inval, aperture, nlctl, sched, loadcue, budget,
snapshot, msgring, attest, ctxpool, svclaunch, commons. -/
def Obligations.ManagementCommands : Prop :=
  ∀ (s : State), s.phase = .up → s.mgmtPresent = true →
    let head := fun (op target : Nat) => BitVec.ofNat 64 (1 + op * 2 ^ 16 + target * 2 ^ 32)
    let status := fun (c : Nat) => { s.mgmt with task := 0, cause := c, seq := (s.mgmt.seq + 1) % 2 ^ 16, busy := false, err := decide (c ≠ 0) }
    let ok := fun (i : Instr) (s' : State) => exec i s = .next { s' with mgmt := status 0 }
    let no := fun (i : Instr) (c : Nat) => exec i s = .next { s with mgmt := status c }
    (s.mgmt.busy = true → ∀ vd root, exec (.troot (head 0x06 vd) root) s = .next { s with mgmt := { s.mgmt with lost := min (s.mgmt.lost + 1) (2 ^ 32 - 1) } }) ∧
    (s.mgmt.busy = false →
      (∀ hd : BitVec 64, hd.toNat % 2 ^ 16 ≠ 1 ∨ hd.toNat / 2 ^ 16 % 2 ^ 8 = 0 ∨ 0x12 < hd.toNat / 2 ^ 16 % 2 ^ 8 →
        ∀ (a b : CreateOps) (c : ResizeOps) (o : RegionOwner) (q : SchedParam) (n m k : Nat) (x : BitVec 64) (l : List Nat) (y : Bool),
          ∀ i ∈ [Instr.create hd a, .create hd b, .resize hd c, .destroy hd n, .region hd o n m, .vdev hd n, .troot hd n, .aperture hd n m k y,
            .nlctl hd n x, .sched hd q n, .loadcue hd n m, .budget hd n m, .snapshot hd n, .msgring hd n m, .attest hd n [], .ctxpool hd n m,
            .svclaunch hd x, .commons (hd, l) l, .inval (leBytes 8 hd.toNat ++ List.replicate 56 0)], no i 1) ∧
      (∀ p, p < 2 ^ 32 → s.partAt p = none → ∀ x y z, no (.resize (head 0x02 p) x) 2 ∧ no (.destroy (head 0x03 p) y) 2 ∧ no (.sched (head 0x0A p) z y) 2 ∧ no (.snapshot (head 0x0D p) y) 2 ∧ no (.budget (head 0x0C p) 0 y) 2 ∧
        no (.attest (head 0x0F p) y []) 2 ∧ no (.aperture (head 0x08 p) y y y true) 2) ∧
      (∀ v, v < 2 ^ 32 → s.vdevAt v = none → ∀ x y (z : BitVec 64), no (.troot (head 0x06 v) x) 2 ∧ no (.nlctl (head 0x09 v) x z) 2 ∧ no (.msgring (head 0x0E v) x y) 2 ∧ no (.ctxpool (head 0x10 v) x y) 2 ∧
        no (.svclaunch (head 0x11 v) z) 2) ∧
      (∀ x y (z : BitVec 64), no (.troot (head 0x06 mgmtVd) x) 2 ∧ no (.nlctl (head 0x09 mgmtVd) x z) 2 ∧ no (.ctxpool (head 0x10 mgmtVd) x y) 2) ∧
      (∀ p o, p < 20 → distinctBelow 1024 o.cores = true → distinctBelow 512 o.groups = true → distinctBelow 768 o.saveRegions = true →
        interOk o.inter o.groups = true → o.pod = 0 → s.partAt p = none → (∀ c ∈ o.cores, s.coreUsed c = false) →
        (∀ g ∈ o.groups, s.groupUsed g = false) → (∀ r ∈ o.saveRegions, s.regionUsed r = false) →
        ∃ s' q, ok (.create (head 0x01 p) o) s' ∧ s'.partAt p = some q ∧ q.cores = sortN o.cores ∧ q.groups = sortN o.groups ∧ q.inter = o.inter ∧
          q.saveRegions = sortN o.saveRegions ∧ q.params = ⟨20000, 60000000, 600000, 6000000, [], 60000, 600000⟩ ∧ q.objects = [] ∧ q.registry = [] ∧
          q.meters = [] ∧ q.apertures = [] ∧ s'.threads = s.threads ∧ s'.mem = s.mem ∧ (∀ k, k ≠ p → s'.partAt k = s.partAt k) ∧
          ∀ r ∈ o.saveRegions, tget s'.regions (s.regionKey r) = some ⟨.part p, 8, 0⟩) ∧
      (∀ p x cores, p < 2 ^ 32 → s.partAt p = some x → distinctBelow 1024 cores = true → (∀ c ∈ cores, s.coreUsed c = false) → interOk x.inter (sortN x.groups) = true →
        s.diesKept p x.inter = true →
        ∃ s', ok (.resize (head 0x02 p) ⟨cores, [], [], [], [], [], []⟩) s' ∧ s'.threads = s.threads ∧ s'.mem = s.mem ∧
          s'.partAt p = some { x with cores := sortN (x.cores ++ cores), groups := sortN x.groups, saveRegions := sortN x.saveRegions }) ∧
      (∀ p x core h t, p < 2 ^ 32 → s.partAt p = some x → core ∈ x.cores → interOk x.inter (sortN x.groups) = true → s.threadsOn [core] = [(h, t)] →
        s.th h = some t → t.res = .resident → t.svc = false → 0 < s.freeSlotsOf x.saveRegions → s.diesKept p x.inter = true →
        ∃ s' q u, ok (.resize (head 0x02 p) ⟨[], [core], [], [], [], [], []⟩) s' ∧ s'.partAt p = some q ∧ q.cores = sortN (x.cores.filter fun c => c != core) ∧
          s'.th h = some u ∧ u.migrateAt = some (s.time + (s.params t.part).yield) ∧ u.res = .resident ∧ u.regs = t.regs) ∧
      (∀ p x dst, p < 2 ^ 32 → s.partAt p = some x → s.hasMemory dst 0x181B2 = true → ∃ s', ok (.destroy (head 0x03 p) dst) s' ∧ s'.partAt p = none ∧
        (∀ h t, s'.th h = some t → t.part ≠ p) ∧ (∀ k ∈ s'.tasks, k.part ≠ p) ∧ (∀ v, v / 4 = p → s'.vdevAt v = none) ∧
        ∀ r y, r < 2 ^ 15 → tget s.regions (s.regionKey r) = some y → y.owner = .part p → tget s'.regions (s.regionKey r) = none ∧
          ∀ c, s.slotAddr r 0 ≤ c → c < s.slotAddr r 0 + 2 ^ 30 → s'.physByte c = 0) ∧
      (∀ idx p x place, idx < 768 → s.regionUsed idx = false → s.partAt p = some x → place < 2 →
        ok (.region (head 0x04 idx) (.part p) place 0) { s with regions := tset s.regions (s.regionKey idx) ⟨.part p, place, 0⟩ } ∧
        ok (.region (head 0x04 idx) .commons 4 0) { s with regions := tset s.regions (s.regionKey idx) ⟨.commons, 4, 0⟩ } ∧
        (∀ die ∈ x.inter, ok (.region (head 0x04 idx) (.part p) 2 die) { s with regions := tset s.regions (s.regionKey idx) ⟨.part p, 2, die⟩ }) ∧
        no (.region (head 0x04 idx) (.part p) 4 0) 1) ∧
      (∀ idx y, idx < 768 → tget s.regions (s.regionKey idx) = some y → y.place ≠ 8 → ∃ s', ok (.region (head 0x04 idx) .nobody 0 0) s' ∧
        tget s'.regions (s.regionKey idx) = none ∧
        (let here := fun (l : BLine) => s.slotAddr idx 0 / 128 ≤ l.line ∧ l.line < s.slotAddr idx 0 / 128 + 2 ^ 23;
          ((∀ b ∈ s.bundles, ∀ l ∈ b.2.lines, ¬ here l) → s'.threads = s.threads ∧ s'.bundles = s.bundles) ∧
          ∀ b w, keysRise (s.bundles.map (·.1)) = true → tget s.bundles b = some w → (∃ l ∈ w.lines, here l ∧ l.flipped = false) →
            (w.stage = .open_ ∨ w.stage = .sealing → tget s'.bundles b = some { w with stage := .aborted, lines := [], cause := 5 }) ∧
            (w.stage = .committed → ∃ v, tget s'.bundles b = some v ∧ v.lines.length = w.lines.length ∧ ∀ l ∈ v.lines, here l → l.flipped = true)) ∧
        ∀ c, s'.physByte c = if s.slotAddr idx 0 ≤ c ∧ c < s.slotAddr idx 0 + 2 ^ 30 then 0 else s.physByte c) ∧
      (∀ p x idx, p < 2 ^ 32 → s.partAt p = some x → idx < 4 → s.vdevAt (4 * p + idx) = none → (∀ k ∈ s.tasks, k.vdev ≠ 4 * p + idx) →
        (∀ y ∈ s.subs, y.vdev ≠ 4 * p + idx) → ok (.vdev (head 0x05 p) idx) (s.setVdev (4 * p + idx)
          ⟨none, none, List.replicate 4 Port.reset, [(0, 0xFFFF), (1, 0xFFFF), (2, 0xFFFF), (3, 0xFFFF), (4, 0xFFFF), (5, 0xFFFF)], none⟩)) ∧
      (∀ vd v, vd < 2 ^ 32 → s.vdevAt vd = some v →
        (∀ root, vd ≠ mgmtVd → root % 4096 = 0 → root < 2 ^ 56 → ok (.troot (head 0x06 vd) root) (s.setVdev vd { v with troot := some root })) ∧
        (∀ root, vd ≠ mgmtVd → root % 4096 ≠ 0 → no (.troot (head 0x06 vd) root) 1) ∧
        (∀ cls (y : BitVec 64), vd ≠ mgmtVd → cls < 6 → y.toNat < 2 ^ 22 → y.toNat / 2 ^ 16 % 4 ≠ 3 → y.toNat / 2 ^ 18 % 4 ≠ 3 → y.toNat / 2 ^ 20 ≠ 3 →
          ok (.nlctl (head 0x09 vd) cls y) (s.setVdev vd { v with nlctl := tset v.nlctl cls y })) ∧
        (∀ base slots, slots ≠ 0 → base + 16 * slots ≤ 2 ^ 64 → ok (.msgring (head 0x0E vd) base slots) (s.setVdev vd { v with ring := some ⟨base, slots, 0, 0⟩ })) ∧
        (∀ base n, vd ≠ mgmtVd → base % 4096 = 0 → base + n * 0x41000 ≤ 2 ^ 48 → base < 2 ^ 48 → n ≤ 65536 → s.areasUsed vd = [] →
          ok (.ctxpool (head 0x10 vd) base n) (s.setVdev vd { v with pool := some (base, n) })) ∧
        (∀ (va : BitVec 64) pa place, s.locateFor (vd / 4) vd .load va.toNat 64 = .ok (.dram pa place) →
          ((s.physBytes pa 64).getD 2 0).getLsbD 2 = true → exec (.svclaunch (head 0x11 vd) va) s = .next { s with
            mgmt := { s.mgmt with busy := true },
            subs := s.subs ++ [{ src := .management vd, vdev := vd, core := none, bytes := s.physBytes pa 64 }] }) ∧
        (∀ (first : BitVec 64) (len : Nat), first.toNat % 4096 = 0 → len % 4096 = 0 → 4096 ≤ len → first.toNat + len ≤ 2 ^ 48 → vd < 80 →
          (∀ y ∈ s.threads, y.2.loop.stage ≠ .replay) →
          ∃ s', ok (.inval (leBytes 2 1 ++ leBytes 1 7 ++ leBytes 1 0 ++ leBytes 4 vd ++ leBytes 8 first.toNat ++ leBytes 8 len ++ List.replicate 40 0)) s' ∧
            s' = { s with xlates := s'.xlates } ∧
            ∀ y ∈ s'.xlates, ∀ z ∈ y.2, z.1 = vd → first.toNat + len ≤ z.2.va ∨ z.2.va + z.2.size ≤ first.toNat)) ∧
      (∀ p x, p < 2 ^ 32 → s.partAt p = some x →
        (∀ v a, (1000 ≤ v → v ≤ 10000000 → ok (.sched (head 0x0A p) .yield v) (s.setPart p { x with params := { x.params with yield := v } })) ∧
          (600000 ≤ v → v ≤ 600000000 → ok (.sched (head 0x0A p) .age v) (s.setPart p { x with params := { x.params with age := v } }) ∧
            ok (.sched (head 0x0A p) .slice v) (s.setPart p { x with params := { x.params with slice := v } })) ∧
          (v ≤ 60000000 → ok (.sched (head 0x0A p) .minrun v) (s.setPart p { x with params := { x.params with minrun := v } })) ∧
          (a < 512 → 1 ≤ v → v ≤ 2 ^ 40 →
            ok (.sched (head 0x0A p) (.quantum a) v) (s.setPart p { x with params := { x.params with quantum := tset x.params.quantum a v } })) ∧
          (6000 ≤ v → v ≤ 6000000 → ok (.sched (head 0x0A p) .lage v) (s.setPart p { x with params := { x.params with lage := v } })) ∧
          (60000 ≤ v → v ≤ 60000000 → ok (.sched (head 0x0A p) .lhold v) (s.setPart p { x with params := { x.params with lhold := v } }))) ∧
        (∀ off haddr size y, off + size ≤ 2 ^ 39 → haddr + size ≤ 2 ^ 64 → x.apertures = [] → 0 < size →
          ok (.aperture (head 0x08 p) off haddr size y) (s.setPart p { x with apertures := [⟨off, haddr, size, y⟩] })) ∧
        (∀ die n, die < 8 → n < 2 ^ 32 → s.budgetsBut die p + n ≤ 2160000 → ok (.budget (head 0x0C p) die n) (s.setPart p { x with budget := tset x.budget die n })) ∧
        (∀ pa, s.hasMemory pa 0x181B2 = true → (∀ m ∈ x.meters, m.1 < 12288) → s.mem.wf = true →
          ∃ s', ok (.snapshot (head 0x0D p) pa) s' ∧ s'.partAt p = some { x with snapSeq := x.snapSeq + 1 } ∧ s'.threads = s.threads ∧
            leNat (s'.physBytes pa 2) = 1 ∧ leNat (s'.physBytes (pa + 8) 8) = (x.snapSeq + 1) % 2 ^ 64 ∧
            leNat (s'.physBytes (pa + 16) 8) = s.time % 2 ^ 64 ∧ ∀ c, (c < pa ∨ pa + 0x181B2 ≤ c) → s'.physByte c = s.physByte c) ∧
        (∀ pa nonce, s.hasMemory pa 746 = true → nonce.length = 32 → s.meas.length = 8 → s.mem.wf = true →
          ∃ s', ok (.attest (head 0x0F p) pa nonce) s' ∧ (∀ i < 32, s'.physByte (pa + 8 + i) = nonce.getD i 0) ∧ s'.threads = s.threads ∧
            ∀ c, (c < pa ∨ pa + 746 ≤ c) → s'.physByte c = s.physByte c) ∧
        (∀ die pa ev slot prog, die < 8 → cueImage s pa = some (ev, slot, prog) →
          ∃ c, ok (.loadcue (head 0x0B p) die pa) (s.setCue die slot c) ∧ c.enable = false ∧ c.part = p ∧ c.event = BitVec.ofNat 8 ev ∧ c.loaded = true ∧ c.prog = prog ∧
            c.st = [] ∧ c.runs = 0)) ∧
      (∀ groups inter, distinctBelow 512 groups = true → interOk inter (sortN (s.commonsGroups ++ groups)) = true → (∀ g ∈ groups, s.groupUsed g = false) →
        ok (.commons (head 0x12 0, groups) inter) { s with commonsGroups := sortN (s.commonsGroups ++ groups), commonsInter := inter }))

/-- R5, R78, R79 and R83 to R85: words written out bit by bit from the encoding tables, highest field first, one or more of each
shape; and words of R85 that are no instruction. -/
def Obligations.DecodeWords : Prop :=
  decode 0b0000000000_01001_01000_00111_0000001#32 = some (.add 7 8 9) ∧
  decode 0b111111111111111_01000_00111_0000010#32 = some (.addi 7 8 0x7FFF) ∧
  decode 0b10101011110011011110_00011_0001010#32 = some (.lui 3 0xABCDE) ∧
  decode 0b011_000000001000_00110_00101_0010001#32 = some (.std 5 6 8) ∧
  decode 0b111111111111110_00010_00001_0011000#32 = some (.beq 1 2 0x7FFE) ∧
  decode 0b00000000000000000101_00001_0011110#32 = some (.jal 1 5) ∧
  decode 0b1_110_11_0000_00011_00010_00001_0010010#32 = some (.amoadd 1 2 3 true 6 true) ∧
  decode 0b0000000000_00000_00101_00100_0100000#32 = some (.qpop 4 5) ∧
  decode 0b00000000000000001001_00001_0100011#32 = some (.syscall 9) ∧
  decode 0b000_000001000000_00000_00010_0100101#32 = some (.sysrd 2 0x40) ∧
  decode 0b00000_101_000000_00111_001000_0101010#32 = some (.vld 8 7 5) ∧
  decode 0b0_000_000_000011_000010_000001_0110000#32 = some (.kand 1 2 3) ∧
  decode 0b00000_010_010000_0_1_110_001000_0110011#32 = some (.vredsum 8 6 true 16 2) ∧
  decode 0b1_011_001_001010_001001_010_000_0110111#32 = some (.vexit 2 9 10 1 3) ∧
  decode 0b0000_0000_010_010000_001000_11_0111000#32 = some (.vopa 3 8 16 2) ∧
  decode 0b0000_0011_000_000101_000100_10_0111000#32 = some (.zld 2 4 5) ∧
  decode 0b00110_001_010000_00111_001000_0111011#32 = some (.vwait 8 7 16 1 2) ∧
  decode 0b0000100011_00101_00100_00000_0111100#32 = some (.cpgo 4 5 3) ∧
  decode 0b0000_0001001000110100_00000_0111101#32 = some (.bopen 0x1234) ∧
  decode 0b010_000111_000101_00011_00010_0111110#32 = some (.lmark 2 3 5 7 2) ∧
  decode 0b0000000000_00000_00110_00001_0111111#32 = some (.oshape 1 6) ∧
  decode 0b1_011_001_000101_001000_010000_1001000#32 = some (.vadd 16 8 5 1 3 true) ∧
  decode 0b0_000_001_010000_001000_110_010_1110000#32 = some (.vfcmp 2 6 8 16 1 0 false) ∧
  decode 0b1_000_000_000101_001000_000001_1000010#32 = some (.vext 1 8 5) ∧
  decode 0b000000_0010_0001_001000_1_011_1_1111100#32 = some (.pfx true 3 true 8 1 2) ∧
  decode 0b00000_000_000000_00011_001000_1111110#32 = some (.vbind 8 3) ∧
  decode 0#32 = none ∧ decode 0xFFFFFFFF#32 = none ∧
  decode 0b0000000000_00000_00000_00000_0001100#32 = none ∧
  decode 0b0000001111_01001_01000_00111_0000001#32 = none ∧
  decode 0b0000100000_00001_01000_00111_0000001#32 = none ∧
  decode 0b0001_0000_010_010000_001000_11_0111000#32 = none

/-- R78 to R84: the encoder and the decoder agree: every well-formed instruction that has a word decodes from its word with every
operand as it was, and every word that decodes is the word of what it decodes to: no bit of a word is dropped. -/
def Obligations.DecodeOfEncode : Prop :=
  (∀ i w, i.wf = true → encode i = some w → decode w = some i) ∧
  (∀ i w, decode w = some i → i.wf = true ∧ encode i = some w)

/-- R16, R18, R78, R85 and R105: with no event to come first, the running current thread, at no wait point, executes the instruction
that the four bytes at its pc hold, lowest first; the fetch writes other cores' dirty copies of the line back (R248) and keeps its translation (R238), the next
turn is the vector engines' and time passes (log 1). A word of R85 takes the illegal-instruction trap (1) at its address. -/
def Obligations.StepRunsDecoded : Prop :=
  ∀ (s : State) (t : Thread) (pa place : Nat) (w : IWord), s.phase = .up → s.agenda = [] → s.turn = .scalar → s.th s.cur = some t →
    t.res = .resident → t.wait = none → s.checkAccess t .S .fetch t.pc.toNat 4 = .ok (.dram pa place) → pa % 4 = 0 → Quiet s (pa / 128) →
    s.physBytes pa 4 = wordBytes w →
    let r := (({ s with turn := .vector } : State).cachePage t t.pc.toNat).recall (some t.core) (pa / 128)
    (∀ i, decode w = some i → step s = passed (exec i r)) ∧
    (decode w = none → Ready s s.cur t → t.queue = [] → Trappable r t →
      ∃ s', step s = .next s'.pass ∧ TrapTaken r s' s.cur t 1 0 0 0 t.pc)

/-- R12, R18, R88, R293 and R325: no state stops the package: every step answers a next state, whatever event or word it comes to. A wait,
a trap, the end of a thread and a refused command are next states. So is what a word does wherever a thread runs, and what an event
(a constructor that has no word) does in any state. -/
def Obligations.EveryStepGoesOn : Prop :=
  (∀ s, Goes s) ∧ (∀ i (s : State), s.running.isSome = true → ∃ t, exec i s = .next t) ∧
    ∀ i s, encode i = none → ∃ t, exec i s = .next t

/-- The state right after reset has no thread, partition, region or task, and every byte store of it is canonical; its first step is
bring-up (R393). That DRAM which nothing has written reads as zero is the model's choice (log 3). -/
def Obligations.ResetIsSound : Prop :=
  State.reset.storesOk = true ∧ State.reset.threads = [] ∧ State.reset.parts = [] ∧ State.reset.regions = [] ∧ State.reset.tasks = [] ∧
    (∀ a, State.reset.physByte a = 0) ∧ step State.reset = passed (exec .powerOn State.reset)

/-- Every step keeps the canonical form: addresses strictly rising and no listed zero in DRAM, host memory, every bank, every chorus
table and every thread's vector, mask, tile and chain stores; one entry for each thread; and a sound layout of its vector registers. -/
def Obligations.StepsKeepStoresSound : Prop :=
 ∀ s s', s.storesOk = true → step s = .next s' → s'.storesOk = true
end

