-- ==== Sys2Proof/Laws/Memory.lean ====
section
/-!
SUPPORT. Byte stores: every operation keeps the canonical form, a read after a write, and the reads a write leaves alone.
-/
namespace Sys2Proof.Machine

theorem memOk_mono {lo lo' : Nat} (hle : lo' ≤ lo) : ∀ {m : Memory}, memOk lo m = true → memOk lo' m = true
  | [], _ => rfl
  | (k, v) :: r, h => by
    simp only [memOk, Bool.and_eq_true, decide_eq_true_eq] at h ⊢
    exact ⟨⟨by omega, h.1.2⟩, h.2⟩

theorem memOk_mset {lo a : Nat} (b : Byte) (hla : lo ≤ a) :
    ∀ {m : Memory}, memOk lo m = true → memOk lo (mset m a b) = true := by
  intro m
  induction m generalizing lo with
  | nil => intro _; by_cases hb : b = 0#8 <;> simp [mset, memOk, hb, hla]
  | cons c r ih =>
    obtain ⟨k, v⟩ := c
    intro h
    simp only [memOk, Bool.and_eq_true, decide_eq_true_eq, bne_iff_ne, ne_eq] at h
    obtain ⟨⟨hk, hv⟩, hr⟩ := h
    have hv' : v ≠ 0#8 := hv
    have key : ∀ x : Byte, x ≠ 0#8 → ∀ n q, n ≤ a → memOk (a + 1) q = true → memOk n ((a, x) :: q) = true := by
      intro x hx n q hn hq
      simp [memOk, hn, hx, hq]
    simp only [mset]
    by_cases hb : b = 0#8
    · subst hb
      split
      · simp [memOk, hk, hv', hr]
      · split
        · simpa using memOk_mono (by omega) hr
        · simp [memOk, hk, hv']
          exact ih (by omega) hr
    · have hb0 : ¬ b = 0 := hb
      simp only [hb0, if_false]
      split
      · rename_i h1
        refine key b hb lo _ hla ?_
        simp [memOk, hv', hr]; omega
      · split
        · rename_i h2
          subst h2
          exact key b hb lo _ hla hr
        · simp [memOk, hk, hv']
          exact ih (by omega) hr

/-- Writing a byte keeps the canonical form. -/
theorem wf_mset {m : Memory} (a : Nat) (b : Byte) (h : m.wf = true) : (mset m a b).wf = true := memOk_mset b (Nat.zero_le a) h

/-- Writing bytes keeps the canonical form. -/
theorem wf_msetN : ∀ (bs : List Byte) {m : Memory} (a : Nat), m.wf = true → (msetN m a bs).wf = true
  | [], _, _, h => h
  | b :: r, _, a, h => wf_msetN r (a + 1) (wf_mset a b h)

theorem memOk_filter {lo : Nat} (p : Host.Cell → Bool) :
    ∀ {m : Memory}, memOk lo m = true → memOk lo (m.filter p) = true := by
  intro m
  induction m generalizing lo with
  | nil => intro _; rfl
  | cons c r ih =>
    obtain ⟨k, v⟩ := c
    intro h
    simp only [memOk, Bool.and_eq_true, decide_eq_true_eq] at h
    simp only [List.filter_cons]
    split
    · simp only [memOk, Bool.and_eq_true, decide_eq_true_eq]
      exact ⟨h.1, ih h.2⟩
    · exact memOk_mono (by omega) (ih h.2)

/-- Clearing a range keeps the canonical form. -/
theorem wf_mclear {m : Memory} (lo hi : Nat) (h : m.wf = true) : (mclear m lo hi).wf = true := memOk_filter _ h

/-- Pasting the cells of another store keeps the canonical form. -/
theorem wf_mpaste {m : Memory} (lo : Nat) (src : Memory) (h : m.wf = true) : (mpaste m lo src).wf = true := by
  unfold mpaste
  induction src generalizing m with
  | nil => exact h
  | cons c r ih => exact ih (wf_mset _ _ h)

theorem memOk_cellsOf : ∀ (bs : List Byte) (lo a : Nat), lo ≤ a → memOk lo (cellsOf a bs) = true
  | [], _, _, _ => rfl
  | b :: r, lo, a, h => by
    simp only [cellsOf]
    split
    · exact memOk_cellsOf r lo (a + 1) (by omega)
    · rename_i hb
      have hb' : b ≠ 0#8 := hb
      simp [memOk, h, hb', memOk_cellsOf r (a + 1) (a + 1) (Nat.le_refl _)]

theorem cellsOf_bound : ∀ (bs : List Byte) (a : Nat) (c : Host.Cell), c ∈ cellsOf a bs → a ≤ c.1 ∧ c.1 < a + bs.length
  | [], _, _, h => by simp [cellsOf] at h
  | b :: r, a, c, h => by
    simp only [cellsOf] at h
    split at h
    · have := cellsOf_bound r (a + 1) c h; simp; omega
    · rcases List.mem_cons.1 h with h | h
      · subst h; simp
      · have := cellsOf_bound r (a + 1) c h; simp; omega

/-- Two canonical stores, the first below an address and the second from it on, joined. -/
theorem memOk_append {lo hi : Nat} {x y : Memory} (hx : memOk lo x = true) (hb : ∀ c ∈ x, c.1 < hi) (hlh : lo ≤ hi)
    (hy : memOk hi y = true) : memOk lo (x ++ y) = true := by
  induction x generalizing lo with
  | nil => exact memOk_mono hlh hy
  | cons c r ih =>
    obtain ⟨k, v⟩ := c
    simp only [memOk, Bool.and_eq_true, decide_eq_true_eq, List.cons_append] at hx ⊢
    have hk := hb (k, v) (by simp)
    exact ⟨hx.1, ih hx.2 (fun c hc => hb c (by simp [hc])) (by simp at hk; omega)⟩

theorem memOk_dropWhile {lo n : Nat} : ∀ {m : Memory}, memOk lo m = true →
    memOk (max lo n) (m.dropWhile fun c => decide (c.1 < n)) = true := by
  intro m
  induction m generalizing lo with
  | nil => intro _; rfl
  | cons c r ih =>
    obtain ⟨k, v⟩ := c
    intro h
    simp only [memOk, Bool.and_eq_true, decide_eq_true_eq] at h
    simp only [List.dropWhile_cons]
    split
    · rename_i hk
      simp at hk
      exact memOk_mono (by omega) (ih h.2)
    · rename_i hk
      simp at hk
      simp only [memOk, Bool.and_eq_true, decide_eq_true_eq]
      exact ⟨⟨by omega, h.1.2⟩, h.2⟩

theorem memOk_takeWhile {lo : Nat} (p : Host.Cell → Bool) :
    ∀ {m : Memory}, memOk lo m = true → memOk lo (m.takeWhile p) = true := by
  intro m
  induction m generalizing lo with
  | nil => intro _; rfl
  | cons c r ih =>
    obtain ⟨k, v⟩ := c
    intro h
    simp only [memOk, Bool.and_eq_true, decide_eq_true_eq] at h
    simp only [List.takeWhile_cons]
    split
    · simp only [memOk, Bool.and_eq_true, decide_eq_true_eq]
      exact ⟨h.1, ih h.2⟩
    · rfl

theorem takeWhile_below (a : Nat) : ∀ (m : Memory) (c : Host.Cell), c ∈ (m.takeWhile fun c => decide (c.1 < a)) → c.1 < a
  | [], _, h => by simp at h
  | d :: r, c, h => by
    simp only [List.takeWhile_cons] at h
    split at h
    · rename_i hd
      rcases List.mem_cons.1 h with h | h
      · subst h; simpa using hd
      · exact takeWhile_below a r c h
    · simp at h

/-- Writing bytes in one pass keeps the canonical form. -/
theorem wf_mwrite {m : Memory} (a : Nat) (bs : List Byte) (h : m.wf = true) : (mwrite m a bs).wf = true := by
  unfold mwrite Memory.wf
  have h0 : memOk (a + bs.length) (m.dropWhile fun c => decide (c.1 < a + bs.length)) = true := by
    have := memOk_dropWhile (n := a + bs.length) h
    simpa using this
  have h1 : memOk a (cellsOf a bs ++ m.dropWhile fun c => decide (c.1 < a + bs.length)) = true :=
    memOk_append (memOk_cellsOf bs a a (Nat.le_refl a)) (fun c hc => (cellsOf_bound bs a c hc).2) (Nat.le_add_right _ _) h0
  rw [List.append_assoc]
  refine memOk_append (memOk_takeWhile _ h) ?_ (Nat.zero_le a) h1
  intro c hc
  exact takeWhile_below a m c hc

/-- A byte just written reads back. -/
theorem mget_mset_same {lo a : Nat} (b : Byte) : ∀ {m : Memory}, memOk lo m = true → mget (mset m a b) a = b := by
  intro m
  induction m generalizing lo with
  | nil => intro _; by_cases hb : b = 0#8 <;> simp [mset, mget, hb]
  | cons c r ih =>
    obtain ⟨k, v⟩ := c
    intro h
    simp only [memOk, Bool.and_eq_true, decide_eq_true_eq] at h
    have below : ∀ {n : Nat} {q : Memory}, a < n → memOk n q = true → mget q a = 0#8 := by
      intro n q hn hq
      cases q with
      | nil => rfl
      | cons d q =>
        obtain ⟨j, w⟩ := d
        simp only [memOk, Bool.and_eq_true, decide_eq_true_eq] at hq
        simp only [mget]
        rw [if_pos (by omega)]; rfl
    simp only [mset]
    by_cases hb : b = 0#8
    · subst hb
      split
      · rename_i h1; simp [mget, h1]
      · split
        · rename_i h2
          simpa using below (by omega) h.2
        · rename_i h1 h2
          simp only [mget, h1, h2, if_false]
          exact ih h.2
    · have hb0 : ¬ b = 0 := hb
      simp only [hb0, if_false]
      split
      · simp [mget]
      · split
        · simp [mget]
        · rename_i h1 h2
          simp only [mget, h1, h2, if_false]
          exact ih h.2

/-- A write of one byte leaves every other byte as it reads. -/
theorem mget_mset_other {lo a c : Nat} (b : Byte) (hne : c ≠ a) :
    ∀ {m : Memory}, memOk lo m = true → mget (mset m a b) c = mget m c := by
  intro m
  induction m generalizing lo with
  | nil =>
    intro _
    by_cases hb : b = 0#8
    · simp [mset, mget, hb]
    · have h2 : ¬ a = c := fun h => hne h.symm
      simp [mset, mget, hb, h2]
  | cons d r ih =>
    obtain ⟨k, v⟩ := d
    intro h
    simp only [memOk, Bool.and_eq_true, decide_eq_true_eq] at h
    have h2 : ¬ a = c := fun h => hne h.symm
    have below : ∀ {n : Nat} {q : Memory}, c < n → memOk n q = true → mget q c = 0#8 := by
      intro n q hn hq
      cases q with
      | nil => rfl
      | cons d q =>
        obtain ⟨j, w⟩ := d
        simp only [memOk, Bool.and_eq_true, decide_eq_true_eq] at hq
        simp only [mget]
        rw [if_pos (by omega)]; rfl
    have step : ∀ q : Memory, mget ((a, b) :: q) c = if c < a then 0 else mget q c := by
      intro q; simp [mget, h2]
    simp only [mset]
    by_cases hb : b = 0
    · subst hb
      simp only [if_true]
      split
      · rfl
      · split
        · rename_i h3
          subst h3
          simp only [mget, h2, if_false]
          split
          · exact below (by omega) h.2
          · rfl
        · simp only [mget]
          split
          · rfl
          · split
            · rfl
            · exact ih h.2
    · simp only [hb, if_false]
      split
      · rename_i h1
        rw [step]
        split
        · simp only [mget]
          rw [if_pos (by omega)]
        · rfl
      · split
        · rename_i h3
          subst h3
          rw [step]
          simp [mget, h2]
        · simp only [mget]
          split
          · rfl
          · split
            · rfl
            · exact ih h.2

/-- A write of bytes leaves every byte outside them as it reads. -/
theorem mget_msetN_other : ∀ (bs : List Byte) {m : Memory} (a c : Nat), m.wf = true → (c < a ∨ a + bs.length ≤ c) →
    mget (msetN m a bs) c = mget m c
  | [], _, _, _, _, _ => rfl
  | b :: r, m, a, c, h, hc => by
    simp only [List.length_cons] at hc
    simp only [msetN]
    rw [mget_msetN_other r (a + 1) c (wf_mset a b h) (by omega)]
    exact mget_mset_other b (by omega) h

/-- Bytes just written read back. -/
theorem mgetN_msetN : ∀ (bs : List Byte) {m : Memory} (a : Nat), m.wf = true → mgetN (msetN m a bs) a bs.length = bs
  | [], _, _, _ => rfl
  | b :: r, m, a, h => by
    simp only [msetN, List.length_cons, mgetN]
    rw [mget_msetN_other r (a + 1) a (wf_mset a b h) (by omega), mgetN_msetN r (a + 1) (wf_mset a b h),
      mget_mset_same b h]
end Sys2Proof.Machine
end

