-- ==== Sys2Proof/Laws/Bytes.lean ====
section
/-!
SUPPORT. What a byte store reads as after a write or a clearing in one pass, and the one-pass read.
-/
namespace Sys2Proof.Machine

/-- A byte that is not zero is read exactly where it is listed. -/
theorem mget_eq_iff {lo c : Nat} {v : Byte} (hv : v ≠ 0) : ∀ {m : Memory}, memOk lo m = true → (mget m c = v ↔ (c, v) ∈ m) := by
  intro m
  induction m generalizing lo with
  | nil => intro _; simpa [mget] using hv.symm
  | cons x r ih =>
    obtain ⟨k, w⟩ := x
    intro h
    simp only [memOk, Bool.and_eq_true, decide_eq_true_eq] at h
    have low : ∀ v', (c, v') ∈ r → k < c := by
      intro v' hm
      clear ih
      have : ∀ (m : Memory) (lo : Nat), memOk lo m = true → ∀ d ∈ m, lo ≤ d.1 := by
        intro m
        induction m with
        | nil => intro _ _ d hd; cases hd
        | cons y q ihq =>
          intro lo h d hd
          simp only [memOk, Bool.and_eq_true, decide_eq_true_eq] at h
          rcases List.mem_cons.1 hd with rfl | hd
          · exact h.1.1
          · have := ihq _ h.2 d hd; omega
      exact this r _ h.2 _ hm
    simp only [mget, List.mem_cons, Prod.mk.injEq]
    split
    · rename_i hlt
      constructor
      · intro h0; exact absurd h0.symm hv
      · rintro (⟨rfl, _⟩ | hm)
        · omega
        · have := low _ hm; omega
    · split
      · rename_i _ heq
        subst heq
        constructor
        · intro hw; exact Or.inl ⟨rfl, hw.symm⟩
        · rintro (⟨_, rfl⟩ | hm)
          · rfl
          · have := low _ hm; omega
      · rename_i _ hne
        rw [ih h.2]
        constructor
        · exact Or.inr
        · rintro (⟨rfl, _⟩ | hm)
          · exact absurd rfl hne
          · exact hm

/-- Two canonical stores that list the same at an address read the same there. -/
theorem mget_congr {m n : Memory} {c : Nat} (hm : m.wf = true) (hn : n.wf = true) (h : ∀ v, v ≠ 0 → ((c, v) ∈ m ↔ (c, v) ∈ n)) :
    mget m c = mget n c := by
  by_cases h0 : mget m c = 0
  · by_cases h1 : mget n c = 0
    · rw [h0, h1]
    · exact (mget_eq_iff h1 hm).2 ((h _ h1).2 ((mget_eq_iff h1 hn).1 rfl))
  · exact ((mget_eq_iff h0 hn).2 ((h _ h0).1 ((mget_eq_iff h0 hm).1 rfl))).symm

theorem memOk_le {lo : Nat} : ∀ {m : Memory}, memOk lo m = true → ∀ d ∈ m, lo ≤ d.1
  | [], _, _, hd => by cases hd
  | (k, v) :: r, h, d, hd => by
    simp only [memOk, Bool.and_eq_true, decide_eq_true_eq] at h
    rcases List.mem_cons.1 hd with rfl | hd
    · exact h.1.1
    · have := memOk_le h.2 d hd; omega

theorem mem_takeWhile {lo a : Nat} : ∀ {m : Memory}, memOk lo m = true → ∀ d,
    (d ∈ m.takeWhile (fun c => decide (c.1 < a)) ↔ d ∈ m ∧ d.1 < a)
  | [], _, d => by simp
  | (k, v) :: r, h, d => by
    simp only [memOk, Bool.and_eq_true, decide_eq_true_eq] at h
    simp only [List.takeWhile_cons]
    split
    · rename_i hk
      rw [List.mem_cons, mem_takeWhile h.2, List.mem_cons]
      constructor
      · rintro (rfl | hd)
        · exact ⟨Or.inl rfl, by simpa using hk⟩
        · exact ⟨Or.inr hd.1, hd.2⟩
      · rintro ⟨rfl | hd, hl⟩
        · exact Or.inl rfl
        · exact Or.inr ⟨hd, hl⟩
    · rename_i hk
      simp only [decide_eq_true_eq] at hk
      constructor
      · intro hd; cases hd
      · rintro ⟨hd, hl⟩
        rcases List.mem_cons.1 hd with rfl | hd
        · exact absurd hl hk
        · have := memOk_le h.2 d hd; omega

theorem mem_dropWhile {lo a : Nat} : ∀ {m : Memory}, memOk lo m = true → ∀ d,
    (d ∈ m.dropWhile (fun c => decide (c.1 < a)) ↔ d ∈ m ∧ a ≤ d.1)
  | [], _, d => by simp
  | (k, v) :: r, h, d => by
    have h' := h
    simp only [memOk, Bool.and_eq_true, decide_eq_true_eq] at h
    simp only [List.dropWhile_cons]
    split
    · rename_i hk
      simp only [decide_eq_true_eq] at hk
      rw [mem_dropWhile h.2, List.mem_cons]
      constructor
      · rintro ⟨hd, hl⟩; exact ⟨Or.inr hd, hl⟩
      · rintro ⟨rfl | hd, hl⟩
        · exact absurd hk (Nat.not_lt.2 hl)
        · exact ⟨hd, hl⟩
    · rename_i hk
      simp only [decide_eq_true_eq] at hk
      constructor
      · intro hd
        refine ⟨hd, ?_⟩
        rcases List.mem_cons.1 hd with rfl | hd
        · exact Nat.not_lt.1 hk
        · have := memOk_le h.2 d hd; omega
      · exact fun hd => hd.1

theorem mem_cellsOf : ∀ (bs : List Byte) (a c : Nat) (v : Byte), v ≠ 0 →
    ((c, v) ∈ cellsOf a bs ↔ a ≤ c ∧ c < a + bs.length ∧ bs.getD (c - a) 0 = v)
  | [], a, c, v, hv => by simp [cellsOf]; omega
  | b :: r, a, c, v, hv => by
    have ih := mem_cellsOf r (a + 1) c v hv
    have shift : a < c → c - a = (c - (a + 1)) + 1 := by omega
    simp only [cellsOf, List.length_cons]
    split
    · rename_i hb
      rw [ih]
      constructor
      · rintro ⟨h1, h2, h3⟩
        exact ⟨by omega, by omega, by rw [shift (by omega)]; simpa using h3⟩
      · rintro ⟨h1, h2, h3⟩
        by_cases hca : c = a
        · subst hca; simp at h3; exact absurd (h3 ▸ hb) hv
        · exact ⟨by omega, by omega, by rw [shift (by omega)] at h3; simpa using h3⟩
    · rw [List.mem_cons, ih, Prod.mk.injEq]
      constructor
      · rintro (⟨rfl, rfl⟩ | ⟨h1, h2, h3⟩)
        · exact ⟨Nat.le_refl _, by omega, by simp⟩
        · exact ⟨by omega, by omega, by rw [shift (by omega)]; simpa using h3⟩
      · rintro ⟨h1, h2, h3⟩
        by_cases hca : c = a
        · subst hca; left; simpa using h3.symm
        · right; exact ⟨by omega, by omega, by rw [shift (by omega)] at h3; simpa using h3⟩

/-- A write in one pass: its bytes read back, and no other address changes. -/
theorem mget_mwrite {m : Memory} (h : m.wf = true) (a : Nat) (bs : List Byte) (c : Nat) :
    mget (mwrite m a bs) c = if a ≤ c ∧ c < a + bs.length then bs.getD (c - a) 0 else mget m c := by
  have hw := wf_mwrite a bs h
  have hm : ∀ v, v ≠ 0 → ((c, v) ∈ mwrite m a bs ↔
      ((c, v) ∈ m ∧ c < a) ∨ (a ≤ c ∧ c < a + bs.length ∧ bs.getD (c - a) 0 = v) ∨ ((c, v) ∈ m ∧ a + bs.length ≤ c)) := by
    intro v hv
    unfold mwrite
    rw [List.mem_append, List.mem_append, mem_takeWhile h, mem_dropWhile h, mem_cellsOf bs a c v hv, or_assoc]
  split
  · rename_i hc
    by_cases h0 : bs.getD (c - a) 0 = 0
    · rw [h0]
      by_cases h1 : mget (mwrite m a bs) c = 0
      · exact h1
      · have := (hm _ h1).1 ((mget_eq_iff h1 hw).1 rfl)
        rcases this with ⟨_, hl⟩ | ⟨_, _, he⟩ | ⟨_, hl⟩
        · omega
        · exact absurd (he ▸ h0) h1
        · omega
    · exact (mget_eq_iff h0 hw).2 ((hm _ h0).2 (Or.inr (Or.inl ⟨hc.1, hc.2, rfl⟩)))
  · rename_i hc
    apply mget_congr hw h
    intro v hv
    rw [hm v hv]
    constructor
    · rintro (⟨hd, _⟩ | ⟨h1, h2, _⟩ | ⟨hd, _⟩)
      · exact hd
      · exact absurd ⟨h1, h2⟩ hc
      · exact hd
    · intro hd
      by_cases hl : c < a
      · exact Or.inl ⟨hd, hl⟩
      · exact Or.inr (Or.inr ⟨hd, by omega⟩)

theorem takeBytes_eq : ∀ (n : Nat) {m : Memory} {a : Nat}, memOk a m = true → takeBytes n m a = mgetN m a n
  | 0, _, _, _ => rfl
  | n + 1, [], a, h => by
    have := takeBytes_eq n (m := []) (a := a + 1) rfl
    simp only [takeBytes, mgetN, this]
    rfl
  | n + 1, (k, v) :: r, a, h => by
    have h' := h
    simp only [memOk, Bool.and_eq_true, decide_eq_true_eq] at h
    simp only [takeBytes, mgetN]
    split
    · rename_i hk
      subst hk
      have e : mgetN ((k, v) :: r) (k + 1) n = mgetN r (k + 1) n := by
        have : ∀ (n b : Nat), k < b → mgetN ((k, v) :: r) b n = mgetN r b n := by
          intro n
          induction n with
          | zero => intro _ _; rfl
          | succ n ih =>
            intro b hb
            simp only [mgetN, ih (b + 1) (by omega)]
            congr 1
            simp only [mget]
            rw [if_neg (by omega), if_neg (by omega)]
        exact this n _ (by omega)
      rw [e, takeBytes_eq n h.2]
      simp [mget]
    · rename_i hk
      have hk' : a < k := by omega
      rw [takeBytes_eq n (m := (k, v) :: r) (a := a + 1) (by
        simp only [memOk, Bool.and_eq_true, decide_eq_true_eq]; exact ⟨⟨hk', h.1.2⟩, h.2⟩)]
      simp [mget, hk']

theorem mget_dropWhile {m : Memory} (h : m.wf = true) {a c : Nat} (hc : a ≤ c) :
    mget (m.dropWhile fun d => decide (d.1 < a)) c = mget m c := by
  have hd := memOk_dropWhile (n := a) h
  apply mget_congr (memOk_mono (Nat.zero_le _) hd) h
  intro v _
  rw [mem_dropWhile h]
  exact ⟨fun x => x.1, fun x => ⟨x, hc⟩⟩

theorem mgetN_congr {m n : Memory} : ∀ (k a : Nat), (∀ c, a ≤ c → mget m c = mget n c) → mgetN m a k = mgetN n a k
  | 0, _, _ => rfl
  | k + 1, a, h => by simp only [mgetN, h a (Nat.le_refl a), mgetN_congr k (a + 1) fun c hc => h c (by omega)]

/-- The one-pass read is the byte-by-byte read. -/
theorem mread_eq {m : Memory} (h : m.wf = true) (a n : Nat) : mread m a n = mgetN m a n := by
  have hd := memOk_dropWhile (n := a) h
  rw [mread, takeBytes_eq n (memOk_mono (Nat.le_max_right 0 a) hd)]
  exact mgetN_congr n a fun c hc => mget_dropWhile h hc

theorem getD_mgetN (m : Memory) : ∀ (n a j : Nat), (mgetN m a n).getD j 0 = if j < n then mget m (a + j) else 0
  | 0, a, j => by simp [mgetN]
  | n + 1, a, 0 => by simp [mgetN]
  | n + 1, a, j + 1 => by
    simp only [mgetN, List.getD_cons_succ, getD_mgetN m n (a + 1) j]
    rw [show a + 1 + j = a + (j + 1) by omega]
    simp

theorem length_mgetN (m : Memory) : ∀ (n a : Nat), (mgetN m a n).length = n
  | 0, _ => rfl
  | n + 1, a => by simp [mgetN, length_mgetN m n (a + 1)]

/-- A clearing: the bytes of its range read as zero, the others stand. -/
theorem mget_mclear {m : Memory} (h : m.wf = true) (lo hi c : Nat) : mget (mclear m lo hi) c = if lo ≤ c ∧ c < hi then 0 else mget m c := by
  have hw := wf_mclear lo hi h
  have hm : ∀ v, ((c, v) ∈ mclear m lo hi ↔ (c, v) ∈ m ∧ ¬ (lo ≤ c ∧ c < hi)) := by
    intro v
    simp only [mclear, List.mem_filter, Bool.or_eq_true, decide_eq_true_eq]
    constructor
    · rintro ⟨h1, h2⟩; exact ⟨h1, by omega⟩
    · rintro ⟨h1, h2⟩; exact ⟨h1, by omega⟩
  by_cases hc : lo ≤ c ∧ c < hi
  · rw [if_pos hc]
    by_cases h0 : mget (mclear m lo hi) c = 0
    · exact h0
    · exact absurd hc ((hm _).1 ((mget_eq_iff h0 hw).1 rfl)).2
  · rw [if_neg hc]
    exact mget_congr hw h fun v _ => by rw [hm]; exact ⟨fun x => x.1, fun x => ⟨x, hc⟩⟩

end Sys2Proof.Machine
end

