-- ==== Sys2Proof/Laws/Scalar.lean ====
section
/-!
SUPPORT. Tables, and what a word of the scalar stream comes to where nothing stands before it: one lemma for a word that
executes, one for a word that is dispatched.
-/
namespace Sys2Proof.Machine

@[simp] theorem tget_tset_same {α : Type} (x : α) (i : Nat) : ∀ l : List (Nat × α), tget (tset l i x) i = some x
  | [] => by simp [tset, tget]
  | (k, v) :: r => by
    simp only [tset]
    split
    · simp [tget]
    · split
      · simp [tget]
      · rename_i h1 h2
        have h3 : ¬ k = i := fun h => h2 h.symm
        simp [tget, h3, tget_tset_same x i r]

theorem tget_tset_other {α : Type} (x : α) {i j : Nat} (hne : j ≠ i) : ∀ l : List (Nat × α), tget (tset l i x) j = tget l j
  | [] => by
    have h : ¬ i = j := fun h => hne h.symm
    simp [tset, tget, h]
  | (k, v) :: r => by
    have h : ¬ i = j := fun h => hne h.symm
    simp only [tset]
    split
    · simp [tget, h]
    · split
      · rename_i h1 h2
        subst h2
        simp [tget, h]
      · simp only [tget, tget_tset_other x hne r]

@[simp] theorem tset_tset {α : Type} (x y : α) (i : Nat) : ∀ l : List (Nat × α), tset (tset l i x) i y = tset l i y
  | [] => by simp [tset]
  | (k, v) :: r => by
    simp only [tset]
    split
    · simp [tset]
    · split
      · simp [tset]
      · rename_i h1 h2
        simp [tset, h1, h2, tset_tset x y i r]

@[simp] theorem th_setTh_same (s : State) (h : Nat) (t : Thread) : (s.setTh h t).th h = some t := tget_tset_same t h s.threads
theorem th_setTh_other (s : State) {h g : Nat} (t : Thread) (hne : g ≠ h) : (s.setTh h t).th g = s.th g :=
  tget_tset_other t hne s.threads
@[simp] theorem setTh_setTh (s : State) (h : Nat) (t u : Thread) : (s.setTh h t).setTh h u = s.setTh h u := by
  simp [State.setTh]
@[simp] theorem modTh_setTh (s : State) (h : Nat) (t : Thread) (f : Thread → Thread) :
    (s.setTh h t).modTh h f = s.setTh h (f t) := by simp [State.modTh]

/-- A place of a list just set reads back, and no other changes. -/
theorem getD_setAt {α : Type} (z x : α) : ∀ (l : List α) (i j : Nat), (setAt z l i x).getD j z = if j = i then x else l.getD j z
  | [], 0, j => by cases j <;> simp [setAt]
  | [], i + 1, 0 => by simp [setAt]
  | [], i + 1, j + 1 => by simpa [setAt] using getD_setAt z x [] i j
  | y :: r, 0, j => by cases j <;> simp [setAt]
  | y :: r, i + 1, 0 => by simp [setAt]
  | y :: r, i + 1, j + 1 => by simpa [setAt] using getD_setAt z x r i j

/-- A register just written reads back; s0 reads as zero whatever is written (R103). -/
theorem reg_setReg (t : Thread) (d : BitVec 5) (x : Word) (n : BitVec 5) :
    (t.setReg d x).reg n = if n = d ∧ d ≠ 0 then x else t.reg n := by
  have get := getD_setAt (0 : Word) x
  unfold Thread.setReg Thread.reg
  by_cases hd : d = 0
  · subst hd; simp
  · by_cases hn : n = 0
    · subst hn
      have h0 : ¬ ((0 : BitVec 5) = d ∧ d ≠ 0) := fun h => hd h.1.symm
      rw [if_pos rfl, if_neg h0, if_pos rfl]
    · rw [if_neg hd, if_neg hn, if_neg hn, get]
      by_cases hnd : n = d
      · subst hnd; rw [if_pos rfl, if_pos ⟨rfl, hd⟩]
      · have h1 : ¬ n.toNat = d.toNat := fun h => hnd (BitVec.eq_of_toNat_eq h)
        rw [if_neg h1, if_neg (fun h => hnd h.1)]

/-- The word meets no check of R85, R177, R219 or R329 in the thread's situation. -/
def Allowed (t : Thread) (i : Instr) : Prop :=
  ¬ (t.handler = true ∧ (queued i = true ∨ opensStrip i = true)) ∧ (i.serviceOnly = true → t.svc = true) ∧
    (match i with
      | .vexit .. | .vcvtqC .. => False
      | _ => True)

theorem gateOf_ready {s : State} {h : Nat} {t : Thread} {i : Instr} (r : Ready s h t) (a : Allowed t i) : gateOf t i = .go := by
  obtain ⟨a1, a2, a3⟩ := a
  have hp : t.loop.pending = false := by simp [Loop.pending, r.stage]
  have hr : regionIllegal t i = false := by
    unfold regionIllegal
    split
    · exact a3.elim
    · rfl
    · simp [r.region]
  have hc : chainIllegal t i = false := by
    unfold chainIllegal
    split
    · exact a3.elim
    · exact r.chain
  simp only [gateOf, r.wait, r.depart, r.vtrap, r.pend, gateOf.gateRest, hr, hc, hp, r.bundle]
  simp [a1]
  exact a2

theorem loopReach_closed {s : State} {h : Nat} {t : Thread} (hc : t.loop.open_ = false) (i : Instr) :
    (s.setTh h t).loopReach h i = s.setTh h t := by simp [State.loopReach, hc]

theorem running_ready {s : State} {h : Nat} {t : Thread} (r : Ready s h t) : s.running = some (h, t) := by
  simp [State.running, r.cur, r.th, r.res]

/-- A thread whose pc moves on and in which nothing else is left to do after its word. -/
theorem retireS_quiet {s : State} {h : Nat} {u : Thread} (i : Instr) (b : BodyRec) (next : Word) (hp : u.pend = none)
    (hc : u.loop.open_ = false) (hr : u.regionOpen = false) :
    (s.setTh h u).retireS h i b next = s.setTh h (u.setPc next) := by
  have hf : u.feat = 0#19 := by simp [Thread.feat, hp]
  have hcopy : u.copyD i = u := by
    unfold Thread.copyD
    split
    · simp [hf, featD, bitN]
    · rfl
  have hpush : u.pushS = u := by simp [Thread.pushS, hf, featPush, bitsN]
  have hpend : u.setPend none = u := by cases u; simp_all [Thread.setPend]
  simp [State.retireS, hc, noteLoop, hcopy, hpush, Thread.countRegion, hr, hpend]

/-- What a word of the scalar engine comes to where nothing stands before it (R104, R106). -/
theorem scalarStep_ready {s : State} {h : Nat} {t : Thread} {i : Instr} (r : Ready s h t) (a : Allowed t i)
    (body : State → Nat → Thread → SRes) :
    scalarStep i body s = .next (match body (s.setTh h t) h t with
      | .done s => s.retireS h i (bodyRec t i) (t.pc + 4)
      | .jump s pc => s.retireS h i (bodyRec t i) pc
      | .wait s w => s.waitAt h w
      | .trap s r => s.scalarTrap h r
      | .gone s => s) := by
  have hw : ({ t with wait := none } : Thread) = t := by have := r.wait; cases t; simp_all
  have hpop : t.popS = some t := by simp [Thread.popS, r.pend]
  have e : (s.setTh h t).loopReach h i = s.setTh h t := loopReach_closed r.closed i
  simp only [scalarStep, running_ready r, runS, gateOf_ready r a, hpop, hw, e, th_setTh_same]
  first
    | done
    | rfl

/-- A scalar word that only writes its destination (R104, R107): the register and the pc change, nothing else does. -/
theorem writeStep_ready {s : State} {h : Nat} {t : Thread} {i : Instr} (r : Ready s h t) (a : Allowed t i) (d : BitVec 5)
    (f : Thread → Word) : writeStep i d f s = .next (s.setTh h ((t.setReg d (f t)).setPc (t.pc + 4))) := by
  have keep : ∀ x : Word, (t.setReg d x).pend = t.pend ∧ (t.setReg d x).loop = t.loop ∧ (t.setReg d x).vstop = t.vstop := by
    intro x; unfold Thread.setReg; split <;> exact ⟨rfl, rfl, rfl⟩
  rw [writeStep, scalarStep_ready r a]
  simp only [setTh_setTh]
  obtain ⟨k1, k2, k3⟩ := keep (f t)
  rw [retireS_quiet i _ _ (by rw [k1, r.pend]) (by rw [k2, r.closed]) (by
    have := r.region
    unfold Thread.regionOpen at this ⊢
    rw [k3, this])]

/-- The thread after the dispatch of a word with entry e, where no marking and no region is open (R16, R121, R95). -/
def Thread.dispatched (t : Thread) (i : Instr) (e : QEntry) : Thread :=
  (((((t.reserveFor i)).nextAnchor i).setQueue (t.queue ++ [e])).setTag (t.nextTag + 1)).setPc (t.pc + 4)

/-- The dispatch of a word where no marking and no region is open. -/
theorem enqueue_quiet {s : State} {h : Nat} {t : Thread} {i : Instr} (e : QEntry) (hp : t.pend = none) (hc : t.loop.open_ = false)
    (hr : t.regionOpen = false) (hx : i ≠ .vxbeg ∧ ∀ c a b k f, i ≠ .vexit c a b k f) :
    (s.setTh h t).enqueue h i e = s.setTh h (t.dispatched i e) := by
  have hm : ∀ u : Thread, u.vstop = t.vstop → u.markRegion i = u := by
    intro u hu
    have hu' : u.regionOpen = false := by unfold Thread.regionOpen at *; rw [hu]; exact hr
    unfold Thread.markRegion
    split
    · exact absurd rfl hx.1
    · exact absurd rfl (hx.2 _ _ _ _ _)
    · simp [Thread.countRegion, hu']
  have hres : (t.reserveFor i).vstop = t.vstop ∧ (t.reserveFor i).pend = none := by
    unfold Thread.reserveFor; split <;> simp [Thread.reserve, Thread.setQ, hp]
  have hset : ∀ u : Thread, u.pend = none → u.setPend none = u := by
    intro u hu; cases u; simp_all [Thread.setPend]
  simp only [State.enqueue, th_setTh_same, State.modTh, setTh_setTh, noteLoop, hc]
  simp only [Bool.false_eq_true, false_and, if_false]
  rw [hm _ hres.1, hset]
  · rfl
  · unfold Thread.nextAnchor
    split
    · exact hres.2
    · split <;> exact hres.2

/-- A queued word where nothing stands before it and its queue, its queue register and its lease admit it (R16, R17, R226). -/
theorem queueStep_ready {s : State} {h : Nat} {t : Thread} {i : Instr} (r : Ready s h t) (a : Allowed t i)
    (hx : i ≠ .vxbeg) (hroom : ∀ q, qOf i = some q → (t.q q.toNat).length < 8) (hq : t.queue.length < 64)
    (hl : ∀ c, s.heavyClass t i (opsOf t i) = some c → (t.lease c).held = true) :
    queueStep i s = .next (s.setTh h (t.dispatched i (entryOf (s.setTh h t) t i ((s.setTh h t).heavyClass t i (opsOf t i))))) := by
  have hw : ({ t with wait := none } : Thread) = t := by have := r.wait; cases t; simp_all
  have hpop : t.popS = some t := by simp [Thread.popS, r.pend]
  have e : (s.setTh h t).loopReach h i = s.setTh h t := loopReach_closed r.closed i
  have hx' : i ≠ .vxbeg ∧ ∀ c a b k f, i ≠ .vexit c a b k f := ⟨hx, by rintro c a' b k f rfl; exact a.2.2⟩
  have hh : (s.setTh h t).heavyClass t i (opsOf t i) = s.heavyClass t i (opsOf t i) := rfl
  have hfull : ∀ q, qOf i = some q → ¬ 8 ≤ (t.q q.toNat).length := fun q hc => Nat.not_le.2 (hroom q hc)
  simp only [queueStep, running_ready r, runQ, gateOf_ready r a, hpop, hw, e, th_setTh_same]
  simp only [Bool.false_eq_true, if_false, if_neg (Nat.not_le.2 hq), enqueue_quiet _ r.pend r.closed r.region hx']
  rw [← hh] at hl
  generalize (s.setTh h t).heavyClass t i (opsOf t i) = v at hl ⊢
  cases hc : qOf i with
  | none => cases v with
    | none => simp
    | some c => simp [hl c rfl]
  | some q => cases v with
    | none => simp [hfull q hc]
    | some c => simp [hfull q hc, hl c rfl]

/-- A queue register just written reads back. -/
theorem q_setQ (t : Thread) (k n : Nat) (l : List QSlot) : (t.setQ k l).q n = if n = k then l else t.q n := by
  simp only [Thread.q, Thread.setQ]
  exact getD_setAt _ _ _ _ _

end Sys2Proof.Machine
end

