-- ==== Sys2Proof/Laws/Commit.lean ====
section
/-!
SUPPORT. The commit of a queued word at the VCP (R19): what VECTOR_COMMIT does for a word that is performed.
-/
namespace Sys2Proof.Machine

/-- A word outside every exit region commits alone (R19, R178). -/
theorem commitsWith_alone {e : QEntry} (q : List QEntry) (h : e.region = false) : commitsWith e q = [e] := by simp [commitsWith, h]

/-- The oldest queued word, performed with flags fl and no answer for a queue register, commits (R19, R56, R142). -/
theorem commit_plain {s : State} {h : Nat} {t u : Thread} {e : QEntry} {r : List QEntry} {i : Instr} {fl : Nat}
    (a : AtVcp s h t e r i) (hV : engOf i ≠ some .C) (hq : qOf i = none) (hx : ¬ (e.vill = true ∧ ¬ villFree i = true))
    (hp : performWord i s h t e = .ok (s.setTh h u) fl none) (hu : u.queue = e :: r) :
    exec (.vectorCommit h) s = .next (s.setTh h ((((u.setFlags (u.flags ||| BitVec.ofNat 6 fl)).setVstart 0).setQueue r).issued e s.time)) := by
  have hb : ∀ eng, t.pushBlocked eng = false := by intro eng; simp [Thread.pushBlocked, a.retq]
  have hpop : ∀ (v : Thread) eng, v.popFor e eng = some v := by intro v eng; simp [Thread.popFor, a.pop]
  have hper : perform i s h t e = .ok (s.setTh h u) fl none := by
    unfold perform swapped
    have hsw : s.swapError t e i = none := by unfold State.swapError; simp [a.swap]
    rw [a.failed, if_neg (by simp), if_neg hx, hsw]
    simp only [a.swap, if_true]
    rw [withStreams, if_pos a.binds, hp]
  show Host.Outcome.next (s.vectorCommit h) = _
  unfold State.vectorCommit
  rw [a.th]
  simp only [a.res, a.vtrap, a.queue, a.word, commitsWith_alone (e :: r) a.region, a.region, a.lease, a.failed, if_false, Bool.false_eq_true, List.findSome?, hV, hb, hpop, hper, State.commitEntry, State.commitMarks, modTh_setTh, hq]
  simp [hu, Thread.pushFor, a.push, Thread.setQueue, Thread.setFlags, Thread.setVstart]
  rfl

end Sys2Proof.Machine
end

