-- ==== Sys2Proof/Laws/Group.lean ====
section
/-!
SUPPORT. The layout of vector registers (R144): what each register of a group reads as after the group is written, that no other
register changes, and that the layout stays sound.
-/
namespace Sys2Proof.Machine

theorem tget_tdel {α : Type} (i j : Nat) : ∀ l : List (Nat × α), tget (tdel l i) j = if j = i then none else tget l j
  | [] => by simp [tdel, tget]
  | (k, v) :: r => by
    simp only [tdel]
    by_cases h : k = i
    · rw [if_pos h, tget_tdel i j r]
      subst h
      by_cases hj : j = k
      · simp [hj]
      · have : ¬ k = j := fun h => hj h.symm
        simp [tget, hj, this]
    · rw [if_neg h]
      simp only [tget, tget_tdel i j r]
      by_cases hj : j = i
      · subst hj; simp [h]
      · simp [hj]

theorem tget_tset {α : Type} (x : α) (i j : Nat) (l : List (Nat × α)) : tget (tset l i x) j = if j = i then some x else tget l j := by
  by_cases h : j = i
  · subst h; simp
  · rw [tget_tset_other x h, if_neg h]

/-- The first register of the group of r, in a table of groups. -/
def baseIn (m : Table Nat) (r : Nat) : Nat := tgetD m r r

theorem vbase_def (t : Thread) (r : Nat) : t.vbase r = baseIn t.vspan r := rfl

theorem vbase_congr {t u : Thread} (h : u.vspan = t.vspan) (r : Nat) : u.vbase r = t.vbase r := by simp only [Thread.vbase, h]

theorem spanOk_congr {t u : Thread} (h : u.vspan = t.vspan) : u.spanOk = t.spanOk := by
  unfold Thread.spanOk Thread.vbase
  rw [h]

theorem tget_key {α : Type} {r : Nat} : ∀ {m : Table α}, r ∉ m.map (·.1) → tget m r = none
  | [], _ => rfl
  | (k, v) :: m, h => by
    simp only [List.map_cons, List.mem_cons, not_or] at h
    simp only [tget]
    rw [if_neg fun e => h.1 e.symm, tget_key h.2]

/-- What a sound layout is, register by register. -/
theorem spanOk_iff (t : Thread) : t.spanOk = true ↔ ∀ r, t.vbase r = 64 ∨ (t.vbase r ≤ r ∧ r < t.vbase r + 8) := by
  unfold Thread.spanOk
  simp only [List.all_eq_true, Bool.or_eq_true, Bool.and_eq_true, decide_eq_true_eq, beq_iff_eq]
  constructor
  · intro h r
    by_cases hr : r ∈ t.vspan.map (·.1)
    · exact h r hr
    · have : t.vbase r = r := by unfold Thread.vbase tgetD; rw [tget_key hr]; rfl
      omega
  · exact fun h r _ => h r

theorem baseIn_put (m : Table Nat) (reg i r : Nat) (w : Bool) :
    baseIn (if w then (if i = 0 then tdel m reg else tset m (reg + i) reg) else m) r =
      if w = true ∧ r = reg + i then reg else baseIn m r := by
  unfold baseIn tgetD
  cases w
  · simp
  · by_cases h0 : i = 0
    · subst h0
      simp only [if_true, tget_tdel, Nat.add_zero, true_and]
      by_cases hr : r = reg <;> simp [hr]
    · simp only [if_true, h0, if_false, tget_tset, true_and]
      by_cases hr : r = reg + i <;> simp [hr]

/-- The written registers of a group become its own; no other register changes its group. -/
theorem baseIn_spanPut (reg r : Nat) : ∀ (ws : List Bool) (m : Table Nat) (i : Nat), baseIn (spanPut m reg i ws) r =
    if reg + i ≤ r ∧ ws.getD (r - (reg + i)) false = true then reg else baseIn m r
  | [], m, i => by simp [spanPut]
  | w :: ws, m, i => by
    simp only [spanPut]
    rw [baseIn_spanPut reg r ws, baseIn_put]
    by_cases hlo : r < reg + i
    · simp [show ¬ reg + (i + 1) ≤ r by omega, show ¬ reg + i ≤ r by omega, show ¬ r = reg + i by omega]
    · by_cases he : r = reg + i
      · subst he; simp [show ¬ i + 1 ≤ i by omega]
      · simp [show reg + (i + 1) ≤ r by omega, show reg + i ≤ r by omega, he,
          show r - (reg + i) = (r - (reg + (i + 1))) + 1 by omega]

theorem getD_past {α : Type} (z : α) : ∀ (l : List α) (n : Nat), l.length ≤ n → l.getD n z = z
  | [], n, _ => by simp
  | x :: l, 0, h => by simp at h
  | x :: l, n + 1, h => by rw [List.getD_cons_succ]; exact getD_past z l n (by simpa using h)

/-- n registers from reg are released. -/
theorem baseIn_clear (m : Table Nat) (reg n r : Nat) :
    baseIn ((upTo n).foldl (fun m i => tset m (reg + i) 64) m) r = if reg ≤ r ∧ r < reg + n then 64 else baseIn m r := by
  unfold upTo
  induction n with
  | zero => rw [if_neg (by omega)]; rfl
  | succ n ih =>
    rw [List.range_succ, List.foldl_append, List.foldl_cons, List.foldl_nil]
    generalize (List.range n).foldl (fun m i => tset m (reg + i) 64) m = M at ih ⊢
    unfold baseIn tgetD at ih ⊢
    rw [tget_tset]
    by_cases hr : r = reg + n
    · subst hr; rw [if_pos rfl, if_pos (by omega)]; rfl
    · rw [if_neg hr, ih]
      by_cases hc : reg ≤ r ∧ r < reg + n
      · rw [if_pos hc, if_pos (by omega)]
      · rw [if_neg hc, if_neg (by omega)]

/-- The group of each register once some of a group have been written. -/
theorem vbase_putRegs (t : Thread) (len reg : Nat) {ws : List Bool} (hn : ws.length ≤ 8) (b : List Byte) (r : Nat) :
    (t.putRegs len reg ws b).vbase r = if reg ≤ r ∧ ws.getD (r - reg) false = true then reg else t.vbase r := by
  rw [vbase_def]
  show baseIn (spanPut t.vspan reg 0 (ws.take 8)) r = _
  rw [List.take_of_length_le hn, baseIn_spanPut, Nat.add_zero]
  rfl

/-- The group of each register once some have been released. -/
theorem vbase_clearRegs (t : Thread) (reg n r : Nat) :
    (t.clearRegs reg n).vbase r = if reg ≤ r ∧ r < reg + n then 64 else t.vbase r := baseIn_clear t.vspan reg n r

/-- Writing a group keeps the layout sound. -/
theorem putRegs_sound {t : Thread} (h : t.spanOk = true) (len reg : Nat) (ws : List Bool) (b : List Byte) :
    (t.putRegs len reg ws b).spanOk = true := by
  rw [spanOk_iff] at h ⊢
  intro r
  rw [vbase_def]
  show baseIn (spanPut t.vspan reg 0 (ws.take 8)) r = 64 ∨ baseIn (spanPut t.vspan reg 0 (ws.take 8)) r ≤ r ∧
    r < baseIn (spanPut t.vspan reg 0 (ws.take 8)) r + 8
  rw [baseIn_spanPut, Nat.add_zero]
  split
  · rename_i hc
    right
    have : r - reg < 8 := by
      by_cases hlt : r - reg < (ws.take 8).length
      · have := List.length_take_le 8 ws; omega
      · have := hc.2
        rw [getD_past _ _ _ (by omega)] at this
        cases this
    omega
  · exact h r

/-- Releasing registers keeps the layout sound. -/
theorem clearRegs_sound {t : Thread} (h : t.spanOk = true) (reg n : Nat) : (t.clearRegs reg n).spanOk = true := by
  rw [spanOk_iff] at h ⊢
  intro r
  rw [vbase_clearRegs]
  split
  · exact Or.inl rfl
  · exact h r

theorem zeroRegs_sound {t : Thread} (h : t.spanOk = true) (reg n : Nat) : (t.zeroRegs reg n).spanOk = true := by
  rw [← clearRegs_sound h reg n]; exact spanOk_congr rfl

theorem wf_putCells (len : Nat) : ∀ (ws : List Bool) {m : Memory} (a : Nat) (b : List Byte), m.wf = true →
    (putCells m a len ws b).wf = true
  | [], _, _, _, h => h
  | w :: ws, m, a, b, h => by
    simp only [putCells]
    refine wf_putCells len ws _ _ ?_
    split
    · exact wf_mwrite _ _ h
    · exact h

/-- The pieces that are written read back, and no other cell changes. -/
theorem mget_putCells {len : Nat} (hl : 0 < len) (c : Nat) : ∀ (ws : List Bool) {m : Memory} (a : Nat) (b : List Byte), m.wf = true →
    b.length = ws.length * len → mget (putCells m a len ws b) c =
      if a ≤ c ∧ ws.getD ((c - a) / len) false = true then b.getD (c - a) 0 else mget m c
  | [], m, a, b, _, _ => by simp [putCells]
  | w :: ws, m, a, b, h, hb => by
    simp only [List.length_cons, Nat.add_mul, Nat.one_mul] at hb
    have htake : (b.take len).length = len := by rw [List.length_take]; omega
    have hm : (if w = true then mwrite m a (b.take len) else m).wf = true := by
      split
      · exact wf_mwrite _ _ h
      · exact h
    simp only [putCells]
    rw [mget_putCells hl c ws (a + len) (b.drop len) hm (by rw [List.length_drop]; omega)]
    have hhead : mget (if w = true then mwrite m a (b.take len) else m) c =
        if w = true ∧ a ≤ c ∧ c < a + len then b.getD (c - a) 0 else mget m c := by
      cases w
      · simp
      · simp only [if_true, true_and]
        rw [mget_mwrite h, htake]
        split
        · rename_i hc
          rw [List.getD_eq_getElem?_getD, List.getElem?_take_of_lt (by omega), ← List.getD_eq_getElem?_getD]
        · rfl
    rw [hhead]
    by_cases hin : a + len ≤ c
    · have e : (c - a) / len = (c - (a + len)) / len + 1 := by
        rw [← Nat.sub_sub, ← Nat.div_eq_sub_div hl (by omega)]
      simp [e, hin, show a ≤ c by omega, show ¬ c < a + len by omega, show len + (c - (a + len)) = c - a by omega]
    · by_cases hlo : a ≤ c
      · simp [hin, hlo, Nat.div_eq_of_lt (show c - a < len by omega), show c < a + len by omega]
      · simp [hlo, show ¬ a + len ≤ c by omega]

theorem wf_stringAt {t : Thread} (hw : t.vregs.wf = true) (reg : Nat) : (t.stringAt reg).wf = true := by
  unfold Thread.stringAt
  split
  · exact hw
  · exact wf_mclear _ _ hw

/-- Where a register's byte stands in the string of its group. -/
theorem piece_lt {b r q len : Nat} (hr : r < b + 8) (hq : q < len) (hlen : len ≤ 2048) : (r - b) * len + q < 16384 := by
  have h1 : (r - b) * len ≤ 7 * len := Nat.mul_le_mul_right _ (by omega)
  omega

/-- Emptying the string of a register that begins no group leaves every register's bytes. -/
theorem mget_stringAt {t : Thread} (h : t.spanOk = true) (hw : t.vregs.wf = true) {len : Nat} (hlen : len ≤ 2048) (reg r q : Nat) (hq : q < len) (h64 : t.vbase r ≠ 64) :
    mget (t.stringAt reg) (t.vbase r * 16384 + (r - t.vbase r) * len + q) = mget t.vregs (t.vbase r * 16384 + (r - t.vbase r) * len + q) := by
  have hr := ((spanOk_iff t).1 h r).resolve_left h64
  have hp := piece_lt hr.2 hq hlen
  unfold Thread.stringAt
  split
  · rfl
  · rename_i hn
    rw [mget_mclear hw, if_neg]
    intro hc
    apply hn
    rw [Bool.or_eq_true]; right
    simp only [upTo, List.any_eq_true, List.mem_range, beq_iff_eq]
    have : t.vbase r = reg := by omega
    exact ⟨r - reg, by omega, by rw [show reg + (r - reg) = r by omega]; exact this⟩

/-- A group's write: the written registers' bytes read back, and no other register's bytes change (R144). -/
theorem putRegs_bytes {t : Thread} (h : t.spanOk = true) (hw : t.vregs.wf = true) {len : Nat} (hlen : len ≤ 2048) {reg : Nat}
    (hreg : reg < 64) {ws : List Bool} (hn : ws.length ≤ 8) {b : List Byte} (hb : b.length = ws.length * len) :
    (t.putRegs len reg ws b).vregs.wf = true ∧ ∀ r q, q < len → (t.putRegs len reg ws b).regByte len r q =
      if reg ≤ r ∧ ws.getD (r - reg) false = true then b.getD ((r - reg) * len + q) 0 else t.regByte len r q := by
  have hs := wf_stringAt hw reg
  refine ⟨wf_putCells len ws _ _ hs, fun r q hq => ?_⟩
  have hl : 0 < len := by omega
  have hV : (t.putRegs len reg ws b).vregs = putCells (t.stringAt reg) (reg * 16384) len ws b := rfl
  have hpos : ∀ x, x * len + q - 0 = x * len + q := fun _ => rfl
  have hdiv : ∀ x, (x * len + q) / len = x := fun x => by
    rw [Nat.mul_comm, Nat.mul_add_div hl, Nat.div_eq_of_lt hq, Nat.add_zero]
  unfold Thread.regByte
  rw [vbase_putRegs t len reg hn, hV]
  by_cases hc : reg ≤ r ∧ ws.getD (r - reg) false = true
  · rw [if_pos hc, if_pos hc, if_neg (by omega), mget_putCells hl _ ws _ b hs hb,
      show reg * 16384 + (r - reg) * len + q - reg * 16384 = (r - reg) * len + q by omega, hdiv, if_pos ⟨by omega, hc.2⟩]
  · rw [if_neg hc, if_neg hc]
    split
    · rfl
    · rename_i h64
      have hr := ((spanOk_iff t).1 h r).resolve_left h64
      rw [mget_putCells hl _ ws _ b hs hb, if_neg, mget_stringAt h hw hlen reg r q hq h64]
      rintro ⟨h1, h2⟩
      have hp := piece_lt hr.2 hq hlen
      by_cases he : t.vbase r = reg
      · rw [he, show reg * 16384 + (r - reg) * len + q - reg * 16384 = (r - reg) * len + q by omega, hdiv] at h2
        exact hc ⟨by omega, h2⟩
      · have hgt : reg + 1 ≤ t.vbase r := by omega
        have hlt : (t.vbase r * 16384 + (r - t.vbase r) * len + q - reg * 16384) / len < ws.length := by
          by_cases hx : (t.vbase r * 16384 + (r - t.vbase r) * len + q - reg * 16384) / len < ws.length
          · exact hx
          · rw [getD_past _ _ _ (by omega)] at h2; cases h2
        rw [Nat.div_lt_iff_lt_mul hl] at hlt
        have : ws.length * len ≤ 8 * 2048 := Nat.mul_le_mul hn hlen
        omega

/-- Released registers read as zero, and no other register's bytes change (R161, R297). -/
theorem clearRegs_bytes (t : Thread) (len reg n r q : Nat) :
    (t.clearRegs reg n).regByte len r q = if reg ≤ r ∧ r < reg + n then 0 else t.regByte len r q := by
  unfold Thread.regByte
  rw [vbase_clearRegs]
  split
  · rfl
  · rfl

theorem length_regBytes {t : Thread} (h : t.vregs.wf = true) (len r : Nat) : (t.regBytes len r).length = len := by
  unfold Thread.regBytes
  split
  · exact List.length_replicate ..
  · rw [mread_eq h, length_mgetN]

/-- A register's bytes, one by one. -/
theorem getD_regBytes {t : Thread} (h : t.vregs.wf = true) (len r q : Nat) (hq : q < len) : (t.regBytes len r).getD q 0 = t.regByte len r q := by
  unfold Thread.regBytes Thread.regByte
  split
  · simp [List.getD_eq_getElem?_getD, hq]
  · rw [mread_eq h, getD_mgetN, if_pos hq]

end Sys2Proof.Machine
end

