-- ==== Sys2Proof/Laws/Ops.lean ====
section
/-!
SUPPORT. What the shared operations of traps and of management commands come to: one lemma each.
-/
namespace Sys2Proof.Machine

/-- A scalar word's trap is taken at once where nothing stands before it and its queue is empty (R106, R293). -/
theorem scalarTrap_ready {s : State} {h : Nat} {t : Thread} (hr : Ready s h t) (hq : t.queue = []) (r : TrapReq) :
    s.scalarTrap h r = s.takeTrap h r := by
  simp [State.scalarTrap, hr.th, hq, Loop.pending, hr.stage]

/-- Where older words are queued the trap waits for them (R106). -/
theorem scalarTrap_queued {s : State} {h : Nat} {t : Thread} (ht : s.th h = some t) (hq : t.queue ≠ []) (r : TrapReq) :
    s.scalarTrap h r = s.setTh h { t with wait := some .drain } := by
  simp [State.scalarTrap, ht, hq, State.waitAt, State.modTh]

/-- A trap in a handler ends the thread with cause 0x0E (R329). -/
theorem takeTrap_handler {s : State} {h : Nat} {t : Thread} (ht : s.th h = some t) (hh : t.handler = true) (r : TrapReq) :
    s.takeTrap h r = s.endThread h 0x0E := by
  simp [State.takeTrap, ht, hh]

/-- A trap without a handler ends the thread with its cause (R325). -/
theorem takeTrap_unset {s : State} {h : Nat} {t : Thread} (ht : s.th h = some t) (hh : t.handler = false) (hv : t.tvec = 0) (r : TrapReq) :
    s.takeTrap h r = s.endThread h r.cause := by
  simp [State.takeTrap, ht, hh, hv]

/-- A management command that is performed answers CAUSE 0 (R387). -/
theorem manage_ok {s s' : State} (hp : s.phase = .up) (hm : s.mgmtPresent = true)
    (hb : s.mgmt.busy = false) :
    manage s (.ok s') = .next { s' with mgmt := s'.mgmt.status 0 0 } := by
  simp [manage, managePort, hp, hm, hb]

/-- A refused one changes the port's status alone (R387). -/
theorem manage_error {s : State} {c : Nat} (hp : s.phase = .up) (hm : s.mgmtPresent = true)
    (hb : s.mgmt.busy = false) :
    manage s (.error c) = .next { s with mgmt := s.mgmt.status 0 c } := by
  simp [manage, managePort, hp, hm, hb]

/-- One sent to a busy port is lost (R302). -/
theorem manage_busy {s : State} {r : Except Nat State} (hp : s.phase = .up) (hm : s.mgmtPresent = true)
    (hb : s.mgmt.busy = true) :
    manage s r = .next { s with mgmt := { s.mgmt with lost := min (s.mgmt.lost + 1) (2 ^ 32 - 1) } } := by
  simp [manage, managePort, hp, hm, hb]

/-- What the head of a record of VERSION 1 says (R387). -/
theorem recHead_fields {op p : Nat} (h1 : 1 ≤ op) (h2 : op ≤ 0x12) (hp : p < 2 ^ 32) :
    headOk (recHead op p) = true ∧ headOp (recHead op p) = op ∧ headTarget (recHead op p) = p := by
  have e : (recHead op p).toNat = 1 + op * 2 ^ 16 + p * 2 ^ 32 := by
    simp only [recHead, word, packN, BitVec.toNat_ofNat]
    omega
  have hop : headOp (recHead op p) = op := by simp only [headOp, fieldW, bitsN, e]; omega
  refine ⟨?_, hop, ?_⟩
  · simp only [headOk, hop, fieldW, bitsN, e, Bool.and_eq_true, decide_eq_true_eq, beq_iff_eq]
    omega
  · simp only [headTarget, fieldW, bitsN, e]; omega

/-- A record of VERSION 1 of a command: the command, for its TARGET (R387). -/
theorem manageHead_rec {op p : Nat} (h1 : 1 ≤ op) (h2 : op ≤ 0x12) (hp : p < 2 ^ 32) (s : State)
    (f : Nat → Host.Outcome State Fault Refusal) : manageHead op (recHead op p) s f = f p := by
  obtain ⟨a, b, c⟩ := recHead_fields h1 h2 hp
  simp [manageHead, a, b, c]

/-- A VERSION or an OP that R387 does not have is refused with CAUSE 1. -/
theorem manageHead_bad {head : BitVec 64} (h : headOk head = false) (op : Nat) (s : State) (f : Nat → Host.Outcome State Fault Refusal) :
    manageHead op head s f = manage s (.error 1) := by
  simp [manageHead, h]

end Sys2Proof.Machine
end

