-- ==== Sys2Proof/Laws/PerInstr.lean ====
section
/-!
SUPPORT. What holds of every instruction as syntax, one lemma for each: its word, where it has one, is a number of 32 bits (R78).
-/
namespace Sys2Proof.Laws.EncodesLayout

/-- The word of an instruction is a number below 2^32. -/
def Statement (i : Instr) : Prop := ∀ n, encodeNat i = some n → n < 2 ^ 32

/-- A layout whose fields are at most c is at most the layout of c. -/
theorem layWord_le : ∀ (f : List (Nat × Nat)) (c : List Nat) (x y : Nat), x ≤ y → c.length = f.length →
    (∀ p ∈ f.zip c, p.1.1 ≤ p.2) → layWord x f ≤ layWord y (c.zip (f.map Prod.snd))
  | [], [], x, y, h, _, _ => by simpa [layWord] using h
  | a :: f, b :: c, x, y, h, hl, hp => by
    have h1 : a.1 ≤ b := hp (a, b) (by simp)
    have := layWord_le f c (x + a.1 * 2 ^ a.2) (y + b * 2 ^ a.2) (Nat.add_le_add h (Nat.mul_le_mul_right _ h1))
      (by simpa using hl) (fun p hm => hp p (by simp [hm]))
    simpa [layWord] using this

/-- As it serves below: fields within their caps, and the layout of the caps within 32 bits. -/
theorem bounded {i : Instr} {x : Nat} {f : List (Nat × Nat)} (c q : List Nat) (he : encodeNat i = some (layWord x f))
    (hl : c.length = f.length) (hq : f.map Prod.snd = q) (hp : ∀ p ∈ f.zip c, p.1.1 ≤ p.2) (hc : layWord x (c.zip q) < 2 ^ 32) : Statement i := by
  intro n h
  rw [he] at h
  exact Option.some.inj h ▸ Nat.lt_of_le_of_lt (layWord_le f c x x (Nat.le_refl x) hl hp) (hq ▸ hc)

theorem last : ∀ p ∈ ([] : List ((Nat × Nat) × Nat)), p.1.1 ≤ p.2 := fun _ h => nomatch h

theorem more {x : (Nat × Nat) × Nat} {l : List ((Nat × Nat) × Nat)} (h : x.1.1 ≤ x.2) (r : ∀ p ∈ l, p.1.1 ≤ p.2) :
    ∀ p ∈ x :: l, p.1.1 ≤ p.2 := List.forall_mem_cons.2 ⟨h, r⟩

theorem le_bv {n : Nat} (b : BitVec n) : b.toNat ≤ 2 ^ n - 1 := Nat.le_sub_one_of_lt b.isLt

theorem add (d : BitVec 5) (a : BitVec 5) (b : BitVec 5) : Statement (.add d a b) := bounded [31, 31, 31] [7, 12, 17] rfl rfl rfl
  (more (le_bv _) (more (le_bv _) (more (le_bv _) last))) (by decide)
theorem sub (d : BitVec 5) (a : BitVec 5) (b : BitVec 5) : Statement (.sub d a b) := bounded [31, 31, 31] [7, 12, 17] rfl rfl rfl
  (more (le_bv _) (more (le_bv _) (more (le_bv _) last))) (by decide)
theorem and (d : BitVec 5) (a : BitVec 5) (b : BitVec 5) : Statement (.and d a b) := bounded [31, 31, 31] [7, 12, 17] rfl rfl rfl
  (more (le_bv _) (more (le_bv _) (more (le_bv _) last))) (by decide)
theorem or (d : BitVec 5) (a : BitVec 5) (b : BitVec 5) : Statement (.or d a b) := bounded [31, 31, 31] [7, 12, 17] rfl rfl rfl
  (more (le_bv _) (more (le_bv _) (more (le_bv _) last))) (by decide)
theorem xor (d : BitVec 5) (a : BitVec 5) (b : BitVec 5) : Statement (.xor d a b) := bounded [31, 31, 31] [7, 12, 17] rfl rfl rfl
  (more (le_bv _) (more (le_bv _) (more (le_bv _) last))) (by decide)
theorem sll (d : BitVec 5) (a : BitVec 5) (b : BitVec 5) : Statement (.sll d a b) := bounded [31, 31, 31] [7, 12, 17] rfl rfl rfl
  (more (le_bv _) (more (le_bv _) (more (le_bv _) last))) (by decide)
theorem srl (d : BitVec 5) (a : BitVec 5) (b : BitVec 5) : Statement (.srl d a b) := bounded [31, 31, 31] [7, 12, 17] rfl rfl rfl
  (more (le_bv _) (more (le_bv _) (more (le_bv _) last))) (by decide)
theorem sra (d : BitVec 5) (a : BitVec 5) (b : BitVec 5) : Statement (.sra d a b) := bounded [31, 31, 31] [7, 12, 17] rfl rfl rfl
  (more (le_bv _) (more (le_bv _) (more (le_bv _) last))) (by decide)
theorem slt (d : BitVec 5) (a : BitVec 5) (b : BitVec 5) : Statement (.slt d a b) := bounded [31, 31, 31] [7, 12, 17] rfl rfl rfl
  (more (le_bv _) (more (le_bv _) (more (le_bv _) last))) (by decide)
theorem sltn (d : BitVec 5) (a : BitVec 5) (b : BitVec 5) : Statement (.sltn d a b) := bounded [31, 31, 31] [7, 12, 17] rfl rfl rfl
  (more (le_bv _) (more (le_bv _) (more (le_bv _) last))) (by decide)
theorem min (d : BitVec 5) (a : BitVec 5) (b : BitVec 5) : Statement (.min d a b) := bounded [31, 31, 31] [7, 12, 17] rfl rfl rfl
  (more (le_bv _) (more (le_bv _) (more (le_bv _) last))) (by decide)
theorem max (d : BitVec 5) (a : BitVec 5) (b : BitVec 5) : Statement (.max d a b) := bounded [31, 31, 31] [7, 12, 17] rfl rfl rfl
  (more (le_bv _) (more (le_bv _) (more (le_bv _) last))) (by decide)
theorem minn (d : BitVec 5) (a : BitVec 5) (b : BitVec 5) : Statement (.minn d a b) := bounded [31, 31, 31] [7, 12, 17] rfl rfl rfl
  (more (le_bv _) (more (le_bv _) (more (le_bv _) last))) (by decide)
theorem maxn (d : BitVec 5) (a : BitVec 5) (b : BitVec 5) : Statement (.maxn d a b) := bounded [31, 31, 31] [7, 12, 17] rfl rfl rfl
  (more (le_bv _) (more (le_bv _) (more (le_bv _) last))) (by decide)
theorem sel (d : BitVec 5) (a : BitVec 5) (b : BitVec 5) : Statement (.sel d a b) := bounded [31, 31, 31] [7, 12, 17] rfl rfl rfl
  (more (le_bv _) (more (le_bv _) (more (le_bv _) last))) (by decide)
theorem mul (d : BitVec 5) (a : BitVec 5) (b : BitVec 5) : Statement (.mul d a b) := bounded [31, 31, 31] [7, 12, 17] rfl rfl rfl
  (more (le_bv _) (more (le_bv _) (more (le_bv _) last))) (by decide)
theorem mulh (d : BitVec 5) (a : BitVec 5) (b : BitVec 5) : Statement (.mulh d a b) := bounded [31, 31, 31] [7, 12, 17] rfl rfl rfl
  (more (le_bv _) (more (le_bv _) (more (le_bv _) last))) (by decide)
theorem mulhn (d : BitVec 5) (a : BitVec 5) (b : BitVec 5) : Statement (.mulhn d a b) := bounded [31, 31, 31] [7, 12, 17] rfl rfl rfl
  (more (le_bv _) (more (le_bv _) (more (le_bv _) last))) (by decide)
theorem div (d : BitVec 5) (a : BitVec 5) (b : BitVec 5) : Statement (.div d a b) := bounded [31, 31, 31] [7, 12, 17] rfl rfl rfl
  (more (le_bv _) (more (le_bv _) (more (le_bv _) last))) (by decide)
theorem divn (d : BitVec 5) (a : BitVec 5) (b : BitVec 5) : Statement (.divn d a b) := bounded [31, 31, 31] [7, 12, 17] rfl rfl rfl
  (more (le_bv _) (more (le_bv _) (more (le_bv _) last))) (by decide)
theorem rem (d : BitVec 5) (a : BitVec 5) (b : BitVec 5) : Statement (.rem d a b) := bounded [31, 31, 31] [7, 12, 17] rfl rfl rfl
  (more (le_bv _) (more (le_bv _) (more (le_bv _) last))) (by decide)
theorem remn (d : BitVec 5) (a : BitVec 5) (b : BitVec 5) : Statement (.remn d a b) := bounded [31, 31, 31] [7, 12, 17] rfl rfl rfl
  (more (le_bv _) (more (le_bv _) (more (le_bv _) last))) (by decide)
theorem clz (d : BitVec 5) (a : BitVec 5) : Statement (.clz d a) := bounded [31, 31] [7, 12] rfl rfl rfl
  (more (le_bv _) (more (le_bv _) last)) (by decide)
theorem ctz (d : BitVec 5) (a : BitVec 5) : Statement (.ctz d a) := bounded [31, 31] [7, 12] rfl rfl rfl
  (more (le_bv _) (more (le_bv _) last)) (by decide)
theorem popc (d : BitVec 5) (a : BitVec 5) : Statement (.popc d a) := bounded [31, 31] [7, 12] rfl rfl rfl
  (more (le_bv _) (more (le_bv _) last)) (by decide)
theorem addi (d : BitVec 5) (a : BitVec 5) (i : BitVec 15) : Statement (.addi d a i) := bounded [31, 31, 32767] [7, 12, 17] rfl rfl rfl
  (more (le_bv _) (more (le_bv _) (more (le_bv _) last))) (by decide)
theorem andi (d : BitVec 5) (a : BitVec 5) (i : BitVec 15) : Statement (.andi d a i) := bounded [31, 31, 32767] [7, 12, 17] rfl rfl rfl
  (more (le_bv _) (more (le_bv _) (more (le_bv _) last))) (by decide)
theorem ori (d : BitVec 5) (a : BitVec 5) (i : BitVec 15) : Statement (.ori d a i) := bounded [31, 31, 32767] [7, 12, 17] rfl rfl rfl
  (more (le_bv _) (more (le_bv _) (more (le_bv _) last))) (by decide)
theorem xori (d : BitVec 5) (a : BitVec 5) (i : BitVec 15) : Statement (.xori d a i) := bounded [31, 31, 32767] [7, 12, 17] rfl rfl rfl
  (more (le_bv _) (more (le_bv _) (more (le_bv _) last))) (by decide)
theorem slti (d : BitVec 5) (a : BitVec 5) (i : BitVec 15) : Statement (.slti d a i) := bounded [31, 31, 32767] [7, 12, 17] rfl rfl rfl
  (more (le_bv _) (more (le_bv _) (more (le_bv _) last))) (by decide)
theorem slli (d : BitVec 5) (a : BitVec 5) (n : BitVec 6) : Statement (.slli d a n) := bounded [31, 31, 63] [7, 12, 17] rfl rfl rfl
  (more (le_bv _) (more (le_bv _) (more (le_bv _) last))) (by decide)
theorem srli (d : BitVec 5) (a : BitVec 5) (n : BitVec 6) : Statement (.srli d a n) := bounded [31, 31, 63] [7, 12, 17] rfl rfl rfl
  (more (le_bv _) (more (le_bv _) (more (le_bv _) last))) (by decide)
theorem srai (d : BitVec 5) (a : BitVec 5) (n : BitVec 6) : Statement (.srai d a n) := bounded [31, 31, 63] [7, 12, 17] rfl rfl rfl
  (more (le_bv _) (more (le_bv _) (more (le_bv _) last))) (by decide)
theorem bfx (d : BitVec 5) (a : BitVec 5) (p : BitVec 6) (l : BitVec 6) : Statement (.bfx d a p l) := bounded [31, 31, 63, 63] [7, 12, 17, 23] rfl rfl rfl
  (more (le_bv _) (more (le_bv _) (more (le_bv _) (more (le_bv _) last)))) (by decide)
theorem bfi (d : BitVec 5) (a : BitVec 5) (p : BitVec 6) (l : BitVec 6) : Statement (.bfi d a p l) := bounded [31, 31, 63, 63] [7, 12, 17, 23] rfl rfl rfl
  (more (le_bv _) (more (le_bv _) (more (le_bv _) (more (le_bv _) last)))) (by decide)
theorem lui (d : BitVec 5) (i : BitVec 20) : Statement (.lui d i) := bounded [31, 1048575] [7, 12] rfl rfl rfl
  (more (le_bv _) (more (le_bv _) last)) (by decide)
theorem addpc (d : BitVec 5) (i : BitVec 20) : Statement (.addpc d i) := bounded [31, 1048575] [7, 12] rfl rfl rfl
  (more (le_bv _) (more (le_bv _) last)) (by decide)
theorem ldb (d : BitVec 5) (a : BitVec 5) (o : BitVec 12) : Statement (.ldb d a o) := bounded [31, 31, 4095] [7, 12, 17] rfl rfl rfl
  (more (le_bv _) (more (le_bv _) (more (le_bv _) last))) (by decide)
theorem ldh (d : BitVec 5) (a : BitVec 5) (o : BitVec 12) : Statement (.ldh d a o) := bounded [31, 31, 4095] [7, 12, 17] rfl rfl rfl
  (more (le_bv _) (more (le_bv _) (more (le_bv _) last))) (by decide)
theorem ldw (d : BitVec 5) (a : BitVec 5) (o : BitVec 12) : Statement (.ldw d a o) := bounded [31, 31, 4095] [7, 12, 17] rfl rfl rfl
  (more (le_bv _) (more (le_bv _) (more (le_bv _) last))) (by decide)
theorem ldd (d : BitVec 5) (a : BitVec 5) (o : BitVec 12) : Statement (.ldd d a o) := bounded [31, 31, 4095] [7, 12, 17] rfl rfl rfl
  (more (le_bv _) (more (le_bv _) (more (le_bv _) last))) (by decide)
theorem ldbz (d : BitVec 5) (a : BitVec 5) (o : BitVec 12) : Statement (.ldbz d a o) := bounded [31, 31, 4095] [7, 12, 17] rfl rfl rfl
  (more (le_bv _) (more (le_bv _) (more (le_bv _) last))) (by decide)
theorem ldhz (d : BitVec 5) (a : BitVec 5) (o : BitVec 12) : Statement (.ldhz d a o) := bounded [31, 31, 4095] [7, 12, 17] rfl rfl rfl
  (more (le_bv _) (more (le_bv _) (more (le_bv _) last))) (by decide)
theorem ldwz (d : BitVec 5) (a : BitVec 5) (o : BitVec 12) : Statement (.ldwz d a o) := bounded [31, 31, 4095] [7, 12, 17] rfl rfl rfl
  (more (le_bv _) (more (le_bv _) (more (le_bv _) last))) (by decide)
theorem stb (a : BitVec 5) (b : BitVec 5) (o : BitVec 12) : Statement (.stb a b o) := bounded [31, 31, 4095] [7, 12, 17] rfl rfl rfl
  (more (le_bv _) (more (le_bv _) (more (le_bv _) last))) (by decide)
theorem sth (a : BitVec 5) (b : BitVec 5) (o : BitVec 12) : Statement (.sth a b o) := bounded [31, 31, 4095] [7, 12, 17] rfl rfl rfl
  (more (le_bv _) (more (le_bv _) (more (le_bv _) last))) (by decide)
theorem stw (a : BitVec 5) (b : BitVec 5) (o : BitVec 12) : Statement (.stw a b o) := bounded [31, 31, 4095] [7, 12, 17] rfl rfl rfl
  (more (le_bv _) (more (le_bv _) (more (le_bv _) last))) (by decide)
theorem std (a : BitVec 5) (b : BitVec 5) (o : BitVec 12) : Statement (.std a b o) := bounded [31, 31, 4095] [7, 12, 17] rfl rfl rfl
  (more (le_bv _) (more (le_bv _) (more (le_bv _) last))) (by decide)
theorem amoadd (d : BitVec 5) (a : BitVec 5) (b : BitVec 5) (w : Bool) (c : BitVec 3) (r : Bool) : Statement (.amoadd d a b w c r) := bounded [31, 31, 31, 1, 7, 1] [7, 12, 17, 26, 28, 31] rfl rfl rfl
  (more (le_bv _) (more (le_bv _) (more (le_bv _) (more (Bool.toNat_le _) (more (le_bv _) (more (Bool.toNat_le _) last)))))) (by decide)
theorem amoand (d : BitVec 5) (a : BitVec 5) (b : BitVec 5) (w : Bool) (c : BitVec 3) (r : Bool) : Statement (.amoand d a b w c r) := bounded [31, 31, 31, 1, 7, 1] [7, 12, 17, 26, 28, 31] rfl rfl rfl
  (more (le_bv _) (more (le_bv _) (more (le_bv _) (more (Bool.toNat_le _) (more (le_bv _) (more (Bool.toNat_le _) last)))))) (by decide)
theorem amoor (d : BitVec 5) (a : BitVec 5) (b : BitVec 5) (w : Bool) (c : BitVec 3) (r : Bool) : Statement (.amoor d a b w c r) := bounded [31, 31, 31, 1, 7, 1] [7, 12, 17, 26, 28, 31] rfl rfl rfl
  (more (le_bv _) (more (le_bv _) (more (le_bv _) (more (Bool.toNat_le _) (more (le_bv _) (more (Bool.toNat_le _) last)))))) (by decide)
theorem amoxor (d : BitVec 5) (a : BitVec 5) (b : BitVec 5) (w : Bool) (c : BitVec 3) (r : Bool) : Statement (.amoxor d a b w c r) := bounded [31, 31, 31, 1, 7, 1] [7, 12, 17, 26, 28, 31] rfl rfl rfl
  (more (le_bv _) (more (le_bv _) (more (le_bv _) (more (Bool.toNat_le _) (more (le_bv _) (more (Bool.toNat_le _) last)))))) (by decide)
theorem amomin (d : BitVec 5) (a : BitVec 5) (b : BitVec 5) (w : Bool) (c : BitVec 3) (r : Bool) : Statement (.amomin d a b w c r) := bounded [31, 31, 31, 1, 7, 1] [7, 12, 17, 26, 28, 31] rfl rfl rfl
  (more (le_bv _) (more (le_bv _) (more (le_bv _) (more (Bool.toNat_le _) (more (le_bv _) (more (Bool.toNat_le _) last)))))) (by decide)
theorem amomax (d : BitVec 5) (a : BitVec 5) (b : BitVec 5) (w : Bool) (c : BitVec 3) (r : Bool) : Statement (.amomax d a b w c r) := bounded [31, 31, 31, 1, 7, 1] [7, 12, 17, 26, 28, 31] rfl rfl rfl
  (more (le_bv _) (more (le_bv _) (more (le_bv _) (more (Bool.toNat_le _) (more (le_bv _) (more (Bool.toNat_le _) last)))))) (by decide)
theorem amominn (d : BitVec 5) (a : BitVec 5) (b : BitVec 5) (w : Bool) (c : BitVec 3) (r : Bool) : Statement (.amominn d a b w c r) := bounded [31, 31, 31, 1, 7, 1] [7, 12, 17, 26, 28, 31] rfl rfl rfl
  (more (le_bv _) (more (le_bv _) (more (le_bv _) (more (Bool.toNat_le _) (more (le_bv _) (more (Bool.toNat_le _) last)))))) (by decide)
theorem amomaxn (d : BitVec 5) (a : BitVec 5) (b : BitVec 5) (w : Bool) (c : BitVec 3) (r : Bool) : Statement (.amomaxn d a b w c r) := bounded [31, 31, 31, 1, 7, 1] [7, 12, 17, 26, 28, 31] rfl rfl rfl
  (more (le_bv _) (more (le_bv _) (more (le_bv _) (more (Bool.toNat_le _) (more (le_bv _) (more (Bool.toNat_le _) last)))))) (by decide)
theorem amoswp (d : BitVec 5) (a : BitVec 5) (b : BitVec 5) (w : Bool) (c : BitVec 3) (r : Bool) : Statement (.amoswp d a b w c r) := bounded [31, 31, 31, 1, 7, 1] [7, 12, 17, 26, 28, 31] rfl rfl rfl
  (more (le_bv _) (more (le_bv _) (more (le_bv _) (more (Bool.toNat_le _) (more (le_bv _) (more (Bool.toNat_le _) last)))))) (by decide)
theorem amocas (d : BitVec 5) (a : BitVec 5) (b : BitVec 5) (w : Bool) (c : BitVec 3) (r : Bool) : Statement (.amocas d a b w c r) := bounded [31, 31, 31, 1, 7, 1] [7, 12, 17, 26, 28, 31] rfl rfl rfl
  (more (le_bv _) (more (le_bv _) (more (le_bv _) (more (Bool.toNat_le _) (more (le_bv _) (more (Bool.toNat_le _) last)))))) (by decide)
theorem beq (a : BitVec 5) (b : BitVec 5) (o : BitVec 15) : Statement (.beq a b o) := bounded [31, 31, 32767] [7, 12, 17] rfl rfl rfl
  (more (le_bv _) (more (le_bv _) (more (le_bv _) last))) (by decide)
theorem bne (a : BitVec 5) (b : BitVec 5) (o : BitVec 15) : Statement (.bne a b o) := bounded [31, 31, 32767] [7, 12, 17] rfl rfl rfl
  (more (le_bv _) (more (le_bv _) (more (le_bv _) last))) (by decide)
theorem blt (a : BitVec 5) (b : BitVec 5) (o : BitVec 15) : Statement (.blt a b o) := bounded [31, 31, 32767] [7, 12, 17] rfl rfl rfl
  (more (le_bv _) (more (le_bv _) (more (le_bv _) last))) (by decide)
theorem bge (a : BitVec 5) (b : BitVec 5) (o : BitVec 15) : Statement (.bge a b o) := bounded [31, 31, 32767] [7, 12, 17] rfl rfl rfl
  (more (le_bv _) (more (le_bv _) (more (le_bv _) last))) (by decide)
theorem bltn (a : BitVec 5) (b : BitVec 5) (o : BitVec 15) : Statement (.bltn a b o) := bounded [31, 31, 32767] [7, 12, 17] rfl rfl rfl
  (more (le_bv _) (more (le_bv _) (more (le_bv _) last))) (by decide)
theorem bgen (a : BitVec 5) (b : BitVec 5) (o : BitVec 15) : Statement (.bgen a b o) := bounded [31, 31, 32767] [7, 12, 17] rfl rfl rfl
  (more (le_bv _) (more (le_bv _) (more (le_bv _) last))) (by decide)
theorem jal (d : BitVec 5) (o : BitVec 20) : Statement (.jal d o) := bounded [31, 1048575] [7, 12] rfl rfl rfl
  (more (le_bv _) (more (le_bv _) last)) (by decide)
theorem jalr (d : BitVec 5) (a : BitVec 5) (i : BitVec 15) : Statement (.jalr d a i) := bounded [31, 31, 32767] [7, 12, 17] rfl rfl rfl
  (more (le_bv _) (more (le_bv _) (more (le_bv _) last))) (by decide)
theorem qpop (d : BitVec 5) (q : BitVec 3) : Statement (.qpop d q) := bounded [31, 7] [7, 12] rfl rfl rfl
  (more (le_bv _) (more (le_bv _) last)) (by decide)
theorem qcnt (d : BitVec 5) (q : BitVec 3) : Statement (.qcnt d q) := bounded [31, 7] [7, 12] rfl rfl rfl
  (more (le_bv _) (more (le_bv _) last)) (by decide)
theorem fenceAcq (s : BitVec 3) : Statement (.fenceAcq s) := bounded [7] [25] rfl rfl rfl
  (more (le_bv _) last) (by decide)
theorem fenceRel (s : BitVec 3) : Statement (.fenceRel s) := bounded [7] [25] rfl rfl rfl
  (more (le_bv _) last) (by decide)
theorem fenceFull (s : BitVec 3) : Statement (.fenceFull s) := bounded [7] [25] rfl rfl rfl
  (more (le_bv _) last) (by decide)
theorem fenceSv : Statement (.fenceSv) := bounded [] [] rfl rfl rfl last (by decide)
theorem fenceAlias (s : BitVec 3) : Statement (.fenceAlias s) := bounded [7] [25] rfl rfl rfl
  (more (le_bv _) last) (by decide)
theorem bar (a : BitVec 5) (s : BitVec 3) : Statement (.bar a s) := bounded [31, 7] [12, 17] rfl rfl rfl
  (more (le_bv _) (more (le_bv _) last)) (by decide)
theorem exit : Statement (.exit) := bounded [] [] rfl rfl rfl last (by decide)
theorem syscall (c : BitVec 20) : Statement (.syscall c) := bounded [1048575] [12] rfl rfl rfl
  (more (le_bv _) last) (by decide)
theorem sret : Statement (.sret) := bounded [] [] rfl rfl rfl last (by decide)
theorem brk (c : BitVec 20) : Statement (.brk c) := bounded [1048575] [12] rfl rfl rfl
  (more (le_bv _) last) (by decide)
theorem launch (q : BitVec 2) (a : BitVec 5) : Statement (.launch q a) := bounded [3, 31] [7, 12] rfl rfl rfl
  (more (le_bv _) (more (le_bv _) last)) (by decide)
theorem sysrd (d : BitVec 5) (n : BitVec 12) : Statement (.sysrd d n) := bounded [31, 4095] [7, 17] rfl rfl rfl
  (more (le_bv _) (more (le_bv _) last)) (by decide)
theorem syswr (a : BitVec 5) (n : BitVec 12) : Statement (.syswr a n) := bounded [31, 4095] [12, 17] rfl rfl rfl
  (more (le_bv _) (more (le_bv _) last)) (by decide)
theorem pfh (h : BitVec 3) (a : BitVec 5) (o : BitVec 12) : Statement (.pfh h a o) := bounded [7, 31, 4095] [7, 12, 17] rfl rfl rfl
  (more (le_bv _) (more (le_bv _) (more (le_bv _) last))) (by decide)
theorem setvl (d : BitVec 5) (a : BitVec 5) : Statement (.setvl d a) := bounded [31, 31] [7, 12] rfl rfl rfl
  (more (le_bv _) (more (le_bv _) last)) (by decide)
theorem setcfg (d : BitVec 5) (a : BitVec 5) : Statement (.setcfg d a) := bounded [31, 31] [7, 12] rfl rfl rfl
  (more (le_bv _) (more (le_bv _) last)) (by decide)
theorem setvli (d : BitVec 5) (l : BitVec 15) : Statement (.setvli d l) := bounded [31, 32767] [7, 17] rfl rfl rfl
  (more (le_bv _) (more (le_bv _) last)) (by decide)
theorem vld (d : BitVec 6) (a : BitVec 5) (k : BitVec 3) : Statement (.vld d a k) := bounded [63, 31, 7] [7, 13, 24] rfl rfl rfl
  (more (le_bv _) (more (le_bv _) (more (le_bv _) last))) (by decide)
theorem vlds (d : BitVec 6) (a : BitVec 5) (b : BitVec 5) (k : BitVec 3) : Statement (.vlds d a b k) := bounded [63, 31, 31, 7] [7, 13, 18, 24] rfl rfl rfl
  (more (le_bv _) (more (le_bv _) (more (le_bv _) (more (le_bv _) last)))) (by decide)
theorem vldx (d : BitVec 6) (a : BitVec 5) (b : BitVec 6) (k : BitVec 3) : Statement (.vldx d a b k) := bounded [63, 31, 63, 7] [7, 13, 18, 24] rfl rfl rfl
  (more (le_bv _) (more (le_bv _) (more (le_bv _) (more (le_bv _) last)))) (by decide)
theorem vldxo (d : BitVec 6) (a : BitVec 5) (b : BitVec 6) (k : BitVec 3) : Statement (.vldxo d a b k) := bounded [63, 31, 63, 7] [7, 13, 18, 24] rfl rfl rfl
  (more (le_bv _) (more (le_bv _) (more (le_bv _) (more (le_bv _) last)))) (by decide)
theorem vldff (d : BitVec 6) (a : BitVec 5) (f : BitVec 3) (k : BitVec 3) : Statement (.vldff d a f k) := bounded [63, 31, 7, 7] [7, 13, 18, 24] rfl rfl rfl
  (more (le_bv _) (more (le_bv _) (more (le_bv _) (more (le_bv _) last)))) (by decide)
theorem vldw (d : BitVec 6) (a : BitVec 5) : Statement (.vldw d a) := bounded [63, 31] [7, 13] rfl rfl rfl
  (more (le_bv _) (more (le_bv _) last)) (by decide)
theorem vst (d : BitVec 6) (a : BitVec 5) (k : BitVec 3) : Statement (.vst d a k) := bounded [63, 31, 7] [7, 13, 24] rfl rfl rfl
  (more (le_bv _) (more (le_bv _) (more (le_bv _) last))) (by decide)
theorem vsts (d : BitVec 6) (a : BitVec 5) (b : BitVec 5) (k : BitVec 3) : Statement (.vsts d a b k) := bounded [63, 31, 31, 7] [7, 13, 18, 24] rfl rfl rfl
  (more (le_bv _) (more (le_bv _) (more (le_bv _) (more (le_bv _) last)))) (by decide)
theorem vstx (d : BitVec 6) (a : BitVec 5) (b : BitVec 6) (k : BitVec 3) : Statement (.vstx d a b k) := bounded [63, 31, 63, 7] [7, 13, 18, 24] rfl rfl rfl
  (more (le_bv _) (more (le_bv _) (more (le_bv _) (more (le_bv _) last)))) (by decide)
theorem vstxo (d : BitVec 6) (a : BitVec 5) (b : BitVec 6) (k : BitVec 3) : Statement (.vstxo d a b k) := bounded [63, 31, 63, 7] [7, 13, 18, 24] rfl rfl rfl
  (more (le_bv _) (more (le_bv _) (more (le_bv _) (more (le_bv _) last)))) (by decide)
theorem vstw (d : BitVec 6) (a : BitVec 5) : Statement (.vstw d a) := bounded [63, 31] [7, 13] rfl rfl rfl
  (more (le_bv _) (more (le_bv _) last)) (by decide)
theorem vamoAdd (d : BitVec 6) (a : BitVec 5) (b : BitVec 6) (k : BitVec 3) : Statement (.vamoAdd d a b k) := bounded [63, 31, 63, 7] [7, 13, 18, 24] rfl rfl rfl
  (more (le_bv _) (more (le_bv _) (more (le_bv _) (more (le_bv _) last)))) (by decide)
theorem vamoAnd (d : BitVec 6) (a : BitVec 5) (b : BitVec 6) (k : BitVec 3) : Statement (.vamoAnd d a b k) := bounded [63, 31, 63, 7] [7, 13, 18, 24] rfl rfl rfl
  (more (le_bv _) (more (le_bv _) (more (le_bv _) (more (le_bv _) last)))) (by decide)
theorem vamoOr (d : BitVec 6) (a : BitVec 5) (b : BitVec 6) (k : BitVec 3) : Statement (.vamoOr d a b k) := bounded [63, 31, 63, 7] [7, 13, 18, 24] rfl rfl rfl
  (more (le_bv _) (more (le_bv _) (more (le_bv _) (more (le_bv _) last)))) (by decide)
theorem vamoXor (d : BitVec 6) (a : BitVec 5) (b : BitVec 6) (k : BitVec 3) : Statement (.vamoXor d a b k) := bounded [63, 31, 63, 7] [7, 13, 18, 24] rfl rfl rfl
  (more (le_bv _) (more (le_bv _) (more (le_bv _) (more (le_bv _) last)))) (by decide)
theorem vamoMin (d : BitVec 6) (a : BitVec 5) (b : BitVec 6) (k : BitVec 3) : Statement (.vamoMin d a b k) := bounded [63, 31, 63, 7] [7, 13, 18, 24] rfl rfl rfl
  (more (le_bv _) (more (le_bv _) (more (le_bv _) (more (le_bv _) last)))) (by decide)
theorem vamoMax (d : BitVec 6) (a : BitVec 5) (b : BitVec 6) (k : BitVec 3) : Statement (.vamoMax d a b k) := bounded [63, 31, 63, 7] [7, 13, 18, 24] rfl rfl rfl
  (more (le_bv _) (more (le_bv _) (more (le_bv _) (more (le_bv _) last)))) (by decide)
theorem vamoMinn (d : BitVec 6) (a : BitVec 5) (b : BitVec 6) (k : BitVec 3) : Statement (.vamoMinn d a b k) := bounded [63, 31, 63, 7] [7, 13, 18, 24] rfl rfl rfl
  (more (le_bv _) (more (le_bv _) (more (le_bv _) (more (le_bv _) last)))) (by decide)
theorem vamoMaxn (d : BitVec 6) (a : BitVec 5) (b : BitVec 6) (k : BitVec 3) : Statement (.vamoMaxn d a b k) := bounded [63, 31, 63, 7] [7, 13, 18, 24] rfl rfl rfl
  (more (le_bv _) (more (le_bv _) (more (le_bv _) (more (le_bv _) last)))) (by decide)
theorem vamoSwp (d : BitVec 6) (a : BitVec 5) (b : BitVec 6) (k : BitVec 3) : Statement (.vamoSwp d a b k) := bounded [63, 31, 63, 7] [7, 13, 18, 24] rfl rfl rfl
  (more (le_bv _) (more (le_bv _) (more (le_bv _) (more (le_bv _) last)))) (by decide)
theorem kand (d : BitVec 3) (a : BitVec 3) (b : BitVec 3) : Statement (.kand d a b) := bounded [7, 7, 7] [7, 13, 19] rfl rfl rfl
  (more (le_bv _) (more (le_bv _) (more (le_bv _) last))) (by decide)
theorem kor (d : BitVec 3) (a : BitVec 3) (b : BitVec 3) : Statement (.kor d a b) := bounded [7, 7, 7] [7, 13, 19] rfl rfl rfl
  (more (le_bv _) (more (le_bv _) (more (le_bv _) last))) (by decide)
theorem kxor (d : BitVec 3) (a : BitVec 3) (b : BitVec 3) : Statement (.kxor d a b) := bounded [7, 7, 7] [7, 13, 19] rfl rfl rfl
  (more (le_bv _) (more (le_bv _) (more (le_bv _) last))) (by decide)
theorem kandn (d : BitVec 3) (a : BitVec 3) (b : BitVec 3) : Statement (.kandn d a b) := bounded [7, 7, 7] [7, 13, 19] rfl rfl rfl
  (more (le_bv _) (more (le_bv _) (more (le_bv _) last))) (by decide)
theorem knot (d : BitVec 3) (a : BitVec 3) : Statement (.knot d a) := bounded [7, 7] [7, 13] rfl rfl rfl
  (more (le_bv _) (more (le_bv _) last)) (by decide)
theorem kmv (d : BitVec 3) (a : BitVec 3) : Statement (.kmv d a) := bounded [7, 7] [7, 13] rfl rfl rfl
  (more (le_bv _) (more (le_bv _) last)) (by decide)
theorem ksbf (d : BitVec 3) (a : BitVec 3) (k : BitVec 3) : Statement (.ksbf d a k) := bounded [7, 7, 7] [7, 13, 25] rfl rfl rfl
  (more (le_bv _) (more (le_bv _) (more (le_bv _) last))) (by decide)
theorem ksif (d : BitVec 3) (a : BitVec 3) (k : BitVec 3) : Statement (.ksif d a k) := bounded [7, 7, 7] [7, 13, 25] rfl rfl rfl
  (more (le_bv _) (more (le_bv _) (more (le_bv _) last))) (by decide)
theorem ksof (d : BitVec 3) (a : BitVec 3) (k : BitVec 3) : Statement (.ksof d a k) := bounded [7, 7, 7] [7, 13, 25] rfl rfl rfl
  (more (le_bv _) (more (le_bv _) (more (le_bv _) last))) (by decide)
theorem kpop (q : BitVec 2) (a : BitVec 3) (k : BitVec 3) : Statement (.kpop q a k) := bounded [3, 7, 7] [7, 13, 25] rfl rfl rfl
  (more (le_bv _) (more (le_bv _) (more (le_bv _) last))) (by decide)
theorem kfirst (q : BitVec 2) (a : BitVec 3) (k : BitVec 3) : Statement (.kfirst q a k) := bounded [3, 7, 7] [7, 13, 25] rfl rfl rfl
  (more (le_bv _) (more (le_bv _) (more (le_bv _) last))) (by decide)
theorem kld (d : BitVec 3) (a : BitVec 5) : Statement (.kld d a) := bounded [7, 31] [7, 13] rfl rfl rfl
  (more (le_bv _) (more (le_bv _) last)) (by decide)
theorem kst (d : BitVec 3) (a : BitVec 5) : Statement (.kst d a) := bounded [7, 31] [7, 13] rfl rfl rfl
  (more (le_bv _) (more (le_bv _) last)) (by decide)
theorem vredsum (d : BitVec 6) (f : BitVec 3) (i : Bool) (b : BitVec 6) (k : BitVec 3) : Statement (.vredsum d f i b k) := bounded [63, 7, 1, 63, 7] [7, 13, 16, 18, 24] rfl rfl rfl
  (more (le_bv _) (more (le_bv _) (more (Bool.toNat_le _) (more (le_bv _) (more (le_bv _) last))))) (by decide)
theorem vfredsum (d : BitVec 6) (f : BitVec 3) (i : Bool) (b : BitVec 6) (k : BitVec 3) : Statement (.vfredsum d f i b k) := bounded [63, 7, 1, 63, 7] [7, 13, 16, 18, 24] rfl rfl rfl
  (more (le_bv _) (more (le_bv _) (more (Bool.toNat_le _) (more (le_bv _) (more (le_bv _) last))))) (by decide)
theorem vredmin (d : BitVec 6) (f : BitVec 3) (i : Bool) (b : BitVec 6) (k : BitVec 3) : Statement (.vredmin d f i b k) := bounded [63, 7, 1, 63, 7] [7, 13, 16, 18, 24] rfl rfl rfl
  (more (le_bv _) (more (le_bv _) (more (Bool.toNat_le _) (more (le_bv _) (more (le_bv _) last))))) (by decide)
theorem vredmax (d : BitVec 6) (f : BitVec 3) (i : Bool) (b : BitVec 6) (k : BitVec 3) : Statement (.vredmax d f i b k) := bounded [63, 7, 1, 63, 7] [7, 13, 16, 18, 24] rfl rfl rfl
  (more (le_bv _) (more (le_bv _) (more (Bool.toNat_le _) (more (le_bv _) (more (le_bv _) last))))) (by decide)
theorem vfredmin (d : BitVec 6) (f : BitVec 3) (i : Bool) (b : BitVec 6) (k : BitVec 3) : Statement (.vfredmin d f i b k) := bounded [63, 7, 1, 63, 7] [7, 13, 16, 18, 24] rfl rfl rfl
  (more (le_bv _) (more (le_bv _) (more (Bool.toNat_le _) (more (le_bv _) (more (le_bv _) last))))) (by decide)
theorem vfredmax (d : BitVec 6) (f : BitVec 3) (i : Bool) (b : BitVec 6) (k : BitVec 3) : Statement (.vfredmax d f i b k) := bounded [63, 7, 1, 63, 7] [7, 13, 16, 18, 24] rfl rfl rfl
  (more (le_bv _) (more (le_bv _) (more (Bool.toNat_le _) (more (le_bv _) (more (le_bv _) last))))) (by decide)
theorem vargmax (d : BitVec 6) (f : BitVec 3) (i : Bool) (b : BitVec 6) (k : BitVec 3) : Statement (.vargmax d f i b k) := bounded [63, 7, 1, 63, 7] [7, 13, 16, 18, 24] rfl rfl rfl
  (more (le_bv _) (more (le_bv _) (more (Bool.toNat_le _) (more (le_bv _) (more (le_bv _) last))))) (by decide)
theorem vargmin (d : BitVec 6) (f : BitVec 3) (i : Bool) (b : BitVec 6) (k : BitVec 3) : Statement (.vargmin d f i b k) := bounded [63, 7, 1, 63, 7] [7, 13, 16, 18, 24] rfl rfl rfl
  (more (le_bv _) (more (le_bv _) (more (Bool.toNat_le _) (more (le_bv _) (more (le_bv _) last))))) (by decide)
theorem vgsum (d : BitVec 6) (f : BitVec 3) (b : BitVec 6) (k : BitVec 3) : Statement (.vgsum d f b k) := bounded [63, 7, 63, 7] [7, 13, 18, 24] rfl rfl rfl
  (more (le_bv _) (more (le_bv _) (more (le_bv _) (more (le_bv _) last)))) (by decide)
theorem vfgsum (d : BitVec 6) (f : BitVec 3) (b : BitVec 6) (k : BitVec 3) : Statement (.vfgsum d f b k) := bounded [63, 7, 63, 7] [7, 13, 18, 24] rfl rfl rfl
  (more (le_bv _) (more (le_bv _) (more (le_bv _) (more (le_bv _) last)))) (by decide)
theorem vscan (d : BitVec 6) (f : BitVec 3) (i : Bool) (b : BitVec 6) (k : BitVec 3) : Statement (.vscan d f i b k) := bounded [63, 7, 1, 63, 7] [7, 13, 16, 18, 24] rfl rfl rfl
  (more (le_bv _) (more (le_bv _) (more (Bool.toNat_le _) (more (le_bv _) (more (le_bv _) last))))) (by decide)
theorem vfscan (d : BitVec 6) (f : BitVec 3) (i : Bool) (b : BitVec 6) (k : BitVec 3) : Statement (.vfscan d f i b k) := bounded [63, 7, 1, 63, 7] [7, 13, 16, 18, 24] rfl rfl rfl
  (more (le_bv _) (more (le_bv _) (more (Bool.toNat_le _) (more (le_bv _) (more (le_bv _) last))))) (by decide)
theorem vcomp (d : BitVec 6) (b : BitVec 6) (k : BitVec 3) : Statement (.vcomp d b k) := bounded [63, 63, 7] [7, 18, 24] rfl rfl rfl
  (more (le_bv _) (more (le_bv _) (more (le_bv _) last))) (by decide)
theorem vexpand (d : BitVec 6) (b : BitVec 6) (k : BitVec 3) : Statement (.vexpand d b k) := bounded [63, 63, 7] [7, 18, 24] rfl rfl rfl
  (more (le_bv _) (more (le_bv _) (more (le_bv _) last))) (by decide)
theorem vslup (d : BitVec 6) (a : BitVec 5) (b : BitVec 6) (k : BitVec 3) : Statement (.vslup d a b k) := bounded [63, 31, 63, 7] [7, 13, 18, 24] rfl rfl rfl
  (more (le_bv _) (more (le_bv _) (more (le_bv _) (more (le_bv _) last)))) (by decide)
theorem vsldn (d : BitVec 6) (a : BitVec 5) (b : BitVec 6) (k : BitVec 3) : Statement (.vsldn d a b k) := bounded [63, 31, 63, 7] [7, 13, 18, 24] rfl rfl rfl
  (more (le_bv _) (more (le_bv _) (more (le_bv _) (more (le_bv _) last)))) (by decide)
theorem vsl1up (d : BitVec 6) (a : BitVec 5) (b : BitVec 6) (k : BitVec 3) : Statement (.vsl1up d a b k) := bounded [63, 31, 63, 7] [7, 13, 18, 24] rfl rfl rfl
  (more (le_bv _) (more (le_bv _) (more (le_bv _) (more (le_bv _) last)))) (by decide)
theorem vsl1dn (d : BitVec 6) (a : BitVec 5) (b : BitVec 6) (k : BitVec 3) : Statement (.vsl1dn d a b k) := bounded [63, 31, 63, 7] [7, 13, 18, 24] rfl rfl rfl
  (more (le_bv _) (more (le_bv _) (more (le_bv _) (more (le_bv _) last)))) (by decide)
theorem vgath (d : BitVec 6) (a : BitVec 6) (b : BitVec 6) (k : BitVec 3) : Statement (.vgath d a b k) := bounded [63, 63, 63, 7] [7, 13, 19, 25] rfl rfl rfl
  (more (le_bv _) (more (le_bv _) (more (le_bv _) (more (le_bv _) last)))) (by decide)
theorem vbsll (d : BitVec 6) (a : BitVec 5) (b : BitVec 6) : Statement (.vbsll d a b) := bounded [63, 31, 63] [7, 13, 18] rfl rfl rfl
  (more (le_bv _) (more (le_bv _) (more (le_bv _) last))) (by decide)
theorem vbsrl (d : BitVec 6) (a : BitVec 5) (b : BitVec 6) : Statement (.vbsrl d a b) := bounded [63, 31, 63] [7, 13, 18] rfl rfl rfl
  (more (le_bv _) (more (le_bv _) (more (le_bv _) last))) (by decide)
theorem vbfsh (d : BitVec 6) (a : BitVec 5) (b : BitVec 6) : Statement (.vbfsh d a b) := bounded [63, 31, 63] [7, 13, 18] rfl rfl rfl
  (more (le_bv _) (more (le_bv _) (more (le_bv _) last))) (by decide)
theorem vxbeg : Statement (.vxbeg) := bounded [] [] rfl rfl rfl last (by decide)
theorem vexit (c : BitVec 3) (a : BitVec 6) (b : BitVec 6) (k : BitVec 3) (f : BitVec 3) : Statement (.vexit c a b k f) := bounded [7, 63, 63, 7, 7] [10, 13, 19, 25, 28] rfl rfl rfl
  (more (le_bv _) (more (le_bv _) (more (le_bv _) (more (le_bv _) (more (le_bv _) last))))) (by decide)
theorem vopa (z : BitVec 2) (a : BitVec 6) (b : BitVec 6) (f : BitVec 3) : Statement (.vopa z a b f) := bounded [3, 63, 63, 7] [7, 9, 15, 21] rfl rfl rfl
  (more (le_bv _) (more (le_bv _) (more (le_bv _) (more (le_bv _) last)))) (by decide)
theorem vops (z : BitVec 2) (a : BitVec 6) (b : BitVec 6) (f : BitVec 3) : Statement (.vops z a b f) := bounded [3, 63, 63, 7] [7, 9, 15, 21] rfl rfl rfl
  (more (le_bv _) (more (le_bv _) (more (le_bv _) (more (le_bv _) last)))) (by decide)
theorem zclr (z : BitVec 2) : Statement (.zclr z) := bounded [3] [7] rfl rfl rfl
  (more (le_bv _) last) (by decide)
theorem zld (z : BitVec 2) (a : BitVec 5) (b : BitVec 5) : Statement (.zld z a b) := bounded [3, 31, 31] [7, 9, 15] rfl rfl rfl
  (more (le_bv _) (more (le_bv _) (more (le_bv _) last))) (by decide)
theorem zst (z : BitVec 2) (a : BitVec 5) (b : BitVec 5) : Statement (.zst z a b) := bounded [3, 31, 31] [7, 9, 15] rfl rfl rfl
  (more (le_bv _) (more (le_bv _) (more (le_bv _) last))) (by decide)
theorem zrdv (z : BitVec 2) (d : BitVec 6) (b : BitVec 5) (f : BitVec 3) : Statement (.zrdv z d b f) := bounded [3, 63, 31, 7] [7, 9, 15, 21] rfl rfl rfl
  (more (le_bv _) (more (le_bv _) (more (le_bv _) (more (le_bv _) last)))) (by decide)
theorem zwrv (z : BitVec 2) (a : BitVec 6) (b : BitVec 5) (f : BitVec 3) : Statement (.zwrv z a b f) := bounded [3, 63, 31, 7] [7, 9, 15, 21] rfl rfl rfl
  (more (le_bv _) (more (le_bv _) (more (le_bv _) (more (le_bv _) last)))) (by decide)
theorem vhad (d : BitVec 6) (a : BitVec 6) (k : BitVec 3) (f : BitVec 3) : Statement (.vhad d a k f) := bounded [63, 63, 7, 7] [7, 13, 25, 28] rfl rfl rfl
  (more (le_bv _) (more (le_bv _) (more (le_bv _) (more (le_bv _) last)))) (by decide)
theorem vhadC (a : BitVec 6) (k : BitVec 3) (f : BitVec 3) : Statement (.vhadC a k f) := bounded [63, 7, 7] [13, 25, 28] rfl rfl rfl
  (more (le_bv _) (more (le_bv _) (more (le_bv _) last))) (by decide)
theorem vcvtq (d : BitVec 6) (a : BitVec 6) (b : BitVec 6) (q : BitVec 3 × BitVec 3) : Statement (.vcvtq d a b q) := bounded [63, 63, 63, 7, 7] [7, 13, 19, 25, 28] rfl rfl rfl
  (more (le_bv _) (more (le_bv _) (more (le_bv _) (more (le_bv _) (more (le_bv _) last))))) (by decide)
theorem vcvtqC (d : BitVec 6) (b : BitVec 6) (q : BitVec 3 × BitVec 3) : Statement (.vcvtqC d b q) := bounded [63, 63, 7, 7] [7, 19, 25, 28] rfl rfl rfl
  (more (le_bv _) (more (le_bv _) (more (le_bv _) (more (le_bv _) last)))) (by decide)
theorem vrand (d : BitVec 6) (a : BitVec 5) (b : BitVec 5) (k : BitVec 3) : Statement (.vrand d a b k) := bounded [63, 31, 31, 7] [7, 13, 18, 24] rfl rfl rfl
  (more (le_bv _) (more (le_bv _) (more (le_bv _) (more (le_bv _) last)))) (by decide)
theorem vsend (d : BitVec 6) (b : BitVec 6) (k : BitVec 3) : Statement (.vsend d b k) := bounded [63, 63, 7] [7, 18, 24] rfl rfl rfl
  (more (le_bv _) (more (le_bv _) (more (le_bv _) last))) (by decide)
theorem vwait (a : BitVec 6) (s : BitVec 5) (b : BitVec 6) (k : BitVec 3) (q : BitVec 2) : Statement (.vwait a s b k q) := bounded [63, 31, 63, 7, 3] [7, 13, 18, 24, 27] rfl rfl rfl
  (more (le_bv _) (more (le_bv _) (more (le_bv _) (more (le_bv _) (more (le_bv _) last))))) (by decide)
theorem vchorSum (d : BitVec 6) (a : BitVec 5) (b : BitVec 5) (f : BitVec 3) : Statement (.vchorSum d a b f) := bounded [63, 31, 31, 7] [7, 13, 18, 24] rfl rfl rfl
  (more (le_bv _) (more (le_bv _) (more (le_bv _) (more (le_bv _) last)))) (by decide)
theorem vchorMin (d : BitVec 6) (a : BitVec 5) (b : BitVec 5) (f : BitVec 3) : Statement (.vchorMin d a b f) := bounded [63, 31, 31, 7] [7, 13, 18, 24] rfl rfl rfl
  (more (le_bv _) (more (le_bv _) (more (le_bv _) (more (le_bv _) last)))) (by decide)
theorem vchorMax (d : BitVec 6) (a : BitVec 5) (b : BitVec 5) (f : BitVec 3) : Statement (.vchorMax d a b f) := bounded [63, 31, 31, 7] [7, 13, 18, 24] rfl rfl rfl
  (more (le_bv _) (more (le_bv _) (more (le_bv _) (more (le_bv _) last)))) (by decide)
theorem vchorArgmax (d : BitVec 6) (a : BitVec 5) (b : BitVec 5) (f : BitVec 3) : Statement (.vchorArgmax d a b f) := bounded [63, 31, 31, 7] [7, 13, 18, 24] rfl rfl rfl
  (more (le_bv _) (more (le_bv _) (more (le_bv _) (more (le_bv _) last)))) (by decide)
theorem vchorArgmin (d : BitVec 6) (a : BitVec 5) (b : BitVec 5) (f : BitVec 3) : Statement (.vchorArgmin d a b f) := bounded [63, 31, 31, 7] [7, 13, 18, 24] rfl rfl rfl
  (more (le_bv _) (more (le_bv _) (more (le_bv _) (more (le_bv _) last)))) (by decide)
theorem vchorAnd (d : BitVec 6) (a : BitVec 5) (b : BitVec 5) (f : BitVec 3) : Statement (.vchorAnd d a b f) := bounded [63, 31, 31, 7] [7, 13, 18, 24] rfl rfl rfl
  (more (le_bv _) (more (le_bv _) (more (le_bv _) (more (le_bv _) last)))) (by decide)
theorem vchorOr (d : BitVec 6) (a : BitVec 5) (b : BitVec 5) (f : BitVec 3) : Statement (.vchorOr d a b f) := bounded [63, 31, 31, 7] [7, 13, 18, 24] rfl rfl rfl
  (more (le_bv _) (more (le_bv _) (more (le_bv _) (more (le_bv _) last)))) (by decide)
theorem vchorXor (d : BitVec 6) (a : BitVec 5) (b : BitVec 5) (f : BitVec 3) : Statement (.vchorXor d a b f) := bounded [63, 31, 31, 7] [7, 13, 18, 24] rfl rfl rfl
  (more (le_bv _) (more (le_bv _) (more (le_bv _) (more (le_bv _) last)))) (by decide)
theorem vclaim (d : BitVec 5) (a : BitVec 5) (b : BitVec 5) : Statement (.vclaim d a b) := bounded [31, 31, 31] [7, 12, 17] rfl rfl rfl
  (more (le_bv _) (more (le_bv _) (more (le_bv _) last))) (by decide)
theorem rclaim (d : BitVec 5) (a : BitVec 5) : Statement (.rclaim d a) := bounded [31, 31] [7, 12] rfl rfl rfl
  (more (le_bv _) (more (le_bv _) last)) (by decide)
theorem rfree (d : BitVec 5) (a : BitVec 5) : Statement (.rfree d a) := bounded [31, 31] [7, 12] rfl rfl rfl
  (more (le_bv _) (more (le_bv _) last)) (by decide)
theorem cpdim (c : BitVec 5) (a : BitVec 5) (b : BitVec 5) (n : BitVec 3) : Statement (.cpdim c a b n) := bounded [31, 31, 31, 7] [7, 12, 17, 22] rfl rfl rfl
  (more (le_bv _) (more (le_bv _) (more (le_bv _) (more (le_bv _) last)))) (by decide)
theorem cpgo (a : BitVec 5) (b : BitVec 5) (n : BitVec 3) : Statement (.cpgo a b n) := bounded [31, 31, 7] [12, 17, 22] rfl rfl rfl
  (more (le_bv _) (more (le_bv _) (more (le_bv _) last))) (by decide)
theorem cpstat (q : BitVec 2) : Statement (.cpstat q) := bounded [3] [7] rfl rfl rfl
  (more (le_bv _) last) (by decide)
theorem bopen (n : BitVec 16) : Statement (.bopen n) := bounded [65535] [12] rfl rfl rfl
  (more (le_bv _) last) (by decide)
theorem bseal (q : BitVec 2) : Statement (.bseal q) := bounded [3] [12] rfl rfl rfl
  (more (le_bv _) last) (by decide)
theorem babort : Statement (.babort) := bounded [] [] rfl rfl rfl last (by decide)
theorem pwlease (c : BitVec 2) : Statement (.pwlease c) := bounded [3] [12] rfl rfl rfl
  (more (le_bv _) last) (by decide)
theorem pwdrop (c : BitVec 2) : Statement (.pwdrop c) := bounded [3] [12] rfl rfl rfl
  (more (le_bv _) last) (by decide)
theorem lend : Statement (.lend) := bounded [] [] rfl rfl rfl last (by decide)
theorem lmark (t : BitVec 5) (i : BitVec 5) (f : BitVec 6) (l : BitVec 6) (p : BitVec 3) : Statement (.lmark t i f l p) := bounded [31, 31, 63, 63, 7] [7, 12, 17, 23, 29] rfl rfl rfl
  (more (le_bv _) (more (le_bv _) (more (le_bv _) (more (le_bv _) (more (le_bv _) last))))) (by decide)
theorem oshape (q : BitVec 2) (a : BitVec 5) : Statement (.oshape q a) := bounded [3, 31] [7, 12] rfl rfl rfl
  (more (le_bv _) (more (le_bv _) last)) (by decide)
theorem oseal (a : BitVec 5) : Statement (.oseal a) := bounded [31] [12] rfl rfl rfl
  (more (le_bv _) last) (by decide)
theorem ounseal (q : BitVec 2) (a : BitVec 5) (b : BitVec 5) : Statement (.ounseal q a b) := bounded [3, 31, 31] [7, 12, 17] rfl rfl rfl
  (more (le_bv _) (more (le_bv _) (more (le_bv _) last))) (by decide)
theorem orel (a : BitVec 5) : Statement (.orel a) := bounded [31] [12] rfl rfl rfl
  (more (le_bv _) last) (by decide)
theorem vmv (d : BitVec 6) (a : BitVec 6) (k : BitVec 3) : Statement (.vmv d a k) := bounded [63, 63, 7] [7, 13, 25] rfl rfl rfl
  (more (le_bv _) (more (le_bv _) (more (le_bv _) last))) (by decide)
theorem vbcast (d : BitVec 6) (b : BitVec 5) (k : BitVec 3) : Statement (.vbcast d b k) := bounded [63, 31, 7] [7, 19, 25] rfl rfl rfl
  (more (le_bv _) (more (le_bv _) (more (le_bv _) last))) (by decide)
theorem vext (q : BitVec 2) (a : BitVec 6) (b : BitVec 5) : Statement (.vext q a b) := bounded [3, 63, 31] [7, 13, 19] rfl rfl rfl
  (more (le_bv _) (more (le_bv _) (more (le_bv _) last))) (by decide)
theorem vins (d : BitVec 6) (a : BitVec 5) (b : BitVec 5) : Statement (.vins d a b) := bounded [63, 31, 31] [7, 13, 19] rfl rfl rfl
  (more (le_bv _) (more (le_bv _) (more (le_bv _) last))) (by decide)
theorem vid (d : BitVec 6) (k : BitVec 3) : Statement (.vid d k) := bounded [63, 7] [7, 25] rfl rfl rfl
  (more (le_bv _) (more (le_bv _) last)) (by decide)
theorem viota (d : BitVec 6) (a : BitVec 3) (k : BitVec 3) : Statement (.viota d a k) := bounded [63, 7, 7] [7, 13, 25] rfl rfl rfl
  (more (le_bv _) (more (le_bv _) (more (le_bv _) last))) (by decide)
theorem vrelease (d : BitVec 6) : Statement (.vrelease d) := bounded [63] [7] rfl rfl rfl
  (more (le_bv _) last) (by decide)
theorem vsel (d : BitVec 6) (a : BitVec 6) (b : BitVec 6) (k : BitVec 3) : Statement (.vsel d a b k) := bounded [63, 63, 63, 7] [7, 13, 19, 25] rfl rfl rfl
  (more (le_bv _) (more (le_bv _) (more (le_bv _) (more (le_bv _) last)))) (by decide)
theorem vadd (d : BitVec 6) (a : BitVec 6) (b : BitVec 6) (k : BitVec 3) (f : BitVec 3) (x : Bool) : Statement (.vadd d a b k f x) := bounded [63, 63, 63, 7, 7, 1] [7, 13, 19, 25, 28, 31] rfl rfl rfl
  (more (le_bv _) (more (le_bv _) (more (le_bv _) (more (le_bv _) (more (le_bv _) (more (Bool.toNat_le _) last)))))) (by decide)
theorem vsub (d : BitVec 6) (a : BitVec 6) (b : BitVec 6) (k : BitVec 3) (f : BitVec 3) (x : Bool) : Statement (.vsub d a b k f x) := bounded [63, 63, 63, 7, 7, 1] [7, 13, 19, 25, 28, 31] rfl rfl rfl
  (more (le_bv _) (more (le_bv _) (more (le_bv _) (more (le_bv _) (more (le_bv _) (more (Bool.toNat_le _) last)))))) (by decide)
theorem vmul (d : BitVec 6) (a : BitVec 6) (b : BitVec 6) (k : BitVec 3) (f : BitVec 3) (x : Bool) : Statement (.vmul d a b k f x) := bounded [63, 63, 63, 7, 7, 1] [7, 13, 19, 25, 28, 31] rfl rfl rfl
  (more (le_bv _) (more (le_bv _) (more (le_bv _) (more (le_bv _) (more (le_bv _) (more (Bool.toNat_le _) last)))))) (by decide)
theorem vmulh (d : BitVec 6) (a : BitVec 6) (b : BitVec 6) (k : BitVec 3) (f : BitVec 3) (x : Bool) : Statement (.vmulh d a b k f x) := bounded [63, 63, 63, 7, 7, 1] [7, 13, 19, 25, 28, 31] rfl rfl rfl
  (more (le_bv _) (more (le_bv _) (more (le_bv _) (more (le_bv _) (more (le_bv _) (more (Bool.toNat_le _) last)))))) (by decide)
theorem vdiv (d : BitVec 6) (a : BitVec 6) (b : BitVec 6) (k : BitVec 3) (f : BitVec 3) (x : Bool) : Statement (.vdiv d a b k f x) := bounded [63, 63, 63, 7, 7, 1] [7, 13, 19, 25, 28, 31] rfl rfl rfl
  (more (le_bv _) (more (le_bv _) (more (le_bv _) (more (le_bv _) (more (le_bv _) (more (Bool.toNat_le _) last)))))) (by decide)
theorem vrem (d : BitVec 6) (a : BitVec 6) (b : BitVec 6) (k : BitVec 3) (f : BitVec 3) (x : Bool) : Statement (.vrem d a b k f x) := bounded [63, 63, 63, 7, 7, 1] [7, 13, 19, 25, 28, 31] rfl rfl rfl
  (more (le_bv _) (more (le_bv _) (more (le_bv _) (more (le_bv _) (more (le_bv _) (more (Bool.toNat_le _) last)))))) (by decide)
theorem vmin (d : BitVec 6) (a : BitVec 6) (b : BitVec 6) (k : BitVec 3) (f : BitVec 3) (x : Bool) : Statement (.vmin d a b k f x) := bounded [63, 63, 63, 7, 7, 1] [7, 13, 19, 25, 28, 31] rfl rfl rfl
  (more (le_bv _) (more (le_bv _) (more (le_bv _) (more (le_bv _) (more (le_bv _) (more (Bool.toNat_le _) last)))))) (by decide)
theorem vmax (d : BitVec 6) (a : BitVec 6) (b : BitVec 6) (k : BitVec 3) (f : BitVec 3) (x : Bool) : Statement (.vmax d a b k f x) := bounded [63, 63, 63, 7, 7, 1] [7, 13, 19, 25, 28, 31] rfl rfl rfl
  (more (le_bv _) (more (le_bv _) (more (le_bv _) (more (le_bv _) (more (le_bv _) (more (Bool.toNat_le _) last)))))) (by decide)
theorem vand (d : BitVec 6) (a : BitVec 6) (b : BitVec 6) (k : BitVec 3) (f : BitVec 3) (x : Bool) : Statement (.vand d a b k f x) := bounded [63, 63, 63, 7, 7, 1] [7, 13, 19, 25, 28, 31] rfl rfl rfl
  (more (le_bv _) (more (le_bv _) (more (le_bv _) (more (le_bv _) (more (le_bv _) (more (Bool.toNat_le _) last)))))) (by decide)
theorem vor (d : BitVec 6) (a : BitVec 6) (b : BitVec 6) (k : BitVec 3) (f : BitVec 3) (x : Bool) : Statement (.vor d a b k f x) := bounded [63, 63, 63, 7, 7, 1] [7, 13, 19, 25, 28, 31] rfl rfl rfl
  (more (le_bv _) (more (le_bv _) (more (le_bv _) (more (le_bv _) (more (le_bv _) (more (Bool.toNat_le _) last)))))) (by decide)
theorem vxor (d : BitVec 6) (a : BitVec 6) (b : BitVec 6) (k : BitVec 3) (f : BitVec 3) (x : Bool) : Statement (.vxor d a b k f x) := bounded [63, 63, 63, 7, 7, 1] [7, 13, 19, 25, 28, 31] rfl rfl rfl
  (more (le_bv _) (more (le_bv _) (more (le_bv _) (more (le_bv _) (more (le_bv _) (more (Bool.toNat_le _) last)))))) (by decide)
theorem vsll (d : BitVec 6) (a : BitVec 6) (b : BitVec 6) (k : BitVec 3) (f : BitVec 3) (x : Bool) : Statement (.vsll d a b k f x) := bounded [63, 63, 63, 7, 7, 1] [7, 13, 19, 25, 28, 31] rfl rfl rfl
  (more (le_bv _) (more (le_bv _) (more (le_bv _) (more (le_bv _) (more (le_bv _) (more (Bool.toNat_le _) last)))))) (by decide)
theorem vsrl (d : BitVec 6) (a : BitVec 6) (b : BitVec 6) (k : BitVec 3) (f : BitVec 3) (x : Bool) : Statement (.vsrl d a b k f x) := bounded [63, 63, 63, 7, 7, 1] [7, 13, 19, 25, 28, 31] rfl rfl rfl
  (more (le_bv _) (more (le_bv _) (more (le_bv _) (more (le_bv _) (more (le_bv _) (more (Bool.toNat_le _) last)))))) (by decide)
theorem vsra (d : BitVec 6) (a : BitVec 6) (b : BitVec 6) (k : BitVec 3) (f : BitVec 3) (x : Bool) : Statement (.vsra d a b k f x) := bounded [63, 63, 63, 7, 7, 1] [7, 13, 19, 25, 28, 31] rfl rfl rfl
  (more (le_bv _) (more (le_bv _) (more (le_bv _) (more (le_bv _) (more (le_bv _) (more (Bool.toNat_le _) last)))))) (by decide)
theorem vsadd (d : BitVec 6) (a : BitVec 6) (b : BitVec 6) (k : BitVec 3) (f : BitVec 3) (x : Bool) : Statement (.vsadd d a b k f x) := bounded [63, 63, 63, 7, 7, 1] [7, 13, 19, 25, 28, 31] rfl rfl rfl
  (more (le_bv _) (more (le_bv _) (more (le_bv _) (more (le_bv _) (more (le_bv _) (more (Bool.toNat_le _) last)))))) (by decide)
theorem vssub (d : BitVec 6) (a : BitVec 6) (b : BitVec 6) (k : BitVec 3) (f : BitVec 3) (x : Bool) : Statement (.vssub d a b k f x) := bounded [63, 63, 63, 7, 7, 1] [7, 13, 19, 25, 28, 31] rfl rfl rfl
  (more (le_bv _) (more (le_bv _) (more (le_bv _) (more (le_bv _) (more (le_bv _) (more (Bool.toNat_le _) last)))))) (by decide)
theorem vabsd (d : BitVec 6) (a : BitVec 6) (b : BitVec 6) (k : BitVec 3) (f : BitVec 3) (x : Bool) : Statement (.vabsd d a b k f x) := bounded [63, 63, 63, 7, 7, 1] [7, 13, 19, 25, 28, 31] rfl rfl rfl
  (more (le_bv _) (more (le_bv _) (more (le_bv _) (more (le_bv _) (more (le_bv _) (more (Bool.toNat_le _) last)))))) (by decide)
theorem vcmp (d : BitVec 3) (c : BitVec 3) (a : BitVec 6) (b : BitVec 6) (k : BitVec 3) (f : BitVec 3) (x : Bool) : Statement (.vcmp d c a b k f x) := bounded [7, 7, 63, 63, 7, 7, 1] [7, 10, 13, 19, 25, 28, 31] rfl rfl rfl
  (more (le_bv _) (more (le_bv _) (more (le_bv _) (more (le_bv _) (more (le_bv _) (more (le_bv _) (more (Bool.toNat_le _) last))))))) (by decide)
theorem vcvt (d : BitVec 6) (a : BitVec 6) (k : BitVec 3) (f : BitVec 3) : Statement (.vcvt d a k f) := bounded [63, 63, 7, 7] [7, 13, 25, 28] rfl rfl rfl
  (more (le_bv _) (more (le_bv _) (more (le_bv _) (more (le_bv _) last)))) (by decide)
theorem vfadd (d : BitVec 6) (a : BitVec 6) (b : BitVec 6) (k : BitVec 3) (f : BitVec 3) (x : Bool) : Statement (.vfadd d a b k f x) := bounded [63, 63, 63, 7, 7, 1] [7, 13, 19, 25, 28, 31] rfl rfl rfl
  (more (le_bv _) (more (le_bv _) (more (le_bv _) (more (le_bv _) (more (le_bv _) (more (Bool.toNat_le _) last)))))) (by decide)
theorem vfsub (d : BitVec 6) (a : BitVec 6) (b : BitVec 6) (k : BitVec 3) (f : BitVec 3) (x : Bool) : Statement (.vfsub d a b k f x) := bounded [63, 63, 63, 7, 7, 1] [7, 13, 19, 25, 28, 31] rfl rfl rfl
  (more (le_bv _) (more (le_bv _) (more (le_bv _) (more (le_bv _) (more (le_bv _) (more (Bool.toNat_le _) last)))))) (by decide)
theorem vfmul (d : BitVec 6) (a : BitVec 6) (b : BitVec 6) (k : BitVec 3) (f : BitVec 3) (x : Bool) : Statement (.vfmul d a b k f x) := bounded [63, 63, 63, 7, 7, 1] [7, 13, 19, 25, 28, 31] rfl rfl rfl
  (more (le_bv _) (more (le_bv _) (more (le_bv _) (more (le_bv _) (more (le_bv _) (more (Bool.toNat_le _) last)))))) (by decide)
theorem vfma (d : BitVec 6) (a : BitVec 6) (b : BitVec 6) (k : BitVec 3) (f : BitVec 3) (x : Bool) : Statement (.vfma d a b k f x) := bounded [63, 63, 63, 7, 7, 1] [7, 13, 19, 25, 28, 31] rfl rfl rfl
  (more (le_bv _) (more (le_bv _) (more (le_bv _) (more (le_bv _) (more (le_bv _) (more (Bool.toNat_le _) last)))))) (by decide)
theorem vfnma (d : BitVec 6) (a : BitVec 6) (b : BitVec 6) (k : BitVec 3) (f : BitVec 3) (x : Bool) : Statement (.vfnma d a b k f x) := bounded [63, 63, 63, 7, 7, 1] [7, 13, 19, 25, 28, 31] rfl rfl rfl
  (more (le_bv _) (more (le_bv _) (more (le_bv _) (more (le_bv _) (more (le_bv _) (more (Bool.toNat_le _) last)))))) (by decide)
theorem vfms (d : BitVec 6) (a : BitVec 6) (b : BitVec 6) (k : BitVec 3) (f : BitVec 3) (x : Bool) : Statement (.vfms d a b k f x) := bounded [63, 63, 63, 7, 7, 1] [7, 13, 19, 25, 28, 31] rfl rfl rfl
  (more (le_bv _) (more (le_bv _) (more (le_bv _) (more (le_bv _) (more (le_bv _) (more (Bool.toNat_le _) last)))))) (by decide)
theorem vfdiv (d : BitVec 6) (a : BitVec 6) (b : BitVec 6) (k : BitVec 3) (f : BitVec 3) (x : Bool) : Statement (.vfdiv d a b k f x) := bounded [63, 63, 63, 7, 7, 1] [7, 13, 19, 25, 28, 31] rfl rfl rfl
  (more (le_bv _) (more (le_bv _) (more (le_bv _) (more (le_bv _) (more (le_bv _) (more (Bool.toNat_le _) last)))))) (by decide)
theorem vfsqrt (d : BitVec 6) (a : BitVec 6) (k : BitVec 3) (f : BitVec 3) : Statement (.vfsqrt d a k f) := bounded [63, 63, 7, 7] [7, 13, 25, 28] rfl rfl rfl
  (more (le_bv _) (more (le_bv _) (more (le_bv _) (more (le_bv _) last)))) (by decide)
theorem vfrsqrt (d : BitVec 6) (a : BitVec 6) (k : BitVec 3) (f : BitVec 3) : Statement (.vfrsqrt d a k f) := bounded [63, 63, 7, 7] [7, 13, 25, 28] rfl rfl rfl
  (more (le_bv _) (more (le_bv _) (more (le_bv _) (more (le_bv _) last)))) (by decide)
theorem vfexp2 (d : BitVec 6) (a : BitVec 6) (k : BitVec 3) (f : BitVec 3) : Statement (.vfexp2 d a k f) := bounded [63, 63, 7, 7] [7, 13, 25, 28] rfl rfl rfl
  (more (le_bv _) (more (le_bv _) (more (le_bv _) (more (le_bv _) last)))) (by decide)
theorem vflog2 (d : BitVec 6) (a : BitVec 6) (k : BitVec 3) (f : BitVec 3) : Statement (.vflog2 d a k f) := bounded [63, 63, 7, 7] [7, 13, 25, 28] rfl rfl rfl
  (more (le_bv _) (more (le_bv _) (more (le_bv _) (more (le_bv _) last)))) (by decide)
theorem vfexp (d : BitVec 6) (a : BitVec 6) (k : BitVec 3) (f : BitVec 3) : Statement (.vfexp d a k f) := bounded [63, 63, 7, 7] [7, 13, 25, 28] rfl rfl rfl
  (more (le_bv _) (more (le_bv _) (more (le_bv _) (more (le_bv _) last)))) (by decide)
theorem vfmin (d : BitVec 6) (a : BitVec 6) (b : BitVec 6) (k : BitVec 3) (f : BitVec 3) (x : Bool) : Statement (.vfmin d a b k f x) := bounded [63, 63, 63, 7, 7, 1] [7, 13, 19, 25, 28, 31] rfl rfl rfl
  (more (le_bv _) (more (le_bv _) (more (le_bv _) (more (le_bv _) (more (le_bv _) (more (Bool.toNat_le _) last)))))) (by decide)
theorem vfmax (d : BitVec 6) (a : BitVec 6) (b : BitVec 6) (k : BitVec 3) (f : BitVec 3) (x : Bool) : Statement (.vfmax d a b k f x) := bounded [63, 63, 63, 7, 7, 1] [7, 13, 19, 25, 28, 31] rfl rfl rfl
  (more (le_bv _) (more (le_bv _) (more (le_bv _) (more (le_bv _) (more (le_bv _) (more (Bool.toNat_le _) last)))))) (by decide)
theorem vfsgn (d : BitVec 6) (a : BitVec 6) (b : BitVec 6) (k : BitVec 3) (f : BitVec 3) : Statement (.vfsgn d a b k f) := bounded [63, 63, 63, 7, 7] [7, 13, 19, 25, 28] rfl rfl rfl
  (more (le_bv _) (more (le_bv _) (more (le_bv _) (more (le_bv _) (more (le_bv _) last))))) (by decide)
theorem vfcls (d : BitVec 6) (a : BitVec 6) (k : BitVec 3) (f : BitVec 3) : Statement (.vfcls d a k f) := bounded [63, 63, 7, 7] [7, 13, 25, 28] rfl rfl rfl
  (more (le_bv _) (more (le_bv _) (more (le_bv _) (more (le_bv _) last)))) (by decide)
theorem vfcmp (d : BitVec 3) (c : BitVec 3) (a : BitVec 6) (b : BitVec 6) (k : BitVec 3) (f : BitVec 3) (x : Bool) : Statement (.vfcmp d c a b k f x) := bounded [7, 7, 63, 63, 7, 7, 1] [7, 10, 13, 19, 25, 28, 31] rfl rfl rfl
  (more (le_bv _) (more (le_bv _) (more (le_bv _) (more (le_bv _) (more (le_bv _) (more (le_bv _) (more (Bool.toNat_le _) last))))))) (by decide)
theorem pfx (p : Bool) (m : BitVec 3) (e : Bool) (r : BitVec 6) (o : BitVec 4) (u : BitVec 4) : Statement (.pfx p m e r o u) := bounded [1, 7, 1, 63, 15, 15] [7, 8, 11, 12, 18, 22] rfl rfl rfl
  (more (Bool.toNat_le _) (more (le_bv _) (more (Bool.toNat_le _) (more (le_bv _) (more (le_bv _) (more (le_bv _) last)))))) (by decide)
theorem cp (g : BitVec 12) (h : BitVec 12) : Statement (.cp g h) := bounded [4095, 4095] [8, 20] rfl rfl rfl
  (more (le_bv _) (more (le_bv _) last)) (by decide)
theorem vbind (d : BitVec 6) (a : BitVec 5) : Statement (.vbind d a) := bounded [63, 31] [7, 13] rfl rfl rfl
  (more (le_bv _) (more (le_bv _) last)) (by decide)
theorem vunbind (d : BitVec 6) : Statement (.vunbind d) := bounded [63] [7] rfl rfl rfl
  (more (le_bv _) last) (by decide)
theorem vectorCommit (h : Nat) : Statement (.vectorCommit h) := fun _ h => by cases h
theorem retirementPush (h : Nat) : Statement (.retirementPush h) := fun _ h => by cases h
theorem waitPointRelease (h : Nat) : Statement (.waitPointRelease h) := fun _ h => by cases h
theorem barrierRouteReturn (pkg : Nat) : Statement (.barrierRouteReturn pkg) := fun _ h => by cases h
theorem vwaitTimeout (h : Nat) : Statement (.vwaitTimeout h) := fun _ h => by cases h
theorem ounsealTimeout (h : Nat) : Statement (.ounsealTimeout h) := fun _ h => by cases h
theorem copyCommand (h : Nat) : Statement (.copyCommand h) := fun _ h => by cases h
theorem copyCommandRetire (h : Nat) : Statement (.copyCommandRetire h) := fun _ h => by cases h
theorem vsendArrival (core : Nat) : Statement (.vsendArrival core) := fun _ h => by cases h
theorem fifoHeadWrite (bank : Nat) (x : BitVec 64) : Statement (.fifoHeadWrite bank x) := fun _ h => by cases h
theorem bankmodeWrite (x : BitVec 64) : Statement (.bankmodeWrite x) := fun _ h => by cases h
theorem loopConfirmation (h : Nat) : Statement (.loopConfirmation h) := fun _ h => by cases h
theorem replayComplete (h : Nat) : Statement (.replayComplete h) := fun _ h => by cases h
theorem departure (h : Nat) (j : Nat) (cause : BitVec 8) : Statement (.departure h j cause) := fun _ h => by cases h
theorem handBack (h : Nat) : Statement (.handBack h) := fun _ h => by cases h
theorem bundleCommit (b : Nat) : Statement (.bundleCommit b) := fun _ h => by cases h
theorem bundleFlip (b : Nat) (line : Nat) : Statement (.bundleFlip b line) := fun _ h => by cases h
theorem serialRetire (b : Nat) : Statement (.serialRetire b) := fun _ h => by cases h
theorem bundleBudgetExpiry (b : Nat) : Statement (.bundleBudgetExpiry b) := fun _ h => by cases h
theorem staleClear (h : Nat) : Statement (.staleClear h) := fun _ h => by cases h
theorem trap (cause : BitVec 8) (code : BitVec 20) (addr : BitVec 64) (elem : Nat) : Statement (.trap cause code addr elem) := fun _ h => by cases h
theorem dirtyLineError (core : Nat) (line : Nat) : Statement (.dirtyLineError core line) := fun _ h => by cases h
theorem threadPlacement (p : Nat) (core : Nat) : Statement (.threadPlacement p core) := fun _ h => by cases h
theorem octetPass (core : Nat) (oct : Nat) : Statement (.octetPass core oct) := fun _ h => by cases h
theorem yieldWindowExpiry (core : Nat) (oct : Nat) : Statement (.yieldWindowExpiry core oct) := fun _ h => by cases h
theorem levelAgeing (p : Nat) (core : Nat) : Statement (.levelAgeing p core) := fun _ h => by cases h
theorem slicePreemption (p : Nat) (core : Nat) : Statement (.slicePreemption p core) := fun _ h => by cases h
theorem migrationSave (h : Nat) : Statement (.migrationSave h) := fun _ h => by cases h
theorem save (h : Nat) : Statement (.save h) := fun _ h => by cases h
theorem resumption (h : Nat) : Statement (.resumption h) := fun _ h => by cases h
theorem taskCompletion (p : Nat) (task : Nat) : Statement (.taskCompletion p task) := fun _ h => by cases h
theorem launchPortRecord (vd : Nat) (port : Nat) (off : Nat) (data : List (BitVec 8)) : Statement (.launchPortRecord vd port off data) := fun _ h => by cases h
theorem launchAccept (n : Nat) : Statement (.launchAccept n) := fun _ h => by cases h
theorem leaseGrant (die : Nat) : Statement (.leaseGrant die) := fun _ h => by cases h
theorem leaseRevoke (die : Nat) : Statement (.leaseRevoke die) := fun _ h => by cases h
theorem leaseLapse (h : Nat) (cls : Nat) : Statement (.leaseLapse h cls) := fun _ h => by cases h
theorem cueRun (die : Nat) (part : Nat) : Statement (.cueRun die part) := fun _ h => by cases h
theorem cueTimer (die : Nat) (slot : Nat) : Statement (.cueTimer die slot) := fun _ h => by cases h
theorem thermalSample (die : Nat) (t16 : Nat) (power : Nat) : Statement (.thermalSample die t16 power) := fun _ h => by cases h
theorem budgetWindow (die : Nat) : Statement (.budgetWindow die) := fun _ h => by cases h
theorem energyInterval (die : Nat) (uj : Nat) : Statement (.energyInterval die uj) := fun _ h => by cases h
theorem backgroundClear (line : Nat) : Statement (.backgroundClear line) := fun _ h => by cases h
theorem linkTraining (port : Nat) (pvers : BitVec 16) (pfeat : BitVec 32) : Statement (.linkTraining port pvers pfeat) := fun _ h => by cases h
theorem flitRetransmit (port : Nat) (cycles : Nat) : Statement (.flitRetransmit port cycles) := fun _ h => by cases h
theorem softError (die : Nat) (kind : Nat) (loc : Nat) (owner : Option Nat) : Statement (.softError die kind loc owner) := fun _ h => by cases h
theorem thermalShutdown (die : Nat) (t16 : Nat) : Statement (.thermalShutdown die t16) := fun _ h => by cases h
theorem powerOn : Statement (.powerOn) := fun _ h => by cases h
theorem mgmtRegisterWrite (vd : Option Nat) (die : Nat) (off : Nat) (x : BitVec 64) : Statement (.mgmtRegisterWrite vd die off x) := fun _ h => by cases h
theorem create (head : BitVec 64) (ops : CreateOps) : Statement (.create head ops) := fun _ h => by cases h
theorem resize (head : BitVec 64) (ops : ResizeOps) : Statement (.resize head ops) := fun _ h => by cases h
theorem destroy (head : BitVec 64) (dst : Nat) : Statement (.destroy head dst) := fun _ h => by cases h
theorem region (head : BitVec 64) (owner : RegionOwner) (place : Nat) (die : Nat) : Statement (.region head owner place die) := fun _ h => by cases h
theorem vdev (head : BitVec 64) (idx : Nat) : Statement (.vdev head idx) := fun _ h => by cases h
theorem troot (head : BitVec 64) (root : Nat) : Statement (.troot head root) := fun _ h => by cases h
theorem inval (record : List (BitVec 8)) : Statement (.inval record) := fun _ h => by cases h
theorem aperture (head : BitVec 64) (off : Nat) (haddr : Nat) (size : Nat) (atomics : Bool) : Statement (.aperture head off haddr size atomics) := fun _ h => by cases h
theorem nlctl (head : BitVec 64) (cls : Nat) (x : BitVec 64) : Statement (.nlctl head cls x) := fun _ h => by cases h
theorem sched (head : BitVec 64) (param : SchedParam) (x : Nat) : Statement (.sched head param x) := fun _ h => by cases h
theorem loadcue (head : BitVec 64) (die : Nat) (pa : Nat) : Statement (.loadcue head die pa) := fun _ h => by cases h
theorem budget (head : BitVec 64) (die : Nat) (x : Nat) : Statement (.budget head die x) := fun _ h => by cases h
theorem snapshot (head : BitVec 64) (pa : Nat) : Statement (.snapshot head pa) := fun _ h => by cases h
theorem msgring (head : BitVec 64) (base : Nat) (slots : Nat) : Statement (.msgring head base slots) := fun _ h => by cases h
theorem attest (head : BitVec 64) (pa : Nat) (nonce : List (BitVec 8)) : Statement (.attest head pa nonce) := fun _ h => by cases h
theorem ctxpool (head : BitVec 64) (base : Nat) (n : Nat) : Statement (.ctxpool head base n) := fun _ h => by cases h
theorem svclaunch (head : BitVec 64) (va : BitVec 64) : Statement (.svclaunch head va) := fun _ h => by cases h
theorem commons (groups : BitVec 64 × List Nat) (inter : List Nat) : Statement (.commons groups inter) := fun _ h => by cases h
theorem hostLinkAccess (vd : Nat) (op : HostOp) (addr : BitVec 64) (data : List (BitVec 8)) : Statement (.hostLinkAccess vd op addr data) := fun _ h => by cases h
theorem routeLost (port : Nat) (pkg : Nat) (retrained : Bool) : Statement (.routeLost port pkg retrained) := fun _ h => by cases h
theorem dramReadRetry (die : Nat) (channel : Nat) (cycles : Nat) : Statement (.dramReadRetry die channel cycles) := fun _ h => by cases h
theorem leaseAgeing (die : Nat) : Statement (.leaseAgeing die) := fun _ h => by cases h

end Sys2Proof.Laws.EncodesLayout
end

