-- ==== Sys2Proof/Laws/State.lean ====
section
/-!
SUPPORT. What each update of a record of the state leaves and gives, field by field, so that no proof unfolds an update.
-/
namespace Sys2Proof.Machine

/-- What setTh leaves and gives. -/
@[simp] theorem State.setTh_threads (s : State) (h : Nat) (t : Thread) : (s.setTh h t).threads = tset s.threads h t := rfl
@[simp] theorem State.setTh_time (s : State) (h : Nat) (t : Thread) : (s.setTh h t).time = s.time := rfl
@[simp] theorem State.setTh_phase (s : State) (h : Nat) (t : Thread) : (s.setTh h t).phase = s.phase := rfl
@[simp] theorem State.setTh_pkg (s : State) (h : Nat) (t : Thread) : (s.setTh h t).pkg = s.pkg := rfl
@[simp] theorem State.setTh_mem (s : State) (h : Nat) (t : Thread) : (s.setTh h t).mem = s.mem := rfl
@[simp] theorem State.setTh_clearPend (s : State) (h : Nat) (t : Thread) : (s.setTh h t).clearPend = s.clearPend := rfl
@[simp] theorem State.setTh_memErr (s : State) (h : Nat) (t : Thread) : (s.setTh h t).memErr = s.memErr := rfl
@[simp] theorem State.setTh_owned (s : State) (h : Nat) (t : Thread) : (s.setTh h t).owned = s.owned := rfl
@[simp] theorem State.setTh_regions (s : State) (h : Nat) (t : Thread) : (s.setTh h t).regions = s.regions := rfl
@[simp] theorem State.setTh_commonsGroups (s : State) (h : Nat) (t : Thread) : (s.setTh h t).commonsGroups = s.commonsGroups := rfl
@[simp] theorem State.setTh_commonsInter (s : State) (h : Nat) (t : Thread) : (s.setTh h t).commonsInter = s.commonsInter := rfl
@[simp] theorem State.setTh_parts (s : State) (h : Nat) (t : Thread) : (s.setTh h t).parts = s.parts := rfl
@[simp] theorem State.setTh_vdevs (s : State) (h : Nat) (t : Thread) : (s.setTh h t).vdevs = s.vdevs := rfl
@[simp] theorem State.setTh_cores (s : State) (h : Nat) (t : Thread) : (s.setTh h t).cores = s.cores := rfl
@[simp] theorem State.setTh_dies (s : State) (h : Nat) (t : Thread) : (s.setTh h t).dies = s.dies := rfl
@[simp] theorem State.setTh_served (s : State) (h : Nat) (t : Thread) : (s.setTh h t).served = s.served := rfl
@[simp] theorem State.setTh_tasks (s : State) (h : Nat) (t : Thread) : (s.setTh h t).tasks = s.tasks := rfl
@[simp] theorem State.setTh_subs (s : State) (h : Nat) (t : Thread) : (s.setTh h t).subs = s.subs := rfl
@[simp] theorem State.setTh_bars (s : State) (h : Nat) (t : Thread) : (s.setTh h t).bars = s.bars := rfl
@[simp] theorem State.setTh_podLost (s : State) (h : Nat) (t : Thread) : (s.setTh h t).podLost = s.podLost := rfl
@[simp] theorem State.setTh_bundles (s : State) (h : Nat) (t : Thread) : (s.setTh h t).bundles = s.bundles := rfl
@[simp] theorem State.setTh_serials (s : State) (h : Nat) (t : Thread) : (s.setTh h t).serials = s.serials := rfl
@[simp] theorem State.setTh_msgs (s : State) (h : Nat) (t : Thread) : (s.setTh h t).msgs = s.msgs := rfl
@[simp] theorem State.setTh_hostMem (s : State) (h : Nat) (t : Thread) : (s.setTh h t).hostMem = s.hostMem := rfl
@[simp] theorem State.setTh_links (s : State) (h : Nat) (t : Thread) : (s.setTh h t).links = s.links := rfl
@[simp] theorem State.setTh_shares (s : State) (h : Nat) (t : Thread) : (s.setTh h t).shares = s.shares := rfl
@[simp] theorem State.setTh_hostOut (s : State) (h : Nat) (t : Thread) : (s.setTh h t).hostOut = s.hostOut := rfl
@[simp] theorem State.setTh_shutBy (s : State) (h : Nat) (t : Thread) : (s.setTh h t).shutBy = s.shutBy := rfl
@[simp] theorem State.setTh_mgmt (s : State) (h : Nat) (t : Thread) : (s.setTh h t).mgmt = s.mgmt := rfl
@[simp] theorem State.setTh_meas (s : State) (h : Nat) (t : Thread) : (s.setTh h t).meas = s.meas := rfl
@[simp] theorem State.setTh_rollback (s : State) (h : Nat) (t : Thread) : (s.setTh h t).rollback = s.rollback := rfl
@[simp] theorem State.setTh_agenda (s : State) (h : Nat) (t : Thread) : (s.setTh h t).agenda = s.agenda := rfl
@[simp] theorem State.setTh_turn (s : State) (h : Nat) (t : Thread) : (s.setTh h t).turn = s.turn := rfl
@[simp] theorem State.setTh_cur (s : State) (h : Nat) (t : Thread) : (s.setTh h t).cur = s.cur := rfl
@[simp] theorem State.setTh_ticks (s : State) (h : Nat) (t : Thread) : (s.setTh h t).ticks = s.ticks := rfl
@[simp] theorem State.setTh_freeCtr (s : State) (h : Nat) (t : Thread) : (s.setTh h t).freeCtr = s.freeCtr := rfl
@[simp] theorem State.setTh_xlates (s : State) (h : Nat) (t : Thread) : (s.setTh h t).xlates = s.xlates := rfl
@[simp] theorem State.setTh_nextH (s : State) (h : Nat) (t : Thread) : (s.setTh h t).nextH = s.nextH := rfl
@[simp] theorem State.setTh_nextB (s : State) (h : Nat) (t : Thread) : (s.setTh h t).nextB = s.nextB := rfl

/-- What setPart leaves and gives. -/
@[simp] theorem State.setPart_parts (s : State) (p : Nat) (x : Partition) : (s.setPart p x).parts = tset s.parts p x := rfl
@[simp] theorem State.setPart_time (s : State) (p : Nat) (x : Partition) : (s.setPart p x).time = s.time := rfl
@[simp] theorem State.setPart_phase (s : State) (p : Nat) (x : Partition) : (s.setPart p x).phase = s.phase := rfl
@[simp] theorem State.setPart_pkg (s : State) (p : Nat) (x : Partition) : (s.setPart p x).pkg = s.pkg := rfl
@[simp] theorem State.setPart_mem (s : State) (p : Nat) (x : Partition) : (s.setPart p x).mem = s.mem := rfl
@[simp] theorem State.setPart_clearPend (s : State) (p : Nat) (x : Partition) : (s.setPart p x).clearPend = s.clearPend := rfl
@[simp] theorem State.setPart_memErr (s : State) (p : Nat) (x : Partition) : (s.setPart p x).memErr = s.memErr := rfl
@[simp] theorem State.setPart_owned (s : State) (p : Nat) (x : Partition) : (s.setPart p x).owned = s.owned := rfl
@[simp] theorem State.setPart_regions (s : State) (p : Nat) (x : Partition) : (s.setPart p x).regions = s.regions := rfl
@[simp] theorem State.setPart_commonsGroups (s : State) (p : Nat) (x : Partition) : (s.setPart p x).commonsGroups = s.commonsGroups := rfl
@[simp] theorem State.setPart_commonsInter (s : State) (p : Nat) (x : Partition) : (s.setPart p x).commonsInter = s.commonsInter := rfl
@[simp] theorem State.setPart_vdevs (s : State) (p : Nat) (x : Partition) : (s.setPart p x).vdevs = s.vdevs := rfl
@[simp] theorem State.setPart_threads (s : State) (p : Nat) (x : Partition) : (s.setPart p x).threads = s.threads := rfl
@[simp] theorem State.setPart_cores (s : State) (p : Nat) (x : Partition) : (s.setPart p x).cores = s.cores := rfl
@[simp] theorem State.setPart_dies (s : State) (p : Nat) (x : Partition) : (s.setPart p x).dies = s.dies := rfl
@[simp] theorem State.setPart_served (s : State) (p : Nat) (x : Partition) : (s.setPart p x).served = s.served := rfl
@[simp] theorem State.setPart_tasks (s : State) (p : Nat) (x : Partition) : (s.setPart p x).tasks = s.tasks := rfl
@[simp] theorem State.setPart_subs (s : State) (p : Nat) (x : Partition) : (s.setPart p x).subs = s.subs := rfl
@[simp] theorem State.setPart_bars (s : State) (p : Nat) (x : Partition) : (s.setPart p x).bars = s.bars := rfl
@[simp] theorem State.setPart_podLost (s : State) (p : Nat) (x : Partition) : (s.setPart p x).podLost = s.podLost := rfl
@[simp] theorem State.setPart_bundles (s : State) (p : Nat) (x : Partition) : (s.setPart p x).bundles = s.bundles := rfl
@[simp] theorem State.setPart_serials (s : State) (p : Nat) (x : Partition) : (s.setPart p x).serials = s.serials := rfl
@[simp] theorem State.setPart_msgs (s : State) (p : Nat) (x : Partition) : (s.setPart p x).msgs = s.msgs := rfl
@[simp] theorem State.setPart_hostMem (s : State) (p : Nat) (x : Partition) : (s.setPart p x).hostMem = s.hostMem := rfl
@[simp] theorem State.setPart_links (s : State) (p : Nat) (x : Partition) : (s.setPart p x).links = s.links := rfl
@[simp] theorem State.setPart_shares (s : State) (p : Nat) (x : Partition) : (s.setPart p x).shares = s.shares := rfl
@[simp] theorem State.setPart_hostOut (s : State) (p : Nat) (x : Partition) : (s.setPart p x).hostOut = s.hostOut := rfl
@[simp] theorem State.setPart_shutBy (s : State) (p : Nat) (x : Partition) : (s.setPart p x).shutBy = s.shutBy := rfl
@[simp] theorem State.setPart_mgmt (s : State) (p : Nat) (x : Partition) : (s.setPart p x).mgmt = s.mgmt := rfl
@[simp] theorem State.setPart_meas (s : State) (p : Nat) (x : Partition) : (s.setPart p x).meas = s.meas := rfl
@[simp] theorem State.setPart_rollback (s : State) (p : Nat) (x : Partition) : (s.setPart p x).rollback = s.rollback := rfl
@[simp] theorem State.setPart_agenda (s : State) (p : Nat) (x : Partition) : (s.setPart p x).agenda = s.agenda := rfl
@[simp] theorem State.setPart_turn (s : State) (p : Nat) (x : Partition) : (s.setPart p x).turn = s.turn := rfl
@[simp] theorem State.setPart_cur (s : State) (p : Nat) (x : Partition) : (s.setPart p x).cur = s.cur := rfl
@[simp] theorem State.setPart_ticks (s : State) (p : Nat) (x : Partition) : (s.setPart p x).ticks = s.ticks := rfl
@[simp] theorem State.setPart_freeCtr (s : State) (p : Nat) (x : Partition) : (s.setPart p x).freeCtr = s.freeCtr := rfl
@[simp] theorem State.setPart_xlates (s : State) (p : Nat) (x : Partition) : (s.setPart p x).xlates = s.xlates := rfl
@[simp] theorem State.setPart_nextH (s : State) (p : Nat) (x : Partition) : (s.setPart p x).nextH = s.nextH := rfl
@[simp] theorem State.setPart_nextB (s : State) (p : Nat) (x : Partition) : (s.setPart p x).nextB = s.nextB := rfl

/-- What setVdev leaves and gives. -/
@[simp] theorem State.setVdev_vdevs (s : State) (v : Nat) (x : VDev) : (s.setVdev v x).vdevs = tset s.vdevs v x := rfl
@[simp] theorem State.setVdev_time (s : State) (v : Nat) (x : VDev) : (s.setVdev v x).time = s.time := rfl
@[simp] theorem State.setVdev_phase (s : State) (v : Nat) (x : VDev) : (s.setVdev v x).phase = s.phase := rfl
@[simp] theorem State.setVdev_pkg (s : State) (v : Nat) (x : VDev) : (s.setVdev v x).pkg = s.pkg := rfl
@[simp] theorem State.setVdev_mem (s : State) (v : Nat) (x : VDev) : (s.setVdev v x).mem = s.mem := rfl
@[simp] theorem State.setVdev_clearPend (s : State) (v : Nat) (x : VDev) : (s.setVdev v x).clearPend = s.clearPend := rfl
@[simp] theorem State.setVdev_memErr (s : State) (v : Nat) (x : VDev) : (s.setVdev v x).memErr = s.memErr := rfl
@[simp] theorem State.setVdev_owned (s : State) (v : Nat) (x : VDev) : (s.setVdev v x).owned = s.owned := rfl
@[simp] theorem State.setVdev_regions (s : State) (v : Nat) (x : VDev) : (s.setVdev v x).regions = s.regions := rfl
@[simp] theorem State.setVdev_commonsGroups (s : State) (v : Nat) (x : VDev) : (s.setVdev v x).commonsGroups = s.commonsGroups := rfl
@[simp] theorem State.setVdev_commonsInter (s : State) (v : Nat) (x : VDev) : (s.setVdev v x).commonsInter = s.commonsInter := rfl
@[simp] theorem State.setVdev_parts (s : State) (v : Nat) (x : VDev) : (s.setVdev v x).parts = s.parts := rfl
@[simp] theorem State.setVdev_threads (s : State) (v : Nat) (x : VDev) : (s.setVdev v x).threads = s.threads := rfl
@[simp] theorem State.setVdev_cores (s : State) (v : Nat) (x : VDev) : (s.setVdev v x).cores = s.cores := rfl
@[simp] theorem State.setVdev_dies (s : State) (v : Nat) (x : VDev) : (s.setVdev v x).dies = s.dies := rfl
@[simp] theorem State.setVdev_served (s : State) (v : Nat) (x : VDev) : (s.setVdev v x).served = s.served := rfl
@[simp] theorem State.setVdev_tasks (s : State) (v : Nat) (x : VDev) : (s.setVdev v x).tasks = s.tasks := rfl
@[simp] theorem State.setVdev_subs (s : State) (v : Nat) (x : VDev) : (s.setVdev v x).subs = s.subs := rfl
@[simp] theorem State.setVdev_bars (s : State) (v : Nat) (x : VDev) : (s.setVdev v x).bars = s.bars := rfl
@[simp] theorem State.setVdev_podLost (s : State) (v : Nat) (x : VDev) : (s.setVdev v x).podLost = s.podLost := rfl
@[simp] theorem State.setVdev_bundles (s : State) (v : Nat) (x : VDev) : (s.setVdev v x).bundles = s.bundles := rfl
@[simp] theorem State.setVdev_serials (s : State) (v : Nat) (x : VDev) : (s.setVdev v x).serials = s.serials := rfl
@[simp] theorem State.setVdev_msgs (s : State) (v : Nat) (x : VDev) : (s.setVdev v x).msgs = s.msgs := rfl
@[simp] theorem State.setVdev_hostMem (s : State) (v : Nat) (x : VDev) : (s.setVdev v x).hostMem = s.hostMem := rfl
@[simp] theorem State.setVdev_links (s : State) (v : Nat) (x : VDev) : (s.setVdev v x).links = s.links := rfl
@[simp] theorem State.setVdev_shares (s : State) (v : Nat) (x : VDev) : (s.setVdev v x).shares = s.shares := rfl
@[simp] theorem State.setVdev_hostOut (s : State) (v : Nat) (x : VDev) : (s.setVdev v x).hostOut = s.hostOut := rfl
@[simp] theorem State.setVdev_shutBy (s : State) (v : Nat) (x : VDev) : (s.setVdev v x).shutBy = s.shutBy := rfl
@[simp] theorem State.setVdev_mgmt (s : State) (v : Nat) (x : VDev) : (s.setVdev v x).mgmt = s.mgmt := rfl
@[simp] theorem State.setVdev_meas (s : State) (v : Nat) (x : VDev) : (s.setVdev v x).meas = s.meas := rfl
@[simp] theorem State.setVdev_rollback (s : State) (v : Nat) (x : VDev) : (s.setVdev v x).rollback = s.rollback := rfl
@[simp] theorem State.setVdev_agenda (s : State) (v : Nat) (x : VDev) : (s.setVdev v x).agenda = s.agenda := rfl
@[simp] theorem State.setVdev_turn (s : State) (v : Nat) (x : VDev) : (s.setVdev v x).turn = s.turn := rfl
@[simp] theorem State.setVdev_cur (s : State) (v : Nat) (x : VDev) : (s.setVdev v x).cur = s.cur := rfl
@[simp] theorem State.setVdev_ticks (s : State) (v : Nat) (x : VDev) : (s.setVdev v x).ticks = s.ticks := rfl
@[simp] theorem State.setVdev_freeCtr (s : State) (v : Nat) (x : VDev) : (s.setVdev v x).freeCtr = s.freeCtr := rfl
@[simp] theorem State.setVdev_xlates (s : State) (v : Nat) (x : VDev) : (s.setVdev v x).xlates = s.xlates := rfl
@[simp] theorem State.setVdev_nextH (s : State) (v : Nat) (x : VDev) : (s.setVdev v x).nextH = s.nextH := rfl
@[simp] theorem State.setVdev_nextB (s : State) (v : Nat) (x : VDev) : (s.setVdev v x).nextB = s.nextB := rfl

/-- What setCore leaves and gives. -/
@[simp] theorem State.setCore_cores (s : State) (c : Nat) (x : Core) : (s.setCore c x).cores = tset s.cores c x := rfl
@[simp] theorem State.setCore_time (s : State) (c : Nat) (x : Core) : (s.setCore c x).time = s.time := rfl
@[simp] theorem State.setCore_phase (s : State) (c : Nat) (x : Core) : (s.setCore c x).phase = s.phase := rfl
@[simp] theorem State.setCore_pkg (s : State) (c : Nat) (x : Core) : (s.setCore c x).pkg = s.pkg := rfl
@[simp] theorem State.setCore_mem (s : State) (c : Nat) (x : Core) : (s.setCore c x).mem = s.mem := rfl
@[simp] theorem State.setCore_clearPend (s : State) (c : Nat) (x : Core) : (s.setCore c x).clearPend = s.clearPend := rfl
@[simp] theorem State.setCore_memErr (s : State) (c : Nat) (x : Core) : (s.setCore c x).memErr = s.memErr := rfl
@[simp] theorem State.setCore_owned (s : State) (c : Nat) (x : Core) : (s.setCore c x).owned = s.owned := rfl
@[simp] theorem State.setCore_regions (s : State) (c : Nat) (x : Core) : (s.setCore c x).regions = s.regions := rfl
@[simp] theorem State.setCore_commonsGroups (s : State) (c : Nat) (x : Core) : (s.setCore c x).commonsGroups = s.commonsGroups := rfl
@[simp] theorem State.setCore_commonsInter (s : State) (c : Nat) (x : Core) : (s.setCore c x).commonsInter = s.commonsInter := rfl
@[simp] theorem State.setCore_parts (s : State) (c : Nat) (x : Core) : (s.setCore c x).parts = s.parts := rfl
@[simp] theorem State.setCore_vdevs (s : State) (c : Nat) (x : Core) : (s.setCore c x).vdevs = s.vdevs := rfl
@[simp] theorem State.setCore_threads (s : State) (c : Nat) (x : Core) : (s.setCore c x).threads = s.threads := rfl
@[simp] theorem State.setCore_dies (s : State) (c : Nat) (x : Core) : (s.setCore c x).dies = s.dies := rfl
@[simp] theorem State.setCore_served (s : State) (c : Nat) (x : Core) : (s.setCore c x).served = s.served := rfl
@[simp] theorem State.setCore_tasks (s : State) (c : Nat) (x : Core) : (s.setCore c x).tasks = s.tasks := rfl
@[simp] theorem State.setCore_subs (s : State) (c : Nat) (x : Core) : (s.setCore c x).subs = s.subs := rfl
@[simp] theorem State.setCore_bars (s : State) (c : Nat) (x : Core) : (s.setCore c x).bars = s.bars := rfl
@[simp] theorem State.setCore_podLost (s : State) (c : Nat) (x : Core) : (s.setCore c x).podLost = s.podLost := rfl
@[simp] theorem State.setCore_bundles (s : State) (c : Nat) (x : Core) : (s.setCore c x).bundles = s.bundles := rfl
@[simp] theorem State.setCore_serials (s : State) (c : Nat) (x : Core) : (s.setCore c x).serials = s.serials := rfl
@[simp] theorem State.setCore_msgs (s : State) (c : Nat) (x : Core) : (s.setCore c x).msgs = s.msgs := rfl
@[simp] theorem State.setCore_hostMem (s : State) (c : Nat) (x : Core) : (s.setCore c x).hostMem = s.hostMem := rfl
@[simp] theorem State.setCore_links (s : State) (c : Nat) (x : Core) : (s.setCore c x).links = s.links := rfl
@[simp] theorem State.setCore_shares (s : State) (c : Nat) (x : Core) : (s.setCore c x).shares = s.shares := rfl
@[simp] theorem State.setCore_hostOut (s : State) (c : Nat) (x : Core) : (s.setCore c x).hostOut = s.hostOut := rfl
@[simp] theorem State.setCore_shutBy (s : State) (c : Nat) (x : Core) : (s.setCore c x).shutBy = s.shutBy := rfl
@[simp] theorem State.setCore_mgmt (s : State) (c : Nat) (x : Core) : (s.setCore c x).mgmt = s.mgmt := rfl
@[simp] theorem State.setCore_meas (s : State) (c : Nat) (x : Core) : (s.setCore c x).meas = s.meas := rfl
@[simp] theorem State.setCore_rollback (s : State) (c : Nat) (x : Core) : (s.setCore c x).rollback = s.rollback := rfl
@[simp] theorem State.setCore_agenda (s : State) (c : Nat) (x : Core) : (s.setCore c x).agenda = s.agenda := rfl
@[simp] theorem State.setCore_turn (s : State) (c : Nat) (x : Core) : (s.setCore c x).turn = s.turn := rfl
@[simp] theorem State.setCore_cur (s : State) (c : Nat) (x : Core) : (s.setCore c x).cur = s.cur := rfl
@[simp] theorem State.setCore_ticks (s : State) (c : Nat) (x : Core) : (s.setCore c x).ticks = s.ticks := rfl
@[simp] theorem State.setCore_freeCtr (s : State) (c : Nat) (x : Core) : (s.setCore c x).freeCtr = s.freeCtr := rfl
@[simp] theorem State.setCore_xlates (s : State) (c : Nat) (x : Core) : (s.setCore c x).xlates = s.xlates := rfl
@[simp] theorem State.setCore_nextH (s : State) (c : Nat) (x : Core) : (s.setCore c x).nextH = s.nextH := rfl
@[simp] theorem State.setCore_nextB (s : State) (c : Nat) (x : Core) : (s.setCore c x).nextB = s.nextB := rfl

/-- What setDie leaves and gives. -/
@[simp] theorem State.setDie_dies (s : State) (d : Nat) (x : Die) : (s.setDie d x).dies = tset s.dies d x := rfl
@[simp] theorem State.setDie_time (s : State) (d : Nat) (x : Die) : (s.setDie d x).time = s.time := rfl
@[simp] theorem State.setDie_phase (s : State) (d : Nat) (x : Die) : (s.setDie d x).phase = s.phase := rfl
@[simp] theorem State.setDie_pkg (s : State) (d : Nat) (x : Die) : (s.setDie d x).pkg = s.pkg := rfl
@[simp] theorem State.setDie_mem (s : State) (d : Nat) (x : Die) : (s.setDie d x).mem = s.mem := rfl
@[simp] theorem State.setDie_clearPend (s : State) (d : Nat) (x : Die) : (s.setDie d x).clearPend = s.clearPend := rfl
@[simp] theorem State.setDie_memErr (s : State) (d : Nat) (x : Die) : (s.setDie d x).memErr = s.memErr := rfl
@[simp] theorem State.setDie_owned (s : State) (d : Nat) (x : Die) : (s.setDie d x).owned = s.owned := rfl
@[simp] theorem State.setDie_regions (s : State) (d : Nat) (x : Die) : (s.setDie d x).regions = s.regions := rfl
@[simp] theorem State.setDie_commonsGroups (s : State) (d : Nat) (x : Die) : (s.setDie d x).commonsGroups = s.commonsGroups := rfl
@[simp] theorem State.setDie_commonsInter (s : State) (d : Nat) (x : Die) : (s.setDie d x).commonsInter = s.commonsInter := rfl
@[simp] theorem State.setDie_parts (s : State) (d : Nat) (x : Die) : (s.setDie d x).parts = s.parts := rfl
@[simp] theorem State.setDie_vdevs (s : State) (d : Nat) (x : Die) : (s.setDie d x).vdevs = s.vdevs := rfl
@[simp] theorem State.setDie_threads (s : State) (d : Nat) (x : Die) : (s.setDie d x).threads = s.threads := rfl
@[simp] theorem State.setDie_cores (s : State) (d : Nat) (x : Die) : (s.setDie d x).cores = s.cores := rfl
@[simp] theorem State.setDie_served (s : State) (d : Nat) (x : Die) : (s.setDie d x).served = s.served := rfl
@[simp] theorem State.setDie_tasks (s : State) (d : Nat) (x : Die) : (s.setDie d x).tasks = s.tasks := rfl
@[simp] theorem State.setDie_subs (s : State) (d : Nat) (x : Die) : (s.setDie d x).subs = s.subs := rfl
@[simp] theorem State.setDie_bars (s : State) (d : Nat) (x : Die) : (s.setDie d x).bars = s.bars := rfl
@[simp] theorem State.setDie_podLost (s : State) (d : Nat) (x : Die) : (s.setDie d x).podLost = s.podLost := rfl
@[simp] theorem State.setDie_bundles (s : State) (d : Nat) (x : Die) : (s.setDie d x).bundles = s.bundles := rfl
@[simp] theorem State.setDie_serials (s : State) (d : Nat) (x : Die) : (s.setDie d x).serials = s.serials := rfl
@[simp] theorem State.setDie_msgs (s : State) (d : Nat) (x : Die) : (s.setDie d x).msgs = s.msgs := rfl
@[simp] theorem State.setDie_hostMem (s : State) (d : Nat) (x : Die) : (s.setDie d x).hostMem = s.hostMem := rfl
@[simp] theorem State.setDie_links (s : State) (d : Nat) (x : Die) : (s.setDie d x).links = s.links := rfl
@[simp] theorem State.setDie_shares (s : State) (d : Nat) (x : Die) : (s.setDie d x).shares = s.shares := rfl
@[simp] theorem State.setDie_hostOut (s : State) (d : Nat) (x : Die) : (s.setDie d x).hostOut = s.hostOut := rfl
@[simp] theorem State.setDie_shutBy (s : State) (d : Nat) (x : Die) : (s.setDie d x).shutBy = s.shutBy := rfl
@[simp] theorem State.setDie_mgmt (s : State) (d : Nat) (x : Die) : (s.setDie d x).mgmt = s.mgmt := rfl
@[simp] theorem State.setDie_meas (s : State) (d : Nat) (x : Die) : (s.setDie d x).meas = s.meas := rfl
@[simp] theorem State.setDie_rollback (s : State) (d : Nat) (x : Die) : (s.setDie d x).rollback = s.rollback := rfl
@[simp] theorem State.setDie_agenda (s : State) (d : Nat) (x : Die) : (s.setDie d x).agenda = s.agenda := rfl
@[simp] theorem State.setDie_turn (s : State) (d : Nat) (x : Die) : (s.setDie d x).turn = s.turn := rfl
@[simp] theorem State.setDie_cur (s : State) (d : Nat) (x : Die) : (s.setDie d x).cur = s.cur := rfl
@[simp] theorem State.setDie_ticks (s : State) (d : Nat) (x : Die) : (s.setDie d x).ticks = s.ticks := rfl
@[simp] theorem State.setDie_freeCtr (s : State) (d : Nat) (x : Die) : (s.setDie d x).freeCtr = s.freeCtr := rfl
@[simp] theorem State.setDie_xlates (s : State) (d : Nat) (x : Die) : (s.setDie d x).xlates = s.xlates := rfl
@[simp] theorem State.setDie_nextH (s : State) (d : Nat) (x : Die) : (s.setDie d x).nextH = s.nextH := rfl
@[simp] theorem State.setDie_nextB (s : State) (d : Nat) (x : Die) : (s.setDie d x).nextB = s.nextB := rfl

@[simp] theorem State.setTh_partAt (s : State) (h : Nat) (t : Thread) (i : Nat) : (s.setTh h t).partAt i = s.partAt i := rfl
@[simp] theorem State.setTh_vdevAt (s : State) (h : Nat) (t : Thread) (i : Nat) : (s.setTh h t).vdevAt i = s.vdevAt i := rfl
@[simp] theorem State.setTh_coreAt (s : State) (h : Nat) (t : Thread) (i : Nat) : (s.setTh h t).coreAt i = s.coreAt i := rfl
@[simp] theorem State.setTh_dieAt (s : State) (h : Nat) (t : Thread) (i : Nat) : (s.setTh h t).dieAt i = s.dieAt i := rfl
@[simp] theorem State.setPart_th (s : State) (p : Nat) (x : Partition) (i : Nat) : (s.setPart p x).th i = s.th i := rfl
@[simp] theorem State.setPart_vdevAt (s : State) (p : Nat) (x : Partition) (i : Nat) : (s.setPart p x).vdevAt i = s.vdevAt i := rfl
@[simp] theorem State.setPart_coreAt (s : State) (p : Nat) (x : Partition) (i : Nat) : (s.setPart p x).coreAt i = s.coreAt i := rfl
@[simp] theorem State.setPart_dieAt (s : State) (p : Nat) (x : Partition) (i : Nat) : (s.setPart p x).dieAt i = s.dieAt i := rfl
@[simp] theorem State.setVdev_th (s : State) (v : Nat) (x : VDev) (i : Nat) : (s.setVdev v x).th i = s.th i := rfl
@[simp] theorem State.setVdev_partAt (s : State) (v : Nat) (x : VDev) (i : Nat) : (s.setVdev v x).partAt i = s.partAt i := rfl
@[simp] theorem State.setVdev_coreAt (s : State) (v : Nat) (x : VDev) (i : Nat) : (s.setVdev v x).coreAt i = s.coreAt i := rfl
@[simp] theorem State.setVdev_dieAt (s : State) (v : Nat) (x : VDev) (i : Nat) : (s.setVdev v x).dieAt i = s.dieAt i := rfl
@[simp] theorem State.setCore_th (s : State) (c : Nat) (x : Core) (i : Nat) : (s.setCore c x).th i = s.th i := rfl
@[simp] theorem State.setCore_partAt (s : State) (c : Nat) (x : Core) (i : Nat) : (s.setCore c x).partAt i = s.partAt i := rfl
@[simp] theorem State.setCore_vdevAt (s : State) (c : Nat) (x : Core) (i : Nat) : (s.setCore c x).vdevAt i = s.vdevAt i := rfl
@[simp] theorem State.setCore_dieAt (s : State) (c : Nat) (x : Core) (i : Nat) : (s.setCore c x).dieAt i = s.dieAt i := rfl
@[simp] theorem State.setDie_th (s : State) (d : Nat) (x : Die) (i : Nat) : (s.setDie d x).th i = s.th i := rfl
@[simp] theorem State.setDie_partAt (s : State) (d : Nat) (x : Die) (i : Nat) : (s.setDie d x).partAt i = s.partAt i := rfl
@[simp] theorem State.setDie_vdevAt (s : State) (d : Nat) (x : Die) (i : Nat) : (s.setDie d x).vdevAt i = s.vdevAt i := rfl
@[simp] theorem State.setDie_coreAt (s : State) (d : Nat) (x : Die) (i : Nat) : (s.setDie d x).coreAt i = s.coreAt i := rfl

/-- What setPc leaves and gives. -/
@[simp] theorem Thread.setPc_pc (t : Thread) (x : Word) : (t.setPc x).pc = x := rfl
@[simp] theorem Thread.setPc_res (t : Thread) (x : Word) : (t.setPc x).res = t.res := rfl
@[simp] theorem Thread.setPc_part (t : Thread) (x : Word) : (t.setPc x).part = t.part := rfl
@[simp] theorem Thread.setPc_vdev (t : Thread) (x : Word) : (t.setPc x).vdev = t.vdev := rfl
@[simp] theorem Thread.setPc_task (t : Thread) (x : Word) : (t.setPc x).task = t.task := rfl
@[simp] theorem Thread.setPc_tid (t : Thread) (x : Word) : (t.setPc x).tid = t.tid := rfl
@[simp] theorem Thread.setPc_core (t : Thread) (x : Word) : (t.setPc x).core = t.core := rfl
@[simp] theorem Thread.setPc_slot (t : Thread) (x : Word) : (t.setPc x).slot = t.slot := rfl
@[simp] theorem Thread.setPc_regs (t : Thread) (x : Word) : (t.setPc x).regs = t.regs := rfl
@[simp] theorem Thread.setPc_wait (t : Thread) (x : Word) : (t.setPc x).wait = t.wait := rfl
@[simp] theorem Thread.setPc_pend (t : Thread) (x : Word) : (t.setPc x).pend = t.pend := rfl
@[simp] theorem Thread.setPc_queue (t : Thread) (x : Word) : (t.setPc x).queue = t.queue := rfl
@[simp] theorem Thread.setPc_retq (t : Thread) (x : Word) : (t.setPc x).retq = t.retq := rfl
@[simp] theorem Thread.setPc_qregs (t : Thread) (x : Word) : (t.setPc x).qregs = t.qregs := rfl
@[simp] theorem Thread.setPc_tokens (t : Thread) (x : Word) : (t.setPc x).tokens = t.tokens := rfl
@[simp] theorem Thread.setPc_vregs (t : Thread) (x : Word) : (t.setPc x).vregs = t.vregs := rfl
@[simp] theorem Thread.setPc_masks (t : Thread) (x : Word) : (t.setPc x).masks = t.masks := rfl
@[simp] theorem Thread.setPc_tiles (t : Thread) (x : Word) : (t.setPc x).tiles = t.tiles := rfl
@[simp] theorem Thread.setPc_ch (t : Thread) (x : Word) : (t.setPc x).ch = t.ch := rfl
@[simp] theorem Thread.setPc_vcfg (t : Thread) (x : Word) : (t.setPc x).vcfg = t.vcfg := rfl
@[simp] theorem Thread.setPc_vl (t : Thread) (x : Word) : (t.setPc x).vl = t.vl := rfl
@[simp] theorem Thread.setPc_vlmax (t : Thread) (x : Word) : (t.setPc x).vlmax = t.vlmax := rfl
@[simp] theorem Thread.setPc_vstart (t : Thread) (x : Word) : (t.setPc x).vstart = t.vstart := rfl
@[simp] theorem Thread.setPc_vstop (t : Thread) (x : Word) : (t.setPc x).vstop = t.vstop := rfl
@[simp] theorem Thread.setPc_avl (t : Thread) (x : Word) : (t.setPc x).avl = t.avl := rfl
@[simp] theorem Thread.setPc_flags (t : Thread) (x : Word) : (t.setPc x).flags = t.flags := rfl
@[simp] theorem Thread.setPc_tvec (t : Thread) (x : Word) : (t.setPc x).tvec = t.tvec := rfl
@[simp] theorem Thread.setPc_handler (t : Thread) (x : Word) : (t.setPc x).handler = t.handler := rfl
@[simp] theorem Thread.setPc_loop (t : Thread) (x : Word) : (t.setPc x).loop = t.loop := rfl
@[simp] theorem Thread.setPc_leases (t : Thread) (x : Word) : (t.setPc x).leases = t.leases := rfl
@[simp] theorem Thread.setPc_bopen (t : Thread) (x : Word) : (t.setPc x).bopen = t.bopen := rfl
@[simp] theorem Thread.setPc_svc (t : Thread) (x : Word) : (t.setPc x).svc = t.svc := rfl
@[simp] theorem Thread.setPc_chPend (t : Thread) (x : Word) : (t.setPc x).chPend = t.chPend := rfl
@[simp] theorem Thread.setPc_vlive (t : Thread) (x : Word) : (t.setPc x).vlive = t.vlive := rfl
@[simp] theorem Thread.setPc_vspan (t : Thread) (x : Word) : (t.setPc x).vspan = t.vspan := rfl
@[simp] theorem Thread.setPc_tdirty (t : Thread) (x : Word) : (t.setPc x).tdirty = t.tdirty := rfl
@[simp] theorem Thread.setPc_vstopPast (t : Thread) (x : Word) : (t.setPc x).vstopPast = t.vstopPast := rfl
@[simp] theorem Thread.setPc_arrivals (t : Thread) (x : Word) : (t.setPc x).arrivals = t.arrivals := rfl
@[simp] theorem Thread.setPc_ceng (t : Thread) (x : Word) : (t.setPc x).ceng = t.ceng := rfl
@[simp] theorem Thread.setPc_crun (t : Thread) (x : Word) : (t.setPc x).crun = t.crun := rfl
@[simp] theorem Thread.setPc_cstop (t : Thread) (x : Word) : (t.setPc x).cstop = t.cstop := rfl
@[simp] theorem Thread.setPc_binds (t : Thread) (x : Word) : (t.setPc x).binds = t.binds := rfl

/-- What setPend leaves and gives. -/
@[simp] theorem Thread.setPend_pend (t : Thread) (x : Option Pending) : (t.setPend x).pend = x := rfl
@[simp] theorem Thread.setPend_res (t : Thread) (x : Option Pending) : (t.setPend x).res = t.res := rfl
@[simp] theorem Thread.setPend_part (t : Thread) (x : Option Pending) : (t.setPend x).part = t.part := rfl
@[simp] theorem Thread.setPend_vdev (t : Thread) (x : Option Pending) : (t.setPend x).vdev = t.vdev := rfl
@[simp] theorem Thread.setPend_task (t : Thread) (x : Option Pending) : (t.setPend x).task = t.task := rfl
@[simp] theorem Thread.setPend_tid (t : Thread) (x : Option Pending) : (t.setPend x).tid = t.tid := rfl
@[simp] theorem Thread.setPend_core (t : Thread) (x : Option Pending) : (t.setPend x).core = t.core := rfl
@[simp] theorem Thread.setPend_slot (t : Thread) (x : Option Pending) : (t.setPend x).slot = t.slot := rfl
@[simp] theorem Thread.setPend_regs (t : Thread) (x : Option Pending) : (t.setPend x).regs = t.regs := rfl
@[simp] theorem Thread.setPend_pc (t : Thread) (x : Option Pending) : (t.setPend x).pc = t.pc := rfl
@[simp] theorem Thread.setPend_wait (t : Thread) (x : Option Pending) : (t.setPend x).wait = t.wait := rfl
@[simp] theorem Thread.setPend_queue (t : Thread) (x : Option Pending) : (t.setPend x).queue = t.queue := rfl
@[simp] theorem Thread.setPend_retq (t : Thread) (x : Option Pending) : (t.setPend x).retq = t.retq := rfl
@[simp] theorem Thread.setPend_qregs (t : Thread) (x : Option Pending) : (t.setPend x).qregs = t.qregs := rfl
@[simp] theorem Thread.setPend_tokens (t : Thread) (x : Option Pending) : (t.setPend x).tokens = t.tokens := rfl
@[simp] theorem Thread.setPend_vregs (t : Thread) (x : Option Pending) : (t.setPend x).vregs = t.vregs := rfl
@[simp] theorem Thread.setPend_masks (t : Thread) (x : Option Pending) : (t.setPend x).masks = t.masks := rfl
@[simp] theorem Thread.setPend_tiles (t : Thread) (x : Option Pending) : (t.setPend x).tiles = t.tiles := rfl
@[simp] theorem Thread.setPend_ch (t : Thread) (x : Option Pending) : (t.setPend x).ch = t.ch := rfl
@[simp] theorem Thread.setPend_vcfg (t : Thread) (x : Option Pending) : (t.setPend x).vcfg = t.vcfg := rfl
@[simp] theorem Thread.setPend_vl (t : Thread) (x : Option Pending) : (t.setPend x).vl = t.vl := rfl
@[simp] theorem Thread.setPend_vlmax (t : Thread) (x : Option Pending) : (t.setPend x).vlmax = t.vlmax := rfl
@[simp] theorem Thread.setPend_vstart (t : Thread) (x : Option Pending) : (t.setPend x).vstart = t.vstart := rfl
@[simp] theorem Thread.setPend_vstop (t : Thread) (x : Option Pending) : (t.setPend x).vstop = t.vstop := rfl
@[simp] theorem Thread.setPend_avl (t : Thread) (x : Option Pending) : (t.setPend x).avl = t.avl := rfl
@[simp] theorem Thread.setPend_flags (t : Thread) (x : Option Pending) : (t.setPend x).flags = t.flags := rfl
@[simp] theorem Thread.setPend_tvec (t : Thread) (x : Option Pending) : (t.setPend x).tvec = t.tvec := rfl
@[simp] theorem Thread.setPend_handler (t : Thread) (x : Option Pending) : (t.setPend x).handler = t.handler := rfl
@[simp] theorem Thread.setPend_loop (t : Thread) (x : Option Pending) : (t.setPend x).loop = t.loop := rfl
@[simp] theorem Thread.setPend_leases (t : Thread) (x : Option Pending) : (t.setPend x).leases = t.leases := rfl
@[simp] theorem Thread.setPend_bopen (t : Thread) (x : Option Pending) : (t.setPend x).bopen = t.bopen := rfl
@[simp] theorem Thread.setPend_svc (t : Thread) (x : Option Pending) : (t.setPend x).svc = t.svc := rfl
@[simp] theorem Thread.setPend_chPend (t : Thread) (x : Option Pending) : (t.setPend x).chPend = t.chPend := rfl
@[simp] theorem Thread.setPend_vlive (t : Thread) (x : Option Pending) : (t.setPend x).vlive = t.vlive := rfl
@[simp] theorem Thread.setPend_vspan (t : Thread) (x : Option Pending) : (t.setPend x).vspan = t.vspan := rfl
@[simp] theorem Thread.setPend_tdirty (t : Thread) (x : Option Pending) : (t.setPend x).tdirty = t.tdirty := rfl
@[simp] theorem Thread.setPend_vstopPast (t : Thread) (x : Option Pending) : (t.setPend x).vstopPast = t.vstopPast := rfl
@[simp] theorem Thread.setPend_arrivals (t : Thread) (x : Option Pending) : (t.setPend x).arrivals = t.arrivals := rfl
@[simp] theorem Thread.setPend_ceng (t : Thread) (x : Option Pending) : (t.setPend x).ceng = t.ceng := rfl
@[simp] theorem Thread.setPend_crun (t : Thread) (x : Option Pending) : (t.setPend x).crun = t.crun := rfl
@[simp] theorem Thread.setPend_cstop (t : Thread) (x : Option Pending) : (t.setPend x).cstop = t.cstop := rfl
@[simp] theorem Thread.setPend_binds (t : Thread) (x : Option Pending) : (t.setPend x).binds = t.binds := rfl

/-- What setLoop leaves and gives. -/
@[simp] theorem Thread.setLoop_loop (t : Thread) (x : Loop) : (t.setLoop x).loop = x := rfl
@[simp] theorem Thread.setLoop_res (t : Thread) (x : Loop) : (t.setLoop x).res = t.res := rfl
@[simp] theorem Thread.setLoop_part (t : Thread) (x : Loop) : (t.setLoop x).part = t.part := rfl
@[simp] theorem Thread.setLoop_vdev (t : Thread) (x : Loop) : (t.setLoop x).vdev = t.vdev := rfl
@[simp] theorem Thread.setLoop_task (t : Thread) (x : Loop) : (t.setLoop x).task = t.task := rfl
@[simp] theorem Thread.setLoop_tid (t : Thread) (x : Loop) : (t.setLoop x).tid = t.tid := rfl
@[simp] theorem Thread.setLoop_core (t : Thread) (x : Loop) : (t.setLoop x).core = t.core := rfl
@[simp] theorem Thread.setLoop_slot (t : Thread) (x : Loop) : (t.setLoop x).slot = t.slot := rfl
@[simp] theorem Thread.setLoop_regs (t : Thread) (x : Loop) : (t.setLoop x).regs = t.regs := rfl
@[simp] theorem Thread.setLoop_pc (t : Thread) (x : Loop) : (t.setLoop x).pc = t.pc := rfl
@[simp] theorem Thread.setLoop_wait (t : Thread) (x : Loop) : (t.setLoop x).wait = t.wait := rfl
@[simp] theorem Thread.setLoop_pend (t : Thread) (x : Loop) : (t.setLoop x).pend = t.pend := rfl
@[simp] theorem Thread.setLoop_queue (t : Thread) (x : Loop) : (t.setLoop x).queue = t.queue := rfl
@[simp] theorem Thread.setLoop_retq (t : Thread) (x : Loop) : (t.setLoop x).retq = t.retq := rfl
@[simp] theorem Thread.setLoop_qregs (t : Thread) (x : Loop) : (t.setLoop x).qregs = t.qregs := rfl
@[simp] theorem Thread.setLoop_tokens (t : Thread) (x : Loop) : (t.setLoop x).tokens = t.tokens := rfl
@[simp] theorem Thread.setLoop_vregs (t : Thread) (x : Loop) : (t.setLoop x).vregs = t.vregs := rfl
@[simp] theorem Thread.setLoop_masks (t : Thread) (x : Loop) : (t.setLoop x).masks = t.masks := rfl
@[simp] theorem Thread.setLoop_tiles (t : Thread) (x : Loop) : (t.setLoop x).tiles = t.tiles := rfl
@[simp] theorem Thread.setLoop_ch (t : Thread) (x : Loop) : (t.setLoop x).ch = t.ch := rfl
@[simp] theorem Thread.setLoop_vcfg (t : Thread) (x : Loop) : (t.setLoop x).vcfg = t.vcfg := rfl
@[simp] theorem Thread.setLoop_vl (t : Thread) (x : Loop) : (t.setLoop x).vl = t.vl := rfl
@[simp] theorem Thread.setLoop_vlmax (t : Thread) (x : Loop) : (t.setLoop x).vlmax = t.vlmax := rfl
@[simp] theorem Thread.setLoop_vstart (t : Thread) (x : Loop) : (t.setLoop x).vstart = t.vstart := rfl
@[simp] theorem Thread.setLoop_vstop (t : Thread) (x : Loop) : (t.setLoop x).vstop = t.vstop := rfl
@[simp] theorem Thread.setLoop_avl (t : Thread) (x : Loop) : (t.setLoop x).avl = t.avl := rfl
@[simp] theorem Thread.setLoop_flags (t : Thread) (x : Loop) : (t.setLoop x).flags = t.flags := rfl
@[simp] theorem Thread.setLoop_tvec (t : Thread) (x : Loop) : (t.setLoop x).tvec = t.tvec := rfl
@[simp] theorem Thread.setLoop_handler (t : Thread) (x : Loop) : (t.setLoop x).handler = t.handler := rfl
@[simp] theorem Thread.setLoop_leases (t : Thread) (x : Loop) : (t.setLoop x).leases = t.leases := rfl
@[simp] theorem Thread.setLoop_bopen (t : Thread) (x : Loop) : (t.setLoop x).bopen = t.bopen := rfl
@[simp] theorem Thread.setLoop_svc (t : Thread) (x : Loop) : (t.setLoop x).svc = t.svc := rfl
@[simp] theorem Thread.setLoop_chPend (t : Thread) (x : Loop) : (t.setLoop x).chPend = t.chPend := rfl
@[simp] theorem Thread.setLoop_vlive (t : Thread) (x : Loop) : (t.setLoop x).vlive = t.vlive := rfl
@[simp] theorem Thread.setLoop_vspan (t : Thread) (x : Loop) : (t.setLoop x).vspan = t.vspan := rfl
@[simp] theorem Thread.setLoop_tdirty (t : Thread) (x : Loop) : (t.setLoop x).tdirty = t.tdirty := rfl
@[simp] theorem Thread.setLoop_vstopPast (t : Thread) (x : Loop) : (t.setLoop x).vstopPast = t.vstopPast := rfl
@[simp] theorem Thread.setLoop_arrivals (t : Thread) (x : Loop) : (t.setLoop x).arrivals = t.arrivals := rfl
@[simp] theorem Thread.setLoop_ceng (t : Thread) (x : Loop) : (t.setLoop x).ceng = t.ceng := rfl
@[simp] theorem Thread.setLoop_crun (t : Thread) (x : Loop) : (t.setLoop x).crun = t.crun := rfl
@[simp] theorem Thread.setLoop_cstop (t : Thread) (x : Loop) : (t.setLoop x).cstop = t.cstop := rfl
@[simp] theorem Thread.setLoop_binds (t : Thread) (x : Loop) : (t.setLoop x).binds = t.binds := rfl

/-- What setVstop leaves and gives. -/
@[simp] theorem Thread.setVstop_vstop (t : Thread) (x : BitVec 21) : (t.setVstop x).vstop = x := rfl
@[simp] theorem Thread.setVstop_res (t : Thread) (x : BitVec 21) : (t.setVstop x).res = t.res := rfl
@[simp] theorem Thread.setVstop_part (t : Thread) (x : BitVec 21) : (t.setVstop x).part = t.part := rfl
@[simp] theorem Thread.setVstop_vdev (t : Thread) (x : BitVec 21) : (t.setVstop x).vdev = t.vdev := rfl
@[simp] theorem Thread.setVstop_task (t : Thread) (x : BitVec 21) : (t.setVstop x).task = t.task := rfl
@[simp] theorem Thread.setVstop_tid (t : Thread) (x : BitVec 21) : (t.setVstop x).tid = t.tid := rfl
@[simp] theorem Thread.setVstop_core (t : Thread) (x : BitVec 21) : (t.setVstop x).core = t.core := rfl
@[simp] theorem Thread.setVstop_slot (t : Thread) (x : BitVec 21) : (t.setVstop x).slot = t.slot := rfl
@[simp] theorem Thread.setVstop_regs (t : Thread) (x : BitVec 21) : (t.setVstop x).regs = t.regs := rfl
@[simp] theorem Thread.setVstop_pc (t : Thread) (x : BitVec 21) : (t.setVstop x).pc = t.pc := rfl
@[simp] theorem Thread.setVstop_wait (t : Thread) (x : BitVec 21) : (t.setVstop x).wait = t.wait := rfl
@[simp] theorem Thread.setVstop_pend (t : Thread) (x : BitVec 21) : (t.setVstop x).pend = t.pend := rfl
@[simp] theorem Thread.setVstop_queue (t : Thread) (x : BitVec 21) : (t.setVstop x).queue = t.queue := rfl
@[simp] theorem Thread.setVstop_retq (t : Thread) (x : BitVec 21) : (t.setVstop x).retq = t.retq := rfl
@[simp] theorem Thread.setVstop_qregs (t : Thread) (x : BitVec 21) : (t.setVstop x).qregs = t.qregs := rfl
@[simp] theorem Thread.setVstop_tokens (t : Thread) (x : BitVec 21) : (t.setVstop x).tokens = t.tokens := rfl
@[simp] theorem Thread.setVstop_vregs (t : Thread) (x : BitVec 21) : (t.setVstop x).vregs = t.vregs := rfl
@[simp] theorem Thread.setVstop_masks (t : Thread) (x : BitVec 21) : (t.setVstop x).masks = t.masks := rfl
@[simp] theorem Thread.setVstop_tiles (t : Thread) (x : BitVec 21) : (t.setVstop x).tiles = t.tiles := rfl
@[simp] theorem Thread.setVstop_ch (t : Thread) (x : BitVec 21) : (t.setVstop x).ch = t.ch := rfl
@[simp] theorem Thread.setVstop_vcfg (t : Thread) (x : BitVec 21) : (t.setVstop x).vcfg = t.vcfg := rfl
@[simp] theorem Thread.setVstop_vl (t : Thread) (x : BitVec 21) : (t.setVstop x).vl = t.vl := rfl
@[simp] theorem Thread.setVstop_vlmax (t : Thread) (x : BitVec 21) : (t.setVstop x).vlmax = t.vlmax := rfl
@[simp] theorem Thread.setVstop_vstart (t : Thread) (x : BitVec 21) : (t.setVstop x).vstart = t.vstart := rfl
@[simp] theorem Thread.setVstop_avl (t : Thread) (x : BitVec 21) : (t.setVstop x).avl = t.avl := rfl
@[simp] theorem Thread.setVstop_flags (t : Thread) (x : BitVec 21) : (t.setVstop x).flags = t.flags := rfl
@[simp] theorem Thread.setVstop_tvec (t : Thread) (x : BitVec 21) : (t.setVstop x).tvec = t.tvec := rfl
@[simp] theorem Thread.setVstop_handler (t : Thread) (x : BitVec 21) : (t.setVstop x).handler = t.handler := rfl
@[simp] theorem Thread.setVstop_loop (t : Thread) (x : BitVec 21) : (t.setVstop x).loop = t.loop := rfl
@[simp] theorem Thread.setVstop_leases (t : Thread) (x : BitVec 21) : (t.setVstop x).leases = t.leases := rfl
@[simp] theorem Thread.setVstop_bopen (t : Thread) (x : BitVec 21) : (t.setVstop x).bopen = t.bopen := rfl
@[simp] theorem Thread.setVstop_svc (t : Thread) (x : BitVec 21) : (t.setVstop x).svc = t.svc := rfl
@[simp] theorem Thread.setVstop_chPend (t : Thread) (x : BitVec 21) : (t.setVstop x).chPend = t.chPend := rfl
@[simp] theorem Thread.setVstop_vlive (t : Thread) (x : BitVec 21) : (t.setVstop x).vlive = t.vlive := rfl
@[simp] theorem Thread.setVstop_vspan (t : Thread) (x : BitVec 21) : (t.setVstop x).vspan = t.vspan := rfl
@[simp] theorem Thread.setVstop_tdirty (t : Thread) (x : BitVec 21) : (t.setVstop x).tdirty = t.tdirty := rfl
@[simp] theorem Thread.setVstop_vstopPast (t : Thread) (x : BitVec 21) : (t.setVstop x).vstopPast = t.vstopPast := rfl
@[simp] theorem Thread.setVstop_arrivals (t : Thread) (x : BitVec 21) : (t.setVstop x).arrivals = t.arrivals := rfl
@[simp] theorem Thread.setVstop_ceng (t : Thread) (x : BitVec 21) : (t.setVstop x).ceng = t.ceng := rfl
@[simp] theorem Thread.setVstop_crun (t : Thread) (x : BitVec 21) : (t.setVstop x).crun = t.crun := rfl
@[simp] theorem Thread.setVstop_cstop (t : Thread) (x : BitVec 21) : (t.setVstop x).cstop = t.cstop := rfl
@[simp] theorem Thread.setVstop_binds (t : Thread) (x : BitVec 21) : (t.setVstop x).binds = t.binds := rfl

/-- What setWait leaves and gives. -/
@[simp] theorem Thread.setWait_wait (t : Thread) (x : Option Wait) : (t.setWait x).wait = x := rfl
@[simp] theorem Thread.setWait_res (t : Thread) (x : Option Wait) : (t.setWait x).res = t.res := rfl
@[simp] theorem Thread.setWait_part (t : Thread) (x : Option Wait) : (t.setWait x).part = t.part := rfl
@[simp] theorem Thread.setWait_vdev (t : Thread) (x : Option Wait) : (t.setWait x).vdev = t.vdev := rfl
@[simp] theorem Thread.setWait_task (t : Thread) (x : Option Wait) : (t.setWait x).task = t.task := rfl
@[simp] theorem Thread.setWait_tid (t : Thread) (x : Option Wait) : (t.setWait x).tid = t.tid := rfl
@[simp] theorem Thread.setWait_core (t : Thread) (x : Option Wait) : (t.setWait x).core = t.core := rfl
@[simp] theorem Thread.setWait_slot (t : Thread) (x : Option Wait) : (t.setWait x).slot = t.slot := rfl
@[simp] theorem Thread.setWait_regs (t : Thread) (x : Option Wait) : (t.setWait x).regs = t.regs := rfl
@[simp] theorem Thread.setWait_pc (t : Thread) (x : Option Wait) : (t.setWait x).pc = t.pc := rfl
@[simp] theorem Thread.setWait_pend (t : Thread) (x : Option Wait) : (t.setWait x).pend = t.pend := rfl
@[simp] theorem Thread.setWait_queue (t : Thread) (x : Option Wait) : (t.setWait x).queue = t.queue := rfl
@[simp] theorem Thread.setWait_retq (t : Thread) (x : Option Wait) : (t.setWait x).retq = t.retq := rfl
@[simp] theorem Thread.setWait_qregs (t : Thread) (x : Option Wait) : (t.setWait x).qregs = t.qregs := rfl
@[simp] theorem Thread.setWait_tokens (t : Thread) (x : Option Wait) : (t.setWait x).tokens = t.tokens := rfl
@[simp] theorem Thread.setWait_vregs (t : Thread) (x : Option Wait) : (t.setWait x).vregs = t.vregs := rfl
@[simp] theorem Thread.setWait_masks (t : Thread) (x : Option Wait) : (t.setWait x).masks = t.masks := rfl
@[simp] theorem Thread.setWait_tiles (t : Thread) (x : Option Wait) : (t.setWait x).tiles = t.tiles := rfl
@[simp] theorem Thread.setWait_ch (t : Thread) (x : Option Wait) : (t.setWait x).ch = t.ch := rfl
@[simp] theorem Thread.setWait_vcfg (t : Thread) (x : Option Wait) : (t.setWait x).vcfg = t.vcfg := rfl
@[simp] theorem Thread.setWait_vl (t : Thread) (x : Option Wait) : (t.setWait x).vl = t.vl := rfl
@[simp] theorem Thread.setWait_vlmax (t : Thread) (x : Option Wait) : (t.setWait x).vlmax = t.vlmax := rfl
@[simp] theorem Thread.setWait_vstart (t : Thread) (x : Option Wait) : (t.setWait x).vstart = t.vstart := rfl
@[simp] theorem Thread.setWait_vstop (t : Thread) (x : Option Wait) : (t.setWait x).vstop = t.vstop := rfl
@[simp] theorem Thread.setWait_avl (t : Thread) (x : Option Wait) : (t.setWait x).avl = t.avl := rfl
@[simp] theorem Thread.setWait_flags (t : Thread) (x : Option Wait) : (t.setWait x).flags = t.flags := rfl
@[simp] theorem Thread.setWait_tvec (t : Thread) (x : Option Wait) : (t.setWait x).tvec = t.tvec := rfl
@[simp] theorem Thread.setWait_handler (t : Thread) (x : Option Wait) : (t.setWait x).handler = t.handler := rfl
@[simp] theorem Thread.setWait_loop (t : Thread) (x : Option Wait) : (t.setWait x).loop = t.loop := rfl
@[simp] theorem Thread.setWait_leases (t : Thread) (x : Option Wait) : (t.setWait x).leases = t.leases := rfl
@[simp] theorem Thread.setWait_bopen (t : Thread) (x : Option Wait) : (t.setWait x).bopen = t.bopen := rfl
@[simp] theorem Thread.setWait_svc (t : Thread) (x : Option Wait) : (t.setWait x).svc = t.svc := rfl
@[simp] theorem Thread.setWait_chPend (t : Thread) (x : Option Wait) : (t.setWait x).chPend = t.chPend := rfl
@[simp] theorem Thread.setWait_vlive (t : Thread) (x : Option Wait) : (t.setWait x).vlive = t.vlive := rfl
@[simp] theorem Thread.setWait_vspan (t : Thread) (x : Option Wait) : (t.setWait x).vspan = t.vspan := rfl
@[simp] theorem Thread.setWait_tdirty (t : Thread) (x : Option Wait) : (t.setWait x).tdirty = t.tdirty := rfl
@[simp] theorem Thread.setWait_vstopPast (t : Thread) (x : Option Wait) : (t.setWait x).vstopPast = t.vstopPast := rfl
@[simp] theorem Thread.setWait_arrivals (t : Thread) (x : Option Wait) : (t.setWait x).arrivals = t.arrivals := rfl
@[simp] theorem Thread.setWait_ceng (t : Thread) (x : Option Wait) : (t.setWait x).ceng = t.ceng := rfl
@[simp] theorem Thread.setWait_crun (t : Thread) (x : Option Wait) : (t.setWait x).crun = t.crun := rfl
@[simp] theorem Thread.setWait_cstop (t : Thread) (x : Option Wait) : (t.setWait x).cstop = t.cstop := rfl
@[simp] theorem Thread.setWait_binds (t : Thread) (x : Option Wait) : (t.setWait x).binds = t.binds := rfl

/-- What setRetq leaves and gives. -/
@[simp] theorem Thread.setRetq_retq (t : Thread) (x : List (BitVec 4)) : (t.setRetq x).retq = x := rfl
@[simp] theorem Thread.setRetq_res (t : Thread) (x : List (BitVec 4)) : (t.setRetq x).res = t.res := rfl
@[simp] theorem Thread.setRetq_part (t : Thread) (x : List (BitVec 4)) : (t.setRetq x).part = t.part := rfl
@[simp] theorem Thread.setRetq_vdev (t : Thread) (x : List (BitVec 4)) : (t.setRetq x).vdev = t.vdev := rfl
@[simp] theorem Thread.setRetq_task (t : Thread) (x : List (BitVec 4)) : (t.setRetq x).task = t.task := rfl
@[simp] theorem Thread.setRetq_tid (t : Thread) (x : List (BitVec 4)) : (t.setRetq x).tid = t.tid := rfl
@[simp] theorem Thread.setRetq_core (t : Thread) (x : List (BitVec 4)) : (t.setRetq x).core = t.core := rfl
@[simp] theorem Thread.setRetq_slot (t : Thread) (x : List (BitVec 4)) : (t.setRetq x).slot = t.slot := rfl
@[simp] theorem Thread.setRetq_regs (t : Thread) (x : List (BitVec 4)) : (t.setRetq x).regs = t.regs := rfl
@[simp] theorem Thread.setRetq_pc (t : Thread) (x : List (BitVec 4)) : (t.setRetq x).pc = t.pc := rfl
@[simp] theorem Thread.setRetq_wait (t : Thread) (x : List (BitVec 4)) : (t.setRetq x).wait = t.wait := rfl
@[simp] theorem Thread.setRetq_pend (t : Thread) (x : List (BitVec 4)) : (t.setRetq x).pend = t.pend := rfl
@[simp] theorem Thread.setRetq_queue (t : Thread) (x : List (BitVec 4)) : (t.setRetq x).queue = t.queue := rfl
@[simp] theorem Thread.setRetq_qregs (t : Thread) (x : List (BitVec 4)) : (t.setRetq x).qregs = t.qregs := rfl
@[simp] theorem Thread.setRetq_tokens (t : Thread) (x : List (BitVec 4)) : (t.setRetq x).tokens = t.tokens := rfl
@[simp] theorem Thread.setRetq_vregs (t : Thread) (x : List (BitVec 4)) : (t.setRetq x).vregs = t.vregs := rfl
@[simp] theorem Thread.setRetq_masks (t : Thread) (x : List (BitVec 4)) : (t.setRetq x).masks = t.masks := rfl
@[simp] theorem Thread.setRetq_tiles (t : Thread) (x : List (BitVec 4)) : (t.setRetq x).tiles = t.tiles := rfl
@[simp] theorem Thread.setRetq_ch (t : Thread) (x : List (BitVec 4)) : (t.setRetq x).ch = t.ch := rfl
@[simp] theorem Thread.setRetq_vcfg (t : Thread) (x : List (BitVec 4)) : (t.setRetq x).vcfg = t.vcfg := rfl
@[simp] theorem Thread.setRetq_vl (t : Thread) (x : List (BitVec 4)) : (t.setRetq x).vl = t.vl := rfl
@[simp] theorem Thread.setRetq_vlmax (t : Thread) (x : List (BitVec 4)) : (t.setRetq x).vlmax = t.vlmax := rfl
@[simp] theorem Thread.setRetq_vstart (t : Thread) (x : List (BitVec 4)) : (t.setRetq x).vstart = t.vstart := rfl
@[simp] theorem Thread.setRetq_vstop (t : Thread) (x : List (BitVec 4)) : (t.setRetq x).vstop = t.vstop := rfl
@[simp] theorem Thread.setRetq_avl (t : Thread) (x : List (BitVec 4)) : (t.setRetq x).avl = t.avl := rfl
@[simp] theorem Thread.setRetq_flags (t : Thread) (x : List (BitVec 4)) : (t.setRetq x).flags = t.flags := rfl
@[simp] theorem Thread.setRetq_tvec (t : Thread) (x : List (BitVec 4)) : (t.setRetq x).tvec = t.tvec := rfl
@[simp] theorem Thread.setRetq_handler (t : Thread) (x : List (BitVec 4)) : (t.setRetq x).handler = t.handler := rfl
@[simp] theorem Thread.setRetq_loop (t : Thread) (x : List (BitVec 4)) : (t.setRetq x).loop = t.loop := rfl
@[simp] theorem Thread.setRetq_leases (t : Thread) (x : List (BitVec 4)) : (t.setRetq x).leases = t.leases := rfl
@[simp] theorem Thread.setRetq_bopen (t : Thread) (x : List (BitVec 4)) : (t.setRetq x).bopen = t.bopen := rfl
@[simp] theorem Thread.setRetq_svc (t : Thread) (x : List (BitVec 4)) : (t.setRetq x).svc = t.svc := rfl
@[simp] theorem Thread.setRetq_chPend (t : Thread) (x : List (BitVec 4)) : (t.setRetq x).chPend = t.chPend := rfl
@[simp] theorem Thread.setRetq_vlive (t : Thread) (x : List (BitVec 4)) : (t.setRetq x).vlive = t.vlive := rfl
@[simp] theorem Thread.setRetq_vspan (t : Thread) (x : List (BitVec 4)) : (t.setRetq x).vspan = t.vspan := rfl
@[simp] theorem Thread.setRetq_tdirty (t : Thread) (x : List (BitVec 4)) : (t.setRetq x).tdirty = t.tdirty := rfl
@[simp] theorem Thread.setRetq_vstopPast (t : Thread) (x : List (BitVec 4)) : (t.setRetq x).vstopPast = t.vstopPast := rfl
@[simp] theorem Thread.setRetq_arrivals (t : Thread) (x : List (BitVec 4)) : (t.setRetq x).arrivals = t.arrivals := rfl
@[simp] theorem Thread.setRetq_ceng (t : Thread) (x : List (BitVec 4)) : (t.setRetq x).ceng = t.ceng := rfl
@[simp] theorem Thread.setRetq_crun (t : Thread) (x : List (BitVec 4)) : (t.setRetq x).crun = t.crun := rfl
@[simp] theorem Thread.setRetq_cstop (t : Thread) (x : List (BitVec 4)) : (t.setRetq x).cstop = t.cstop := rfl
@[simp] theorem Thread.setRetq_binds (t : Thread) (x : List (BitVec 4)) : (t.setRetq x).binds = t.binds := rfl

/-- What setQueue leaves and gives. -/
@[simp] theorem Thread.setQueue_queue (t : Thread) (x : List QEntry) : (t.setQueue x).queue = x := rfl
@[simp] theorem Thread.setQueue_res (t : Thread) (x : List QEntry) : (t.setQueue x).res = t.res := rfl
@[simp] theorem Thread.setQueue_part (t : Thread) (x : List QEntry) : (t.setQueue x).part = t.part := rfl
@[simp] theorem Thread.setQueue_vdev (t : Thread) (x : List QEntry) : (t.setQueue x).vdev = t.vdev := rfl
@[simp] theorem Thread.setQueue_task (t : Thread) (x : List QEntry) : (t.setQueue x).task = t.task := rfl
@[simp] theorem Thread.setQueue_tid (t : Thread) (x : List QEntry) : (t.setQueue x).tid = t.tid := rfl
@[simp] theorem Thread.setQueue_core (t : Thread) (x : List QEntry) : (t.setQueue x).core = t.core := rfl
@[simp] theorem Thread.setQueue_slot (t : Thread) (x : List QEntry) : (t.setQueue x).slot = t.slot := rfl
@[simp] theorem Thread.setQueue_regs (t : Thread) (x : List QEntry) : (t.setQueue x).regs = t.regs := rfl
@[simp] theorem Thread.setQueue_pc (t : Thread) (x : List QEntry) : (t.setQueue x).pc = t.pc := rfl
@[simp] theorem Thread.setQueue_wait (t : Thread) (x : List QEntry) : (t.setQueue x).wait = t.wait := rfl
@[simp] theorem Thread.setQueue_pend (t : Thread) (x : List QEntry) : (t.setQueue x).pend = t.pend := rfl
@[simp] theorem Thread.setQueue_retq (t : Thread) (x : List QEntry) : (t.setQueue x).retq = t.retq := rfl
@[simp] theorem Thread.setQueue_qregs (t : Thread) (x : List QEntry) : (t.setQueue x).qregs = t.qregs := rfl
@[simp] theorem Thread.setQueue_tokens (t : Thread) (x : List QEntry) : (t.setQueue x).tokens = t.tokens := rfl
@[simp] theorem Thread.setQueue_vregs (t : Thread) (x : List QEntry) : (t.setQueue x).vregs = t.vregs := rfl
@[simp] theorem Thread.setQueue_masks (t : Thread) (x : List QEntry) : (t.setQueue x).masks = t.masks := rfl
@[simp] theorem Thread.setQueue_tiles (t : Thread) (x : List QEntry) : (t.setQueue x).tiles = t.tiles := rfl
@[simp] theorem Thread.setQueue_ch (t : Thread) (x : List QEntry) : (t.setQueue x).ch = t.ch := rfl
@[simp] theorem Thread.setQueue_vcfg (t : Thread) (x : List QEntry) : (t.setQueue x).vcfg = t.vcfg := rfl
@[simp] theorem Thread.setQueue_vl (t : Thread) (x : List QEntry) : (t.setQueue x).vl = t.vl := rfl
@[simp] theorem Thread.setQueue_vlmax (t : Thread) (x : List QEntry) : (t.setQueue x).vlmax = t.vlmax := rfl
@[simp] theorem Thread.setQueue_vstart (t : Thread) (x : List QEntry) : (t.setQueue x).vstart = t.vstart := rfl
@[simp] theorem Thread.setQueue_vstop (t : Thread) (x : List QEntry) : (t.setQueue x).vstop = t.vstop := rfl
@[simp] theorem Thread.setQueue_avl (t : Thread) (x : List QEntry) : (t.setQueue x).avl = t.avl := rfl
@[simp] theorem Thread.setQueue_flags (t : Thread) (x : List QEntry) : (t.setQueue x).flags = t.flags := rfl
@[simp] theorem Thread.setQueue_tvec (t : Thread) (x : List QEntry) : (t.setQueue x).tvec = t.tvec := rfl
@[simp] theorem Thread.setQueue_handler (t : Thread) (x : List QEntry) : (t.setQueue x).handler = t.handler := rfl
@[simp] theorem Thread.setQueue_loop (t : Thread) (x : List QEntry) : (t.setQueue x).loop = t.loop := rfl
@[simp] theorem Thread.setQueue_leases (t : Thread) (x : List QEntry) : (t.setQueue x).leases = t.leases := rfl
@[simp] theorem Thread.setQueue_bopen (t : Thread) (x : List QEntry) : (t.setQueue x).bopen = t.bopen := rfl
@[simp] theorem Thread.setQueue_svc (t : Thread) (x : List QEntry) : (t.setQueue x).svc = t.svc := rfl
@[simp] theorem Thread.setQueue_chPend (t : Thread) (x : List QEntry) : (t.setQueue x).chPend = t.chPend := rfl
@[simp] theorem Thread.setQueue_vlive (t : Thread) (x : List QEntry) : (t.setQueue x).vlive = t.vlive := rfl
@[simp] theorem Thread.setQueue_vspan (t : Thread) (x : List QEntry) : (t.setQueue x).vspan = t.vspan := rfl
@[simp] theorem Thread.setQueue_tdirty (t : Thread) (x : List QEntry) : (t.setQueue x).tdirty = t.tdirty := rfl
@[simp] theorem Thread.setQueue_vstopPast (t : Thread) (x : List QEntry) : (t.setQueue x).vstopPast = t.vstopPast := rfl
@[simp] theorem Thread.setQueue_arrivals (t : Thread) (x : List QEntry) : (t.setQueue x).arrivals = t.arrivals := rfl
@[simp] theorem Thread.setQueue_ceng (t : Thread) (x : List QEntry) : (t.setQueue x).ceng = t.ceng := rfl
@[simp] theorem Thread.setQueue_crun (t : Thread) (x : List QEntry) : (t.setQueue x).crun = t.crun := rfl
@[simp] theorem Thread.setQueue_cstop (t : Thread) (x : List QEntry) : (t.setQueue x).cstop = t.cstop := rfl
@[simp] theorem Thread.setQueue_binds (t : Thread) (x : List QEntry) : (t.setQueue x).binds = t.binds := rfl

/-- What setVregs leaves and gives. -/
@[simp] theorem Thread.setVregs_vregs (t : Thread) (x : Memory) : (t.setVregs x).vregs = x := rfl
@[simp] theorem Thread.setVregs_res (t : Thread) (x : Memory) : (t.setVregs x).res = t.res := rfl
@[simp] theorem Thread.setVregs_part (t : Thread) (x : Memory) : (t.setVregs x).part = t.part := rfl
@[simp] theorem Thread.setVregs_vdev (t : Thread) (x : Memory) : (t.setVregs x).vdev = t.vdev := rfl
@[simp] theorem Thread.setVregs_task (t : Thread) (x : Memory) : (t.setVregs x).task = t.task := rfl
@[simp] theorem Thread.setVregs_tid (t : Thread) (x : Memory) : (t.setVregs x).tid = t.tid := rfl
@[simp] theorem Thread.setVregs_core (t : Thread) (x : Memory) : (t.setVregs x).core = t.core := rfl
@[simp] theorem Thread.setVregs_slot (t : Thread) (x : Memory) : (t.setVregs x).slot = t.slot := rfl
@[simp] theorem Thread.setVregs_regs (t : Thread) (x : Memory) : (t.setVregs x).regs = t.regs := rfl
@[simp] theorem Thread.setVregs_pc (t : Thread) (x : Memory) : (t.setVregs x).pc = t.pc := rfl
@[simp] theorem Thread.setVregs_wait (t : Thread) (x : Memory) : (t.setVregs x).wait = t.wait := rfl
@[simp] theorem Thread.setVregs_pend (t : Thread) (x : Memory) : (t.setVregs x).pend = t.pend := rfl
@[simp] theorem Thread.setVregs_queue (t : Thread) (x : Memory) : (t.setVregs x).queue = t.queue := rfl
@[simp] theorem Thread.setVregs_retq (t : Thread) (x : Memory) : (t.setVregs x).retq = t.retq := rfl
@[simp] theorem Thread.setVregs_qregs (t : Thread) (x : Memory) : (t.setVregs x).qregs = t.qregs := rfl
@[simp] theorem Thread.setVregs_tokens (t : Thread) (x : Memory) : (t.setVregs x).tokens = t.tokens := rfl
@[simp] theorem Thread.setVregs_masks (t : Thread) (x : Memory) : (t.setVregs x).masks = t.masks := rfl
@[simp] theorem Thread.setVregs_tiles (t : Thread) (x : Memory) : (t.setVregs x).tiles = t.tiles := rfl
@[simp] theorem Thread.setVregs_ch (t : Thread) (x : Memory) : (t.setVregs x).ch = t.ch := rfl
@[simp] theorem Thread.setVregs_vcfg (t : Thread) (x : Memory) : (t.setVregs x).vcfg = t.vcfg := rfl
@[simp] theorem Thread.setVregs_vl (t : Thread) (x : Memory) : (t.setVregs x).vl = t.vl := rfl
@[simp] theorem Thread.setVregs_vlmax (t : Thread) (x : Memory) : (t.setVregs x).vlmax = t.vlmax := rfl
@[simp] theorem Thread.setVregs_vstart (t : Thread) (x : Memory) : (t.setVregs x).vstart = t.vstart := rfl
@[simp] theorem Thread.setVregs_vstop (t : Thread) (x : Memory) : (t.setVregs x).vstop = t.vstop := rfl
@[simp] theorem Thread.setVregs_avl (t : Thread) (x : Memory) : (t.setVregs x).avl = t.avl := rfl
@[simp] theorem Thread.setVregs_flags (t : Thread) (x : Memory) : (t.setVregs x).flags = t.flags := rfl
@[simp] theorem Thread.setVregs_tvec (t : Thread) (x : Memory) : (t.setVregs x).tvec = t.tvec := rfl
@[simp] theorem Thread.setVregs_handler (t : Thread) (x : Memory) : (t.setVregs x).handler = t.handler := rfl
@[simp] theorem Thread.setVregs_loop (t : Thread) (x : Memory) : (t.setVregs x).loop = t.loop := rfl
@[simp] theorem Thread.setVregs_leases (t : Thread) (x : Memory) : (t.setVregs x).leases = t.leases := rfl
@[simp] theorem Thread.setVregs_bopen (t : Thread) (x : Memory) : (t.setVregs x).bopen = t.bopen := rfl
@[simp] theorem Thread.setVregs_svc (t : Thread) (x : Memory) : (t.setVregs x).svc = t.svc := rfl
@[simp] theorem Thread.setVregs_chPend (t : Thread) (x : Memory) : (t.setVregs x).chPend = t.chPend := rfl
@[simp] theorem Thread.setVregs_vlive (t : Thread) (x : Memory) : (t.setVregs x).vlive = t.vlive := rfl
@[simp] theorem Thread.setVregs_vspan (t : Thread) (x : Memory) : (t.setVregs x).vspan = t.vspan := rfl
@[simp] theorem Thread.setVregs_tdirty (t : Thread) (x : Memory) : (t.setVregs x).tdirty = t.tdirty := rfl
@[simp] theorem Thread.setVregs_vstopPast (t : Thread) (x : Memory) : (t.setVregs x).vstopPast = t.vstopPast := rfl
@[simp] theorem Thread.setVregs_arrivals (t : Thread) (x : Memory) : (t.setVregs x).arrivals = t.arrivals := rfl
@[simp] theorem Thread.setVregs_ceng (t : Thread) (x : Memory) : (t.setVregs x).ceng = t.ceng := rfl
@[simp] theorem Thread.setVregs_crun (t : Thread) (x : Memory) : (t.setVregs x).crun = t.crun := rfl
@[simp] theorem Thread.setVregs_cstop (t : Thread) (x : Memory) : (t.setVregs x).cstop = t.cstop := rfl
@[simp] theorem Thread.setVregs_binds (t : Thread) (x : Memory) : (t.setVregs x).binds = t.binds := rfl

/-- What setMasks leaves and gives. -/
@[simp] theorem Thread.setMasks_masks (t : Thread) (x : Memory) : (t.setMasks x).masks = x := rfl
@[simp] theorem Thread.setMasks_res (t : Thread) (x : Memory) : (t.setMasks x).res = t.res := rfl
@[simp] theorem Thread.setMasks_part (t : Thread) (x : Memory) : (t.setMasks x).part = t.part := rfl
@[simp] theorem Thread.setMasks_vdev (t : Thread) (x : Memory) : (t.setMasks x).vdev = t.vdev := rfl
@[simp] theorem Thread.setMasks_task (t : Thread) (x : Memory) : (t.setMasks x).task = t.task := rfl
@[simp] theorem Thread.setMasks_tid (t : Thread) (x : Memory) : (t.setMasks x).tid = t.tid := rfl
@[simp] theorem Thread.setMasks_core (t : Thread) (x : Memory) : (t.setMasks x).core = t.core := rfl
@[simp] theorem Thread.setMasks_slot (t : Thread) (x : Memory) : (t.setMasks x).slot = t.slot := rfl
@[simp] theorem Thread.setMasks_regs (t : Thread) (x : Memory) : (t.setMasks x).regs = t.regs := rfl
@[simp] theorem Thread.setMasks_pc (t : Thread) (x : Memory) : (t.setMasks x).pc = t.pc := rfl
@[simp] theorem Thread.setMasks_wait (t : Thread) (x : Memory) : (t.setMasks x).wait = t.wait := rfl
@[simp] theorem Thread.setMasks_pend (t : Thread) (x : Memory) : (t.setMasks x).pend = t.pend := rfl
@[simp] theorem Thread.setMasks_queue (t : Thread) (x : Memory) : (t.setMasks x).queue = t.queue := rfl
@[simp] theorem Thread.setMasks_retq (t : Thread) (x : Memory) : (t.setMasks x).retq = t.retq := rfl
@[simp] theorem Thread.setMasks_qregs (t : Thread) (x : Memory) : (t.setMasks x).qregs = t.qregs := rfl
@[simp] theorem Thread.setMasks_tokens (t : Thread) (x : Memory) : (t.setMasks x).tokens = t.tokens := rfl
@[simp] theorem Thread.setMasks_vregs (t : Thread) (x : Memory) : (t.setMasks x).vregs = t.vregs := rfl
@[simp] theorem Thread.setMasks_tiles (t : Thread) (x : Memory) : (t.setMasks x).tiles = t.tiles := rfl
@[simp] theorem Thread.setMasks_ch (t : Thread) (x : Memory) : (t.setMasks x).ch = t.ch := rfl
@[simp] theorem Thread.setMasks_vcfg (t : Thread) (x : Memory) : (t.setMasks x).vcfg = t.vcfg := rfl
@[simp] theorem Thread.setMasks_vl (t : Thread) (x : Memory) : (t.setMasks x).vl = t.vl := rfl
@[simp] theorem Thread.setMasks_vlmax (t : Thread) (x : Memory) : (t.setMasks x).vlmax = t.vlmax := rfl
@[simp] theorem Thread.setMasks_vstart (t : Thread) (x : Memory) : (t.setMasks x).vstart = t.vstart := rfl
@[simp] theorem Thread.setMasks_vstop (t : Thread) (x : Memory) : (t.setMasks x).vstop = t.vstop := rfl
@[simp] theorem Thread.setMasks_avl (t : Thread) (x : Memory) : (t.setMasks x).avl = t.avl := rfl
@[simp] theorem Thread.setMasks_flags (t : Thread) (x : Memory) : (t.setMasks x).flags = t.flags := rfl
@[simp] theorem Thread.setMasks_tvec (t : Thread) (x : Memory) : (t.setMasks x).tvec = t.tvec := rfl
@[simp] theorem Thread.setMasks_handler (t : Thread) (x : Memory) : (t.setMasks x).handler = t.handler := rfl
@[simp] theorem Thread.setMasks_loop (t : Thread) (x : Memory) : (t.setMasks x).loop = t.loop := rfl
@[simp] theorem Thread.setMasks_leases (t : Thread) (x : Memory) : (t.setMasks x).leases = t.leases := rfl
@[simp] theorem Thread.setMasks_bopen (t : Thread) (x : Memory) : (t.setMasks x).bopen = t.bopen := rfl
@[simp] theorem Thread.setMasks_svc (t : Thread) (x : Memory) : (t.setMasks x).svc = t.svc := rfl
@[simp] theorem Thread.setMasks_chPend (t : Thread) (x : Memory) : (t.setMasks x).chPend = t.chPend := rfl
@[simp] theorem Thread.setMasks_vlive (t : Thread) (x : Memory) : (t.setMasks x).vlive = t.vlive := rfl
@[simp] theorem Thread.setMasks_vspan (t : Thread) (x : Memory) : (t.setMasks x).vspan = t.vspan := rfl
@[simp] theorem Thread.setMasks_tdirty (t : Thread) (x : Memory) : (t.setMasks x).tdirty = t.tdirty := rfl
@[simp] theorem Thread.setMasks_vstopPast (t : Thread) (x : Memory) : (t.setMasks x).vstopPast = t.vstopPast := rfl
@[simp] theorem Thread.setMasks_arrivals (t : Thread) (x : Memory) : (t.setMasks x).arrivals = t.arrivals := rfl
@[simp] theorem Thread.setMasks_ceng (t : Thread) (x : Memory) : (t.setMasks x).ceng = t.ceng := rfl
@[simp] theorem Thread.setMasks_crun (t : Thread) (x : Memory) : (t.setMasks x).crun = t.crun := rfl
@[simp] theorem Thread.setMasks_cstop (t : Thread) (x : Memory) : (t.setMasks x).cstop = t.cstop := rfl
@[simp] theorem Thread.setMasks_binds (t : Thread) (x : Memory) : (t.setMasks x).binds = t.binds := rfl

/-- What setTiles leaves and gives. -/
@[simp] theorem Thread.setTiles_tiles (t : Thread) (x : Memory) : (t.setTiles x).tiles = x := rfl
@[simp] theorem Thread.setTiles_res (t : Thread) (x : Memory) : (t.setTiles x).res = t.res := rfl
@[simp] theorem Thread.setTiles_part (t : Thread) (x : Memory) : (t.setTiles x).part = t.part := rfl
@[simp] theorem Thread.setTiles_vdev (t : Thread) (x : Memory) : (t.setTiles x).vdev = t.vdev := rfl
@[simp] theorem Thread.setTiles_task (t : Thread) (x : Memory) : (t.setTiles x).task = t.task := rfl
@[simp] theorem Thread.setTiles_tid (t : Thread) (x : Memory) : (t.setTiles x).tid = t.tid := rfl
@[simp] theorem Thread.setTiles_core (t : Thread) (x : Memory) : (t.setTiles x).core = t.core := rfl
@[simp] theorem Thread.setTiles_slot (t : Thread) (x : Memory) : (t.setTiles x).slot = t.slot := rfl
@[simp] theorem Thread.setTiles_regs (t : Thread) (x : Memory) : (t.setTiles x).regs = t.regs := rfl
@[simp] theorem Thread.setTiles_pc (t : Thread) (x : Memory) : (t.setTiles x).pc = t.pc := rfl
@[simp] theorem Thread.setTiles_wait (t : Thread) (x : Memory) : (t.setTiles x).wait = t.wait := rfl
@[simp] theorem Thread.setTiles_pend (t : Thread) (x : Memory) : (t.setTiles x).pend = t.pend := rfl
@[simp] theorem Thread.setTiles_queue (t : Thread) (x : Memory) : (t.setTiles x).queue = t.queue := rfl
@[simp] theorem Thread.setTiles_retq (t : Thread) (x : Memory) : (t.setTiles x).retq = t.retq := rfl
@[simp] theorem Thread.setTiles_qregs (t : Thread) (x : Memory) : (t.setTiles x).qregs = t.qregs := rfl
@[simp] theorem Thread.setTiles_tokens (t : Thread) (x : Memory) : (t.setTiles x).tokens = t.tokens := rfl
@[simp] theorem Thread.setTiles_vregs (t : Thread) (x : Memory) : (t.setTiles x).vregs = t.vregs := rfl
@[simp] theorem Thread.setTiles_masks (t : Thread) (x : Memory) : (t.setTiles x).masks = t.masks := rfl
@[simp] theorem Thread.setTiles_ch (t : Thread) (x : Memory) : (t.setTiles x).ch = t.ch := rfl
@[simp] theorem Thread.setTiles_vcfg (t : Thread) (x : Memory) : (t.setTiles x).vcfg = t.vcfg := rfl
@[simp] theorem Thread.setTiles_vl (t : Thread) (x : Memory) : (t.setTiles x).vl = t.vl := rfl
@[simp] theorem Thread.setTiles_vlmax (t : Thread) (x : Memory) : (t.setTiles x).vlmax = t.vlmax := rfl
@[simp] theorem Thread.setTiles_vstart (t : Thread) (x : Memory) : (t.setTiles x).vstart = t.vstart := rfl
@[simp] theorem Thread.setTiles_vstop (t : Thread) (x : Memory) : (t.setTiles x).vstop = t.vstop := rfl
@[simp] theorem Thread.setTiles_avl (t : Thread) (x : Memory) : (t.setTiles x).avl = t.avl := rfl
@[simp] theorem Thread.setTiles_flags (t : Thread) (x : Memory) : (t.setTiles x).flags = t.flags := rfl
@[simp] theorem Thread.setTiles_tvec (t : Thread) (x : Memory) : (t.setTiles x).tvec = t.tvec := rfl
@[simp] theorem Thread.setTiles_handler (t : Thread) (x : Memory) : (t.setTiles x).handler = t.handler := rfl
@[simp] theorem Thread.setTiles_loop (t : Thread) (x : Memory) : (t.setTiles x).loop = t.loop := rfl
@[simp] theorem Thread.setTiles_leases (t : Thread) (x : Memory) : (t.setTiles x).leases = t.leases := rfl
@[simp] theorem Thread.setTiles_bopen (t : Thread) (x : Memory) : (t.setTiles x).bopen = t.bopen := rfl
@[simp] theorem Thread.setTiles_svc (t : Thread) (x : Memory) : (t.setTiles x).svc = t.svc := rfl
@[simp] theorem Thread.setTiles_chPend (t : Thread) (x : Memory) : (t.setTiles x).chPend = t.chPend := rfl
@[simp] theorem Thread.setTiles_vlive (t : Thread) (x : Memory) : (t.setTiles x).vlive = t.vlive := rfl
@[simp] theorem Thread.setTiles_vspan (t : Thread) (x : Memory) : (t.setTiles x).vspan = t.vspan := rfl
@[simp] theorem Thread.setTiles_tdirty (t : Thread) (x : Memory) : (t.setTiles x).tdirty = t.tdirty := rfl
@[simp] theorem Thread.setTiles_vstopPast (t : Thread) (x : Memory) : (t.setTiles x).vstopPast = t.vstopPast := rfl
@[simp] theorem Thread.setTiles_arrivals (t : Thread) (x : Memory) : (t.setTiles x).arrivals = t.arrivals := rfl
@[simp] theorem Thread.setTiles_ceng (t : Thread) (x : Memory) : (t.setTiles x).ceng = t.ceng := rfl
@[simp] theorem Thread.setTiles_crun (t : Thread) (x : Memory) : (t.setTiles x).crun = t.crun := rfl
@[simp] theorem Thread.setTiles_cstop (t : Thread) (x : Memory) : (t.setTiles x).cstop = t.cstop := rfl
@[simp] theorem Thread.setTiles_binds (t : Thread) (x : Memory) : (t.setTiles x).binds = t.binds := rfl

/-- What setVlive leaves and gives. -/
@[simp] theorem Thread.setVlive_vlive (t : Thread) (x : BitVec 64) : (t.setVlive x).vlive = x := rfl
@[simp] theorem Thread.setVlive_res (t : Thread) (x : BitVec 64) : (t.setVlive x).res = t.res := rfl
@[simp] theorem Thread.setVlive_part (t : Thread) (x : BitVec 64) : (t.setVlive x).part = t.part := rfl
@[simp] theorem Thread.setVlive_vdev (t : Thread) (x : BitVec 64) : (t.setVlive x).vdev = t.vdev := rfl
@[simp] theorem Thread.setVlive_task (t : Thread) (x : BitVec 64) : (t.setVlive x).task = t.task := rfl
@[simp] theorem Thread.setVlive_tid (t : Thread) (x : BitVec 64) : (t.setVlive x).tid = t.tid := rfl
@[simp] theorem Thread.setVlive_core (t : Thread) (x : BitVec 64) : (t.setVlive x).core = t.core := rfl
@[simp] theorem Thread.setVlive_slot (t : Thread) (x : BitVec 64) : (t.setVlive x).slot = t.slot := rfl
@[simp] theorem Thread.setVlive_regs (t : Thread) (x : BitVec 64) : (t.setVlive x).regs = t.regs := rfl
@[simp] theorem Thread.setVlive_pc (t : Thread) (x : BitVec 64) : (t.setVlive x).pc = t.pc := rfl
@[simp] theorem Thread.setVlive_wait (t : Thread) (x : BitVec 64) : (t.setVlive x).wait = t.wait := rfl
@[simp] theorem Thread.setVlive_pend (t : Thread) (x : BitVec 64) : (t.setVlive x).pend = t.pend := rfl
@[simp] theorem Thread.setVlive_queue (t : Thread) (x : BitVec 64) : (t.setVlive x).queue = t.queue := rfl
@[simp] theorem Thread.setVlive_retq (t : Thread) (x : BitVec 64) : (t.setVlive x).retq = t.retq := rfl
@[simp] theorem Thread.setVlive_qregs (t : Thread) (x : BitVec 64) : (t.setVlive x).qregs = t.qregs := rfl
@[simp] theorem Thread.setVlive_tokens (t : Thread) (x : BitVec 64) : (t.setVlive x).tokens = t.tokens := rfl
@[simp] theorem Thread.setVlive_vregs (t : Thread) (x : BitVec 64) : (t.setVlive x).vregs = t.vregs := rfl
@[simp] theorem Thread.setVlive_masks (t : Thread) (x : BitVec 64) : (t.setVlive x).masks = t.masks := rfl
@[simp] theorem Thread.setVlive_tiles (t : Thread) (x : BitVec 64) : (t.setVlive x).tiles = t.tiles := rfl
@[simp] theorem Thread.setVlive_ch (t : Thread) (x : BitVec 64) : (t.setVlive x).ch = t.ch := rfl
@[simp] theorem Thread.setVlive_vcfg (t : Thread) (x : BitVec 64) : (t.setVlive x).vcfg = t.vcfg := rfl
@[simp] theorem Thread.setVlive_vl (t : Thread) (x : BitVec 64) : (t.setVlive x).vl = t.vl := rfl
@[simp] theorem Thread.setVlive_vlmax (t : Thread) (x : BitVec 64) : (t.setVlive x).vlmax = t.vlmax := rfl
@[simp] theorem Thread.setVlive_vstart (t : Thread) (x : BitVec 64) : (t.setVlive x).vstart = t.vstart := rfl
@[simp] theorem Thread.setVlive_vstop (t : Thread) (x : BitVec 64) : (t.setVlive x).vstop = t.vstop := rfl
@[simp] theorem Thread.setVlive_avl (t : Thread) (x : BitVec 64) : (t.setVlive x).avl = t.avl := rfl
@[simp] theorem Thread.setVlive_flags (t : Thread) (x : BitVec 64) : (t.setVlive x).flags = t.flags := rfl
@[simp] theorem Thread.setVlive_tvec (t : Thread) (x : BitVec 64) : (t.setVlive x).tvec = t.tvec := rfl
@[simp] theorem Thread.setVlive_handler (t : Thread) (x : BitVec 64) : (t.setVlive x).handler = t.handler := rfl
@[simp] theorem Thread.setVlive_loop (t : Thread) (x : BitVec 64) : (t.setVlive x).loop = t.loop := rfl
@[simp] theorem Thread.setVlive_leases (t : Thread) (x : BitVec 64) : (t.setVlive x).leases = t.leases := rfl
@[simp] theorem Thread.setVlive_bopen (t : Thread) (x : BitVec 64) : (t.setVlive x).bopen = t.bopen := rfl
@[simp] theorem Thread.setVlive_svc (t : Thread) (x : BitVec 64) : (t.setVlive x).svc = t.svc := rfl
@[simp] theorem Thread.setVlive_chPend (t : Thread) (x : BitVec 64) : (t.setVlive x).chPend = t.chPend := rfl
@[simp] theorem Thread.setVlive_vspan (t : Thread) (x : BitVec 64) : (t.setVlive x).vspan = t.vspan := rfl
@[simp] theorem Thread.setVlive_tdirty (t : Thread) (x : BitVec 64) : (t.setVlive x).tdirty = t.tdirty := rfl
@[simp] theorem Thread.setVlive_vstopPast (t : Thread) (x : BitVec 64) : (t.setVlive x).vstopPast = t.vstopPast := rfl
@[simp] theorem Thread.setVlive_arrivals (t : Thread) (x : BitVec 64) : (t.setVlive x).arrivals = t.arrivals := rfl
@[simp] theorem Thread.setVlive_ceng (t : Thread) (x : BitVec 64) : (t.setVlive x).ceng = t.ceng := rfl
@[simp] theorem Thread.setVlive_crun (t : Thread) (x : BitVec 64) : (t.setVlive x).crun = t.crun := rfl
@[simp] theorem Thread.setVlive_cstop (t : Thread) (x : BitVec 64) : (t.setVlive x).cstop = t.cstop := rfl
@[simp] theorem Thread.setVlive_binds (t : Thread) (x : BitVec 64) : (t.setVlive x).binds = t.binds := rfl

/-- What setTdirty leaves and gives. -/
@[simp] theorem Thread.setTdirty_tdirty (t : Thread) (x : BitVec 4) : (t.setTdirty x).tdirty = x := rfl
@[simp] theorem Thread.setTdirty_res (t : Thread) (x : BitVec 4) : (t.setTdirty x).res = t.res := rfl
@[simp] theorem Thread.setTdirty_part (t : Thread) (x : BitVec 4) : (t.setTdirty x).part = t.part := rfl
@[simp] theorem Thread.setTdirty_vdev (t : Thread) (x : BitVec 4) : (t.setTdirty x).vdev = t.vdev := rfl
@[simp] theorem Thread.setTdirty_task (t : Thread) (x : BitVec 4) : (t.setTdirty x).task = t.task := rfl
@[simp] theorem Thread.setTdirty_tid (t : Thread) (x : BitVec 4) : (t.setTdirty x).tid = t.tid := rfl
@[simp] theorem Thread.setTdirty_core (t : Thread) (x : BitVec 4) : (t.setTdirty x).core = t.core := rfl
@[simp] theorem Thread.setTdirty_slot (t : Thread) (x : BitVec 4) : (t.setTdirty x).slot = t.slot := rfl
@[simp] theorem Thread.setTdirty_regs (t : Thread) (x : BitVec 4) : (t.setTdirty x).regs = t.regs := rfl
@[simp] theorem Thread.setTdirty_pc (t : Thread) (x : BitVec 4) : (t.setTdirty x).pc = t.pc := rfl
@[simp] theorem Thread.setTdirty_wait (t : Thread) (x : BitVec 4) : (t.setTdirty x).wait = t.wait := rfl
@[simp] theorem Thread.setTdirty_pend (t : Thread) (x : BitVec 4) : (t.setTdirty x).pend = t.pend := rfl
@[simp] theorem Thread.setTdirty_queue (t : Thread) (x : BitVec 4) : (t.setTdirty x).queue = t.queue := rfl
@[simp] theorem Thread.setTdirty_retq (t : Thread) (x : BitVec 4) : (t.setTdirty x).retq = t.retq := rfl
@[simp] theorem Thread.setTdirty_qregs (t : Thread) (x : BitVec 4) : (t.setTdirty x).qregs = t.qregs := rfl
@[simp] theorem Thread.setTdirty_tokens (t : Thread) (x : BitVec 4) : (t.setTdirty x).tokens = t.tokens := rfl
@[simp] theorem Thread.setTdirty_vregs (t : Thread) (x : BitVec 4) : (t.setTdirty x).vregs = t.vregs := rfl
@[simp] theorem Thread.setTdirty_masks (t : Thread) (x : BitVec 4) : (t.setTdirty x).masks = t.masks := rfl
@[simp] theorem Thread.setTdirty_tiles (t : Thread) (x : BitVec 4) : (t.setTdirty x).tiles = t.tiles := rfl
@[simp] theorem Thread.setTdirty_ch (t : Thread) (x : BitVec 4) : (t.setTdirty x).ch = t.ch := rfl
@[simp] theorem Thread.setTdirty_vcfg (t : Thread) (x : BitVec 4) : (t.setTdirty x).vcfg = t.vcfg := rfl
@[simp] theorem Thread.setTdirty_vl (t : Thread) (x : BitVec 4) : (t.setTdirty x).vl = t.vl := rfl
@[simp] theorem Thread.setTdirty_vlmax (t : Thread) (x : BitVec 4) : (t.setTdirty x).vlmax = t.vlmax := rfl
@[simp] theorem Thread.setTdirty_vstart (t : Thread) (x : BitVec 4) : (t.setTdirty x).vstart = t.vstart := rfl
@[simp] theorem Thread.setTdirty_vstop (t : Thread) (x : BitVec 4) : (t.setTdirty x).vstop = t.vstop := rfl
@[simp] theorem Thread.setTdirty_avl (t : Thread) (x : BitVec 4) : (t.setTdirty x).avl = t.avl := rfl
@[simp] theorem Thread.setTdirty_flags (t : Thread) (x : BitVec 4) : (t.setTdirty x).flags = t.flags := rfl
@[simp] theorem Thread.setTdirty_tvec (t : Thread) (x : BitVec 4) : (t.setTdirty x).tvec = t.tvec := rfl
@[simp] theorem Thread.setTdirty_handler (t : Thread) (x : BitVec 4) : (t.setTdirty x).handler = t.handler := rfl
@[simp] theorem Thread.setTdirty_loop (t : Thread) (x : BitVec 4) : (t.setTdirty x).loop = t.loop := rfl
@[simp] theorem Thread.setTdirty_leases (t : Thread) (x : BitVec 4) : (t.setTdirty x).leases = t.leases := rfl
@[simp] theorem Thread.setTdirty_bopen (t : Thread) (x : BitVec 4) : (t.setTdirty x).bopen = t.bopen := rfl
@[simp] theorem Thread.setTdirty_svc (t : Thread) (x : BitVec 4) : (t.setTdirty x).svc = t.svc := rfl
@[simp] theorem Thread.setTdirty_chPend (t : Thread) (x : BitVec 4) : (t.setTdirty x).chPend = t.chPend := rfl
@[simp] theorem Thread.setTdirty_vlive (t : Thread) (x : BitVec 4) : (t.setTdirty x).vlive = t.vlive := rfl
@[simp] theorem Thread.setTdirty_vspan (t : Thread) (x : BitVec 4) : (t.setTdirty x).vspan = t.vspan := rfl
@[simp] theorem Thread.setTdirty_vstopPast (t : Thread) (x : BitVec 4) : (t.setTdirty x).vstopPast = t.vstopPast := rfl
@[simp] theorem Thread.setTdirty_arrivals (t : Thread) (x : BitVec 4) : (t.setTdirty x).arrivals = t.arrivals := rfl
@[simp] theorem Thread.setTdirty_ceng (t : Thread) (x : BitVec 4) : (t.setTdirty x).ceng = t.ceng := rfl
@[simp] theorem Thread.setTdirty_crun (t : Thread) (x : BitVec 4) : (t.setTdirty x).crun = t.crun := rfl
@[simp] theorem Thread.setTdirty_cstop (t : Thread) (x : BitVec 4) : (t.setTdirty x).cstop = t.cstop := rfl
@[simp] theorem Thread.setTdirty_binds (t : Thread) (x : BitVec 4) : (t.setTdirty x).binds = t.binds := rfl

/-- What setFlags leaves and gives. -/
@[simp] theorem Thread.setFlags_flags (t : Thread) (x : BitVec 6) : (t.setFlags x).flags = x := rfl
@[simp] theorem Thread.setFlags_res (t : Thread) (x : BitVec 6) : (t.setFlags x).res = t.res := rfl
@[simp] theorem Thread.setFlags_part (t : Thread) (x : BitVec 6) : (t.setFlags x).part = t.part := rfl
@[simp] theorem Thread.setFlags_vdev (t : Thread) (x : BitVec 6) : (t.setFlags x).vdev = t.vdev := rfl
@[simp] theorem Thread.setFlags_task (t : Thread) (x : BitVec 6) : (t.setFlags x).task = t.task := rfl
@[simp] theorem Thread.setFlags_tid (t : Thread) (x : BitVec 6) : (t.setFlags x).tid = t.tid := rfl
@[simp] theorem Thread.setFlags_core (t : Thread) (x : BitVec 6) : (t.setFlags x).core = t.core := rfl
@[simp] theorem Thread.setFlags_slot (t : Thread) (x : BitVec 6) : (t.setFlags x).slot = t.slot := rfl
@[simp] theorem Thread.setFlags_regs (t : Thread) (x : BitVec 6) : (t.setFlags x).regs = t.regs := rfl
@[simp] theorem Thread.setFlags_pc (t : Thread) (x : BitVec 6) : (t.setFlags x).pc = t.pc := rfl
@[simp] theorem Thread.setFlags_wait (t : Thread) (x : BitVec 6) : (t.setFlags x).wait = t.wait := rfl
@[simp] theorem Thread.setFlags_pend (t : Thread) (x : BitVec 6) : (t.setFlags x).pend = t.pend := rfl
@[simp] theorem Thread.setFlags_queue (t : Thread) (x : BitVec 6) : (t.setFlags x).queue = t.queue := rfl
@[simp] theorem Thread.setFlags_retq (t : Thread) (x : BitVec 6) : (t.setFlags x).retq = t.retq := rfl
@[simp] theorem Thread.setFlags_qregs (t : Thread) (x : BitVec 6) : (t.setFlags x).qregs = t.qregs := rfl
@[simp] theorem Thread.setFlags_tokens (t : Thread) (x : BitVec 6) : (t.setFlags x).tokens = t.tokens := rfl
@[simp] theorem Thread.setFlags_vregs (t : Thread) (x : BitVec 6) : (t.setFlags x).vregs = t.vregs := rfl
@[simp] theorem Thread.setFlags_masks (t : Thread) (x : BitVec 6) : (t.setFlags x).masks = t.masks := rfl
@[simp] theorem Thread.setFlags_tiles (t : Thread) (x : BitVec 6) : (t.setFlags x).tiles = t.tiles := rfl
@[simp] theorem Thread.setFlags_ch (t : Thread) (x : BitVec 6) : (t.setFlags x).ch = t.ch := rfl
@[simp] theorem Thread.setFlags_vcfg (t : Thread) (x : BitVec 6) : (t.setFlags x).vcfg = t.vcfg := rfl
@[simp] theorem Thread.setFlags_vl (t : Thread) (x : BitVec 6) : (t.setFlags x).vl = t.vl := rfl
@[simp] theorem Thread.setFlags_vlmax (t : Thread) (x : BitVec 6) : (t.setFlags x).vlmax = t.vlmax := rfl
@[simp] theorem Thread.setFlags_vstart (t : Thread) (x : BitVec 6) : (t.setFlags x).vstart = t.vstart := rfl
@[simp] theorem Thread.setFlags_vstop (t : Thread) (x : BitVec 6) : (t.setFlags x).vstop = t.vstop := rfl
@[simp] theorem Thread.setFlags_avl (t : Thread) (x : BitVec 6) : (t.setFlags x).avl = t.avl := rfl
@[simp] theorem Thread.setFlags_tvec (t : Thread) (x : BitVec 6) : (t.setFlags x).tvec = t.tvec := rfl
@[simp] theorem Thread.setFlags_handler (t : Thread) (x : BitVec 6) : (t.setFlags x).handler = t.handler := rfl
@[simp] theorem Thread.setFlags_loop (t : Thread) (x : BitVec 6) : (t.setFlags x).loop = t.loop := rfl
@[simp] theorem Thread.setFlags_leases (t : Thread) (x : BitVec 6) : (t.setFlags x).leases = t.leases := rfl
@[simp] theorem Thread.setFlags_bopen (t : Thread) (x : BitVec 6) : (t.setFlags x).bopen = t.bopen := rfl
@[simp] theorem Thread.setFlags_svc (t : Thread) (x : BitVec 6) : (t.setFlags x).svc = t.svc := rfl
@[simp] theorem Thread.setFlags_chPend (t : Thread) (x : BitVec 6) : (t.setFlags x).chPend = t.chPend := rfl
@[simp] theorem Thread.setFlags_vlive (t : Thread) (x : BitVec 6) : (t.setFlags x).vlive = t.vlive := rfl
@[simp] theorem Thread.setFlags_vspan (t : Thread) (x : BitVec 6) : (t.setFlags x).vspan = t.vspan := rfl
@[simp] theorem Thread.setFlags_tdirty (t : Thread) (x : BitVec 6) : (t.setFlags x).tdirty = t.tdirty := rfl
@[simp] theorem Thread.setFlags_vstopPast (t : Thread) (x : BitVec 6) : (t.setFlags x).vstopPast = t.vstopPast := rfl
@[simp] theorem Thread.setFlags_arrivals (t : Thread) (x : BitVec 6) : (t.setFlags x).arrivals = t.arrivals := rfl
@[simp] theorem Thread.setFlags_ceng (t : Thread) (x : BitVec 6) : (t.setFlags x).ceng = t.ceng := rfl
@[simp] theorem Thread.setFlags_crun (t : Thread) (x : BitVec 6) : (t.setFlags x).crun = t.crun := rfl
@[simp] theorem Thread.setFlags_cstop (t : Thread) (x : BitVec 6) : (t.setFlags x).cstop = t.cstop := rfl
@[simp] theorem Thread.setFlags_binds (t : Thread) (x : BitVec 6) : (t.setFlags x).binds = t.binds := rfl

/-- What setVstart leaves and gives. -/
@[simp] theorem Thread.setVstart_vstart (t : Thread) (x : Nat) : (t.setVstart x).vstart = x := rfl
@[simp] theorem Thread.setVstart_res (t : Thread) (x : Nat) : (t.setVstart x).res = t.res := rfl
@[simp] theorem Thread.setVstart_part (t : Thread) (x : Nat) : (t.setVstart x).part = t.part := rfl
@[simp] theorem Thread.setVstart_vdev (t : Thread) (x : Nat) : (t.setVstart x).vdev = t.vdev := rfl
@[simp] theorem Thread.setVstart_task (t : Thread) (x : Nat) : (t.setVstart x).task = t.task := rfl
@[simp] theorem Thread.setVstart_tid (t : Thread) (x : Nat) : (t.setVstart x).tid = t.tid := rfl
@[simp] theorem Thread.setVstart_core (t : Thread) (x : Nat) : (t.setVstart x).core = t.core := rfl
@[simp] theorem Thread.setVstart_slot (t : Thread) (x : Nat) : (t.setVstart x).slot = t.slot := rfl
@[simp] theorem Thread.setVstart_regs (t : Thread) (x : Nat) : (t.setVstart x).regs = t.regs := rfl
@[simp] theorem Thread.setVstart_pc (t : Thread) (x : Nat) : (t.setVstart x).pc = t.pc := rfl
@[simp] theorem Thread.setVstart_wait (t : Thread) (x : Nat) : (t.setVstart x).wait = t.wait := rfl
@[simp] theorem Thread.setVstart_pend (t : Thread) (x : Nat) : (t.setVstart x).pend = t.pend := rfl
@[simp] theorem Thread.setVstart_queue (t : Thread) (x : Nat) : (t.setVstart x).queue = t.queue := rfl
@[simp] theorem Thread.setVstart_retq (t : Thread) (x : Nat) : (t.setVstart x).retq = t.retq := rfl
@[simp] theorem Thread.setVstart_qregs (t : Thread) (x : Nat) : (t.setVstart x).qregs = t.qregs := rfl
@[simp] theorem Thread.setVstart_tokens (t : Thread) (x : Nat) : (t.setVstart x).tokens = t.tokens := rfl
@[simp] theorem Thread.setVstart_vregs (t : Thread) (x : Nat) : (t.setVstart x).vregs = t.vregs := rfl
@[simp] theorem Thread.setVstart_masks (t : Thread) (x : Nat) : (t.setVstart x).masks = t.masks := rfl
@[simp] theorem Thread.setVstart_tiles (t : Thread) (x : Nat) : (t.setVstart x).tiles = t.tiles := rfl
@[simp] theorem Thread.setVstart_ch (t : Thread) (x : Nat) : (t.setVstart x).ch = t.ch := rfl
@[simp] theorem Thread.setVstart_vcfg (t : Thread) (x : Nat) : (t.setVstart x).vcfg = t.vcfg := rfl
@[simp] theorem Thread.setVstart_vl (t : Thread) (x : Nat) : (t.setVstart x).vl = t.vl := rfl
@[simp] theorem Thread.setVstart_vlmax (t : Thread) (x : Nat) : (t.setVstart x).vlmax = t.vlmax := rfl
@[simp] theorem Thread.setVstart_vstop (t : Thread) (x : Nat) : (t.setVstart x).vstop = t.vstop := rfl
@[simp] theorem Thread.setVstart_avl (t : Thread) (x : Nat) : (t.setVstart x).avl = t.avl := rfl
@[simp] theorem Thread.setVstart_flags (t : Thread) (x : Nat) : (t.setVstart x).flags = t.flags := rfl
@[simp] theorem Thread.setVstart_tvec (t : Thread) (x : Nat) : (t.setVstart x).tvec = t.tvec := rfl
@[simp] theorem Thread.setVstart_handler (t : Thread) (x : Nat) : (t.setVstart x).handler = t.handler := rfl
@[simp] theorem Thread.setVstart_loop (t : Thread) (x : Nat) : (t.setVstart x).loop = t.loop := rfl
@[simp] theorem Thread.setVstart_leases (t : Thread) (x : Nat) : (t.setVstart x).leases = t.leases := rfl
@[simp] theorem Thread.setVstart_bopen (t : Thread) (x : Nat) : (t.setVstart x).bopen = t.bopen := rfl
@[simp] theorem Thread.setVstart_svc (t : Thread) (x : Nat) : (t.setVstart x).svc = t.svc := rfl
@[simp] theorem Thread.setVstart_chPend (t : Thread) (x : Nat) : (t.setVstart x).chPend = t.chPend := rfl
@[simp] theorem Thread.setVstart_vlive (t : Thread) (x : Nat) : (t.setVstart x).vlive = t.vlive := rfl
@[simp] theorem Thread.setVstart_vspan (t : Thread) (x : Nat) : (t.setVstart x).vspan = t.vspan := rfl
@[simp] theorem Thread.setVstart_tdirty (t : Thread) (x : Nat) : (t.setVstart x).tdirty = t.tdirty := rfl
@[simp] theorem Thread.setVstart_vstopPast (t : Thread) (x : Nat) : (t.setVstart x).vstopPast = t.vstopPast := rfl
@[simp] theorem Thread.setVstart_arrivals (t : Thread) (x : Nat) : (t.setVstart x).arrivals = t.arrivals := rfl
@[simp] theorem Thread.setVstart_ceng (t : Thread) (x : Nat) : (t.setVstart x).ceng = t.ceng := rfl
@[simp] theorem Thread.setVstart_crun (t : Thread) (x : Nat) : (t.setVstart x).crun = t.crun := rfl
@[simp] theorem Thread.setVstart_cstop (t : Thread) (x : Nat) : (t.setVstart x).cstop = t.cstop := rfl
@[simp] theorem Thread.setVstart_binds (t : Thread) (x : Nat) : (t.setVstart x).binds = t.binds := rfl

/-- What setVl leaves and gives. -/
@[simp] theorem Thread.setVl_vl (t : Thread) (x : Nat) : (t.setVl x).vl = x := rfl
@[simp] theorem Thread.setVl_res (t : Thread) (x : Nat) : (t.setVl x).res = t.res := rfl
@[simp] theorem Thread.setVl_part (t : Thread) (x : Nat) : (t.setVl x).part = t.part := rfl
@[simp] theorem Thread.setVl_vdev (t : Thread) (x : Nat) : (t.setVl x).vdev = t.vdev := rfl
@[simp] theorem Thread.setVl_task (t : Thread) (x : Nat) : (t.setVl x).task = t.task := rfl
@[simp] theorem Thread.setVl_tid (t : Thread) (x : Nat) : (t.setVl x).tid = t.tid := rfl
@[simp] theorem Thread.setVl_core (t : Thread) (x : Nat) : (t.setVl x).core = t.core := rfl
@[simp] theorem Thread.setVl_slot (t : Thread) (x : Nat) : (t.setVl x).slot = t.slot := rfl
@[simp] theorem Thread.setVl_regs (t : Thread) (x : Nat) : (t.setVl x).regs = t.regs := rfl
@[simp] theorem Thread.setVl_pc (t : Thread) (x : Nat) : (t.setVl x).pc = t.pc := rfl
@[simp] theorem Thread.setVl_wait (t : Thread) (x : Nat) : (t.setVl x).wait = t.wait := rfl
@[simp] theorem Thread.setVl_pend (t : Thread) (x : Nat) : (t.setVl x).pend = t.pend := rfl
@[simp] theorem Thread.setVl_queue (t : Thread) (x : Nat) : (t.setVl x).queue = t.queue := rfl
@[simp] theorem Thread.setVl_retq (t : Thread) (x : Nat) : (t.setVl x).retq = t.retq := rfl
@[simp] theorem Thread.setVl_qregs (t : Thread) (x : Nat) : (t.setVl x).qregs = t.qregs := rfl
@[simp] theorem Thread.setVl_tokens (t : Thread) (x : Nat) : (t.setVl x).tokens = t.tokens := rfl
@[simp] theorem Thread.setVl_vregs (t : Thread) (x : Nat) : (t.setVl x).vregs = t.vregs := rfl
@[simp] theorem Thread.setVl_masks (t : Thread) (x : Nat) : (t.setVl x).masks = t.masks := rfl
@[simp] theorem Thread.setVl_tiles (t : Thread) (x : Nat) : (t.setVl x).tiles = t.tiles := rfl
@[simp] theorem Thread.setVl_ch (t : Thread) (x : Nat) : (t.setVl x).ch = t.ch := rfl
@[simp] theorem Thread.setVl_vcfg (t : Thread) (x : Nat) : (t.setVl x).vcfg = t.vcfg := rfl
@[simp] theorem Thread.setVl_vlmax (t : Thread) (x : Nat) : (t.setVl x).vlmax = t.vlmax := rfl
@[simp] theorem Thread.setVl_vstart (t : Thread) (x : Nat) : (t.setVl x).vstart = t.vstart := rfl
@[simp] theorem Thread.setVl_vstop (t : Thread) (x : Nat) : (t.setVl x).vstop = t.vstop := rfl
@[simp] theorem Thread.setVl_avl (t : Thread) (x : Nat) : (t.setVl x).avl = t.avl := rfl
@[simp] theorem Thread.setVl_flags (t : Thread) (x : Nat) : (t.setVl x).flags = t.flags := rfl
@[simp] theorem Thread.setVl_tvec (t : Thread) (x : Nat) : (t.setVl x).tvec = t.tvec := rfl
@[simp] theorem Thread.setVl_handler (t : Thread) (x : Nat) : (t.setVl x).handler = t.handler := rfl
@[simp] theorem Thread.setVl_loop (t : Thread) (x : Nat) : (t.setVl x).loop = t.loop := rfl
@[simp] theorem Thread.setVl_leases (t : Thread) (x : Nat) : (t.setVl x).leases = t.leases := rfl
@[simp] theorem Thread.setVl_bopen (t : Thread) (x : Nat) : (t.setVl x).bopen = t.bopen := rfl
@[simp] theorem Thread.setVl_svc (t : Thread) (x : Nat) : (t.setVl x).svc = t.svc := rfl
@[simp] theorem Thread.setVl_chPend (t : Thread) (x : Nat) : (t.setVl x).chPend = t.chPend := rfl
@[simp] theorem Thread.setVl_vlive (t : Thread) (x : Nat) : (t.setVl x).vlive = t.vlive := rfl
@[simp] theorem Thread.setVl_vspan (t : Thread) (x : Nat) : (t.setVl x).vspan = t.vspan := rfl
@[simp] theorem Thread.setVl_tdirty (t : Thread) (x : Nat) : (t.setVl x).tdirty = t.tdirty := rfl
@[simp] theorem Thread.setVl_vstopPast (t : Thread) (x : Nat) : (t.setVl x).vstopPast = t.vstopPast := rfl
@[simp] theorem Thread.setVl_arrivals (t : Thread) (x : Nat) : (t.setVl x).arrivals = t.arrivals := rfl
@[simp] theorem Thread.setVl_ceng (t : Thread) (x : Nat) : (t.setVl x).ceng = t.ceng := rfl
@[simp] theorem Thread.setVl_crun (t : Thread) (x : Nat) : (t.setVl x).crun = t.crun := rfl
@[simp] theorem Thread.setVl_cstop (t : Thread) (x : Nat) : (t.setVl x).cstop = t.cstop := rfl
@[simp] theorem Thread.setVl_binds (t : Thread) (x : Nat) : (t.setVl x).binds = t.binds := rfl

/-- What setVcfg leaves and gives. -/
@[simp] theorem Thread.setVcfg_vcfg (t : Thread) (x : Word) : (t.setVcfg x).vcfg = x := rfl
@[simp] theorem Thread.setVcfg_res (t : Thread) (x : Word) : (t.setVcfg x).res = t.res := rfl
@[simp] theorem Thread.setVcfg_part (t : Thread) (x : Word) : (t.setVcfg x).part = t.part := rfl
@[simp] theorem Thread.setVcfg_vdev (t : Thread) (x : Word) : (t.setVcfg x).vdev = t.vdev := rfl
@[simp] theorem Thread.setVcfg_task (t : Thread) (x : Word) : (t.setVcfg x).task = t.task := rfl
@[simp] theorem Thread.setVcfg_tid (t : Thread) (x : Word) : (t.setVcfg x).tid = t.tid := rfl
@[simp] theorem Thread.setVcfg_core (t : Thread) (x : Word) : (t.setVcfg x).core = t.core := rfl
@[simp] theorem Thread.setVcfg_slot (t : Thread) (x : Word) : (t.setVcfg x).slot = t.slot := rfl
@[simp] theorem Thread.setVcfg_regs (t : Thread) (x : Word) : (t.setVcfg x).regs = t.regs := rfl
@[simp] theorem Thread.setVcfg_pc (t : Thread) (x : Word) : (t.setVcfg x).pc = t.pc := rfl
@[simp] theorem Thread.setVcfg_wait (t : Thread) (x : Word) : (t.setVcfg x).wait = t.wait := rfl
@[simp] theorem Thread.setVcfg_pend (t : Thread) (x : Word) : (t.setVcfg x).pend = t.pend := rfl
@[simp] theorem Thread.setVcfg_queue (t : Thread) (x : Word) : (t.setVcfg x).queue = t.queue := rfl
@[simp] theorem Thread.setVcfg_retq (t : Thread) (x : Word) : (t.setVcfg x).retq = t.retq := rfl
@[simp] theorem Thread.setVcfg_qregs (t : Thread) (x : Word) : (t.setVcfg x).qregs = t.qregs := rfl
@[simp] theorem Thread.setVcfg_tokens (t : Thread) (x : Word) : (t.setVcfg x).tokens = t.tokens := rfl
@[simp] theorem Thread.setVcfg_vregs (t : Thread) (x : Word) : (t.setVcfg x).vregs = t.vregs := rfl
@[simp] theorem Thread.setVcfg_masks (t : Thread) (x : Word) : (t.setVcfg x).masks = t.masks := rfl
@[simp] theorem Thread.setVcfg_tiles (t : Thread) (x : Word) : (t.setVcfg x).tiles = t.tiles := rfl
@[simp] theorem Thread.setVcfg_ch (t : Thread) (x : Word) : (t.setVcfg x).ch = t.ch := rfl
@[simp] theorem Thread.setVcfg_vl (t : Thread) (x : Word) : (t.setVcfg x).vl = t.vl := rfl
@[simp] theorem Thread.setVcfg_vlmax (t : Thread) (x : Word) : (t.setVcfg x).vlmax = t.vlmax := rfl
@[simp] theorem Thread.setVcfg_vstart (t : Thread) (x : Word) : (t.setVcfg x).vstart = t.vstart := rfl
@[simp] theorem Thread.setVcfg_vstop (t : Thread) (x : Word) : (t.setVcfg x).vstop = t.vstop := rfl
@[simp] theorem Thread.setVcfg_avl (t : Thread) (x : Word) : (t.setVcfg x).avl = t.avl := rfl
@[simp] theorem Thread.setVcfg_flags (t : Thread) (x : Word) : (t.setVcfg x).flags = t.flags := rfl
@[simp] theorem Thread.setVcfg_tvec (t : Thread) (x : Word) : (t.setVcfg x).tvec = t.tvec := rfl
@[simp] theorem Thread.setVcfg_handler (t : Thread) (x : Word) : (t.setVcfg x).handler = t.handler := rfl
@[simp] theorem Thread.setVcfg_loop (t : Thread) (x : Word) : (t.setVcfg x).loop = t.loop := rfl
@[simp] theorem Thread.setVcfg_leases (t : Thread) (x : Word) : (t.setVcfg x).leases = t.leases := rfl
@[simp] theorem Thread.setVcfg_bopen (t : Thread) (x : Word) : (t.setVcfg x).bopen = t.bopen := rfl
@[simp] theorem Thread.setVcfg_svc (t : Thread) (x : Word) : (t.setVcfg x).svc = t.svc := rfl
@[simp] theorem Thread.setVcfg_chPend (t : Thread) (x : Word) : (t.setVcfg x).chPend = t.chPend := rfl
@[simp] theorem Thread.setVcfg_vlive (t : Thread) (x : Word) : (t.setVcfg x).vlive = t.vlive := rfl
@[simp] theorem Thread.setVcfg_vspan (t : Thread) (x : Word) : (t.setVcfg x).vspan = t.vspan := rfl
@[simp] theorem Thread.setVcfg_tdirty (t : Thread) (x : Word) : (t.setVcfg x).tdirty = t.tdirty := rfl
@[simp] theorem Thread.setVcfg_vstopPast (t : Thread) (x : Word) : (t.setVcfg x).vstopPast = t.vstopPast := rfl
@[simp] theorem Thread.setVcfg_arrivals (t : Thread) (x : Word) : (t.setVcfg x).arrivals = t.arrivals := rfl
@[simp] theorem Thread.setVcfg_ceng (t : Thread) (x : Word) : (t.setVcfg x).ceng = t.ceng := rfl
@[simp] theorem Thread.setVcfg_crun (t : Thread) (x : Word) : (t.setVcfg x).crun = t.crun := rfl
@[simp] theorem Thread.setVcfg_cstop (t : Thread) (x : Word) : (t.setVcfg x).cstop = t.cstop := rfl
@[simp] theorem Thread.setVcfg_binds (t : Thread) (x : Word) : (t.setVcfg x).binds = t.binds := rfl

/-- What setQ leaves and gives. -/
@[simp] theorem Thread.setQ_qregs (t : Thread) (q : Nat) (l : List QSlot) : (t.setQ q l).qregs = setAt [] t.qregs q l := rfl
@[simp] theorem Thread.setQ_res (t : Thread) (q : Nat) (l : List QSlot) : (t.setQ q l).res = t.res := rfl
@[simp] theorem Thread.setQ_part (t : Thread) (q : Nat) (l : List QSlot) : (t.setQ q l).part = t.part := rfl
@[simp] theorem Thread.setQ_vdev (t : Thread) (q : Nat) (l : List QSlot) : (t.setQ q l).vdev = t.vdev := rfl
@[simp] theorem Thread.setQ_task (t : Thread) (q : Nat) (l : List QSlot) : (t.setQ q l).task = t.task := rfl
@[simp] theorem Thread.setQ_tid (t : Thread) (q : Nat) (l : List QSlot) : (t.setQ q l).tid = t.tid := rfl
@[simp] theorem Thread.setQ_core (t : Thread) (q : Nat) (l : List QSlot) : (t.setQ q l).core = t.core := rfl
@[simp] theorem Thread.setQ_slot (t : Thread) (q : Nat) (l : List QSlot) : (t.setQ q l).slot = t.slot := rfl
@[simp] theorem Thread.setQ_regs (t : Thread) (q : Nat) (l : List QSlot) : (t.setQ q l).regs = t.regs := rfl
@[simp] theorem Thread.setQ_pc (t : Thread) (q : Nat) (l : List QSlot) : (t.setQ q l).pc = t.pc := rfl
@[simp] theorem Thread.setQ_wait (t : Thread) (q : Nat) (l : List QSlot) : (t.setQ q l).wait = t.wait := rfl
@[simp] theorem Thread.setQ_pend (t : Thread) (q : Nat) (l : List QSlot) : (t.setQ q l).pend = t.pend := rfl
@[simp] theorem Thread.setQ_queue (t : Thread) (q : Nat) (l : List QSlot) : (t.setQ q l).queue = t.queue := rfl
@[simp] theorem Thread.setQ_retq (t : Thread) (q : Nat) (l : List QSlot) : (t.setQ q l).retq = t.retq := rfl
@[simp] theorem Thread.setQ_tokens (t : Thread) (q : Nat) (l : List QSlot) : (t.setQ q l).tokens = t.tokens := rfl
@[simp] theorem Thread.setQ_vregs (t : Thread) (q : Nat) (l : List QSlot) : (t.setQ q l).vregs = t.vregs := rfl
@[simp] theorem Thread.setQ_masks (t : Thread) (q : Nat) (l : List QSlot) : (t.setQ q l).masks = t.masks := rfl
@[simp] theorem Thread.setQ_tiles (t : Thread) (q : Nat) (l : List QSlot) : (t.setQ q l).tiles = t.tiles := rfl
@[simp] theorem Thread.setQ_ch (t : Thread) (q : Nat) (l : List QSlot) : (t.setQ q l).ch = t.ch := rfl
@[simp] theorem Thread.setQ_vcfg (t : Thread) (q : Nat) (l : List QSlot) : (t.setQ q l).vcfg = t.vcfg := rfl
@[simp] theorem Thread.setQ_vl (t : Thread) (q : Nat) (l : List QSlot) : (t.setQ q l).vl = t.vl := rfl
@[simp] theorem Thread.setQ_vlmax (t : Thread) (q : Nat) (l : List QSlot) : (t.setQ q l).vlmax = t.vlmax := rfl
@[simp] theorem Thread.setQ_vstart (t : Thread) (q : Nat) (l : List QSlot) : (t.setQ q l).vstart = t.vstart := rfl
@[simp] theorem Thread.setQ_vstop (t : Thread) (q : Nat) (l : List QSlot) : (t.setQ q l).vstop = t.vstop := rfl
@[simp] theorem Thread.setQ_avl (t : Thread) (q : Nat) (l : List QSlot) : (t.setQ q l).avl = t.avl := rfl
@[simp] theorem Thread.setQ_flags (t : Thread) (q : Nat) (l : List QSlot) : (t.setQ q l).flags = t.flags := rfl
@[simp] theorem Thread.setQ_tvec (t : Thread) (q : Nat) (l : List QSlot) : (t.setQ q l).tvec = t.tvec := rfl
@[simp] theorem Thread.setQ_handler (t : Thread) (q : Nat) (l : List QSlot) : (t.setQ q l).handler = t.handler := rfl
@[simp] theorem Thread.setQ_loop (t : Thread) (q : Nat) (l : List QSlot) : (t.setQ q l).loop = t.loop := rfl
@[simp] theorem Thread.setQ_leases (t : Thread) (q : Nat) (l : List QSlot) : (t.setQ q l).leases = t.leases := rfl
@[simp] theorem Thread.setQ_bopen (t : Thread) (q : Nat) (l : List QSlot) : (t.setQ q l).bopen = t.bopen := rfl
@[simp] theorem Thread.setQ_svc (t : Thread) (q : Nat) (l : List QSlot) : (t.setQ q l).svc = t.svc := rfl
@[simp] theorem Thread.setQ_chPend (t : Thread) (q : Nat) (l : List QSlot) : (t.setQ q l).chPend = t.chPend := rfl
@[simp] theorem Thread.setQ_vlive (t : Thread) (q : Nat) (l : List QSlot) : (t.setQ q l).vlive = t.vlive := rfl
@[simp] theorem Thread.setQ_vspan (t : Thread) (q : Nat) (l : List QSlot) : (t.setQ q l).vspan = t.vspan := rfl
@[simp] theorem Thread.setQ_tdirty (t : Thread) (q : Nat) (l : List QSlot) : (t.setQ q l).tdirty = t.tdirty := rfl
@[simp] theorem Thread.setQ_vstopPast (t : Thread) (q : Nat) (l : List QSlot) : (t.setQ q l).vstopPast = t.vstopPast := rfl
@[simp] theorem Thread.setQ_arrivals (t : Thread) (q : Nat) (l : List QSlot) : (t.setQ q l).arrivals = t.arrivals := rfl
@[simp] theorem Thread.setQ_ceng (t : Thread) (q : Nat) (l : List QSlot) : (t.setQ q l).ceng = t.ceng := rfl
@[simp] theorem Thread.setQ_crun (t : Thread) (q : Nat) (l : List QSlot) : (t.setQ q l).crun = t.crun := rfl
@[simp] theorem Thread.setQ_cstop (t : Thread) (q : Nat) (l : List QSlot) : (t.setQ q l).cstop = t.cstop := rfl
@[simp] theorem Thread.setQ_binds (t : Thread) (q : Nat) (l : List QSlot) : (t.setQ q l).binds = t.binds := rfl

/-- What setToken leaves and gives. -/
@[simp] theorem Thread.setToken_tokens (t : Thread) (f n : Nat) : (t.setToken f n).tokens = setAt 0 t.tokens (f - 1) n := rfl
@[simp] theorem Thread.setToken_res (t : Thread) (f n : Nat) : (t.setToken f n).res = t.res := rfl
@[simp] theorem Thread.setToken_part (t : Thread) (f n : Nat) : (t.setToken f n).part = t.part := rfl
@[simp] theorem Thread.setToken_vdev (t : Thread) (f n : Nat) : (t.setToken f n).vdev = t.vdev := rfl
@[simp] theorem Thread.setToken_task (t : Thread) (f n : Nat) : (t.setToken f n).task = t.task := rfl
@[simp] theorem Thread.setToken_tid (t : Thread) (f n : Nat) : (t.setToken f n).tid = t.tid := rfl
@[simp] theorem Thread.setToken_core (t : Thread) (f n : Nat) : (t.setToken f n).core = t.core := rfl
@[simp] theorem Thread.setToken_slot (t : Thread) (f n : Nat) : (t.setToken f n).slot = t.slot := rfl
@[simp] theorem Thread.setToken_regs (t : Thread) (f n : Nat) : (t.setToken f n).regs = t.regs := rfl
@[simp] theorem Thread.setToken_pc (t : Thread) (f n : Nat) : (t.setToken f n).pc = t.pc := rfl
@[simp] theorem Thread.setToken_wait (t : Thread) (f n : Nat) : (t.setToken f n).wait = t.wait := rfl
@[simp] theorem Thread.setToken_pend (t : Thread) (f n : Nat) : (t.setToken f n).pend = t.pend := rfl
@[simp] theorem Thread.setToken_queue (t : Thread) (f n : Nat) : (t.setToken f n).queue = t.queue := rfl
@[simp] theorem Thread.setToken_retq (t : Thread) (f n : Nat) : (t.setToken f n).retq = t.retq := rfl
@[simp] theorem Thread.setToken_qregs (t : Thread) (f n : Nat) : (t.setToken f n).qregs = t.qregs := rfl
@[simp] theorem Thread.setToken_vregs (t : Thread) (f n : Nat) : (t.setToken f n).vregs = t.vregs := rfl
@[simp] theorem Thread.setToken_masks (t : Thread) (f n : Nat) : (t.setToken f n).masks = t.masks := rfl
@[simp] theorem Thread.setToken_tiles (t : Thread) (f n : Nat) : (t.setToken f n).tiles = t.tiles := rfl
@[simp] theorem Thread.setToken_ch (t : Thread) (f n : Nat) : (t.setToken f n).ch = t.ch := rfl
@[simp] theorem Thread.setToken_vcfg (t : Thread) (f n : Nat) : (t.setToken f n).vcfg = t.vcfg := rfl
@[simp] theorem Thread.setToken_vl (t : Thread) (f n : Nat) : (t.setToken f n).vl = t.vl := rfl
@[simp] theorem Thread.setToken_vlmax (t : Thread) (f n : Nat) : (t.setToken f n).vlmax = t.vlmax := rfl
@[simp] theorem Thread.setToken_vstart (t : Thread) (f n : Nat) : (t.setToken f n).vstart = t.vstart := rfl
@[simp] theorem Thread.setToken_vstop (t : Thread) (f n : Nat) : (t.setToken f n).vstop = t.vstop := rfl
@[simp] theorem Thread.setToken_avl (t : Thread) (f n : Nat) : (t.setToken f n).avl = t.avl := rfl
@[simp] theorem Thread.setToken_flags (t : Thread) (f n : Nat) : (t.setToken f n).flags = t.flags := rfl
@[simp] theorem Thread.setToken_tvec (t : Thread) (f n : Nat) : (t.setToken f n).tvec = t.tvec := rfl
@[simp] theorem Thread.setToken_handler (t : Thread) (f n : Nat) : (t.setToken f n).handler = t.handler := rfl
@[simp] theorem Thread.setToken_loop (t : Thread) (f n : Nat) : (t.setToken f n).loop = t.loop := rfl
@[simp] theorem Thread.setToken_leases (t : Thread) (f n : Nat) : (t.setToken f n).leases = t.leases := rfl
@[simp] theorem Thread.setToken_bopen (t : Thread) (f n : Nat) : (t.setToken f n).bopen = t.bopen := rfl
@[simp] theorem Thread.setToken_svc (t : Thread) (f n : Nat) : (t.setToken f n).svc = t.svc := rfl
@[simp] theorem Thread.setToken_chPend (t : Thread) (f n : Nat) : (t.setToken f n).chPend = t.chPend := rfl
@[simp] theorem Thread.setToken_vlive (t : Thread) (f n : Nat) : (t.setToken f n).vlive = t.vlive := rfl
@[simp] theorem Thread.setToken_vspan (t : Thread) (f n : Nat) : (t.setToken f n).vspan = t.vspan := rfl
@[simp] theorem Thread.setToken_tdirty (t : Thread) (f n : Nat) : (t.setToken f n).tdirty = t.tdirty := rfl
@[simp] theorem Thread.setToken_vstopPast (t : Thread) (f n : Nat) : (t.setToken f n).vstopPast = t.vstopPast := rfl
@[simp] theorem Thread.setToken_arrivals (t : Thread) (f n : Nat) : (t.setToken f n).arrivals = t.arrivals := rfl
@[simp] theorem Thread.setToken_ceng (t : Thread) (f n : Nat) : (t.setToken f n).ceng = t.ceng := rfl
@[simp] theorem Thread.setToken_crun (t : Thread) (f n : Nat) : (t.setToken f n).crun = t.crun := rfl
@[simp] theorem Thread.setToken_cstop (t : Thread) (f n : Nat) : (t.setToken f n).cstop = t.cstop := rfl
@[simp] theorem Thread.setToken_binds (t : Thread) (f n : Nat) : (t.setToken f n).binds = t.binds := rfl

/-- What setLease leaves and gives. -/
@[simp] theorem Thread.setLease_leases (t : Thread) (c : Nat) (x : Lease) : (t.setLease c x).leases = setAt Lease.none t.leases c x := rfl
@[simp] theorem Thread.setLease_res (t : Thread) (c : Nat) (x : Lease) : (t.setLease c x).res = t.res := rfl
@[simp] theorem Thread.setLease_part (t : Thread) (c : Nat) (x : Lease) : (t.setLease c x).part = t.part := rfl
@[simp] theorem Thread.setLease_vdev (t : Thread) (c : Nat) (x : Lease) : (t.setLease c x).vdev = t.vdev := rfl
@[simp] theorem Thread.setLease_task (t : Thread) (c : Nat) (x : Lease) : (t.setLease c x).task = t.task := rfl
@[simp] theorem Thread.setLease_tid (t : Thread) (c : Nat) (x : Lease) : (t.setLease c x).tid = t.tid := rfl
@[simp] theorem Thread.setLease_core (t : Thread) (c : Nat) (x : Lease) : (t.setLease c x).core = t.core := rfl
@[simp] theorem Thread.setLease_slot (t : Thread) (c : Nat) (x : Lease) : (t.setLease c x).slot = t.slot := rfl
@[simp] theorem Thread.setLease_regs (t : Thread) (c : Nat) (x : Lease) : (t.setLease c x).regs = t.regs := rfl
@[simp] theorem Thread.setLease_pc (t : Thread) (c : Nat) (x : Lease) : (t.setLease c x).pc = t.pc := rfl
@[simp] theorem Thread.setLease_wait (t : Thread) (c : Nat) (x : Lease) : (t.setLease c x).wait = t.wait := rfl
@[simp] theorem Thread.setLease_pend (t : Thread) (c : Nat) (x : Lease) : (t.setLease c x).pend = t.pend := rfl
@[simp] theorem Thread.setLease_queue (t : Thread) (c : Nat) (x : Lease) : (t.setLease c x).queue = t.queue := rfl
@[simp] theorem Thread.setLease_retq (t : Thread) (c : Nat) (x : Lease) : (t.setLease c x).retq = t.retq := rfl
@[simp] theorem Thread.setLease_qregs (t : Thread) (c : Nat) (x : Lease) : (t.setLease c x).qregs = t.qregs := rfl
@[simp] theorem Thread.setLease_tokens (t : Thread) (c : Nat) (x : Lease) : (t.setLease c x).tokens = t.tokens := rfl
@[simp] theorem Thread.setLease_vregs (t : Thread) (c : Nat) (x : Lease) : (t.setLease c x).vregs = t.vregs := rfl
@[simp] theorem Thread.setLease_masks (t : Thread) (c : Nat) (x : Lease) : (t.setLease c x).masks = t.masks := rfl
@[simp] theorem Thread.setLease_tiles (t : Thread) (c : Nat) (x : Lease) : (t.setLease c x).tiles = t.tiles := rfl
@[simp] theorem Thread.setLease_ch (t : Thread) (c : Nat) (x : Lease) : (t.setLease c x).ch = t.ch := rfl
@[simp] theorem Thread.setLease_vcfg (t : Thread) (c : Nat) (x : Lease) : (t.setLease c x).vcfg = t.vcfg := rfl
@[simp] theorem Thread.setLease_vl (t : Thread) (c : Nat) (x : Lease) : (t.setLease c x).vl = t.vl := rfl
@[simp] theorem Thread.setLease_vlmax (t : Thread) (c : Nat) (x : Lease) : (t.setLease c x).vlmax = t.vlmax := rfl
@[simp] theorem Thread.setLease_vstart (t : Thread) (c : Nat) (x : Lease) : (t.setLease c x).vstart = t.vstart := rfl
@[simp] theorem Thread.setLease_vstop (t : Thread) (c : Nat) (x : Lease) : (t.setLease c x).vstop = t.vstop := rfl
@[simp] theorem Thread.setLease_avl (t : Thread) (c : Nat) (x : Lease) : (t.setLease c x).avl = t.avl := rfl
@[simp] theorem Thread.setLease_flags (t : Thread) (c : Nat) (x : Lease) : (t.setLease c x).flags = t.flags := rfl
@[simp] theorem Thread.setLease_tvec (t : Thread) (c : Nat) (x : Lease) : (t.setLease c x).tvec = t.tvec := rfl
@[simp] theorem Thread.setLease_handler (t : Thread) (c : Nat) (x : Lease) : (t.setLease c x).handler = t.handler := rfl
@[simp] theorem Thread.setLease_loop (t : Thread) (c : Nat) (x : Lease) : (t.setLease c x).loop = t.loop := rfl
@[simp] theorem Thread.setLease_bopen (t : Thread) (c : Nat) (x : Lease) : (t.setLease c x).bopen = t.bopen := rfl
@[simp] theorem Thread.setLease_svc (t : Thread) (c : Nat) (x : Lease) : (t.setLease c x).svc = t.svc := rfl
@[simp] theorem Thread.setLease_chPend (t : Thread) (c : Nat) (x : Lease) : (t.setLease c x).chPend = t.chPend := rfl
@[simp] theorem Thread.setLease_vlive (t : Thread) (c : Nat) (x : Lease) : (t.setLease c x).vlive = t.vlive := rfl
@[simp] theorem Thread.setLease_vspan (t : Thread) (c : Nat) (x : Lease) : (t.setLease c x).vspan = t.vspan := rfl
@[simp] theorem Thread.setLease_tdirty (t : Thread) (c : Nat) (x : Lease) : (t.setLease c x).tdirty = t.tdirty := rfl
@[simp] theorem Thread.setLease_vstopPast (t : Thread) (c : Nat) (x : Lease) : (t.setLease c x).vstopPast = t.vstopPast := rfl
@[simp] theorem Thread.setLease_arrivals (t : Thread) (c : Nat) (x : Lease) : (t.setLease c x).arrivals = t.arrivals := rfl
@[simp] theorem Thread.setLease_ceng (t : Thread) (c : Nat) (x : Lease) : (t.setLease c x).ceng = t.ceng := rfl
@[simp] theorem Thread.setLease_crun (t : Thread) (c : Nat) (x : Lease) : (t.setLease c x).crun = t.crun := rfl
@[simp] theorem Thread.setLease_cstop (t : Thread) (c : Nat) (x : Lease) : (t.setLease c x).cstop = t.cstop := rfl
@[simp] theorem Thread.setLease_binds (t : Thread) (c : Nat) (x : Lease) : (t.setLease c x).binds = t.binds := rfl

end Sys2Proof.Machine
end

