-- ==== Sys2Proof/Laws/Vector.lean ====
section
/-!
SUPPORT. Laws of vector register groups (R144): what a group's bytes and elements read as, and what a write of a group changes.
-/
namespace Sys2Proof.Machine

/-- A list made of pieces of one length. -/
theorem getD_flatMap {α β : Type} (z : β) (len : Nat) (f : α → List β) (hf : ∀ x, (f x).length = len) : ∀ (l : List α) (p : Nat),
    p < l.length * len → ∃ x, l[p / len]? = some x ∧ (l.flatMap f).getD p z = (f x).getD (p % len) z
  | [], p, hp => by simp at hp
  | x :: r, p, hp => by
    have hlen : 0 < len := by
      rcases Nat.eq_zero_or_pos len with h0 | h0
      · subst h0; simp at hp
      · exact h0
    rw [List.flatMap_cons]
    by_cases hlt : p < len
    · refine ⟨x, by simp [Nat.div_eq_of_lt hlt], ?_⟩
      rw [List.getD_eq_getElem?_getD, List.getElem?_append_left (by rw [hf]; exact hlt), Nat.mod_eq_of_lt hlt,
        List.getD_eq_getElem?_getD]
    · have hp' : p - len < r.length * len := by
        simp only [List.length_cons, Nat.add_mul, Nat.one_mul] at hp; omega
      obtain ⟨y, hy, he⟩ := getD_flatMap z len f hf r (p - len) hp'
      have hdiv : p / len = (p - len) / len + 1 := by
        rw [← Nat.div_eq_sub_div hlen (by omega)]
      have hmod : p % len = (p - len) % len := Nat.mod_eq_sub_mod (by omega)
      refine ⟨y, by rw [hdiv]; simpa using hy, ?_⟩
      rw [List.getD_eq_getElem?_getD, List.getElem?_append_right (by rw [hf]; omega), hf, ← List.getD_eq_getElem?_getD, he, hmod]

theorem length_flatMap {α β : Type} (len : Nat) (f : α → List β) (hf : ∀ x, (f x).length = len) (l : List α) :
    (l.flatMap f).length = l.length * len := by
  induction l with
  | nil => simp
  | cons x r ih => simp only [List.flatMap_cons, List.length_append, hf, ih, List.length_cons, Nat.add_mul]; omega

theorem length_group {t : Thread} (h : t.vregs.wf = true) (len reg n : Nat) : (t.group len reg n).length = n * len := by
  unfold Thread.group
  rw [length_flatMap len _ (fun i => length_regBytes h _ _)]
  simp [upTo]

/-- A byte of a group's bit string (R144). -/
theorem getD_group {t : Thread} (h : t.vregs.wf = true) (len reg n p : Nat) (hp : p < n * len) :
    (t.group len reg n).getD p 0 = t.groupByte len reg p := by
  have hlen : 0 < len := by
    rcases Nat.eq_zero_or_pos len with h0 | h0
    · subst h0; simp at hp
    · exact h0
  obtain ⟨x, hx, he⟩ := getD_flatMap (0 : Byte) len (fun i => t.regBytes len (reg + i))
    (fun i => length_regBytes h _ _) (upTo n) p (by simpa [upTo] using hp)
  have hx' : x = p / len := by
    have hlt : p / len < n := (Nat.div_lt_iff_lt_mul hlen).2 hp
    simp only [upTo, List.getElem?_range hlt, Option.some.injEq] at hx
    exact hx.symm
  unfold Thread.group Thread.groupByte
  rw [he, getD_regBytes h _ _ _ (Nat.mod_lt _ hlen), hx']

theorem getD_elemsOf (w : Nat) : ∀ (n : Nat) (b : List Byte) (k : Nat), k < n →
    (elemsOf w n b).getD k 0 = leNat ((b.drop (k * w)).take w)
  | 0, _, k, hk => by omega
  | n + 1, b, 0, _ => by simp [elemsOf]
  | n + 1, b, k + 1, hk => by
    simp only [elemsOf, List.getD_cons_succ]
    rw [getD_elemsOf w n (b.drop w) k (by omega), List.drop_drop, Nat.add_mul, Nat.one_mul, Nat.add_comm w]

theorem length_elemsOf (w : Nat) : ∀ (n : Nat) (b : List Byte), (elemsOf w n b).length = n
  | 0, _ => rfl
  | n + 1, b => by simp [elemsOf, length_elemsOf w n]

/-- Bytes from a place of a list, when the list is long enough. -/
theorem take_drop_eq {b : List Byte} {p w : Nat} (f : Nat → Byte) (hl : p + w ≤ b.length)
    (h : ∀ j < w, b.getD (p + j) 0 = f j) : (b.drop p).take w = (List.range w).map f := by
  apply List.ext_getElem
  · simp; omega
  · intro j h1 h2
    have hj : j < w := by simpa using h2
    have := h j hj
    rw [List.getD_eq_getElem?_getD, List.getElem?_eq_getElem (by omega)] at this
    simpa using this

/-- The registers of n elements hold them. -/
theorem spanOf_fits (e : QEntry) (w n : Nat) (hr : 0 < e.regLen) : n * w ≤ e.spanOf w n * e.regLen := by
  unfold QEntry.spanOf
  rw [Nat.max_eq_right (a := 1) (b := e.regLen) hr]
  have h1 : n * w ≤ (n * w + e.regLen - 1) / e.regLen * e.regLen := by
    have := Nat.lt_div_mul_add (a := n * w + e.regLen - 1) hr
    omega
  exact Nat.le_trans h1 (Nat.mul_le_mul_right _ (Nat.le_max_right _ _))

/-- An element of a group (R144). -/
theorem getD_elems {t : Thread} (h : t.vregs.wf = true) (e : QEntry) (reg : BitVec 6) (w n k : Nat) (hr : 0 < e.regLen) (hk : k < n) :
    (t.elems e reg w n).getD k 0 = t.elemAt e.regLen reg.toNat w k := by
  unfold Thread.elems Thread.elemAt
  rw [getD_elemsOf _ _ _ _ hk]
  congr 1
  have hfit := spanOf_fits e w n hr
  have hkw : k * w + w ≤ n * w := by
    have : (k + 1) * w ≤ n * w := Nat.mul_le_mul_right _ hk
    rw [Nat.add_mul, Nat.one_mul] at this; exact this
  apply take_drop_eq
  · rw [length_group h]; omega
  · intro j hj
    exact getD_group h _ _ _ _ (by omega)

theorem length_elems (t : Thread) (e : QEntry) (reg : BitVec 6) (w n : Nat) : (t.elems e reg w n).length = n := length_elemsOf _ _ _

/-- A write of a group touches the vector registers, their layout and their liveness alone. -/
theorem putRegs_frame (t : Thread) (len reg : Nat) (ws : List Bool) (b : List Byte) : t.putRegs len reg ws b =
    { t with vregs := (t.putRegs len reg ws b).vregs, vspan := (t.putRegs len reg ws b).vspan, vlive := (t.putRegs len reg ws b).vlive } :=
  rfl

/-- A release touches the layout of the vector registers alone. -/
theorem clearRegs_frame (t : Thread) (reg n : Nat) : t.clearRegs reg n = { t with vspan := (t.clearRegs reg n).vspan } := rfl

theorem length_touched (K : Nat) : ∀ (n : Nat) (l : List Bool), (touched K n l).length = n
  | 0, _ => rfl
  | n + 1, l => by simp [touched, length_touched K n]

theorem getD_touched (K : Nat) : ∀ (n : Nat) (l : List Bool) (i : Nat), i < n →
    (touched K n l).getD i false = ((l.drop (i * K)).take K).any id
  | 0, _, _, h => by omega
  | n + 1, l, 0, _ => by simp [touched]
  | n + 1, l, i + 1, h => by
    simp only [touched, List.getD_cons_succ]
    rw [getD_touched K n (l.drop K) i (by omega), List.drop_drop, Nat.add_mul, Nat.one_mul, Nat.add_comm K]

/-- In a piece that holds no written element, no element is written. -/
theorem untouched {K n : Nat} {l : List Bool} (hK : 0 < K) (k : Nat) (hn : k / K < n) (h : (touched K n l).getD (k / K) false = false) :
    l.getD k false = false := by
  rw [getD_touched K n l _ hn, List.any_eq_false] at h
  by_cases hk : k < l.length
  · have hm : k % K < K := Nat.mod_lt _ hK
    have he : k / K * K + k % K = k := Nat.div_add_mod' k K
    have hmem : l[k] ∈ (l.drop (k / K * K)).take K := by
      rw [List.mem_iff_getElem?]
      refine ⟨k % K, ?_⟩
      rw [List.getElem?_take_of_lt hm, List.getElem?_drop, he, List.getElem?_eq_getElem hk]
    have := h _ hmem
    rw [List.getD_eq_getElem?_getD, List.getElem?_eq_getElem hk]
    simpa using this
  · exact getD_past _ _ _ (by omega)

theorem length_bytesOf (w : Nat) (l : List Nat) : (bytesOf w l).length = l.length * w := by
  have hb : ∀ n x, (leBytes n x).length = n := by
    intro n; induction n with
    | zero => intro x; rfl
    | succ n ih => intro x; simp [leBytes, ih]
  exact length_flatMap w _ (hb w) l

theorem length_leBytes : ∀ (n x : Nat), (leBytes n x).length = n
  | 0, _ => rfl
  | n + 1, x => by simp [leBytes, length_leBytes n]

/-- The number that bytes of a number hold (R5). -/
theorem leNat_leBytes : ∀ (n x : Nat), leNat (leBytes n x) = x % 2 ^ (8 * n)
  | 0, x => by simp [leNat, leBytes, Nat.mod_one]
  | n + 1, x => by
    simp only [leBytes, leNat, leNat_leBytes n, BitVec.toNat_ofNat]
    rw [show 8 * (n + 1) = 8 + 8 * n by omega, Nat.pow_add, Nat.mod_mul]

/-- Element k of the bytes of a list of elements. -/
theorem getD_bytesOf {w : Nat} (hw : 0 < w) (l : List Nat) (k j : Nat) (hk : k < l.length) (hj : j < w) :
    (bytesOf w l).getD (k * w + j) 0 = (leBytes w (l.getD k 0)).getD j 0 := by
  have hkw : k * w + w ≤ l.length * w := by
    have : (k + 1) * w ≤ l.length * w := Nat.mul_le_mul_right _ hk
    rw [Nat.add_mul, Nat.one_mul] at this; exact this
  obtain ⟨x, hx, he⟩ := getD_flatMap (0 : Byte) w (leBytes w) (length_leBytes w) l (k * w + j) (by omega)
  have hdiv : (k * w + j) / w = k := by rw [Nat.mul_comm, Nat.mul_add_div hw, Nat.div_eq_of_lt hj, Nat.add_zero]
  have hmod : (k * w + j) % w = j := by rw [Nat.mul_comm, Nat.mul_add_mod, Nat.mod_eq_of_lt hj]
  rw [hdiv] at hx
  have hlx : l.getD k 0 = x := by simp [List.getD_eq_getElem?_getD, hx]
  unfold bytesOf
  rw [he, hmod, hlx]

/-- Elements written to a group, with what they leave of it (R102, R144): for registers of len bytes that hold whole elements, and
elements that are not written given as they stand. -/
theorem elemAt_putSome {t : Thread} (h : t.vregs.wf = true) (hs : t.spanOk = true) (e : QEntry) (reg : BitVec 6) {w : Nat} (wrote : List Bool)
    (l : List Nat) (hlen : e.regLen ≤ 2048) (hr : 0 < e.regLen) (hw : 0 < w) (hd : w ∣ e.regLen) (hn : e.spanOf w l.length ≤ 8)
    (hold : ∀ k, k < l.length → wrote.getD k false = false → l.getD k 0 % 2 ^ (8 * w) = t.elemAt e.regLen reg.toNat w k) :
    (t.putSome e reg w wrote l).vregs.wf = true ∧ (t.putSome e reg w wrote l).spanOk = true ∧
    (∀ k, (t.putSome e reg w wrote l).elemAt e.regLen reg.toNat w k =
      if k < l.length then l.getD k 0 % 2 ^ (8 * w) else t.elemAt e.regLen reg.toNat w k) ∧
    (∀ r q, q < e.regLen → (r < reg.toNat ∨ reg.toNat + e.spanOf w l.length ≤ r) →
      (t.putSome e reg w wrote l).regByte e.regLen r q = t.regByte e.regLen r q) := by
  obtain ⟨K, hK⟩ := hd
  have hKp : 0 < K := by
    rcases Nat.eq_zero_or_pos K with h0 | h0
    · subst h0; omega
    · exact h0
  have hKd : e.regLen / w = K := by rw [hK, Nat.mul_div_cancel_left _ hw]
  have hfit := spanOf_fits e w l.length hr
  unfold Thread.putSome
  dsimp only
  rw [hKd]
  generalize hN : e.spanOf w l.length = n at hn hfit ⊢
  have hB : (bytesOf w l ++ (t.group e.regLen reg.toNat n).drop (bytesOf w l).length).length = (touched K n wrote).length * e.regLen := by
    rw [length_touched, List.length_append, List.length_drop, length_group h, length_bytesOf]; omega
  obtain ⟨w1, hget⟩ := putRegs_bytes hs h hlen reg.isLt (by rw [length_touched]; exact hn) hB
  refine ⟨w1, putRegs_sound hs _ _ _ _, fun k => ?_, fun r q hq hrr => ?_⟩
  · -- every byte of the group's string
    have hbyte : ∀ p, (t.putRegs e.regLen reg.toNat (touched K n wrote)
        (bytesOf w l ++ (t.group e.regLen reg.toNat n).drop (bytesOf w l).length)).groupByte e.regLen reg.toNat p =
        if (touched K n wrote).getD (p / e.regLen) false = true ∧ p < l.length * w then (bytesOf w l).getD p 0
        else t.groupByte e.regLen reg.toNat p := by
      intro p
      have hmod : p % e.regLen < e.regLen := Nat.mod_lt _ hr
      unfold Thread.groupByte
      rw [hget _ _ hmod, Nat.add_sub_cancel_left, Nat.div_add_mod' p e.regLen]
      by_cases ht : (touched K n wrote).getD (p / e.regLen) false = true
      · rw [if_pos ⟨Nat.le_add_right _ _, ht⟩]
        have hpn : p / e.regLen < n := by
          by_cases hx : p / e.regLen < n
          · exact hx
          · rw [getD_past _ _ _ (by rw [length_touched]; omega)] at ht; cases ht
        have hpl : p < n * e.regLen := (Nat.div_lt_iff_lt_mul hr).1 hpn
        by_cases hp : p < l.length * w
        · rw [if_pos ⟨ht, hp⟩, List.getD_eq_getElem?_getD, List.getElem?_append_left (by rw [length_bytesOf]; exact hp),
            ← List.getD_eq_getElem?_getD]
        · rw [if_neg fun x => hp x.2, List.getD_eq_getElem?_getD, List.getElem?_append_right (by rw [length_bytesOf]; omega),
            List.getElem?_drop, length_bytesOf, show l.length * w + (p - l.length * w) = p by omega,
            ← List.getD_eq_getElem?_getD, getD_group h _ _ _ _ hpl]
          rfl
      · rw [if_neg fun x => ht x.2, if_neg fun x => ht x.1]
    -- an element stands in one register
    have hreg : ∀ j, j < w → (k * w + j) / e.regLen = k / K := by
      intro j hj
      rw [hK, ← Nat.div_div_eq_div_mul]
      congr 1
      rw [Nat.mul_comm, Nat.mul_add_div hw, Nat.div_eq_of_lt hj, Nat.add_zero]
    by_cases hk : k < l.length
    · rw [if_pos hk]
      have hkw : k * w + w ≤ l.length * w := by
        have : (k + 1) * w ≤ l.length * w := Nat.mul_le_mul_right _ hk
        rw [Nat.add_mul, Nat.one_mul] at this; exact this
      by_cases ht : (touched K n wrote).getD (k / K) false = true
      · unfold Thread.elemAt
        rw [← leNat_leBytes]
        congr 1
        apply List.ext_getElem
        · simp [length_leBytes]
        · intro j h1 h2
          have hj : j < w := by simpa using h1
          simp only [List.getElem_map, List.getElem_range]
          rw [hbyte, hreg j hj, if_pos ⟨ht, by omega⟩, getD_bytesOf hw l k j hk hj, List.getD_eq_getElem?_getD,
            List.getElem?_eq_getElem h2, Option.getD_some]
      · have hkn : k / K < n := by
          rw [Nat.div_lt_iff_lt_mul hKp]
          have : l.length * w ≤ n * K * w := by rw [Nat.mul_assoc, Nat.mul_comm K, ← hK]; exact hfit
          exact Nat.lt_of_lt_of_le hk (Nat.le_of_mul_le_mul_right this hw)
        rw [hold k hk (untouched hKp k hkn (by simpa using ht))]
        unfold Thread.elemAt
        congr 1
        apply List.map_congr_left
        intro j hj
        rw [hbyte, hreg j (List.mem_range.1 hj), if_neg fun x => ht x.1]
    · rw [if_neg hk]
      unfold Thread.elemAt
      congr 1
      apply List.map_congr_left
      intro j _
      rw [hbyte, if_neg]
      have : l.length * w ≤ k * w := Nat.mul_le_mul_right _ (Nat.le_of_not_lt hk)
      omega
  · rw [hget r q hq, if_neg]
    rintro ⟨h1, h2⟩
    rw [getD_past _ _ _ (by rw [length_touched]; omega)] at h2
    cases h2

/-- Elements written to a group, all of them (R144). -/
theorem elemAt_putElems {t : Thread} (h : t.vregs.wf = true) (hs : t.spanOk = true) (e : QEntry) (reg : BitVec 6) {w : Nat} (l : List Nat)
    (hlen : e.regLen ≤ 2048) (hr : 0 < e.regLen) (hw : 0 < w) (hd : w ∣ e.regLen) (hn : e.spanOf w l.length ≤ 8) :
    (t.putElems e reg w l).vregs.wf = true ∧ (t.putElems e reg w l).spanOk = true ∧
    (∀ k, (t.putElems e reg w l).elemAt e.regLen reg.toNat w k =
      if k < l.length then l.getD k 0 % 2 ^ (8 * w) else t.elemAt e.regLen reg.toNat w k) ∧
    (∀ r q, q < e.regLen → (r < reg.toNat ∨ reg.toNat + e.spanOf w l.length ≤ r) →
      (t.putElems e reg w l).regByte e.regLen r q = t.regByte e.regLen r q) :=
  elemAt_putSome h hs e reg _ l hlen hr hw hd hn fun k hk hx => by
    rw [List.getD_eq_getElem?_getD, List.getElem?_replicate, if_pos hk] at hx; cases hx

/-- Elements written to a group touch the vector registers, their layout and their liveness alone. -/
theorem putSome_frame (t : Thread) (e : QEntry) (reg : BitVec 6) (w : Nat) (wrote : List Bool) (l : List Nat) : t.putSome e reg w wrote l =
    { t with vregs := (t.putSome e reg w wrote l).vregs, vspan := (t.putSome e reg w wrote l).vspan
             vlive := (t.putSome e reg w wrote l).vlive } := rfl

/-- An element of a group is a number of w bytes. -/
theorem elemAt_lt (t : Thread) (len reg w k : Nat) : t.elemAt len reg w k < 2 ^ (8 * w) := by
  have : ∀ l : List Byte, leNat l < 2 ^ (8 * l.length) := by
    intro l
    induction l with
    | nil => simp [leNat]
    | cons b r ih =>
      simp only [leNat, List.length_cons]
      have hb := b.isLt
      rw [show 8 * (r.length + 1) = 8 + 8 * r.length by omega, Nat.pow_add]
      omega
  have h := this ((List.range w).map fun j => t.groupByte len reg (k * w + j))
  simpa [Thread.elemAt] using h

/-- What R102 leaves in an element, for its value before and its new one. -/
theorem getD_mergeGo (vs vl : Nat) (mpol tail : Bool) : ∀ (i : Nat) (ps : List Bool) (os ns : List Nat) (k : Nat),
    k < ps.length → os.length = ps.length → ns.length = ps.length → (∀ j, vl ≤ i + j → ps.getD j false = false) →
    (mergeGo vs vl mpol tail i ps os ns).getD k 0 =
      (if i + k < vs then os.getD k 0 else if i + k < vl then (if ps.getD k false then ns.getD k 0 else if mpol then 0 else os.getD k 0)
        else if tail then 0 else os.getD k 0)
  | i, p :: ps, o :: os, n :: ns, 0, _, _, _, hp => by
    have h0 := hp 0
    simp only [mergeGo, List.getD_cons_zero, Nat.add_zero]
    split
    · rfl
    · by_cases hv : i < vl
      · simp [hv]
      · have : p = false := by simpa using h0 (by omega)
        simp [hv, this]
  | i, p :: ps, o :: os, n :: ns, k + 1, hk, ho, hn, hp => by
    simp only [mergeGo, List.getD_cons_succ]
    rw [getD_mergeGo vs vl mpol tail (i + 1) ps os ns k (by simpa using hk) (by simpa using ho) (by simpa using hn)
      (fun j hj => by simpa using hp (j + 1) (by omega)), show i + 1 + k = i + (k + 1) by omega]
  | _, p :: ps, [], _, _, _, ho, _, _ => by simp at ho
  | _, p :: ps, _ :: _, [], _, _, _, hn, _ => by simp at hn

theorem length_mergeGo (vs vl : Nat) (mpol tail : Bool) : ∀ (i : Nat) (ps : List Bool) (os ns : List Nat),
    os.length = ps.length → ns.length = ps.length → (mergeGo vs vl mpol tail i ps os ns).length = ps.length
  | _, [], _, _, _, _ => by simp [mergeGo]
  | i, p :: ps, o :: os, n :: ns, ho, hn => by
    simp only [mergeGo, List.length_cons]
    rw [length_mergeGo vs vl mpol tail (i + 1) ps os ns (by simpa using ho) (by simpa using hn)]
  | _, p :: ps, [], _, ho, _ => by simp at ho
  | _, p :: ps, _ :: _, [], _, hn => by simp at hn

theorem getD_bitsOf (b : List Byte) (k : Nat) (hk : k < b.length * 8) : (bitsOf b).getD k false = (b.getD (k / 8) 0).getLsbD (k % 8) := by
  obtain ⟨x, hx, he⟩ := getD_flatMap false 8 (fun x : Byte => (upTo 8).map fun i => bitN x.toNat i) (fun x => by simp [upTo]) b k hk
  unfold bitsOf
  rw [he]
  have hx' : b.getD (k / 8) 0 = x := by simp [List.getD_eq_getElem?_getD, hx]
  have hm : k % 8 < 8 := Nat.mod_lt _ (by omega)
  rw [hx', List.getD_eq_getElem?_getD]
  simp [upTo, List.getElem?_map, List.getElem?_range hm, bitN, BitVec.getLsbD, Nat.testBit, Nat.shiftRight_eq_div_pow,
    Nat.one_and_eq_mod_two, BEq.beq]

theorem length_bitsOf (b : List Byte) : (bitsOf b).length = b.length * 8 := length_flatMap 8 _ (fun x => by simp [upTo]) b

/-- A bit of a mask register as an operand reads it (R6). -/
theorem getD_kbits {t : Thread} (h : t.masks.wf = true) (n len k : Nat) (hk : k < len) : (t.kbits n len).getD k false = t.maskAt n k := by
  unfold Thread.kbits Thread.maskAt
  by_cases hn : n = 0
  · simp [hn, List.getD_eq_getElem?_getD, hk]
  · rw [if_neg hn]
    have hb : k < (mgetN t.masks (n * 2048) ((len + 7) / 8)).length * 8 := by rw [length_mgetN]; omega
    rw [List.getD_eq_getElem?_getD, List.getElem?_take_of_lt hk, ← List.getD_eq_getElem?_getD, mread_eq h, getD_bitsOf _ _ hb,
      getD_mgetN, if_pos (by omega)]
    simp [hn]

theorem length_kbits {t : Thread} (h : t.masks.wf = true) (n len : Nat) : (t.kbits n len).length = len := by
  unfold Thread.kbits
  by_cases hn : n = 0
  · simp [hn]
  · rw [if_neg hn, List.length_take, length_bitsOf, mread_eq h, length_mgetN]; omega

/-- present(e) of R101. -/
theorem getD_presents {t : Thread} (h : t.masks.wf = true) (e : QEntry) (i : Instr) (n k : Nat) (hv : e.vl ≤ n) (hk : k < n) :
    (presents t e i n).getD k false = (decide (k < e.vl) && t.maskAt (maskNo e i) k) := by
  unfold presents actives
  have hl : ((t.kbits (maskNo e i) e.vl).take n).length = e.vl := by rw [List.length_take, length_kbits h]; omega
  by_cases hlt : k < e.vl
  · rw [List.getD_eq_getElem?_getD, List.getElem?_append_left (by omega), List.getElem?_take_of_lt (by omega),
      ← List.getD_eq_getElem?_getD, getD_kbits h _ _ _ hlt]
    simp [hlt]
  · rw [List.getD_eq_getElem?_getD, List.getElem?_append_right (by omega), hl]
    simp [hlt, List.getElem?_replicate]
    split <;> rfl

theorem length_presents {t : Thread} (h : t.masks.wf = true) (e : QEntry) (i : Instr) (n : Nat) (hv : e.vl ≤ n) :
    (presents t e i n).length = n := by
  unfold presents actives
  rw [List.length_append, List.length_take, length_kbits h, List.length_replicate]; omega

/-- Which elements R102 writes. -/
theorem getD_wroteGo (vs vl : Nat) (mpol tail : Bool) : ∀ (i : Nat) (ps : List Bool) (k : Nat), k < ps.length →
    (wroteGo vs vl mpol tail i ps).getD k false = (decide (vs ≤ i + k) && (ps.getD k false || if i + k < vl then mpol else tail))
  | i, p :: ps, 0, _ => by simp [wroteGo]
  | i, p :: ps, k + 1, hk => by
    simp only [wroteGo, List.getD_cons_succ]
    rw [getD_wroteGo vs vl mpol tail (i + 1) ps k (by simpa using hk), show i + 1 + k = i + (k + 1) by omega]
  | i, [], k, hk => by simp at hk

/-- A vector destination written through R102, where no D copies it: the elements of its group up to VLMAX. -/
theorem elemAt_writeVec {t : Thread} (h : t.vregs.wf = true) (hs : t.spanOk = true) (e : QEntry) (vd : BitVec 6) {w : Nat} (ps : List Bool) (ns : List Nat)
    (hlen : e.regLen ≤ 2048) (hr : 0 < e.regLen) (hw : 0 < w) (hd : w ∣ e.regLen) (hn : e.spanOf w e.vlmax ≤ 8) (hD : featD e.feat = false)
    (hps : ps.length = e.vlmax) (hns : ns.length = e.vlmax) (hp : ∀ j, e.vl ≤ j → ps.getD j false = false) (k : Nat) (hk : k < e.vlmax) :
    (t.writeVec e vd w ps ns).elemAt e.regLen vd.toNat w k =
      (if k < t.vstart then t.elemAt e.regLen vd.toNat w k
        else if k < e.vl then (if ps.getD k false then ns.getD k 0 % 2 ^ (8 * w) else if e.mpol then 0 else t.elemAt e.regLen vd.toNat w k)
        else if e.tail then 0 else t.elemAt e.regLen vd.toNat w k) := by
  have hold : (t.elems e vd w e.vlmax).length = ps.length := by rw [length_elems, hps]
  have hlm : (mergeW e t.vstart ps (t.elems e vd w e.vlmax) ns).length = e.vlmax := by
    rw [mergeW, length_mergeGo _ _ _ _ _ _ _ _ hold (by omega), hps]
  have hmerge : ∀ j, j < e.vlmax → (mergeW e t.vstart ps (t.elems e vd w e.vlmax) ns).getD j 0 =
      (if j < t.vstart then t.elemAt e.regLen vd.toNat w j
        else if j < e.vl then (if ps.getD j false then ns.getD j 0 else if e.mpol then 0 else t.elemAt e.regLen vd.toNat w j)
        else if e.tail then 0 else t.elemAt e.regLen vd.toNat w j) := fun j hj => by
    rw [mergeW, getD_mergeGo _ _ _ _ 0 ps _ ns j (by omega) hold (by omega) (by simpa using hp), getD_elems h e vd w e.vlmax j hr hj]
    simp only [Nat.zero_add]
  have hlt := fun j => elemAt_lt t e.regLen vd.toNat w j
  have hst : ∀ j, j < (mergeW e t.vstart ps (t.elems e vd w e.vlmax) ns).length → (wroteW e t.vstart ps).getD j false = false →
      (mergeW e t.vstart ps (t.elems e vd w e.vlmax) ns).getD j 0 % 2 ^ (8 * w) = t.elemAt e.regLen vd.toNat w j := fun j hj hwr => by
    rw [hlm] at hj
    rw [wroteW, getD_wroteGo _ _ _ _ 0 ps j (by omega), Nat.zero_add] at hwr
    rw [hmerge j hj]
    have hmod := Nat.mod_eq_of_lt (hlt j)
    by_cases h1 : j < t.vstart
    · rw [if_pos h1, hmod]
    · have h1' : t.vstart ≤ j := by omega
      simp only [h1', decide_true, Bool.true_and, Bool.or_eq_false_iff] at hwr
      rw [if_neg h1, hwr.1]
      by_cases h2 : j < e.vl
      · have hm := hwr.2; rw [if_pos h2] at hm; simp [h2, hm, hmod]
      · have hm := hwr.2; rw [if_neg h2] at hm; simp [h2, hm, hmod]
  obtain ⟨-, -, hel, -⟩ := elemAt_putSome h hs e vd (wroteW e t.vstart ps) (mergeW e t.vstart ps (t.elems e vd w e.vlmax) ns) hlen hr hw hd
    (by rw [hlm]; exact hn) hst
  simp only [Thread.writeVec, Thread.copyGroup, Thread.copyBelow, hD, Bool.false_eq_true, if_false]
  rw [hel, hlm, if_pos hk, hmerge k hk]
  split
  · exact Nat.mod_eq_of_lt (hlt k)
  · split
    · split
      · rfl
      · split
        · exact Nat.zero_mod _
        · exact Nat.mod_eq_of_lt (hlt k)
    · split
      · exact Nat.zero_mod _
      · exact Nat.mod_eq_of_lt (hlt k)

theorem length_packBits : ∀ (n : Nat) (b : List Bool), (packBits n b).length = n
  | 0, _ => rfl
  | n + 1, b => by simp [packBits, length_packBits n]

theorem getD_packBits : ∀ (n : Nat) (b : List Bool) (k : Nat), k < n * 8 →
    ((packBits n b).getD (k / 8) 0).getLsbD (k % 8) = b.getD k false
  | 0, _, _, hk => by omega
  | n + 1, b, k, hk => by
    by_cases h8 : k < 8
    · have hd : k / 8 = 0 := by omega
      have hm : k % 8 = k := by omega
      rw [hd, hm, packBits, List.getD_cons_zero]
      simp only [upTo, List.map, List.range, List.range.loop, packN]
      have key : ∀ x0 x1 x2 x3 x4 x5 x6 x7 : Bool, ∀ k < 8,
          (BitVec.ofNat 8 (boolN x0 * 2 ^ 0 + (boolN x1 * 2 ^ 1 + (boolN x2 * 2 ^ 2 + (boolN x3 * 2 ^ 3 + (boolN x4 * 2 ^ 4 +
            (boolN x5 * 2 ^ 5 + (boolN x6 * 2 ^ 6 + (boolN x7 * 2 ^ 7 + 0))))))))).getLsbD k =
          [x0, x1, x2, x3, x4, x5, x6, x7].getD k false := by decide
      rw [key _ _ _ _ _ _ _ _ k h8]
      have : k = 0 ∨ k = 1 ∨ k = 2 ∨ k = 3 ∨ k = 4 ∨ k = 5 ∨ k = 6 ∨ k = 7 := by omega
      rcases this with rfl | rfl | rfl | rfl | rfl | rfl | rfl | rfl <;> rfl
    · have hd : k / 8 = (k - 8) / 8 + 1 := by omega
      have hm : k % 8 = (k - 8) % 8 := by omega
      rw [hd, hm, packBits, List.getD_cons_succ, getD_packBits n (b.drop 8) (k - 8) (by omega)]
      rw [List.getD_eq_getElem?_getD, List.getElem?_drop, ← List.getD_eq_getElem?_getD, show 8 + (k - 8) = k by omega]

/-- A mask register just written: its low bits read back, its other bits and the other mask registers stand; k0 takes no write (R150). -/
theorem maskAt_putK {t : Thread} (h : t.masks.wf = true) (n : Nat) (b : List Bool) (hb : b.length ≤ 16384) (m k : Nat) (hk : k < 16384) :
    (t.putK n b).maskAt m k = if m = n ∧ n ≠ 0 ∧ k < b.length then b.getD k false else t.maskAt m k := by
  by_cases hn : n = 0
  · simp [Thread.putK, hn]
  · unfold Thread.putK
    rw [if_neg hn]
    unfold Thread.maskAt
    by_cases hm : m = 0
    · subst hm
      rw [if_neg (by omega)]
      simp
    · have hlen := length_packBits ((b.length + 7) / 8) (b ++ (bitsOf (mread t.masks (n * 2048) ((b.length + 7) / 8))).drop b.length)
      simp only [Thread.setMasks, hm, decide_false, Bool.false_or]
      rw [mget_mwrite h, hlen]
      by_cases hmn : m = n
      · subst hmn
        by_cases hkk : k / 8 < (b.length + 7) / 8
        · rw [if_pos (by omega), show m * 2048 + k / 8 - m * 2048 = k / 8 by omega, getD_packBits _ _ k (by omega)]
          by_cases hkb : k < b.length
          · rw [if_pos ⟨rfl, hn, hkb⟩, List.getD_eq_getElem?_getD, List.getElem?_append_left hkb, ← List.getD_eq_getElem?_getD]
          · rw [if_neg (by omega), List.getD_eq_getElem?_getD, List.getElem?_append_right (by omega), List.getElem?_drop,
              show b.length + (k - b.length) = k by omega, ← List.getD_eq_getElem?_getD, mread_eq h,
              getD_bitsOf _ _ (by rw [length_mgetN]; omega), getD_mgetN, if_pos hkk]
        · rw [if_neg (by omega), if_neg (by omega)]
      · rw [if_neg (by omega), if_neg (by omega)]

end Sys2Proof.Machine
end

