-- ==== Sys2Proof/Tests/Slice0.lean ====
section
/-!
SUPPORT. The model's own tests: ill-formed instructions are refused, words written out from the encoding tables decode, and for every
statement with hypotheses a concrete state meets them.
-/
namespace Sys2Proof.Tests
open Sys2Proof Sys2Proof.Machine

set_option Elab.async false

/-- R85: one ill-formed term for each check of the fields. -/
theorem test_ill_formed_refused : ∀ i ∈ ([.bfx 1 2 60 9, .bfi 1 2 1 63, .amoadd 1 2 3 true 7 true, .amocas 1 2 3 false 1 false, .fenceAcq 7, .bar 1 0,
    .bar 1 6, .sysrd 1 0x004, .syswr 1 0x040, .pfh 7 1 0, .ksbf 2 2 0, .vexit 7 8 16 0 0, .vrand 8 1 31 0, .cpdim 1 2 3 6, .cpgo 1 2 0, .cpgo 1 2 7,
    .pwlease 3, .pwdrop 3, .lmark 3 3 8 9 0, .lmark 0 4 8 9 0, .lmark 3 4 9 8 0, .lmark 3 4 8 9 7, .vadd 8 16 32 0 0 true] : List Instr),
    i.wf = false := by decide +kernel

theorem test_ill_formed_refused_2 : ∀ i ∈ ([.vcmp 1 6 8 16 0 0 false, .vcmp 1 0 8 40 0 0 true, .vfcmp 1 7 8 16 0 0 false, .vfcmp 1 6 8 32 0 0 true,
    .pfx true 0 false 0 13 0, .pfx true 0 false 0 0 13, .pfx false 1 false 0 0 0, .pfx true 0 false 1 0 0, .cp 0 0, .cp 0x1C0 0x101,
    .cp 0x160 0x101, .cp 0x981 0x101, .cp 0x040 0x101, .cp 0x101 0x1C0] : List Instr), i.wf = false := by decide +kernel

/-- R85: words that are no instructions: no operation, a reserved major, an unallocated function code, a field that must be 0. -/
theorem test_no_instruction : ([0#32, 0x7F#32, 0xFFFFFFFF#32, 0x0C#32, 0x03C00001#32, 0x08021001#32, 0xE0000010#32, 0x10000038#32, 0xFD#32,
    0x0400007C#32] : List IWord).all (fun w => (decode w).isNone) = true := by decide +kernel

/-- A loaded machine with one resident thread (log 43) that has a handler, and in the place of that thread a given one. -/
def thread0 : Thread :=
  { newThread 0 0 0 0 0x10000 0x100000 [] 0x200000 false 0 with res := .resident, tvec := 0x20000 }

def place (t : Thread) : State := { State.reset.readied.loaded false with threads := [(0, t)] }

/-- Nothing stands before the thread's next word. -/
def Calm (t : Thread) : Bool :=
  decide (t.res = .resident ∧ t.wait = none ∧ t.pend = none) && !t.loop.open_ && decide (t.loop.stage = .none ∧ t.loop.depart = none) &&
    !t.loop.vtrap && !t.regionOpen && !t.bopen && !t.chPend

theorem ready_of {s : State} {t : Thread} (hc : s.cur = 0) (ht : s.th 0 = some t) (h : Calm t = true) : Ready s 0 t := by
  simp [Calm] at h
  exact ⟨hc, ht, h.1.1.1.1.1.1.1, h.1.1.1.1.1.1.2.1, h.1.1.1.1.1.1.2.2, h.1.1.1.1.1.2, h.1.1.1.1.2.1, h.1.1.1.1.2.2, h.1.1.1.2, h.1.1.2, h.1.2, h.2⟩

theorem ready_place {t : Thread} (h : Calm t = true) : Ready (place t) 0 t := ready_of rfl rfl h

theorem quiet_place (t : Thread) (l : Nat) (h : l * 128 / 2 ^ 45 = 0 := by decide) : Quiet (place t) l :=
  ⟨by rw [State.routed, pkgOf, h]; rfl, rfl, rfl, rfl, rfl, rfl⟩

theorem isOk {α : Type} {x : Acc α} (h : (match x with | .ok _ => true | _ => false) = true) : ∃ y, x = .ok y := by
  cases x with
  | ok y => exact ⟨y, rfl⟩
  | trap c => cases h
  | hold => cases h

/-- An access is answered by a place of DRAM. -/
theorem dramAt {x : Except Nat Loc} {pa pl : Nat} (h : (match x with
    | .ok (.dram a b) => a == pa && b == pl
    | _ => false) = true) : x = .ok (.dram pa pl) := by
  split at h
  · simp at h; simp [h]
  · cases h

/-- An access is answered by a trap. -/
theorem errorAt {x : Except Nat Loc} {c : Nat} (h : (match x with
    | .error d => d == c
    | _ => false) = true) : x = .error c := by
  split at h
  · simp at h; simp [h]
  · cases h

/-- A thread with a scalar register set. -/
def withReg (n : BitVec 5) (x : Word) : Thread := { thread0 with regs := setAt 0 thread0.regs n.toNat x }

theorem ready_reg (n : BitVec 5) (x : Word) : Ready (place (withReg n x)) 0 (withReg n x) :=
  ready_place (show Calm thread0 = true by decide)

/-- RegisterArithmetic, ImmediateForms, BranchesAndJumps, SystemRegisterReads. -/
theorem witness_scalar_words : ∃ s h t, Ready s h t := ⟨_, 0, _, ready_reg 5 7⟩

/-- BranchesAndJumps: a target of jalr that is a multiple of 4, and one that is not, with a trap that can be taken. -/
theorem witness_BranchesAndJumps :
    (∃ s h t, Ready s h t ∧ (t.reg 5 + (8 : BitVec 15).signExtend 64).toNat % 4 = 0) ∧
    (∃ s h t, Ready s h t ∧ (t.reg 5 + (7 : BitVec 15).signExtend 64).toNat % 4 ≠ 0 ∧ t.queue = [] ∧ Trappable s t) :=
  ⟨⟨_, 0, _, ready_reg 5 0x30000, by decide⟩,
   ⟨_, 0, _, ready_reg 5 0x30000, by decide, rfl, rfl, by decide, isOk (by decide +kernel)⟩⟩

/-- ScalarLoadsAndStores, ScalarAtomics and LaunchAndExit: DRAM that the thread may load, store and change. -/
theorem witness_ScalarLoadsAndStores : ∃ s h t pa place', Ready s h t ∧ t.queue = [] ∧ s.mem.wf = true ∧ Quiet s (pa / 128) ∧ pa % 64 = 0 ∧
    t.vwaiting = false ∧ s.unflipped h = false ∧ s.fenceDone h t 1 = true ∧
    s.checkAccess t .S .load (t.reg 5 + (0 : BitVec 12).signExtend 64).toNat 8 = .ok (.dram pa place') ∧
    s.checkAccess t .S .store (t.reg 5 + (0 : BitVec 12).signExtend 64).toNat 8 = .ok (.dram pa place') ∧
    s.checkAccess t .S .atomic (t.reg 5).toNat 8 = .ok (.dram pa place') ∧
    s.checkAccess t .S .load (t.reg 5).toNat 64 = .ok (.dram pa place') ∧ (t.q 0).length < 8 :=
  ⟨_, 0, _, 0x30000, 0, ready_reg 5 0x30000, rfl, by decide +kernel, quiet_place _ _, by decide, rfl, rfl, rfl, dramAt (by decide +kernel), dramAt (by decide +kernel),
    dramAt (by decide +kernel), dramAt (by decide +kernel), by decide⟩

/-- BadAddressesTrap: the lowest address above 48 bits, and the highest below, which is odd. -/
theorem witness_BadAddressesTrap :
    (∃ s h t, Ready s h t ∧ t.queue = [] ∧ Trappable s t ∧ (t.reg 5 + (0 : BitVec 12).signExtend 64).toNat = 2 ^ 48) ∧
    (∃ s h t, Ready s h t ∧ t.queue = [] ∧ Trappable s t ∧ (t.reg 5 + (0 : BitVec 12).signExtend 64).toNat = 2 ^ 48 - 1) :=
  ⟨⟨_, 0, _, ready_reg 5 0x1000000000000, rfl, ⟨rfl, by decide, isOk (by decide +kernel)⟩, by decide⟩,
   ⟨_, 0, _, ready_reg 5 0xFFFFFFFFFFFF, rfl, ⟨rfl, by decide, isOk (by decide +kernel)⟩, by decide⟩⟩

/-- An entry of the vector queue: word i with captured scalars, SEW 32, LMUL 1, VL 2, a strip of one octet. -/
def entry (i : Instr) (ops : List Word) : QEntry where
  word := (encode i).getD 0
  pc := 0x10000
  feat := 0
  popDone := false
  ops := ops
  anchor := none
  vcfg := 2
  vl := 2
  vlmax := 64
  vill := false
  strip := 0
  region := false
  bundle := none
  heavy := none
  failed := false
  since := none
  at_ := 0
  tag := 1
  zero := none
  met := 0

/-- SystemCallsAndStraySret: an empty queue and a trap that can be taken; and a queue that is not empty. -/
theorem witness_SystemCallsAndStraySret :
    (∃ s h t, Ready s h t ∧ t.queue = [] ∧ Trappable s t) ∧ (∃ s h t, Ready s h t ∧ t.queue ≠ []) :=
  ⟨⟨_, 0, _, ready_reg 5 7, rfl, rfl, by decide, isOk (by decide +kernel)⟩,
   ⟨_, 0, _, ready_place (t := thread0.setQueue [entry (.zclr 0) []]) (by decide), by decide⟩⟩

/-- UnhandledTrapsEnd: a handler that runs; none set; an image whose place is not mapped; and, in the handler, a queued word and a
strip-opening one. -/
theorem witness_UnhandledTrapsEnd :
    (∃ (s : State) (h : Nat) (t : Thread) (k : Task), s.threadsOk = true ∧ s.th h = some t ∧ s.task t.part t.task = some k ∧ t.handler = true) ∧
    (∃ (s : State) (h : Nat) (t : Thread) (k : Task), s.threadsOk = true ∧ s.th h = some t ∧ s.task t.part t.task = some k ∧ k.ended = 0 ∧
      t.handler = false ∧ t.tvec = 0) ∧
    (∃ (s : State) (h : Nat) (t : Thread) (k : Task) (c : Nat), s.threadsOk = true ∧ s.th h = some t ∧ s.task t.part t.task = some k ∧
      t.handler = false ∧ t.tvec ≠ 0 ∧ s.putImage t [] = .trap c) ∧
    (∃ (i : Instr) (s : State) (h : Nat) (t : Thread) (k : Task), queued i = true ∧ Ready s h t ∧ t.handler = true ∧ t.queue = [] ∧
      s.threadsOk = true ∧ s.task t.part t.task = some k) ∧
    (∃ (i : Instr) (s : State) (h : Nat) (t : Thread) (k : Task), opensStrip i = true ∧ Ready s h t ∧ t.handler = true ∧ t.queue = [] ∧
      s.threadsOk = true ∧ s.task t.part t.task = some k) :=
  ⟨⟨place { thread0 with handler := true }, 0, _, _, rfl, rfl, rfl, rfl⟩,
   ⟨place { thread0 with tvec := 0 }, 0, _, _, rfl, rfl, rfl, rfl, rfl, rfl⟩,
   ⟨place { thread0 with grbase := 0x40000000 }, 0, _, _, 4, rfl, rfl, rfl, rfl, by decide, by decide +kernel⟩,
   ⟨.vid 8 0, _, 0, { thread0 with handler := true }, _, rfl, ready_place (by decide), rfl, rfl, rfl, rfl⟩,
   ⟨.setvl 1 2, _, 0, { thread0 with handler := true }, _, rfl, ready_place (by decide), rfl, rfl, rfl, rfl⟩⟩

/-- ReturnFromTrap: a handler that runs, and its image where the thread may read it; and one whose TPC is no multiple of 4. -/
theorem witness_ReturnFromTrap : (∃ s h t pa place', Ready s h t ∧ t.handler = true ∧ t.queue = [] ∧ t.imgq = [] ∧ t.tpc.toNat % 4 = 0 ∧
    s.checkAccess t .S .load t.grbase.toNat 4096 = .ok (.dram pa place') ∧ ∀ l ∈ linesOf pa 4096, Quiet s l) ∧
    ∃ s h t, Ready s h t ∧ t.handler = true ∧ t.queue = [] ∧ t.tpc.toNat % 4 ≠ 0 :=
  ⟨⟨_, 0, { thread0 with handler := true }, 0x200000, 0, ready_place (by decide), rfl, rfl, rfl, by decide,
    dramAt (by decide +kernel), fun l hl => quiet_place _ l (by
      revert l; decide +kernel)⟩,
   ⟨_, 0, { thread0 with handler := true, tpc := 0x10002 }, ready_place (by decide), rfl, rfl, by decide⟩⟩

/-- QueueRegistersAndPrefixes: an entry at the head. -/
theorem witness_QueueRegistersAndPrefixes : ∃ s h t e r x, Ready s h t ∧ t.q 3 = e :: r ∧ e.val = some x :=
  ⟨_, 0, thread0.setQ 3 [⟨0, some 9⟩], _, [], 9, ready_place (by decide), rfl, rfl⟩

/-- FencesAndBarriers: a thread before a barrier of one, one before a barrier of two, beside a second thread, and one that has
arrived at the barrier at its pc, whose generation has completed or has not. -/
theorem witness_FencesAndBarriers :
    (∃ s h t, Ready s h t ∧ t.queue = [] ∧ Settled s h ∧ t.arrivalHere 4 = none ∧ t.reg 5 = 1 ∧
      ∀ g ∈ s.bars, ¬ (g.part = t.part ∧ g.task = t.task ∧ g.scope = (4 : BitVec 3).toNat)) ∧
    (∃ s h t g w, Ready s h t ∧ t.queue = [] ∧ Settled s h ∧ t.arrivalHere 2 = none ∧ t.reg 5 = 2 ∧ g ≠ h ∧ s.th g = some w ∧
      ∀ b ∈ s.bars, ¬ (b.part = t.part ∧ b.task = t.task ∧ b.scope = (2 : BitVec 3).toNat)) ∧
    (∀ done, ∃ s h t x, Ready s h t ∧ t.arrivalHere 2 = some x ∧ x.done = done) :=
  ⟨⟨_, 0, _, ready_reg 5 1, rfl, ⟨rfl, rfl⟩, rfl, rfl, fun _ h => nomatch h⟩,
   ⟨{ place (withReg 5 2) with threads := [(0, withReg 5 2), (1, thread0)] }, 0, withReg 5 2, 1, thread0,
    ready_of rfl rfl (by decide), rfl, ⟨rfl, rfl⟩, rfl, rfl, by decide, rfl, fun _ h => nomatch h⟩,
   fun done => ⟨_, 0, { thread0 with arrivals := [⟨0x10000, false, 2, 0, 2, done⟩] }, _, ready_place (show Calm thread0 = true by decide), rfl, rfl⟩⟩

/-- DispatchOpensAndCloses: room in the queue, and a vexit that asks for no lease. -/
theorem witness_DispatchOpensAndCloses : ∃ s h t, Ready s h t ∧ t.handler = false ∧ t.queue.length < 64 ∧
    s.heavyClass t (.vexit 1 8 16 0 0) [t.reg 24] = none := ⟨_, 0, _, ready_reg 5 7, rfl, by decide, by decide⟩

/-- SystemRegisterWrites: the highest values outside and inside a handler; modes of the banks that R241 takes and refuses; values
with a reserved bit or code where the trap can be taken. -/
theorem witness_SystemRegisterWrites :
    (∃ s h t, Ready s h t ∧ (t.reg 5).toNat = 2 ^ 6 - 1) ∧ (∃ s h t, Ready s h t ∧ (t.reg 5).toNat = 2 ^ 48 - 4 ∧ (t.reg 5).toNat % 4 = 0) ∧
    (∃ s h t, Ready s h t ∧ t.handler = true ∧ (t.reg 5).toNat = 2 ^ 15 - 1) ∧
    (∃ s h t, Ready s h t ∧ (t.reg 5).toNat / 2 % 2 ^ 31 = 0 ∧ (s.writeBankMode h t.core t.slot (t.reg 5)).isSome = true) ∧
    (∃ s h t, Ready s h t ∧ t.handler = true ∧ (t.reg 5).toNat < 2 ^ 21 ∧ (t.reg 5).toNat / 2 ^ 16 = 16) ∧
    (∃ s h t, Ready s h t ∧ t.handler = true ∧ (t.reg 5).toNat % 8 = 3 ∧ (t.reg 5).toNat / 2 ^ 7 % 2 = 0 ∧ (t.reg 5).toNat / 2 ^ 8 % 8 = 6 ∧
      (t.reg 5).toNat / 2 ^ 14 % 2 ^ 49 = 0) ∧
    (∃ s h t, Ready s h t ∧ t.queue = [] ∧ Trappable s t ∧ 2 ^ 48 ≤ (t.reg 5).toNat ∧ (t.reg 5).toNat / 2 % 2 ^ 31 ≠ 0) ∧
    (∃ s h t, Ready s h t ∧ t.queue = [] ∧ Trappable s t ∧ (t.reg 5).toNat = 3 ∧ s.writeBankMode h t.core t.slot (t.reg 5) = none) :=
  ⟨⟨_, 0, _, ready_reg 5 63, by decide⟩, ⟨_, 0, _, ready_reg 5 0xFFFFFFFFFFFC, by decide, by decide⟩,
   ⟨_, 0, { withReg 5 0x7FFF with handler := true }, ready_place (by decide), rfl, by decide⟩,
   ⟨_, 0, _, ready_reg 5 1, by decide, by decide⟩, ⟨_, 0, { withReg 5 0x10FFFF with handler := true }, ready_place (by decide), rfl, by decide, by decide⟩,
   ⟨_, 0, { withReg 5 0x603 with handler := true }, ready_place (by decide), rfl, by decide, by decide, by decide, by decide⟩,
   ⟨_, 0, _, ready_reg 5 0x1000000000002, rfl, ⟨rfl, by decide, isOk (by decide +kernel)⟩, by decide, by decide⟩,
   ⟨_, 0, _, ready_reg 5 3, rfl, ⟨rfl, by decide, isOk (by decide +kernel)⟩, by decide, by decide +kernel⟩⟩

/-- StripOpening: a legal configuration in sa (SEW 8, LMUL 1) and an illegal one (SEW code 4), and the same in VCFG. -/
theorem witness_StripOpening :
    (∃ s h t, Ready s h t ∧ t.handler = false ∧ (t.reg 5).toNat % 8 = 4) ∧
    (∃ (s : State) (h : Nat) (t : Thread), Ready s h t ∧ t.handler = false ∧ (t.reg 5).toNat = 0 ∧ t.vcfg = 0 ∧
      ((List.range 8).filter fun b => (s.coreAt t.core).own.toNat / 4 ^ b % 4 = t.slot + 1).length = 8) ∧
    (∃ s h t, Ready s h t ∧ t.handler = false ∧ t.vcfg.toNat % 8 = 4) :=
  ⟨⟨_, 0, _, ready_reg 5 4, rfl, by decide⟩, ⟨_, 0, { thread0 with vcfg := 0 }, ready_place (by decide),
    rfl, by decide, rfl, by decide +kernel⟩,
   ⟨_, 0, { thread0 with vcfg := 4 }, ready_place (by decide), rfl, by decide⟩⟩

/-- A claim record: the partition's registry with one entry. -/
def placeClaim (t : Thread) (c : Claim) : State :=
  { place t with parts := (place t).parts.map fun x => (x.1, { x.2 with registry := [(0, c)] }) }

/-- Core 0's first bank in SCRATCH, with some bytes. -/
def placeBank (t : Thread) (m : Memory) : State :=
  { place t with cores := (place t).cores.map fun x => (x.1, { x.2 with bankMode := 1, banks := m }) }

/-- Memory with bytes at an address. -/
def placeBytes (t : Thread) (a : Nat) (b : List Byte) : State := { place t with mem := msetN (place t).mem a b }

/-- The three reads of a registry record, and the partition after them. -/
def readRecord (s : State) (t : Thread) : Bool :=
  match (s.setTh 0 t).scalarRead 0 t (t.reg 5).toNat 8 with
  | .ok (s1, _) =>
    match s1.scalarRead 0 t ((t.reg 5).toNat + 8) 8 with
    | .ok (s2, _) =>
      match s2.scalarRead 0 t ((t.reg 5).toNat + 16) 8 with
      | .ok (s3, x) => x / 2 ^ 32 % 2 ^ 32 == 4 && (s3.partAt t.part).any fun p => p.registry.isEmpty
      | _ => false
    | _ => false
  | _ => false

theorem readRecord_reads {s : State} {t : Thread} (h : readRecord s t = true) :
    ∃ s1 s2 s3 x0 x1 x2 p, (s.setTh 0 t).scalarRead 0 t (t.reg 5).toNat 8 = .ok (s1, x0) ∧
      s1.scalarRead 0 t ((t.reg 5).toNat + 8) 8 = .ok (s2, x1) ∧ s2.scalarRead 0 t ((t.reg 5).toNat + 16) 8 = .ok (s3, x2) ∧
      x2 / 2 ^ 32 % 2 ^ 32 = 3 + 1 ∧ s3.partAt t.part = some p ∧ p.registry = [] := by
  unfold readRecord at h
  split at h
  · rename_i s1 x0 h1
    split at h
    · rename_i s2 x1 h2
      split at h
      · rename_i s3 x2 h3
        simp [Option.any_eq_true] at h
        obtain ⟨h4, p, h5, h6⟩ := h
        exact ⟨s1, s2, s3, x0, x1, x2, p, h1, h2, h3, h4, h5, h6⟩
      · cases h
    · cases h
  · cases h

/-- ClaimsOfWorkAndDraws: a claim record; a registry record of 4 draws; a registered claim. -/
theorem witness_ClaimsOfWorkAndDraws :
    (∃ s h t pa place', Ready s h t ∧ t.handler = false ∧ s.mem.wf = true ∧ t.vwaiting = false ∧ s.unflipped h = false ∧ s.checkAccess t .S .atomic (t.reg 5).toNat 16 = .ok (.dram pa place') ∧
      pa % 16 = 0 ∧ Quiet s (pa / 128) ∧ (t.openStrip ((s.coreAt t.core).sample t.slot) t.vcfg.toNat).vcfg.toNat / 2 ^ 63 = 0) ∧
    (∃ (s : State) (t : Thread), Ready s 0 t ∧ readRecord s t = true) ∧
    (∃ (s : State) (h : Nat) (t : Thread) (p : Partition) (c : Claim), Ready s h t ∧ s.partAt t.part = some p ∧ (t.reg 5).toNat < 256 ∧
      tget p.registry (t.reg 5).toNat = some c) :=
  ⟨⟨_, 0, _, 0x30000, 0, ready_reg 5 0x30000, rfl, by decide +kernel, rfl, rfl, dramAt (by decide +kernel), by decide, quiet_place _ _, by decide +kernel⟩,
   ⟨placeBank (withReg 5 0xFF0000000000) [(20, 4)], withReg 5 0xFF0000000000, ready_of rfl rfl (by decide), by decide +kernel⟩,
   ⟨placeClaim (withReg 5 0) ⟨1, 2, 3, 4, 0⟩, 0, withReg 5 0, _, _, ready_of rfl rfl (by decide), rfl, by decide, rfl⟩⟩

/-- LaunchAndExit: nothing left to commit, and a task. -/
theorem witness_LaunchAndExit : ∃ (s : State) (h : Nat) (t : Thread) (k : Task), Ready s h t ∧ s.threadsOk = true ∧ t.queue = [] ∧ t.ceng = [] ∧
    t.crun = none ∧ t.cstop = none ∧ t.retq = [] ∧ s.task t.part t.task = some k := ⟨_, 0, _, _, ready_reg 5 7, rfl, rfl, rfl, rfl, rfl, rfl, rfl⟩

/-- A thread that holds every lease and serves a service, after a word that wrote a group. -/
def leased : Thread := { thread0 with svc := true, anchor := some 8, leases := List.replicate 3 ⟨true, false, false, 0, 0⟩ }

/-- DispatchOfArithmetic, DispatchOfMemoryMaskAndMoveWords, DispatchOfMatrixCooperationAndCopyWords: room everywhere, the leases held, for a word that needs a lease, one that answers in a queue register, one of service mode, and a pair word with an anchor. -/
theorem witness_dispatch : ∀ i ∈ ([.vadd 16 8 24 1 3 true, .vld 8 7 5, .kpop 1 2 0, .vopa 3 8 16 2, .vbind 8 3, .cp 0x123 0x245] : List Instr), ∃ s h t w,
    Ready s h t ∧ t.handler = false ∧ (i.serviceOnly = true → t.svc = true) ∧ t.anchor ≠ none ∧ t.queue.length < 64 ∧ encode i = some w ∧
      (∀ k < 8, (t.q k).length < 8) ∧ ∀ ops c, s.heavyClass t i ops = some c → (t.lease c).held = true := by
  intro i hi
  refine ⟨place leased, 0, leased, (encode i).getD 0, ready_place (by decide), rfl, fun _ => rfl, by decide, by decide, ?_, by decide, ?_⟩
  · revert i; decide +kernel
  · intro ops c hc
    have : c < 3 := by
      unfold State.heavyClass at hc
      split at hc <;> (try split at hc) <;> simp at hc <;> omega
    have h3 : ∀ c < 3, (leased.lease c).held = true := by decide
    exact h3 c this

/-- DispatchOfMatrixCooperationAndCopyWords: no anchor, and a trap that can be taken. -/
theorem witness_dispatch_2 : ∃ s h t, Ready s h t ∧ t.handler = false ∧ t.anchor = none ∧ t.queue = [] ∧ Trappable s t :=
  ⟨_, 0, _, ready_reg 5 7, rfl, rfl, rfl, rfl, by decide, isOk (by decide +kernel)⟩

/-- A bundle that its thread has open. -/
def bundle0 (stage : BundleStage) (lead : Option Nat) (lines : List BLine) : Bundle :=
  { h := 0, name := 5, stage := stage, lines := lines, lead := lead, serial := 3, cause := 5, opened := 0 }

def placeBundle (t : Thread) (b : Bundle) : State := { place t with bundles := [(7, b)], nextB := 8 }

/-- DispatchOpensAndCloses: no bundle open, and one of the thread's in the table. -/
theorem witness_DispatchOpensAndCloses_2 :
    (∃ s h t, Ready s h t ∧ t.handler = false ∧ t.queue.length < 64 ∧ (t.q 1).length < 8) ∧
    (∃ s h t b x, Ready s h t ∧ tget s.bundles b = some x ∧ x.h = h ∧ x.stage = .open_) :=
  ⟨⟨_, 0, _, ready_reg 5 7, rfl, by decide, by decide⟩,
   ⟨placeBundle thread0 (bundle0 .open_ none []), 0, thread0, 7, _, ready_of rfl rfl (by decide), rfl, rfl, rfl⟩⟩

/-- DispatchOfLoopAndLeaseWords: room in the queue; a trap that can be taken; no lease, and one held. -/
theorem witness_DispatchOfLoopAndLeaseWords :
    (∃ s h t, Ready s h t ∧ t.handler = false ∧ t.queue = [] ∧ Trappable s t) ∧
    (∃ s h t, Ready s h t ∧ t.handler = false ∧ t.queue.length < 64 ∧ (t.lease 1).held = false ∧ (t.lease 1).req = false) ∧
    (∃ s h t, Ready s h t ∧ t.handler = false ∧ t.queue.length < 64 ∧ (t.lease 1).held = true) :=
  ⟨⟨_, 0, _, ready_reg 5 7, rfl, rfl, rfl, by decide, isOk (by decide +kernel)⟩, ⟨_, 0, _, ready_reg 5 7, rfl, by decide, by decide, by decide⟩,
   ⟨_, 0, leased, ready_place (by decide), rfl, by decide, by decide⟩⟩

/-- A thread whose queue holds one entry. -/
def queued (i : Instr) (ops : List Word) : Thread := thread0.setQueue [entry i ops]

theorem at_vcp {s : State} {t : Thread} {e : QEntry} {r : List QEntry} {i : Instr} (ht : s.th 0 = some t) (hq : t.queue = e :: r)
    (hw : decode e.word = some i)
    (h : (decide (t.res = .resident ∧ t.retq = [] ∧ t.binds = []) && !t.loop.vtrap && !e.failed && !e.vill && !e.region && !featD e.feat &&
      featPop e.feat == 0 && featPush e.feat == 0) = true) (hm : s.memErr = [] := by rfl)
    (hl : t.awaitsLease e = none := by rfl) : AtVcp s 0 t e r i := by
  simp at h
  obtain ⟨⟨⟨⟨⟨⟨⟨⟨h1, h2, h3⟩, h4⟩, h5⟩, h6⟩, h7⟩, h8⟩, h9⟩, h10⟩ := h
  exact ⟨ht, h1, h4, hq, hw, h5, h6, h7, h8, h9, h10, h2, h3, hl, if_pos hm⟩

theorem at_place {t : Thread} {e : QEntry} {i : Instr} (hq : t.queue = [e]) (hw : decode e.word = some i)
    (h : (decide (t.res = .resident ∧ t.retq = [] ∧ t.binds = []) && !t.loop.vtrap && !e.failed && !e.vill && !e.region && !featD e.feat &&
      featPop e.feat == 0 && featPush e.feat == 0) = true) (hl : t.awaitsLease e = none := by rfl) : AtVcp (place t) 0 t e [] i :=
  at_vcp rfl hq hw h rfl hl

theorem shaped {t : Thread} {e : QEntry} (n : Nat) (h : (decide (e.vcfg.toNat % 8 < 4) && decide (1 ≤ n) && decide (n ≤ 8) &&
    e.vlmax * e.w == n * 256 * e.lmul && decide (e.vl ≤ e.vlmax) && t.storesOk) = true) : Shaped t e := by
  simp at h
  exact ⟨h.1.1.1.1.1, ⟨n, h.1.1.1.1.2, h.1.1.1.2, h.1.1.2⟩, h.1.2, h.2⟩

theorem at_queued {i : Instr} {ops : List Word} (hw : decode (entry i ops).word = some i) :
    AtVcp (place (queued i ops)) 0 (queued i ops) (entry i ops) [] i :=
  ⟨rfl, rfl, rfl, rfl, hw, rfl, rfl, rfl, show featD 0 = false by decide, show featPop 0 = 0 by decide, show featPush 0 = 0 by decide, rfl, rfl, rfl, rfl⟩

theorem shaped_queued (i : Instr) (ops : List Word) : Shaped (queued i ops) (entry i ops) :=
  ⟨show (2 : BitVec 14).toNat % 8 < 4 by decide, ⟨1, by decide, by decide,
    show 64 * 2 ^ bitsN (2 : BitVec 14).toNat 0 3 = 1 * 256 * 2 ^ bitsN (2 : BitVec 14).toNat 3 2 by decide⟩, show 2 ≤ 64 by decide,
    show thread0.storesOk = true by decide⟩

theorem lmul_entry (i : Instr) (ops : List Word) : (entry i ops).lmul = 1 := show 2 ^ bitsN (2 : BitVec 14).toNat 3 2 = 1 by decide

/-- IntegerElements: INT32 elements, two of two registers, and one scalar source. -/
theorem witness_IntegerElements : ∃ s h t e r, AtVcp s h t e r (.vadd 16 8 24 0 3 false) ∧ Shaped t e ∧ descOk .int2 e.sew e.desc = true ∧
    descOk .int1 e.sew e.desc = true ∧ groupsOk ([(16, e.emul e.sew), (8, e.lmul)] ++ [(24, e.lmul)]) = true ∧
    (fmtBits (dDfmt e.desc)) = e.sew :=
  ⟨_, 0, queued (.vadd 16 8 24 0 3 false) [0x050505], _, [], at_queued (by decide +kernel), shaped_queued _ _,
    by decide, by decide, by decide, by decide⟩

/-- FloatingElements: FP32 elements, for each of the forms. -/
theorem witness_FloatingElements : ∃ s h t e r, AtVcp s h t e r (.vfma 16 8 24 0 3 false) ∧ Shaped t e ∧
    (∀ f ∈ [DForm.fp2, .fp1, .sqrt, .trans, .afp, .cvt], descOk f e.sew e.desc = true) ∧
    groupsOk ([(16, e.emul e.sew), (8, e.lmul)] ++ [(24, e.lmul)]) = true ∧ fmtBits (dDfmt e.desc) = e.sew :=
  ⟨_, 0, queued (.vfma 16 8 24 0 3 false) [0x111111], _, [], at_queued (by decide +kernel), shaped_queued _ _,
    by decide, by decide, by decide⟩

/-- MaskAndQueueDestinations: an integer and a floating-point comparison, and a mask word with VSTART 0. -/
theorem witness_MaskAndQueueDestinations :
    (∃ s h t e r, AtVcp s h t e r (.vcmp 1 2 8 16 0 3 false) ∧ Shaped t e ∧ descOk .cmpI e.sew e.desc = true ∧ 8 % e.lmul = 0 ∧ 16 % e.lmul = 0) ∧
    (∃ s h t e r, AtVcp s h t e r (.vfcmp 1 2 8 16 0 3 false) ∧ Shaped t e ∧ descOk .cmpF e.sew e.desc = true ∧ 8 % e.lmul = 0 ∧ 16 % e.lmul = 0) ∧
    (∃ s h t e r, AtVcp s h t e r (.ksbf 1 2 0) ∧ Shaped t e ∧ t.vstart = 0) :=
  ⟨⟨_, 0, queued (.vcmp 1 2 8 16 0 3 false) [0x050505], _, [], at_queued (by decide +kernel), shaped_queued _ _,
     by decide, by decide, by decide⟩,
   ⟨_, 0, queued (.vfcmp 1 2 8 16 0 3 false) [0x111111], _, [], at_queued (by decide +kernel), shaped_queued _ _,
     by decide, by decide, by decide⟩,
   ⟨_, 0, queued (.ksbf 1 2 0) [], _, [], at_queued (by decide +kernel), shaped_queued _ _, rfl⟩⟩

/-- MaskAndQueueDestinations, VectorMovesAndPermutations: words with VSTART 0 whose groups are aligned and apart. -/
theorem witness_VectorMovesAndPermutations : ∀ i ∈ ([.kpop 1 2 0, .kfirst 1 2 0, .vext 1 8 3, .vmv 8 16 0, .vbcast 8 3 0, .vid 8 0, .viota 8 2 0, .vsel 8 16 24 1, .vins 8 3 4,
    .vrelease 8, .vslup 8 3 16 0, .vsldn 8 3 16 0, .vsl1up 8 3 16 0, .vsl1dn 8 3 16 0, .vgath 8 16 24 0, .vexpand 8 16 0, .vcomp 8 16 0, .vbsll 8 3 16,
    .vbsrl 8 3 16, .vbfsh 8 3 16] : List Instr), ∃ s h t e r, AtVcp s h t e r i ∧ Shaped t e ∧ t.vstart = 0 ∧ 8 % e.lmul = 0 ∧ 16 % e.lmul = 0 ∧
      24 % e.lmul = 0 := by
  intro i hi
  refine ⟨place (queued i [1, 2]), 0, queued i [1, 2], entry i [1, 2], [], at_queued ?_,
    shaped_queued _ _, rfl, ?_, ?_, ?_⟩
  · revert i; decide +kernel
  all_goals simp [lmul_entry]

/-- What an access comes to: DRAM at the place given, aligned. -/
def reachOk (s : State) (t : Thread) (kind : Kind) (w : Nat) (addr : Word) (pa : Nat) : Bool :=
  (match s.checkAccess t .V kind addr.toNat w with
    | .ok (.dram a _) => a == pa
    | _ => false) && pa % w == 0 && pa / 128 * 128 / 2 ^ 45 == 0

theorem reaches {t : Thread} {kind : Kind} {w : Nat} {P : Nat → Prop} {addr : Nat → Word} {pa : Nat → Nat} (m n : Nat)
    (hP : ∀ k, P k → m ≤ k ∧ k < m + n) (h : ∀ k < n, reachOk (place t) t kind w (addr (m + k)) (pa (m + k)) = true) :
    Reaches (place t) t kind w P addr pa := by
  intro k hk
  obtain ⟨h1, h2⟩ := hP k hk
  have h3 := h (k - m) (by omega)
  rw [show m + (k - m) = k by omega] at h3
  simp only [reachOk, Bool.and_eq_true, beq_iff_eq] at h3
  obtain ⟨⟨h4, h5⟩, h6⟩ := h3
  refine ⟨?_, h5, quiet_place t _ h6⟩
  split at h4
  · rename_i a b he
    exact ⟨b, by rw [he, beq_iff_eq.1 h4]⟩
  · cases h4

/-- The words of the page tables that an access reads stand below the data. -/
theorem tables {t : Thread} {w : Nat} {P : Nat → Prop} {addr : Nat → Word} {pa : Nat → Nat} (m n : Nat)
    (hP : ∀ k, P k → m ≤ k ∧ k < m + n) (hpa : ∀ k, 0x30000 ≤ pa k)
    (h : ∀ k < n, ((place t).tableBytes t (addr (m + k)).toNat).all (fun a => decide (a < 0x30000)) = true) :
    ∀ j k, P j → P k → ∀ a ∈ (place t).tableBytes t (addr j).toNat, a < pa k ∨ pa k + w ≤ a := by
  intro j k hj _ a ha
  obtain ⟨h1, h2⟩ := hP j hj
  have h3 := h (j - m) (by omega)
  rw [show m + (j - m) = j by omega] at h3
  have := of_decide_eq_true (List.all_eq_true.1 h3 a ha)
  have := hpa k
  omega

theorem parts {t : Thread} {n : Nat} {f : Nat → Bool} : ∀ k, takesPart t n f k → 0 ≤ k ∧ k < 0 + n := fun k h => ⟨Nat.zero_le k, by have := h.2.1; omega⟩

/-- VectorLoads: two elements from 0x30000; all elements of vldw; a vldff whose second element is not mapped; the byte of a mask. -/
theorem witness_VectorLoads :
    (∃ s h t e r pa, AtVcp s h t e r (.vld 8 5 0) ∧ Shaped t e ∧ 8 % e.lmul = 0 ∧
      Reaches s t .load e.w (takesPart t e.vl (act e t 0)) (fun j => e.op 0 + BitVec.ofNat 64 (j * e.w)) pa) ∧
    (∃ s h t e r pa, AtVcp s h t e r (.vlds 8 5 6 0) ∧ Shaped t e ∧ 8 % e.lmul = 0 ∧
      Reaches s t .load e.w (takesPart t e.vl (act e t 0)) (fun j => e.op 0 + BitVec.ofNat 64 j * e.op 1) pa) ∧
    (∃ s h t e r pa, AtVcp s h t e r (.vldx 8 5 16 0) ∧ Shaped t e ∧ 8 % e.lmul = 0 ∧ 16 % e.lmul = 0 ∧
      Reaches s t .load e.w (takesPart t e.vl (act e t 0)) (fun j => e.op 0 + BitVec.ofNat 64 (el e t 16 e.w j)) pa) ∧
    (∃ s h t e r pa, AtVcp s h t e r (.vldw 8 5) ∧ Shaped t e ∧ 8 % e.lmul = 0 ∧
      Reaches s t .load e.w (takesPart t e.vlmax fun _ => true) (fun j => e.op 0 + BitVec.ofNat 64 (j * e.w)) pa) ∧
    (∃ s h t e r pa, AtVcp s h t e r (.vldff 8 5 1 0) ∧ Shaped t e ∧ 8 % e.lmul = 0 ∧ takesPart t e.vl (act e t 0) 1 ∧
      (∃ j, takesPart t e.vl (act e t 0) j ∧ j < 1) ∧
      Reaches s t .load e.w (fun j => takesPart t e.vl (act e t 0) j ∧ j < 1) (fun j => e.op 0 + BitVec.ofNat 64 (j * e.w)) pa ∧
      ∃ x, s.checkAccess t .V .load (e.op 0 + BitVec.ofNat 64 (1 * e.w)).toNat e.w = .error x) ∧
    (∃ s h t e r pa, AtVcp s h t e r (.kld 1 5) ∧ Shaped t e ∧
      Reaches s t .load 1 (fun j => t.vstart / 8 ≤ j ∧ j < (e.vl + 7) / 8) (fun j => e.op 0 + BitVec.ofNat 64 j) pa) := by
  refine ⟨⟨_, 0, _, _, [], fun k => 0x30000 + 4 * k, at_queued (ops := [0x30000]) (by decide +kernel), shaped_queued _ _, by decide,
      reaches 0 2 parts (by decide +kernel)⟩,
    ⟨_, 0, _, _, [], fun k => 0x30000 + 8 * k, at_queued (ops := [0x30000, 8]) (by decide +kernel), shaped_queued _ _, by decide,
      reaches 0 2 parts (by decide +kernel)⟩,
    ⟨_, 0, _, _, [], fun _ => 0x30000, at_queued (ops := [0x30000]) (by decide +kernel), shaped_queued _ _, by decide, by decide,
      reaches 0 2 parts (by decide +kernel)⟩,
    ⟨_, 0, _, _, [], fun k => 0x30000 + 4 * k, at_queued (ops := [0x30000]) (by decide +kernel), shaped_queued _ _, by decide,
      reaches 0 64 parts (by decide +kernel)⟩,
    ⟨_, 0, _, _, [], fun k => 0x3FFFFFFC + 4 * k, at_queued (ops := [0x3FFFFFFC]) (by decide +kernel), shaped_queued _ _, by decide,
      ⟨by decide, by decide, by decide⟩, ⟨0, ⟨by decide, by decide, by decide⟩, by decide⟩,
      reaches 0 1 (fun k h => ⟨Nat.zero_le k, by omega⟩) (by decide +kernel), 4, errorAt (by decide +kernel)⟩,
    ⟨_, 0, _, _, [], fun k => 0x30000 + k, at_queued (ops := [0x30000]) (by decide +kernel), shaped_queued _ _,
      reaches 0 1 (fun k h => ⟨Nat.zero_le k, h.2⟩) (by decide +kernel)⟩⟩

/-- VectorStores: two elements at different places; all elements of vstw; the byte of a mask. No page table stands there. -/
theorem witness_VectorStores :
    (∃ s h t e r pa, AtVcp s h t e r (.vst 8 5 0) ∧ Shaped t e ∧ 8 % e.lmul = 0 ∧ e.bundle = none ∧ s.mem.wf = true ∧ s.unflipped h = false ∧
      let P := takesPart t e.vl (act e t 0)
      Reaches s t .store e.w P (fun j => e.op 0 + BitVec.ofNat 64 (j * e.w)) pa ∧
      (∀ j k, P j → P k → ∀ a ∈ s.tableBytes t (e.op 0 + BitVec.ofNat 64 (j * e.w)).toNat, a < pa k ∨ pa k + e.w ≤ a) ∧
      ∀ j k, P j → P k → pa j = pa k → j = k) ∧
    (∃ s h t e r pa, AtVcp s h t e r (.vstw 8 5) ∧ Shaped t e ∧ 8 % e.lmul = 0 ∧ e.bundle = none ∧ s.mem.wf = true ∧ s.unflipped h = false ∧
      let P := fun j => t.vstart ≤ j ∧ j < e.vlmax
      Reaches s t .store e.w P (fun j => e.op 0 + BitVec.ofNat 64 (j * e.w)) pa ∧
      (∀ j k, P j → P k → ∀ a ∈ s.tableBytes t (e.op 0 + BitVec.ofNat 64 (j * e.w)).toNat, a < pa k ∨ pa k + e.w ≤ a) ∧
      ∀ j k, P j → P k → pa j = pa k → j = k) ∧
    (∃ s h t e r pa, AtVcp s h t e r (.kst 1 5) ∧ Shaped t e ∧ e.bundle = none ∧ s.mem.wf = true ∧ s.unflipped h = false ∧
      let P := fun j => t.vstart / 8 ≤ j ∧ j < (e.vl + 7) / 8
      Reaches s t .store 1 P (fun j => e.op 0 + BitVec.ofNat 64 j) pa ∧
      (∀ j k, P j → P k → ∀ a ∈ s.tableBytes t (e.op 0 + BitVec.ofNat 64 j).toNat, a < pa k ∨ pa k + 1 ≤ a) ∧
      ∀ j k, P j → P k → pa j = pa k → j = k) := by
  refine ⟨⟨_, 0, _, _, [], fun k => 0x30000 + 4 * k, at_queued (ops := [0x30000]) (by decide +kernel), shaped_queued _ _, by decide, rfl, by decide +kernel, rfl,
      reaches 0 2 parts (by decide +kernel), tables 0 2 parts (fun k => by omega) (by decide +kernel), fun j k _ _ h => by have h : 0x30000 + 4 * j = 0x30000 + 4 * k := h; omega⟩,
    ⟨_, 0, _, _, [], fun k => 0x30000 + 4 * k, at_queued (ops := [0x30000]) (by decide +kernel), shaped_queued _ _, by decide, rfl, by decide +kernel, rfl,
      reaches 0 64 (fun k h => ⟨Nat.zero_le k, h.2⟩) (by decide +kernel), tables 0 64 (fun k h => ⟨Nat.zero_le k, h.2⟩) (fun k => by omega) (by decide +kernel),
      fun j k _ _ h => by have h : 0x30000 + 4 * j = 0x30000 + 4 * k := h; omega⟩,
    ⟨_, 0, _, _, [], fun k => 0x30000 + k, at_queued (ops := [0x30000]) (by decide +kernel), shaped_queued _ _, rfl, by decide +kernel, rfl,
      reaches 0 1 (fun k h => ⟨Nat.zero_le k, h.2⟩) (by decide +kernel), tables 0 1 (fun k h => ⟨Nat.zero_le k, h.2⟩) (fun k => by omega) (by decide +kernel),
      fun j k _ _ h => by have h : 0x30000 + j = 0x30000 + k := h; omega⟩⟩

/-- A thread whose queue holds an entry that another thread's queue could not. -/
def queuedAs (f : Thread → Thread) (e : QEntry) : Thread := f (thread0.setQueue [e])

/-- VectorAtomics: VL 1, one element of 4 bytes. -/
theorem witness_VectorAtomics : ∃ s h t e r pa, AtVcp s h t e r (.vamoAdd 8 5 16 0) ∧ Shaped t e ∧ 8 % e.lmul = 0 ∧ 16 % e.lmul = 0 ∧ 4 ≤ e.w ∧
    s.mem.wf = true ∧ s.unflipped h = false ∧
      let P := takesPart t e.vl (act e t 0)
      let addr := fun j => e.op 0 + BitVec.ofNat 64 (el e t 16 e.w j)
      Reaches s t .atomic e.w P addr pa ∧ (∀ j l, P j → P l → ∀ a ∈ s.tableBytes t (addr j).toNat, a < pa l ∨ pa l + e.w ≤ a) ∧
      ∀ j l, P j → P l → pa j = pa l → j = l := by
  refine ⟨place (queuedAs id { entry (.vamoAdd 8 5 16 0) [0x30000] with vl := 1 }), 0, queuedAs id { entry (.vamoAdd 8 5 16 0) [0x30000] with vl := 1 },
    { entry (.vamoAdd 8 5 16 0) [0x30000] with vl := 1 }, [], fun _ => 0x30000, at_place rfl (by decide +kernel) (by decide), shaped 1 (by decide),
    by decide, by decide, by decide, by decide +kernel, rfl, reaches 0 1 parts (by decide +kernel),
    tables 0 1 parts (fun k => by omega) (by decide +kernel), ?_⟩
  intro j l hj hl _
  have := parts j hj
  have := parts l hl
  simp only [] at *
  omega

/-- ReductionsAndScansByTheTree: VSTART 0, a descriptor that serves every form, groups that are apart. -/
theorem witness_ReductionsAndScansByTheTree :
    (∃ s h t e r, AtVcp s h t e r (.vredsum 8 3 true 16 0) ∧ Shaped t e ∧ t.vstart = 0 ∧
      (∀ f ∈ [DForm.red2, .redEq, .arg], descOk f e.sew e.desc = true) ∧ groupsOk [(8, e.emul (fmtBits (dDfmt e.desc))), (16, e.lmul)] = true ∧
      8 + e.emul (fmtBits (dDfmt e.desc)) ≤ 16) ∧
    (∃ s h t e r, AtVcp s h t e r (.vfscan 8 3 true 16 0) ∧ Shaped t e ∧ t.vstart = 0 ∧
      (∀ f ∈ [DForm.fred2, .fredEq, .arg], descOk f e.sew e.desc = true) ∧ groupsOk [(8, e.emul (fmtBits (dDfmt e.desc))), (16, e.lmul)] = true) :=
  ⟨⟨_, 0, _, _, [], at_queued (ops := [0x050505]) (by decide +kernel), shaped_queued _ _, rfl, by decide, by decide, by decide⟩,
   ⟨_, 0, _, _, [], at_queued (ops := [0x111111]) (by decide +kernel), shaped_queued _ _, rfl, by decide, by decide⟩⟩

/-- An entry with another strip. -/
def strip (e : QEntry) (vcfg : BitVec 14) (vl vlmax : Nat) : QEntry := { e with vcfg := vcfg, vl := vl, vlmax := vlmax }

/-- OuterProductsAndTileMoves: a row of each kind, FP32, INT8, MX and sliced FP64. -/
theorem witness_OuterProductsAndTileMoves :
    (∃ s h t e r f, AtVcp s h t e r (.vopa 2 8 16 3) ∧ Shaped t e ∧ mformOf e.desc = some f ∧ f.kind = .fp ∧ e.sew = f.sew ∧ e.vl % f.mult = 0 ∧
      0 < e.vl ∧ 8 % e.lmul = 0 ∧ 16 % e.lmul = 0) ∧
    (∃ s h t e r f, AtVcp s h t e r (.vopa 2 8 16 3) ∧ Shaped t e ∧ mformOf e.desc = some f ∧ f.kind = .int ∧ e.sew = f.sew ∧ e.vl % f.mult = 0 ∧
      0 < e.vl ∧ 8 % e.lmul = 0 ∧ 16 % e.lmul = 0) ∧
    (∃ s h t e r f, AtVcp s h t e r (.vopa 2 8 16 3) ∧ Shaped t e ∧ mformOf e.desc = some f ∧ f.kind = .mx ∧ e.sew = f.sew ∧ e.vl % f.mult = 0 ∧
      0 < e.vl ∧ 8 % e.lmul = 0 ∧ 16 % e.lmul = 0 ∧ scalesOk e 8 16 = true) ∧
    (∃ s h t e r f, AtVcp s h t e r (.vopa 2 8 16 3) ∧ Shaped t e ∧ mformOf e.desc = some f ∧ f.kind = .fp64s ∧ e.sew = f.sew ∧ e.vl % f.mult = 0 ∧
      0 < e.vl ∧ 8 % e.lmul = 0 ∧ 16 % e.lmul = 0 ∧ (2 : BitVec 2).toNat % 2 = 0 ∧ 2 ≤ e.slices) :=
  ⟨⟨_, 0, queuedAs id (strip (entry (.vopa 2 8 16 3) [0x111111]) 2 64 64), _, [], _, at_place rfl (by decide +kernel) (by decide), shaped 1 (by decide),
     rfl, rfl, by decide, by decide, by decide, by decide, by decide⟩,
   ⟨_, 0, queuedAs id (strip (entry (.vopa 2 8 16 3) [0x050101]) 0 256 256), _, [], _, at_place rfl (by decide +kernel) (by decide), shaped 1 (by decide),
     rfl, rfl, by decide, by decide, by decide, by decide, by decide⟩,
   ⟨_, 0, queuedAs id (strip (entry (.vopa 2 8 16 3) [0x111616]) 0 1024 1024), _, [], _, at_place rfl (by decide +kernel) (by decide), shaped 4 (by decide),
     rfl, rfl, by decide, by decide, by decide, by decide, by decide, by decide⟩,
   ⟨_, 0, queuedAs id (strip (entry (.vopa 2 8 16 3) [0x101818]) 0x1003 64 64), _, [], _, at_place rfl (by decide +kernel) (by decide), shaped 2 (by decide),
     rfl, rfl, by decide, by decide, by decide, by decide, by decide, by decide, by decide⟩⟩

/-- OuterProductsAndTileMoves: the last row of a tile loaded and stored; a row read and written as INT32 and as FP32. -/
theorem witness_OuterProductsAndTileMoves_2 :
    (∃ s h t e r, AtVcp s h t e r (.zclr 1) ∧ t.storesOk = true) ∧
    (∃ s h t e r pa, AtVcp s h t e r (.zld 1 5 6) ∧ t.storesOk = true ∧
      Reaches s t .load 4 (fun c => t.vstart / 64 ≤ c / 64 ∧ c < 4096)
        (fun c => e.op 0 + BitVec.ofNat 64 (c / 64) * e.op 1 + BitVec.ofNat 64 (4 * (c % 64))) pa) ∧
    (∃ s h t e r pa, AtVcp s h t e r (.zst 1 5 6) ∧ Shaped t e ∧ e.bundle = none ∧ s.mem.wf = true ∧ s.unflipped h = false ∧
      let P := fun c => t.vstart / 64 ≤ c / 64 ∧ c < 4096
      let addr := fun c => e.op 0 + BitVec.ofNat 64 (c / 64) * e.op 1 + BitVec.ofNat 64 (4 * (c % 64))
      Reaches s t .store 4 P addr pa ∧ (∀ j k, P j → P k → ∀ a ∈ s.tableBytes t (addr j).toNat, a < pa k ∨ pa k + 4 ≤ a) ∧
      ∀ j k, P j → P k → pa j = pa k → j = k) ∧
    (∃ s h t e r, AtVcp s h t e r (.zrdv 1 8 3 3) ∧ Shaped t e ∧ descRnd e.desc = true ∧ dAfmt e.desc = 5 ∧ isIntFmt (dDfmt e.desc) = true ∧
      fmtBits (dDfmt e.desc) = e.sew ∧ (e.op 0).toNat + (e.vl + 63) / 64 ≤ 64 ∧ 8 % e.lmul = 0) ∧
    (∃ s h t e r, AtVcp s h t e r (.zwrv 1 8 3 3) ∧ Shaped t e ∧ descRnd e.desc = true ∧ dDfmt e.desc = 0x11 ∧ isFpFmt (dAfmt e.desc) = true ∧
      fmtBits (dAfmt e.desc) = e.sew ∧ (e.op 0).toNat + (e.vl + 63) / 64 ≤ 64 ∧ 8 % e.lmul = 0) := by
  refine ⟨⟨_, 0, _, _, [], at_queued (ops := []) (by decide +kernel), by decide⟩,
    ⟨_, 0, queuedAs (·.setVstart 4032) (entry (.zld 1 5 6) [0x30000, 256]), _, [], fun c => 0x30000 + 4 * c,
      at_place rfl (by decide +kernel) (by decide), by decide,
      reaches 4032 64 (fun k h => ⟨by have : 63 ≤ k / 64 := h.1; omega, h.2⟩) (by decide +kernel)⟩,
    ⟨_, 0, queuedAs (·.setVstart 4032) (entry (.zst 1 5 6) [0x30000, 256]), _, [], fun c => 0x30000 + 4 * c,
      at_place rfl (by decide +kernel) (by decide), shaped 1 (by decide), rfl, by decide +kernel, rfl,
      reaches 4032 64 (fun k h => ⟨by have : 63 ≤ k / 64 := h.1; omega, h.2⟩) (by decide +kernel),
      tables 4032 64 (fun k h => ⟨by have : 63 ≤ k / 64 := h.1; omega, h.2⟩) (fun k => by omega) (by decide +kernel),
      fun j k _ _ h => by have h : 0x30000 + 4 * j = 0x30000 + 4 * k := h; omega⟩,
    ⟨_, 0, _, _, [], at_queued (ops := [63, 0x050505]) (by decide +kernel), shaped_queued _ _, by decide, by decide, by decide, by decide, by decide, by decide⟩,
    ⟨_, 0, _, _, [], at_queued (ops := [63, 0x111111]) (by decide +kernel), shaped_queued _ _, by decide, by decide, by decide, by decide, by decide, by decide⟩⟩

/-- HadamardQuantiserAndRandom: a block of 32 in FP32, into a group, into the chain, and from either into E2M1; SEW 32 for vrand. -/
theorem witness_HadamardQuantiserAndRandom :
    (∃ s h t e r, AtVcp s h t e r (.vhad 8 16 0 3) ∧ Shaped t e ∧ descRnd e.desc = true ∧ dAfmt e.desc = 0x11 ∧ dDfmt e.desc = 0x11 ∧ e.vl = 32 ∧
      e.sew = 32 ∧ groupsOk [(8, e.emul 32), (16, e.lmul)] = true) ∧
    (∃ s h t e r, AtVcp s h t e r (.vhadC 16 0 3) ∧ Shaped t e ∧ descRnd e.desc = true ∧ dAfmt e.desc = 0x11 ∧ dDfmt e.desc = 0x11 ∧ e.vl = 32 ∧
      e.sew = 32 ∧ 16 % e.lmul = 0) ∧
    (∃ s h t e r, AtVcp s h t e r (.vcvtq 8 16 24 (3, 0)) ∧ Shaped t e ∧ descBase e.desc = true ∧ dAfmt e.desc = 0x11 ∧ dDfmt e.desc = 0x16 ∧ e.vl = 32 ∧
      e.sew = 32 ∧ featP e.feat = false ∧ groupsOk [(8, max 1 (4 * e.lmul / e.sew)), (16, e.lmul)] = true ∧ 16 + e.lmul ≤ 24) ∧
    (∃ s h t e r, AtVcp s h t e r (.vcvtqC 8 24 (3, 0)) ∧ Shaped t e ∧ descBase e.desc = true ∧ dAfmt e.desc = 0x11 ∧ dDfmt e.desc = 0x16 ∧ e.vl = 32 ∧
      e.sew = 32 ∧ e.vl = t.chCount ∧ dAfmt e.desc = t.chFmt.toNat ∧ 8 % max 1 (4 * e.lmul / e.sew) = 0) ∧
    (∃ s h t e r, AtVcp s h t e r (.vrand 8 3 4 0) ∧ Shaped t e ∧ e.sew = 32 ∧ 8 % e.lmul = 0) :=
  ⟨⟨_, 0, queuedAs id (strip (entry (.vhad 8 16 0 3) [0x111111]) 2 32 64), _, [], at_place rfl (by decide +kernel) (by decide), shaped 1 (by decide),
     by decide, by decide, by decide, rfl, by decide, by decide⟩,
   ⟨_, 0, queuedAs id (strip (entry (.vhadC 16 0 3) [0x111111]) 2 32 64), _, [], at_place rfl (by decide +kernel) (by decide), shaped 1 (by decide),
     by decide, by decide, by decide, rfl, by decide, by decide⟩,
   ⟨_, 0, queuedAs id (strip (entry (.vcvtq 8 16 24 (3, 0)) [0x161111]) 2 32 64), _, [], at_place rfl (by decide +kernel) (by decide), shaped 1 (by decide),
     by decide, by decide, by decide, rfl, by decide, by decide, by decide, by decide⟩,
   ⟨_, 0, queuedAs (fun t => { t with chCount := 32, chFmt := 0x11 }) (strip (entry (.vcvtqC 8 24 (3, 0)) [0x161111]) 2 32 64), _, [],
     at_place rfl (by decide +kernel) (by decide), shaped 1 (by decide), by decide, by decide, by decide, rfl, by decide, rfl, by decide, by decide⟩,
   ⟨_, 0, _, _, [], at_queued (ops := [1, 2, 3]) (by decide +kernel), shaped_queued _ _, by decide, by decide⟩⟩

/-- A chorus group of core 0 in slot 0, strict, and core 0's first bank in SCRATCH. -/
def placeChorus (t : Thread) : State :=
  let s := place t
  { s with
    parts := s.parts.map fun x => (x.1, { x.2 with chorus := [(0, 1), (2, 1)], chorusWritten := [0] })
    cores := s.cores.map fun x => (x.1, { x.2 with bankMode := 1 }) }

/-- ChorusOperations: a strict group of one member, whose offset lies in a SCRATCH bank. -/
theorem witness_ChorusOperations : ∃ s h t e r ms p, AtVcp s h t e r (.vchorSum 8 5 6 3) ∧ Shaped t e ∧ s.storesOk = true ∧
    (∀ f ∈ [DForm.red2, .redEq, .arg], descOk f e.sew e.desc = true) ∧ 8 % e.emul (fmtBits (dDfmt e.desc)) = 0 ∧
    e.emul (fmtBits (dDfmt e.desc)) ≤ 8 ∧ s.chorusGroup t.part (e.op 0) = some (true, ms) ∧ ms = [0] ∧ s.partAt t.part = some p ∧ (∀ m ∈ ms, m ∈ p.cores) ∧
    ∀ j, takesPart t e.vl (act e t 0) j → let o := (e.op 1 + BitVec.ofNat 64 (j * e.w)).toNat
      o % e.w = 0 ∧ o + e.w ≤ 0xC0000 ∧ ∀ m ∈ ms, m ∈ p.cores → (s.coreAt m).mode (o / 65536) = 1 := by
  refine ⟨placeChorus (queued (.vchorSum 8 5 6 3) [0, 0, 0x050505]), 0, queued (.vchorSum 8 5 6 3) [0, 0, 0x050505], entry (.vchorSum 8 5 6 3) [0, 0, 0x050505],
    [], [0], _, at_vcp rfl rfl (by decide +kernel) (by decide), shaped_queued _ _, by decide +kernel, by decide, by decide, by decide, by decide +kernel, rfl, rfl,
    by decide, ?_⟩
  intro j hj
  have h2 : j < 2 := hj.2.1
  clear hj
  revert j
  decide +kernel

/-- MessagesAndFlagWaits: a message to core 0; flags that are met, flags that are late, and flags to wait for. -/
theorem witness_MessagesAndFlagWaits :
    (∃ s h t e r p, AtVcp s h t e r (.vsend 8 16 0) ∧ s.unflipped h = false ∧ Shaped t e ∧ 2 ≤ e.w ∧ 8 % e.lmul = 0 ∧ 16 % e.lmul = 0 ∧ s.partAt t.part = some p ∧
      ∀ j, takesPart t e.vl (act e t 0) j → el e t 16 e.w j < 2048 ∧ el e t 16 e.w j % 1024 ∈ p.cores) ∧
    (∃ s h t e r pa, AtVcp s h t e r (.vwait 8 5 16 0 1) ∧ Shaped t e ∧ e.w = 8 ∧ 8 % e.lmul = 0 ∧ 16 % e.lmul = 0 ∧
      Reaches s t .load 8 (takesPart t e.vl (act e t 0)) (fun j => BitVec.ofNat 64 (el e t 8 8 j)) pa ∧
      ∀ j, takesPart t e.vl (act e t 0) j → leNat (s.physBytes (pa j) 8) = el e t 16 8 j) ∧
    (∃ s h t e r pa, AtVcp s h t e r (.vwait 8 5 16 0 1) ∧ Shaped t e ∧ e.w = 8 ∧
      Reaches s t .load 8 (takesPart t e.vl (act e t 0)) (fun j => BitVec.ofNat 64 (el e t 8 8 j)) pa ∧
      (∃ j, takesPart t e.vl (act e t 0) j ∧ leNat (s.physBytes (pa j) 8) ≠ el e t 16 8 j) ∧ e.op 0 ≠ BitVec.allOnes 64 ∧
      e.since.getD s.time + (e.op 0).toNat ≤ s.time) ∧
    (∃ s h t e r pa, AtVcp s h t e r (.vwait 8 5 16 0 1) ∧ Shaped t e ∧ e.w = 8 ∧
      Reaches s t .load 8 (takesPart t e.vl (act e t 0)) (fun j => BitVec.ofNat 64 (el e t 8 8 j)) pa ∧
      (∃ j, takesPart t e.vl (act e t 0) j ∧ leNat (s.physBytes (pa j) 8) ≠ el e t 16 8 j) ∧ e.op 0 = BitVec.allOnes 64) := by
  refine ⟨⟨place (queued (.vsend 8 16 0) []), 0, queued (.vsend 8 16 0) [], entry (.vsend 8 16 0) [], [], _, at_queued (by decide +kernel), rfl, shaped_queued _ _,
      by decide, by decide, by decide, rfl, ?_⟩,
    ⟨_, 0, queuedAs id (strip (entry (.vwait 8 5 16 0 1) [5]) 3 1 32), _, [], fun _ => 0, at_place rfl (by decide +kernel) (by decide), shaped 1 (by decide), by decide,
      by decide, by decide, reaches 0 1 parts (by decide +kernel), ?_⟩,
    ⟨_, 0, queuedAs (fun t => t.setVregs [(16 * 16384, 7)]) (strip (entry (.vwait 8 5 16 0 1) [0]) 3 1 32), _, [], fun _ => 0, at_place rfl (by decide +kernel) (by decide),
      shaped 1 (by decide), by decide, reaches 0 1 parts (by decide +kernel), ⟨0, ⟨by decide, by decide, by decide⟩, by decide +kernel⟩, by decide, by decide⟩,
    ⟨_, 0, queuedAs (fun t => t.setVregs [(16 * 16384, 7)]) (strip (entry (.vwait 8 5 16 0 1) [0xFFFFFFFFFFFFFFFF]) 3 1 32), _, [], fun _ => 0,
      at_place rfl (by decide +kernel) (by decide),
      shaped 1 (by decide), by decide, reaches 0 1 parts (by decide +kernel), ⟨0, ⟨by decide, by decide, by decide⟩, by decide +kernel⟩, by decide⟩⟩
  · intro j hj
    have h2 : j < 2 := hj.2.1
    clear hj
    revert j
    decide +kernel
  · intro j hj
    have h2 : j < 1 := hj.2.1
    clear hj
    revert j
    decide +kernel

theorem at_copy {s : State} {t : Thread} {e : QEntry} {r : List QEntry} {i : Instr} (ht : s.th 0 = some t) (hq : t.ceng = e :: r)
    (hw : decode e.word = some i) (h : (decide (t.res = .resident ∧ t.retq = [] ∧ t.cstop = none) && featPop e.feat == 0 && featPush e.feat == 0) = true) :
    AtCopyEngine s 0 t e r i := by
  simp at h
  exact ⟨ht, h.1.1.1, hq, hw, h.1.1.2.1, h.1.1.2.2, h.1.2, h.2⟩

/-- A thread whose copy engine holds one word. -/
def copying (i : Instr) (ops : List Word) (nest : List Dim) (run : Option CopyRun) : Thread :=
  { thread0 with ceng := [entry i ops], nest := nest, crun := run }

/-- CopyEngine: a word in the queue; cpdim, cpstat and a copy of two bytes at the head; a copy that has run. -/
theorem witness_CopyEngine :
    (∃ s h t e r i, AtVcp s h t e r i ∧ engOf i = some .C) ∧
    (∃ s h t e r, AtCopyEngine s h t e r (.cpdim 3 4 5 2) ∧ t.crun = none ∧ (2 : BitVec 3).toNat < t.nest.length) ∧
    (∃ s h t e r, AtCopyEngine s h t e r (.cpstat 1) ∧ t.crun = none) ∧
    (∃ s h t e r, ∃ ps pd place : Nat → Nat, AtCopyEngine s h t e r (.cpgo 3 4 1) ∧ t.crun = none ∧ s.mem.wf = true ∧
      let dims := t.nest.take 1
      let bytes := (dims.map fun d => d.count.toNat).prod
      bytes = 2 ∧ (∀ d ∈ dims, 1 ≤ d.count.toNat ∧ d.count.toNat < 2 ^ 32) ∧
      (∀ x < bytes, (∃ y, s.checkAccess t .C .load (e.op 1 + nestAt Dim.ss dims x).toNat 1 = .ok (.dram (ps x) y)) ∧ Quiet s (ps x / 128)) ∧
      (∀ x < bytes, s.checkAccess t .C .store (e.op 0 + nestAt Dim.ds dims x).toNat 1 = .ok (.dram (pd x) (place x)) ∧ Quiet s (pd x / 128)) ∧
      ∀ x < bytes, ∀ y < bytes, pd x ≠ ps y ∧ (pd x = pd y → x = y)) ∧
    (∃ s h t e r i y, AtCopyEngine s h t e r i ∧ t.crun = some y) := by
  have two : ∀ {P : Nat → Prop}, P 0 → P 1 → ∀ x < 2, P x := fun h0 h1 x hx => by
    match x, hx with
    | 0, _ => exact h0
    | 1, _ => exact h1
  refine ⟨⟨_, 0, _, _, [], .cpstat 1, at_queued (ops := []) (by decide +kernel), by decide⟩,
    ⟨place (copying (.cpdim 3 4 5 2) [1, 2, 3] (List.replicate 6 ⟨0, 0, 0⟩) none), 0, _, _, [], at_copy rfl rfl (by decide +kernel) (by decide), rfl, by decide⟩,
    ⟨place (copying (.cpstat 1) [] [] none), 0, _, _, [], at_copy rfl rfl (by decide +kernel) (by decide), rfl⟩,
    ⟨place (copying (.cpgo 3 4 1) [0x40000, 0x30000] [⟨2, 1, 1⟩] none), 0, _, _, [], fun x => 0x30000 + x, fun x => 0x40000 + x, fun _ => 0,
      at_copy rfl rfl (by decide +kernel) (by decide), rfl, by decide +kernel, by decide, by decide, ?_, ?_, fun x _ y _ => by
        constructor
        · show 0x40000 + x ≠ 0x30000 + y
          have : x < 2 := by assumption
          have : y < 2 := by assumption
          omega
        · intro h; have : 0x40000 + x = 0x40000 + y := h; omega⟩,
    ⟨place (copying (.cpgo 3 4 1) [] [] (some ⟨1, 0, 2, [], []⟩)), 0, _, _, [], .cpgo 3 4 1, _, at_copy rfl rfl (by decide +kernel) (by decide), rfl⟩⟩
  · exact two ⟨⟨0, dramAt (by decide +kernel)⟩, quiet_place _ _⟩ ⟨⟨0, dramAt (by decide +kernel)⟩, quiet_place _ _⟩
  · exact two ⟨dramAt (by decide +kernel), quiet_place _ _⟩ ⟨dramAt (by decide +kernel), quiet_place _ _⟩

/-- BundlesAtVcp: bseal without a bundle, with a retired one, with one in each stage, and with one of no store: in its budget, with
nothing and with a record of a vsend on its way, and past it; babort. -/
theorem witness_BundlesAtVcp :
    (∃ s h t e r, AtVcp s h t e r (.bseal 1) ∧ e.bundle = none) ∧
    (∃ s h t e r b, AtVcp s h t e r (.bseal 1) ∧ e.bundle = some b ∧ tget s.bundles b = none) ∧
    (∀ st ∈ [BundleStage.aborted, .committed, .open_, .sealing], ∀ lead : Option Nat, ∃ s h t e r b x, AtVcp s h t e r (.bseal 1) ∧ e.bundle = some b ∧
      tget s.bundles b = some x ∧ x.stage = st ∧ x.lead = lead) ∧
    (∀ msgs ∈ [[], [(⟨0, false, 0, 0, 1, 8, [5]⟩ : Msg)]], ∃ s h t e r b x, AtVcp s h t e r (.bseal 1) ∧ e.bundle = some b ∧ tget s.bundles b = some x ∧
      x.stage = .sealing ∧ x.lead = none ∧ s.time < x.opened + 120000 ∧ s.settled h = msgs.isEmpty) ∧
    (∃ s h t e r b x, AtVcp s h t e r (.bseal 1) ∧ e.bundle = some b ∧ tget s.bundles b = some x ∧ x.stage = .sealing ∧ x.lead = none ∧
      x.opened + 120000 ≤ s.time) ∧
    (∃ s h t e r b, AtVcp s h t e r .babort ∧ e.bundle = some b) :=
  ⟨⟨_, 0, _, _, [], at_queued (ops := []) (by decide +kernel), rfl⟩,
   ⟨_, 0, queuedAs id { entry (.bseal 1) [] with bundle := some 7 }, _, [], 7, at_place rfl (by decide +kernel) (by decide), rfl, rfl⟩,
   fun st _ lead => ⟨placeBundle (queuedAs id { entry (.bseal 1) [] with bundle := some 7 }) (bundle0 st lead []), 0, _, _, [], 7, _,
     at_vcp rfl rfl (by decide +kernel) (by decide), rfl, rfl, rfl, rfl⟩,
   fun msgs hm => ⟨{ placeBundle (queuedAs id { entry (.bseal 1) [] with bundle := some 7 }) (bundle0 .sealing none []) with msgs := msgs }, 0, _, _, [], 7, _,
     at_vcp rfl rfl (by decide +kernel) (by decide), rfl, rfl, rfl, rfl, show 0 < 0 + 120000 by decide, by revert msgs; decide⟩,
   ⟨{ placeBundle (queuedAs id { entry (.bseal 1) [] with bundle := some 7 }) (bundle0 .sealing none []) with time := 120000 }, 0, _, _, [], 7, _,
     at_vcp rfl rfl (by decide +kernel) (by decide), rfl, rfl, rfl, rfl, by decide⟩,
   ⟨_, 0, queuedAs id { entry .babort [] with bundle := some 7 }, _, [], 7, at_place rfl (by decide +kernel) (by decide), rfl⟩⟩

/-- The partition with object 3. -/
def placeObject (t : Thread) (o : Obj) : State :=
  { place t with parts := (place t).parts.map fun x => (x.1, { x.2 with objects := [(3, o)] }) }

/-- ObjectsAtVcp: a shape record of one element; object 3 unsealed, with a line that nothing holds or one that a copy engine owns, before
the counts are raised and after; sealed without and with a reference; no object; pwdrop. -/
theorem witness_ObjectsAtVcp :
    (∃ s h t e r p pa y lines, AtVcp s h t e r (.oshape 1 5) ∧ s.partAt t.part = some p ∧ s.checkAccess t .V .load (e.op 0).toNat 64 = .ok (.dram pa y) ∧
      pa % 64 = 0 ∧ Quiet s (pa / 128) ∧ (s.cachePage t (e.op 0).toNat).shapeBound t (s.physBytes pa 64) = some lines ∧ tget p.objects 0 = none) ∧
    (∀ i ∈ ([.oseal 5, .orel 5, .ounseal 1 5 6] : List Instr), ∃ s h t e r p o, AtVcp s h t e r i ∧ s.partAt t.part = some p ∧ (e.op 0).toNat < 4096 ∧
      tget p.objects (e.op 0).toNat = some o ∧ o.isSealed = false ∧ ∀ l ∈ o.lines, s.sealCount l < 15 ∧ s.ownerOf l = none ∧ s.pendingOf l = none) ∧
    (∀ n : Nat, ∃ s h t e r p o, AtVcp s h t e r (.ounseal 1 5 6) ∧ s.partAt t.part = some p ∧ (e.op 0).toNat < 4096 ∧
      tget p.objects (e.op 0).toNat = some o ∧ o.isSealed = true ∧ o.refs = n ∧ e.since.getD s.time + (e.op 1).toNat ≤ s.time) ∧
    (∀ owners sealing, ∃ s h t e r p o, AtVcp s h t e r (.oseal 5) ∧ s.partAt t.part = some p ∧ (e.op 0).toNat < 4096 ∧
      tget p.objects (e.op 0).toNat = some o ∧ o.isSealed = false ∧ o.sealing = sealing ∧ o.lines = [0x800] ∧ s.owned = owners) ∧
    (∃ s h t e r p, AtVcp s h t e r (.ounseal 1 5 6) ∧ s.partAt t.part = some p ∧ s.objectAt t.part (e.op 0) = none) ∧
    (∃ s h t e r p, AtVcp s h t e r (.pwdrop 1) ∧ s.partAt t.part = some p) := by
  refine ⟨⟨placeBytes (queued (.oshape 1 5) [0x30000]) 0x30000 ([1, 0, 5, 1, 0, 0, 0, 0] ++ leBytes 8 0x40000 ++ [1]), 0, queued (.oshape 1 5) [0x30000],
      entry (.oshape 1 5) [0x30000], [], _, 0x30000, 0, [0x800], at_vcp rfl rfl (by decide +kernel) (by decide), rfl, dramAt (by decide +kernel), by decide,
      ⟨rfl, rfl, rfl, rfl, rfl, rfl⟩, by decide +kernel, rfl⟩, ?_,
    fun n => ⟨placeObject (queued (.ounseal 1 5 6) [3, 0]) ⟨0, [], true, none, n⟩, 0, queued (.ounseal 1 5 6) [3, 0], entry (.ounseal 1 5 6) [3, 0], [], _, _,
      at_vcp rfl rfl (by decide +kernel) (by decide), rfl, by decide, rfl, rfl, rfl, show 0 + (0 : Word).toNat ≤ 0 by decide⟩,
    fun owners sealing => ⟨{ placeObject (queued (.oseal 5) [3]) ⟨0, [0x800], false, sealing, 0⟩ with owned := owners }, 0, queued (.oseal 5) [3],
      entry (.oseal 5) [3], [], _, _, at_vcp rfl rfl (by decide +kernel) (by decide), rfl, show (3 : Word).toNat < 4096 by decide, rfl, rfl, rfl, rfl, rfl⟩,
    ⟨_, 0, _, _, [], _, at_queued (ops := [3, 0]) (by decide +kernel), rfl, by decide +kernel⟩,
    ⟨_, 0, _, _, [], _, at_queued (ops := []) (by decide +kernel), rfl⟩⟩
  intro i hi
  have hw : decode (entry i [3, 0]).word = some i := by revert i; decide +kernel
  exact ⟨placeObject (queued i [3, 0]) ⟨0, [], false, none, 0⟩, 0, queued i [3, 0], entry i [3, 0], [], _, _,
    ⟨rfl, rfl, rfl, rfl, hw, rfl, rfl, rfl, show featD 0 = false by decide, show featPop 0 = 0 by decide, show featPush 0 = 0 by decide, rfl, rfl, rfl, rfl⟩,
    rfl, show (3 : Word).toNat < 4096 by decide, rfl, rfl, fun _ h => nomatch h⟩

/-- TrapsAndFeaturesAtVcp: a strip that is illegal, a descriptor that is, a first element that is not mapped; a vmv with POP, PUSH and D. -/
theorem witness_TrapsAndFeaturesAtVcp :
    (∃ (s : State) (h : Nat) (t : Thread) (e : QEntry) (r : List QEntry), t.handler = false ∧ t.tvec ≠ 0 ∧ t.loop.pending = false ∧ t.bopen = false ∧ (∀ z ∈ t.queue, z.bundle = none) ∧ (∃ s1, s.putImage t t.queue = .ok s1) ∧
      AtVcp s h t { e with vill := false } r (.vadd 8 16 24 0 3 false)) ∧
    (∃ (s : State) (h : Nat) (t : Thread) (e : QEntry) (r : List QEntry), t.handler = false ∧ t.tvec ≠ 0 ∧ t.loop.pending = false ∧ t.bopen = false ∧ (∀ z ∈ t.queue, z.bundle = none) ∧ (∃ s1, s.putImage t t.queue = .ok s1) ∧
      AtVcp s h t e r (.vadd 8 16 24 0 3 false) ∧ descOk .int2 e.sew e.desc = false) ∧
    (∀ i ∈ ([.vcvtq 8 16 24 (3, 1), .vcvtqC 8 24 (3, 1)] : List Instr), ∃ (s : State) (h : Nat) (t : Thread) (e : QEntry) (r : List QEntry), t.handler = false ∧
      t.tvec ≠ 0 ∧ t.loop.pending = false ∧ t.bopen = false ∧ (∀ z ∈ t.queue, z.bundle = none) ∧ (∃ s1, s.putImage t t.queue = .ok s1) ∧ AtVcp s h t e r i) ∧
    (∃ (s : State) (h : Nat) (t : Thread) (e : QEntry) (r : List QEntry), t.handler = false ∧ t.tvec ≠ 0 ∧ t.loop.pending = false ∧ t.bopen = false ∧ (∀ z ∈ t.queue, z.bundle = none) ∧ (∃ s1, s.putImage t t.queue = .ok s1) ∧
      AtVcp s h t e r (.vld 8 5 0) ∧ Shaped t e ∧ 8 % e.lmul = 0 ∧ takesPart t e.vl (act e t 0) 1 ∧ (∀ j < 1, ¬ takesPart t e.vl (act e t 0) j) ∧
      64 * (1 / 64) ≤ t.vstart ∧ ∃ c, s.checkAccess t .V .load (e.op 0 + BitVec.ofNat 64 (1 * e.w)).toNat e.w = .error c) ∧
    (∃ (s : State) (h : Nat) (t : Thread) (e : QEntry) (r : List QEntry), s.th h = some t ∧ t.res = .resident ∧ t.loop.vtrap = false ∧ t.queue = e :: r ∧
      decode e.word = some (.vmv 8 16 0) ∧ e.failed = false ∧ e.vill = false ∧ e.region = false ∧ t.binds = [] ∧ t.awaitsLease e = none ∧ s.overflowErrors t = [] ∧ Shaped t e ∧ 8 % e.lmul = 0 ∧
      16 % e.lmul = 0 ∧ featD e.feat = true ∧ dregOk e 8 e.lmul = true ∧ fifoTo (featPop e.feat) = .V ∧ 0 < t.token (featPop e.feat) ∧ t.retq = []) := by
  refine ⟨⟨place (queued (.vadd 8 16 24 0 3 false) [0x050505]), 0, queued (.vadd 8 16 24 0 3 false) [0x050505], entry (.vadd 8 16 24 0 3 false) [0x050505], [], rfl,
      by decide, by decide, rfl, by decide, isOk (by decide +kernel), at_queued (by decide +kernel)⟩,
    ⟨_, 0, _, _, [], rfl, by decide, by decide, rfl, by decide, isOk (by decide +kernel), at_queued (ops := [0x111111]) (by decide +kernel), by decide⟩,
    fun i hi => ⟨place (queued i [0x161111]), 0, queued i [0x161111], _, [], rfl, show (0x20000 : Word) ≠ 0 by decide, rfl, rfl, fun z hz => by simp [queued, Thread.setQueue] at hz; rw [hz]; rfl,
      isOk (by revert i; decide +kernel), at_queued (by revert i; decide +kernel)⟩,
    ⟨_, 0, queuedAs (·.setVstart 1) (entry (.vld 8 5 0) [0x3FFFFFFC]), _, [], rfl, by decide, by decide, rfl, by decide, isOk (by decide +kernel),
      at_place rfl (by decide +kernel) (by decide), shaped 1 (by decide), by decide, ⟨by decide, by decide, by decide⟩,
      fun j hj h => by have h2 : 1 ≤ j := h.1; omega, by decide, 4, errorAt (by decide +kernel)⟩,
    ⟨place (queuedAs (·.setToken 1 2) { entry (.vmv 8 16 0) [] with feat := BitVec.ofNat 19 (2 ^ 4 + 24 * 2 ^ 5 + 1 * 2 ^ 11 + 2 * 2 ^ 15) }), 0, queuedAs (·.setToken 1 2) { entry (.vmv 8 16 0) [] with feat := BitVec.ofNat 19 (2 ^ 4 + 24 * 2 ^ 5 + 1 * 2 ^ 11 + 2 * 2 ^ 15) }, _, [], rfl, rfl, rfl, rfl, show decode (entry (.vmv 8 16 0) []).word = some (.vmv 8 16 0) by decide +kernel, rfl, rfl, rfl, rfl, rfl, rfl,
      shaped 1 (by decide), by decide, by decide, by decide, by decide, by decide, by decide, rfl⟩⟩

/-- A thread on core 0, whose bank 0 is a FIFO. -/
def placeFifo (t : Thread) : State :=
  let s := place t
  { s with cores := [(0, { s.coreAt 0 with bankMode := 2, fifoTail := [(0, 64)] })] }

/-- ThreadEvents: each event may happen on the loaded machine with one thread. -/
theorem witness_ThreadEvents :
    (∃ (s : State) (h : Nat) (t : Thread) (f : BitVec 4) (r : List (BitVec 4)), s.th h = some t ∧ t.retq = f :: r ∧ t.token f.toNat < 15 ∧
      s.sending h = false ∧ s.unflipped h = false) ∧
    ((∃ s h t, State.th s h = some t ∧ t.res = .resident ∧ t.wait = some .queueFull ∧ t.queue.length < 64) ∧
     (∃ s h t, State.th s h = some t ∧ t.res = .resident ∧ t.wait = some .popS ∧ 0 < t.token (featPop t.feat)) ∧
     (∃ s h t, State.th s h = some t ∧ t.res = .resident ∧ t.wait = some .bar ∧ ∃ a ∈ t.arrivals, a.pc = t.pc ∧ a.handler = t.handler ∧ a.done = true) ∧
     (∀ w ∈ [Wait.drain, .hold], ∃ s h t, State.th s h = some t ∧ t.res = .resident ∧ t.wait = some w ∧ t.queue = []) ∧
     (∀ k < 3, ∃ s h t, State.th s h = some t ∧ t.res = .resident ∧ t.wait = some (.fence k) ∧ s.fenceDone h t k = true) ∧
     (∃ s h t, State.th s h = some t ∧ t.res = .resident ∧ t.wait = some (.lease 1) ∧ (t.lease 1).held = false ∧ (t.lease 1).req = false) ∧
     (∃ s h t c, State.th s h = some t ∧ t.res = .resident ∧ t.wait = some (.lease c) ∧ (t.lease c).held = true) ∧
     (∃ (s : State) (h : Nat) (t : Thread) (q : Nat) (x : Nat × Word) (l : List QSlot), s.th h = some t ∧ t.res = .resident ∧ t.wait = some (.qpop q) ∧ t.q q = { tag := x.1, val := some x.2 } :: l)) ∧
    (∃ s h t c, State.th s h = some t ∧ (t.lease c).held = true ∧ max (t.lease c).granted (t.lease c).last + 60000 ≤ s.time) ∧
    (∃ s h t x, State.th s h = some t ∧ t.stale = some x ∧ x + 24000 ≤ s.time ∧ s.bundles = []) ∧
    (∀ cause ∈ [(1 : BitVec 8), 3, 0x0B, 0x0C], ∃ (s : State) (h : Nat) (t : Thread), Ready s h t ∧ t.queue = [] ∧ Trappable s t ∧ cause.toNat ∉ [2, 9, 0x0A]) ∧
    (∀ cause ∈ [(2 : BitVec 8), 9, 0x0A], ∃ (s : State) (h : Nat) (t : Thread), Ready s h t ∧ t.queue ≠ [] ∧ (∀ z ∈ t.queue, z.bundle = none) ∧
      t.handler = false ∧ t.tvec ≠ 0 ∧ (∃ s1, s.putImage t t.queue = .ok s1) ∧ cause.toNat ∈ [2, 9, 0x0A]) ∧
    (∃ s h t core b m l, State.th s h = some t ∧ s.msgs = m :: l ∧ m.core = core ∧ m.lost = false ∧ (s.coreAt core).inbox = some b ∧ (s.coreAt core).tail b % 16 = 0 ∧
      (s.coreAt core).head b ≤ (s.coreAt core).tail b ∧ (s.coreAt core).tail b + 16 * m.data.length ≤ (s.coreAt core).head b + 65536 ∧
      (s.coreAt core).banks.wf = true ∧ s.inSlot core m.slot = some (h, t) ∧ t.res = .resident ∧ (t.q 4).length < 16) ∧
    (∃ (s : State) (h : Nat) (t : Thread) (bank : Nat) (x : BitVec 64), Ready s h t ∧ bank < 12 ∧ (s.coreAt t.core).mode bank = 2 ∧ x.toNat % 16 = 0 ∧
      (s.coreAt t.core).head bank ≤ x.toNat ∧ x.toNat ≤ (s.coreAt t.core).tail bank) ∧
    (∃ (s : State) (h : Nat) (t : Thread) (x : BitVec 64), Ready s h t ∧ (∀ b < 12, x.toNat / 2 ^ (2 * b) % 4 < 3) ∧ (∃ b < 12, x.toNat / 2 ^ (2 * b) % 4 = 0) ∧
      (∀ b < 12, x.toNat / 2 ^ (2 * b) % 4 ≠ (s.coreAt t.core).mode b → (s.coreAt t.core).mode b = 0 ∨ (s.coreAt t.core).bankOwner b = t.slot) ∧
      t.slot < 2 ∧ (s.coreAt t.core).banks.wf = true) := by
  refine ⟨⟨place { thread0 with retq := [1] }, 0, _, 1, [], rfl, rfl, by decide, rfl, rfl⟩,
    ⟨⟨place { thread0 with wait := some .queueFull }, 0, _, rfl, rfl, rfl, by decide⟩,
     ⟨place { thread0.setToken 3 1 with wait := some .popS, pend := some ⟨BitVec.ofNat 19 (3 * 2 ^ 11), false, false⟩ }, 0, _, rfl, rfl, rfl, by decide⟩,
     ⟨place { thread0 with wait := some .bar, arrivals := [⟨0x10000, false, 2, 0, 2, true⟩] }, 0, _, rfl, rfl, rfl, _, .head _, rfl, rfl, rfl⟩,
     fun w _ => ⟨place { thread0 with wait := some w }, 0, _, rfl, rfl, rfl, rfl⟩,
     fun k hk => ⟨place { thread0 with wait := some (.fence k) }, 0, _, rfl, rfl, rfl, by revert k; decide⟩,
     ⟨place { thread0 with wait := some (.lease 1) }, 0, _, rfl, rfl, rfl, by decide, by decide⟩,
     ⟨place { leased with wait := some (.lease 1) }, 0, _, 1, rfl, rfl, rfl, by decide⟩,
     ⟨place { thread0.setQ 3 [⟨7, some 9⟩] with wait := some (.qpop 3) }, 0, _, 3, (7, 9), [], rfl, rfl, rfl, by decide⟩⟩,
    ⟨{ place leased with time := 60000 }, 0, _, 1, rfl, by decide, by decide⟩,
    ⟨{ place { thread0 with stale := some 0 } with time := 24000 }, 0, _, 0, rfl, rfl, by decide, rfl⟩,
    fun cause hc => ⟨place thread0, 0, thread0, ready_place (by decide), rfl, ⟨rfl, by decide, isOk (by decide +kernel)⟩, by revert cause; decide⟩,
    fun cause hc => ⟨place (queued (.zclr 1) []), 0, queued (.zclr 1) [], ready_place (by decide), by decide, by decide, rfl, by decide, isOk (by decide +kernel),
      by revert cause; decide⟩,
    ⟨{ placeFifo thread0 with msgs := [⟨0, false, 0, 0, 1, 8, [5, 6]⟩] }, 0, thread0, 0, 0, _, [], rfl, rfl, rfl, rfl, by decide, by decide, by decide, by decide, by decide, rfl, rfl, by decide⟩,
    ⟨placeFifo thread0, 0, thread0, 0, 16, ready_of rfl rfl (by decide), by decide, by decide, by decide, by decide, by decide⟩,
    ⟨place thread0, 0, thread0, 1, ready_of rfl rfl (by decide), by decide, ⟨1, by decide, by decide⟩, by decide, by decide, by decide⟩⟩

/-- A thread in a rehearsed loop of no trip, and the same loop under replay, performed and departed. -/
def looping (stage : LoopStage) (wait : Option Wait) (depart : Option (Nat × BitVec 8)) (bad : Bool) : Thread :=
  { thread0 with wait := wait, loop := { thread0.loop with stage := stage, depart := depart, disagree := bad } }

/-- A replay of one iteration whose only access stands at a line that another thread's copy engine owns. -/
def held (late : Option (Nat × Nat)) : Thread :=
  { thread0 with loop := { thread0.loop with stage := .replay, trip := 1, vcfg := 2, vl := 2, vlmax := 64, late := late,
                                             body := [⟨(encode (.vld 8 5 0)).getD 0, 0x10000, [0x30000], 0⟩] } }

theorem held_of {x : Replay} (h : (match x with
    | .hold s _ j => (s.th 0).isSome && j == 0
    | _ => false) = true) : ∃ s1 f v, x = .hold s1 f 0 ∧ s1.th 0 = some v := by
  split at h
  · rename_i s f j
    simp [Option.isSome_iff_exists] at h
    obtain ⟨⟨v, hv⟩, hj⟩ := h
    exact ⟨s, f, v, by rw [hj], hv⟩
  · cases h

/-- LoopEvents: at lend without a rehearsed loop and with one that is confirmed and one that is refused; under replay with its last
iteration reached, and before; under replay with a request that is held, not noted yet, noted before the bound and at it; performed, at its
barrier point; departed. -/
theorem witness_LoopEvents :
    (∃ s h t, State.th s h = some t ∧ t.wait = some .lend ∧ t.queue = [] ∧ s.sending h = false ∧ t.res = .resident ∧ t.loop.stage ≠ .rehearsal) ∧
    (∃ s h t, State.th s h = some t ∧ t.wait = some .lend ∧ t.queue = [] ∧ s.sending h = false ∧ t.res = .resident ∧ t.loop.stage = .rehearsal ∧ s.confirmCause t = 0 ∧
      t.storesOk = true) ∧
    (∃ s h t, State.th s h = some t ∧ t.wait = some .lend ∧ t.queue = [] ∧ s.sending h = false ∧ t.res = .resident ∧ t.loop.stage = .rehearsal ∧ s.confirmCause t ≠ 0) ∧
    (∀ trip ∈ [0, 1], ∃ s h t s1 v f n, State.th s h = some t ∧ t.loop.stage = .replay ∧ t.loop.depart = none ∧ t.loop.d ≤ n ∧ n ≤ t.loop.trip ∧
      (let p := { t with loop := { t.loop with pinned := true } }
       (s.setTh h p).replayFrom h p t.loop.d 0 (n - t.loop.d) = .done s1 f) ∧ s1.th h = some v ∧ t.loop.trip = trip ∧ n = 0) ∧
    (∀ late ∈ [none, some (0, 0), some (0, 1)], ∃ s h t s1 f v, State.th s h = some t ∧ t.loop.stage = .replay ∧ t.loop.depart = none ∧ t.loop.d ≤ t.loop.trip ∧
      (let p := { t with loop := { t.loop with pinned := true } }
       (s.setTh h p).replayFrom h p t.loop.d 0 (t.loop.trip - t.loop.d) = .hold s1 f 0) ∧ s1.th h = some v ∧ t.loop.late = late ∧ s.time = 6144) ∧
    (∃ s h t, State.th s h = some t ∧ t.res = .resident ∧ t.wait = some .replay ∧ t.loop.stage = .performed ∧ t.loop.depart = none ∧ t.queue = [] ∧
      s.sending h = false) ∧
    (∃ s h t j c, State.th s h = some t ∧ t.loop.depart = some (j, c) ∧ t.res = .resident ∧ t.handler = false ∧ t.queue = []) :=
  ⟨⟨place (looping .none (some .lend) none false), 0, _, rfl, rfl, rfl, rfl, rfl, by decide⟩,
   ⟨place (looping .rehearsal (some .lend) none false), 0, _, rfl, rfl, rfl, rfl, rfl, rfl, by decide, by decide⟩,
   ⟨place (looping .rehearsal (some .lend) none true), 0, _, rfl, rfl, rfl, rfl, rfl, rfl, by decide⟩,
   fun trip _ => ⟨place { thread0 with loop := { thread0.loop with stage := .replay, trip := trip } }, 0, _, _, _, 0, 0, rfl, rfl, rfl, Nat.le_refl 0,
     Nat.zero_le trip, rfl, rfl, rfl, rfl⟩,
   fun late hl => by
     obtain ⟨s1, f, v, h1, h2⟩ := held_of (x := (State.setTh { place (held late) with time := 6144, owned := [(0x600, 9)] } 0
       { held late with loop := { (held late).loop with pinned := true } }).replayFrom 0 { held late with loop := { (held late).loop with pinned := true } }
         0 0 1) (by revert late; decide +kernel)
     exact ⟨{ place (held late) with time := 6144, owned := [(0x600, 9)] }, 0, held late, s1, f, v, rfl, rfl, rfl, Nat.zero_le 1, h1, h2, rfl, rfl⟩,
   ⟨place (looping .performed (some .replay) none false), 0, _, rfl, rfl, rfl, rfl, rfl, rfl, rfl⟩,
   ⟨place (looping .replay none (some (3, 0x21)) false), 0, _, 3, 0x21, rfl, rfl, rfl, rfl, rfl⟩⟩

/-- The partition with save region 5, an account 1 of DEFICIT 5, and a second task of that account with one waiting thread. -/
def crowd (t : Thread) (time : Nat) : State :=
  let s := place t
  { s with
    time := time
    parts := s.parts.map fun x => (x.1, { x.2 with saveRegions := [5], deficit := [(1, 5)] })
    tasks := s.tasks ++ s.tasks.map fun k => { k with num := 1, account := 1, place := 5, order := 1 }
    threads := s.threads ++ [(1, { thread0 with task := 1, res := .waiting, core := 1 })] }

/-- A draining octet of core 0, on its way to slot 0. -/
def draining (t : Thread) (d : Drain) : State :=
  let s := { place t with time := 20000 }
  { s with cores := [(0, { s.coreAt 0 with next := 1, drains := [d] })] }

/-- A launch record (R302): PLACE 1, one thread of 8 lanes that enters at 0x10000, DONE at 0x30000. -/
def record : List Byte :=
  [1, 0, 0, 1, 1, 0, 0, 0, 0, 0, 1, 0, 0, 0, 8, 0] ++ leBytes 8 0x30000 ++ List.replicate 40 0

/-- A launch by thread 0 to its own virtual device, which has two context areas. -/
def submitted (b : List Byte) : State :=
  let s := place thread0
  { s with vdevs := s.vdevs.map fun x => (x.1, { x.2 with pool := some (0x200000, 2) }), subs := [⟨.thread 0 1 7, 0, some 0, b⟩] }

/-- SchedulerEvents: a port; submissions refused and accepted; a thread placed and aged; octets that pass at once, at the end of a strip and
at the end of the window; a save, a migration, a preemption; a resumption. -/
theorem witness_SchedulerEvents :
    (∃ (s : State) (vd n off : Nat) (v : VDev) (x : Port), s.vdevAt vd = some v ∧ vd < 80 ∧ n < 4 ∧ v.ports[n]? = some x ∧ off < 64) ∧
    (∃ (s : State) (h q tag vd : Nat) (core : Option Nat) (b : List Byte) (r : List Submission) (t : Thread),
      s.subs = { src := .thread h q tag, vdev := vd, core := core, bytes := b } :: r ∧ s.th h = some t ∧ s.launchCause vd false b ≠ 0) ∧
    (∃ (s : State) (h q tag vd : Nat) (core : Option Nat) (b : List Byte) (r : List Submission) (t : Thread) (p : Partition),
      s.subs = { src := .thread h q tag, vdev := vd, core := core, bytes := b } :: r ∧ s.th h = some t ∧ s.launchCause vd false b = 0 ∧
      s.partAt (vdPart vd) = some p ∧ h < s.nextH ∧ leNat ((b.drop 3).take 1) % 8 ≠ 5) ∧
    (∃ (s s1 : State) (p core : Nat) (c : Cand) (k x : Nat) (t : Thread), s.chooseNext p core = some (s1, c) ∧ s1.slotFor c = some (k, x) ∧
      s.threadsOk = true ∧ s.th c.2.1 = some t ∧ ∃ y ∈ s.candidates p core, y.1.prio < s.candLevel y ∧ s.risen y = true) ∧
    (∃ (s : State) (core oct : Nat) (d : Drain), oct < 8 ∧ (s.coreAt core).drains.find? (fun y => y.oct == oct) = some d ∧
      (s.coreAt core).octNext oct = 1 ∧ s.inSlot core d.victim = none) ∧
    (∃ (s : State) (core oct : Nat) (d : Drain) (h : Nat) (t : Thread) (n : Nat), oct < 8 ∧
      (s.coreAt core).drains.find? (fun y => y.oct == oct) = some d ∧ (s.coreAt core).octNext oct = 1 ∧ s.inSlot core d.victim = some (h, t) ∧
      d.opened = some n ∧ ∀ e ∈ t.queue ++ t.imgq, n ≤ e.strip) ∧
    (∀ ready : Bool, ∃ (s : State) (core oct : Nat) (d : Drain) (h : Nat) (t : Thread), oct < 8 ∧
      (s.coreAt core).drains.find? (fun y => y.oct == oct) = some d ∧ (s.coreAt core).octNext oct = 1 ∧ s.threadsOk = true ∧
      s.inSlot core d.victim = some (h, t) ∧ d.until_ ≤ s.time ∧ s.octetReady core oct = ready) ∧
    (∃ (s : State) (h : Nat) (t : Thread) (pa y p core : Nat) (c : Cand) (r : List (Nat × Thread × Cand)), s.threadsOk = true ∧ s.th h = some t ∧
      s.canSave t = true ∧ s.freeSlot t.part = some pa ∧ t.migrateAt = some y ∧ y ≤ s.time ∧ s.sliceVictims p core = (h, t, c) :: r ∧
      ((s.saveThread h false).inSlot core t.slot).isNone = true ∧ (s.saveThread h false).banksFit c.2.2 core = true) ∧
    (∃ (s : State) (h : Nat) (t : Thread) (pa : Nat), s.th h = some t ∧ t.res = .placed ∧ t.saveSlot = some pa ∧ (s.coreAt t.core).octets t.slot ≠ [] ∧
      s.banksFit t t.core = true ∧ s.sending h = false ∧ s.unflipped h = false ∧ s.lineError pa (leNat (s.physBytes (pa + 24) 8)) = false) := by
  refine ⟨⟨place thread0, 0, 1, 8, _, _, rfl, by decide, by decide, rfl, by decide⟩,
    ⟨submitted [], 0, 1, 7, 0, some 0, [], [], thread0, rfl, rfl, by decide +kernel⟩,
    ⟨submitted record, 0, 1, 7, 0, some 0, record, [], thread0, _, rfl, rfl, by decide +kernel, rfl, by decide, by decide⟩,
    ⟨crowd thread0 60000000, _, 0, 0, _, 0, 1, _, rfl, by decide +kernel, by decide +kernel, rfl, ?_⟩,
    ⟨draining thread0 ⟨0, 1, 0, 20000, none⟩, 0, 0, _, by decide, rfl, by decide, rfl⟩,
    ⟨draining thread0 ⟨0, 0, 0, 20000, some 3⟩, 0, 0, _, 0, thread0, 3, by decide, rfl, by decide, rfl, rfl, fun _ h => nomatch h⟩,
    fun ready => ⟨draining thread0 ⟨0, 0, 0, 20000, if ready then some 3 else none⟩, 0, 0, ⟨0, 0, 0, 20000, if ready then some 3 else none⟩, 0, thread0, by decide, by cases ready <;> rfl,
      by cases ready <;> decide, by cases ready <;> decide +kernel, by cases ready <;> rfl, by cases ready <;> decide, by cases ready <;> decide +kernel⟩,
    ⟨crowd { thread0 with migrateAt := some 5 } 6000000, 0, _, 5 * 2 ^ 30, 5, 0, 0, _, [], by decide +kernel, rfl, by decide +kernel, by decide +kernel, rfl, by decide,
      rfl, by decide +kernel, by decide +kernel⟩,
    ⟨place { thread0 with res := .placed, saveSlot := some 0x40000000 }, 0, _, 0x40000000, rfl, rfl, rfl, by decide, by decide, rfl, rfl, by decide +kernel⟩⟩
  decide +kernel

/-- Die 0 with a queued lease request of thread 0 and a budget. -/
def asking (t : Thread) (budget : Nat) : State :=
  let s := { place t with time := 600000 }
  s.setDie 0 { s.dieAt 0 with budget := budget, leaseQ := [⟨0, 0, 5⟩] }

/-- The same machine with its task's thread retired and DONE at 0x30000. -/
def finished : State :=
  let s := place { thread0 with res := .retired }
  { s with tasks := s.tasks.map fun k => { k with retired := 1, done := 0x30000 } }

/-- TaskAndLeaseEvents: a task whose only thread has retired; a request whose units are free, and one whose are not, with a lease to revoke;
a package whose routes are lost. -/
theorem witness_TaskAndLeaseEvents :
    (∃ (s : State) (p n : Nat) (k : Task) (pa place : Nat), s.task p n = some k ∧ k.threads ≤ k.retired + k.ended ∧ k.hostmsg = false ∧
      (∀ x ∈ s.threads, x.2.part = p → x.2.task = n → s.sending x.1 = false ∧ s.unflipped x.1 = false ∧ x.2.ceng = [] ∧ x.2.crun = none) ∧
      s.mem.wf = true ∧ s.locateFor k.part k.vdev .store k.done.toNat 64 = .ok (.dram pa place) ∧ pa % 64 = 0 ∧ Quiet s (pa / 128)) ∧
    (∃ (s : State) (die : Nat) (r : LeaseReq) (rest : List LeaseReq) (t : Thread), s.leaseOrder die = r :: rest ∧ s.th r.h = some t ∧
      s.unitsUsed die + leaseCost r.cls ≤ (s.dieAt die).budget) ∧
    (∃ (s : State) (die : Nat) (r : LeaseReq) (rest : List LeaseReq) (t : Thread) (g h c : Nat) (u : Thread), s.leaseOrder die = r :: rest ∧
      s.th r.h = some t ∧ (s.dieAt die).budget < s.unitsUsed die + leaseCost r.cls ∧ oldest (s.revocable die) = some (g, h, c) ∧ s.th h = some u) ∧
    (∃ (s : State) (pkg : Nat), pkg ∈ s.podLost) :=
  ⟨⟨finished, 0, 0, _, 0x30000, 0, rfl, by decide, rfl, by decide, by decide +kernel, dramAt (by decide +kernel), by decide, ⟨rfl, rfl, rfl, rfl, rfl, rfl⟩⟩,
   ⟨asking thread0 576, 0, ⟨0, 0, 5⟩, [], thread0, rfl, rfl, by decide +kernel⟩,
   ⟨asking leased 3, 0, ⟨0, 0, 5⟩, [], leased, 0, 0, 0, leased, rfl, rfl, by decide +kernel, by decide +kernel, rfl⟩,
   ⟨{ State.reset with podLost := [7] }, 7, by decide⟩⟩

/-- A bundle that has a flipped and an unflipped line. -/
def twoLines (flipped : Bool) : List BLine := [⟨0x600, [(0x30000, 5), (0x30001, 6)], flipped⟩, ⟨0x601, [], true⟩]

/-- A dirty line of core 0. -/
def dirtied : State :=
  let s := place thread0
  { s with cores := [(0, { s.coreAt 0 with dirty := [⟨0x600, List.replicate 128 0⟩] })] }

/-- MemoryEvents: a bundle that may commit, whose line may flip, that may retire and that has outlived its budget; a clear-pending line; a
dirty line; accesses over the host link to DRAM and to the chorus table. -/
theorem witness_MemoryEvents :
    (∃ (s : State) (b : Nat) (x : Bundle) (t : Thread) (e : QEntry) (r : List QEntry) (q : BitVec 2), tget s.bundles b = some x ∧ x.stage = .sealing ∧
      x.lead ≠ none ∧ s.time < x.opened + 120000 ∧ s.settled x.h = true ∧ s.th x.h = some t ∧ t.res = .resident ∧ t.queue = e :: r ∧ e.bundle = some b ∧
      decode e.word = some (.bseal q)) ∧
    (∃ (s : State) (b : Nat) (x : Bundle) (line : Nat) (l : BLine), tget s.bundles b = some x ∧ x.stage = .committed ∧
      x.lines.find? (fun y => y.line == line && !y.flipped) = some l ∧ s.mem.wf = true ∧ (l.bytes.map (·.1)).Nodup ∧ ∀ y ∈ l.bytes, y.1 / 128 = line) ∧
    (∃ (s : State) (b : Nat) (x : Bundle), tget s.bundles b = some x ∧ x.stage = .committed ∧ (∀ l ∈ x.lines, l.flipped = true) ∧
      ∀ t, s.th x.h = some t → ∀ e ∈ t.queue, e.bundle ≠ some b) ∧
    (∀ stage ∈ [BundleStage.open_, .sealing], ∃ (s : State) (b : Nat) (x : Bundle), tget s.bundles b = some x ∧ x.stage = stage ∧ x.opened + 120000 ≤ s.time) ∧
    (∃ (s : State) (line : Nat), s.mem.wf = true ∧ s.clearPending line = true) ∧
    (∃ (s : State) (core line : Nat) (d : DirtyLine) (h : Nat) (t : Thread), (s.coreAt core).dirty.find? (fun y => y.line == line) = some d ∧
      s.clearPending line = false ∧ s.mem.wf = true ∧ d.old.length = 128 ∧ s.threadsOk = true ∧ s.th h = some t ∧ t.core = core ∧ t.res = .resident) ∧
    (∀ kind ∈ [Kind.store, .load, .atomic], ∃ (s : State) (vd : Nat) (addr : BitVec 64) (n pa place : Nat), s.phase = .up ∧ s.mem.wf = true ∧
      Quiet s (pa / 128) ∧ n = 4 ∧ pa % n = 0 ∧ s.locateFor (vdPart vd) vd kind addr.toNat n = .ok (.dram pa place)) ∧
    (∃ (s : State) (vd : Nat) (addr : BitVec 64) (data : List (BitVec 8)) (p : Partition), s.phase = .up ∧ s.partAt (vdPart vd) = some p ∧
      p.chorus.wf = true ∧ 0 < data.length ∧ addr.toNat % 4096 + data.length ≤ 2056 ∧ addr.toNat < 0x40000) := by
  refine ⟨⟨placeBundle (queuedAs id { entry (.bseal 1) [] with bundle := some 7 }) (bundle0 .sealing (some 3) []), 7, _, _, _, [], 1, rfl, rfl, ?_, by decide, by decide,
      rfl, rfl, rfl, rfl, by decide +kernel⟩,
    ⟨placeBundle thread0 (bundle0 .committed (some 3) (twoLines false)), 7, _, 0x600, _, rfl, rfl, rfl, by decide +kernel, by decide, by decide⟩,
    ⟨placeBundle thread0 (bundle0 .committed (some 3) (twoLines true)), 7, _, rfl, rfl, by decide, fun t h e he => ?_⟩,
    fun st _ => ⟨{ placeBundle thread0 (bundle0 st none []) with time := 120000 }, 7, bundle0 st none [], rfl, rfl, show 0 + 120000 ≤ 120000 by decide⟩,
    ⟨{ State.reset with clearPend := [(3, 5)] }, 4, by decide, by decide⟩,
    ⟨dirtied, 0, 0x600, ⟨0x600, List.replicate 128 0⟩, 0, thread0, rfl, by decide, by decide +kernel, List.length_replicate, by decide +kernel, rfl, rfl, rfl⟩, ?_,
    ⟨place thread0, 0, 0x1000, [1, 2], _, rfl, rfl, by decide, by decide, by decide, by decide⟩⟩
  · decide
  · cases h; cases he
  · intro kind hk
    refine ⟨place thread0, 0, 0x30000, 4, 0x30000, 0, rfl, by decide +kernel, quiet_place _ _, rfl, by decide, dramAt ?_⟩
    revert kind; decide +kernel

/-- A cue slot that holds a program, and die 0 with it and one event queued. -/
def slot0 : CueSlot := { CueSlot.reset with enable := true, event := 11, loaded := true, period := 1, prog := [0x000E0041, 0#32] }

def prompting : State :=
  let s := { place thread0 with time := 599999 }
  s.setDie 0 { s.dieAt 0 with slots := [(3, slot0)], evq := [(0, [⟨11, 3, 0, [0, 0, 0, 0]⟩])] }

/-- A machine after bring-up, with three links that offer version 1. -/
def readied : State := { State.reset.readied.setVdev mgmtVd VDev.reset with links := [(1, ⟨1, 0, 1, 0, 7, 0⟩), (2, ⟨1, 0, 1, 0, 3, 0⟩), (3, ⟨1, 0, 1, 0, 3, 0⟩)] }

/-- PackageEvents: a run with no trigger; cue words of each named operation, with a destination and without; a timer that is due; windows that have passed; the state before
and after bring-up; a link before and after the management virtual device has appeared, with and without a common version, not up and up; a cue slot
that CUECTL writes. -/
theorem witness_PackageEvents :
    (∃ (s : State) (die p : Nat) (e : Event) (rest : List Event) (c : CueSlot), s.time < (s.dieAt die).windowAt + 600000 ∧ (s.dieAt die).nextQueue = some p ∧
      tgetD (s.dieAt die).evq p [] = e :: rest ∧
      tget (s.dieAt die).slots e.slot = some c ∧ c.loaded = true ∧
      (Run.go { w := List.replicate 16 0, st := c.st, trig := none, count := 0, skip := 0, ended := false } e s.time c.prog).trig = none) ∧
    (∀ op ∈ [0x03, 0x04, 0x05, 0x06, 0x07, 0x08, 0x09, 0x0A, 0x0B, 0x0D], ∃ (r : Run) (x : IWord), cueD x ≠ 0 ∧ r.w.length = 16 ∧ cueD x < 16 ∧
      cueOp x = op) ∧
    (∀ op ∈ [0x17, 0x0E, 0x0F, 0x14, 0x15, 0x16], ∃ x : IWord, cueD x = 0 ∧ cueOp x = op) ∧
    (∃ (s : State) (die slot : Nat) (c : CueSlot), tget (s.dieAt die).slots slot = some c ∧ c.enable = true ∧ c.event = 11 ∧ c.period ≠ 0 ∧
      c.timer + c.period.toNat * 1024 ≤ s.time ∧ s.time < (s.dieAt die).windowAt + 600000 ∧ s.cueBudget die c.part > tgetD (s.dieAt die).used c.part 0 + 32 ∧
      (tgetD (s.dieAt die).evq c.part []).length < 64) ∧
    (∃ (s : State) (die : Nat), die < 8 ∧ (s.dieAt die).windowAt + 600000 ≤ s.time ∧ (s.dieAt die).energyAt + 6000 ≤ s.time ∧
      (s.dieAt die).thermalAt + 60000 ≤ s.time ∧ tgetD (s.dieAt die).towerAt 1 0 + 6000 ≤ s.time) ∧
    (∃ (s : State) (die : Nat), s.time < (s.dieAt die).thermalAt + 60000) ∧
    (∃ t16 : Nat, 1840 ≤ t16) ∧
    (∃ s : State, s.phase = .off) ∧
    (∃ (s : State) (port : Nat), 2 ≤ port ∧ s.mgmtPresent = false) ∧
    (∃ (s : State) (port : Nat) (l : Link), port < 2 ∧ s.phase ≠ .off ∧ tget s.links port = some l ∧ s.mgmtPresent = false) ∧
    (∃ (s : State) (port : Nat) (v : BitVec 16) (l : Link), port < 38 ∧ s.phase ≠ .off ∧ s.mgmtPresent = true ∧ tget s.links port = some l ∧ (l.lvers &&& v).getLsbD 0 = true ∧
      ∀ k < 16, (l.lvers &&& v).getLsbD k = true → k ≤ 0) ∧
    (∃ (s : State) (port : Nat) (v : BitVec 16) (l : Link), port < 38 ∧ s.phase ≠ .off ∧ s.mgmtPresent = true ∧ tget s.links port = some l ∧ l.lvers &&& v = 0) ∧
    (∀ port ∈ [1, 2], ∃ (s : State) (l : Link), port < 38 ∧ (s.linkAt port).state ≠ 2 ∧ s.phase ≠ .off ∧ tget s.links port = some l) ∧
    (∀ port ∈ [1, 2], ∃ (s : State) (l : Link), port < 38 ∧ s.phase ≠ .off ∧ tget s.links port = some l ∧ l.state = 2) ∧
    (∃ (s : State) (die slot : Nat) (x : BitVec 64), s.phase = .up ∧ die < 8 ∧ slot < 64 ∧ x.toNat / 2 ^ 15 % 2 = 0 ∧ x.toNat / 2 ^ 48 = 0) := by
  refine ⟨⟨prompting, 0, 0, _, _, slot0, by decide, by decide +kernel, rfl, rfl, rfl, by decide +kernel⟩, ?_,
    fun op h => ⟨BitVec.ofNat 32 op, by revert op; decide, by revert op; decide⟩, ⟨prompting, 0, 3, slot0, rfl, rfl, rfl, by decide, by decide, by decide, by decide +kernel, by decide⟩,
    ⟨{ prompting with time := 600000 }, 0, by decide, by decide, by decide, by decide, by decide⟩, ⟨State.reset, 0, by decide⟩, ⟨1840, Nat.le_refl _⟩, ⟨State.reset, rfl⟩,
    ⟨State.reset, 2, by decide, rfl⟩, ⟨{ readied with vdevs := [] }, 1, _, by decide, by decide, rfl, rfl⟩,
    ⟨readied, 3, 1, ⟨1, 0, 1, 0, 3, 0⟩, by decide, by decide, rfl, rfl, by decide, by decide⟩, ⟨readied, 3, 2, ⟨1, 0, 1, 0, 3, 0⟩, by decide, by decide, rfl, rfl, by decide⟩, ?_, ?_,
    ⟨readied, 7, 63, 0x123456780001, rfl, by decide, by decide, by decide, by decide⟩⟩
  · intro op h
    refine ⟨⟨List.replicate 16 0, [], none, 0, 0, false⟩, BitVec.ofNat 32 (op + 32), ?_⟩
    revert op; decide
  · intro port h
    simp at h
    rcases h with rfl | rfl
    · exact ⟨readied, _, by decide, by decide, by decide, rfl⟩
    · exact ⟨readied, _, by decide, by decide, by decide, rfl⟩
  · intro port h
    exact ⟨{ readied with links := [(port, ⟨2, 1, 1, 1, 7, 7⟩)] }, ⟨2, 1, 1, 1, 7, 7⟩, by revert port; decide, show Phase.up ≠ .off by decide, by simp [tget], rfl⟩

/-- Cue words placed at 0x30000 as an image (R379). -/
def image : List Byte := [1, 1, 1, 3, 0, 0, 0, 0, 0, 0, 0, 0]

/-- The loaded machine without a thread and a task, its partition without a context pool. -/
def bare : State :=
  let s := place thread0
  { s with threads := [], tasks := [], vdevs := s.vdevs.map fun x => (x.1, { x.2 with pool := none }) }

/-- The loaded machine whose partition has a save region and whose thread stands on core 0. -/
def resized : State :=
  let s := place thread0
  { s with parts := s.parts.map fun x => (x.1, { x.2 with saveRegions := [5] }) }

/-- The management virtual device has appeared. -/
def managed (s : State) : State := s.setVdev mgmtVd VDev.reset

/-- Bring-up is over and the management port is free. -/
def Free (s : State) : Prop := s.phase = .up ∧ s.mgmtPresent = true ∧ s.mgmt.busy = false

theorem free_place (t : Thread) : Free (managed (place t)) := ⟨rfl, rfl, rfl⟩

/-- ManagementCommands: the port busy and free; each command that is performed on a partition or on regions. -/
theorem witness_ManagementCommands :
    (∃ s : State, s.phase = .up ∧ s.mgmtPresent = true ∧ s.mgmt.busy = true) ∧
    (∃ (s : State) (p v : Nat), Free s ∧ p < 2 ^ 32 ∧ s.partAt p = none ∧ v < 2 ^ 32 ∧ s.vdevAt v = none) ∧
    (∀ hd ∈ [(0x010002 : BitVec 64), 0x000001, 0x130001], hd.toNat % 2 ^ 16 ≠ 1 ∨ hd.toNat / 2 ^ 16 % 2 ^ 8 = 0 ∨ 0x12 < hd.toNat / 2 ^ 16 % 2 ^ 8) ∧
    (∃ (s : State) (p : Nat) (o : CreateOps), Free s ∧ p < 20 ∧ distinctBelow 1024 o.cores = true ∧
      distinctBelow 512 o.groups = true ∧ distinctBelow 768 o.saveRegions = true ∧ interOk o.inter o.groups = true ∧ o.pod = 0 ∧ s.partAt p = none ∧
      (∀ c ∈ o.cores, s.coreUsed c = false) ∧ (∀ g ∈ o.groups, s.groupUsed g = false) ∧ ∀ r ∈ o.saveRegions, s.regionUsed r = false) ∧
    (∃ (s : State) (p : Nat) (x : Partition) (cores : List Nat), Free s ∧ s.partAt p = some x ∧
      distinctBelow 1024 cores = true ∧ (∀ c ∈ cores, s.coreUsed c = false) ∧ interOk x.inter (sortN x.groups) = true ∧ s.diesKept p x.inter = true) ∧
    (∃ (s : State) (p : Nat) (x : Partition) (core h : Nat) (t : Thread), Free s ∧ s.partAt p = some x ∧ core ∈ x.cores ∧
      interOk x.inter (sortN x.groups) = true ∧ s.threadsOn [core] = [(h, t)] ∧ s.th h = some t ∧ t.res = .resident ∧ t.svc = false ∧
      0 < s.freeSlotsOf x.saveRegions ∧ s.diesKept p x.inter = true) ∧
    (∃ (s : State) (p : Nat) (x : Partition) (dst r : Nat) (y : Region), Free s ∧ s.partAt p = some x ∧
      s.hasMemory dst 0x181B2 = true ∧ r < 2 ^ 15 ∧ tget s.regions (s.regionKey r) = some y ∧ y.owner = .part p) ∧
    (∃ (s : State) (idx p : Nat) (x : Partition) (place : Nat), Free s ∧ idx < 768 ∧ s.regionUsed idx = false ∧
      s.partAt p = some x ∧ place < 2 ∧ 0 ∈ x.inter) ∧
    (∃ (s : State) (idx : Nat) (y : Region), Free s ∧ idx < 768 ∧ tget s.regions (s.regionKey idx) = some y ∧ y.place ≠ 8) ∧
    (∃ (s : State) (p die n : Nat) (x : Partition) (pa : Nat) (nonce : List (BitVec 8)), Free s ∧ s.partAt p = some x ∧ x.apertures = [] ∧
      (die < 8 ∧ n < 2 ^ 32 ∧ s.budgetsBut die p + n ≤ 2160000) ∧ s.hasMemory pa 0x181B2 = true ∧ (∀ m ∈ x.meters, m.1 < 12288) ∧ s.mem.wf = true ∧
      s.hasMemory pa 746 = true ∧ nonce.length = 32 ∧ s.meas.length = 8) ∧
    (∃ (s : State) (p die pa ev slot : Nat) (x : Partition) (prog : List IWord), Free s ∧ s.partAt p = some x ∧ die < 8 ∧
      cueImage s pa = some (ev, slot, prog)) ∧
    (∃ (s : State) (groups inter : List Nat), Free s ∧ distinctBelow 512 groups = true ∧
      interOk inter (sortN (s.commonsGroups ++ groups)) = true ∧ ∀ g ∈ groups, s.groupUsed g = false) :=
  ⟨⟨{ managed (place thread0) with mgmt := { (place thread0).mgmt with busy := true } }, rfl, rfl, rfl⟩,
    ⟨managed (place thread0), 3, 9, free_place _, by omega, rfl, by omega, rfl⟩,
    fun hd h => by simp at h; rcases h with rfl | rfl | rfl <;> decide,
    ⟨managed State.reset.readied, 3, ⟨[1, 2], [64, 65], [1], [7], 0⟩, ⟨rfl, rfl, rfl⟩, by decide⟩,
    ⟨managed (place thread0), 0, _, [1, 2], free_place _, rfl, by decide +kernel⟩,
    ⟨managed resized, 0, _, 0, 0, thread0, ⟨rfl, rfl, rfl⟩, rfl, by decide, by decide +kernel, rfl, rfl, rfl, rfl, by decide +kernel, by decide +kernel⟩,
    ⟨managed (place thread0), 0, _, 0x30000, 0, ⟨.part 0, 0, 0⟩, free_place _, rfl, by decide +kernel, by omega, by decide +kernel, rfl⟩,
    ⟨managed (place thread0), 4, 0, _, 1, free_place _, by omega, by decide, rfl, by decide⟩,
    ⟨managed (place thread0), 0, ⟨.part 0, 0, 0⟩, free_place _, by omega, by decide +kernel, by decide⟩,
    ⟨{ managed (place thread0) with meas := List.replicate 8 [] }, 0, 3, 1000, _, 0x30000, List.replicate 32 7, ⟨rfl, rfl, rfl⟩, rfl, rfl,
      by decide +kernel, by decide +kernel, by decide, by decide +kernel, by decide +kernel, rfl, rfl⟩,
    ⟨managed (placeBytes thread0 0x30000 image), 0, 3, 0x30000, 1, 3, _, [0], ⟨rfl, rfl, rfl⟩, rfl, by omega, by decide +kernel⟩,
    ⟨managed State.reset.readied, [64], [1], ⟨rfl, rfl, rfl⟩, by decide, by decide +kernel, by decide⟩⟩

/-- ManagementCommands: the commands on a virtual device, and operands that they accept. -/
theorem witness_ManagementCommands_2 :
    (∃ (s : State) (p idx : Nat) (x : Partition), Free s ∧ s.partAt p = some x ∧ idx < 4 ∧ s.vdevAt (4 * p + idx) = none ∧
      (∀ k ∈ s.tasks, k.vdev ≠ 4 * p + idx) ∧ ∀ y ∈ s.subs, y.vdev ≠ 4 * p + idx) ∧
    (∃ (s : State) (vd : Nat) (v : VDev), Free s ∧ s.vdevAt vd = some v ∧ vd ≠ mgmtVd ∧ s.areasUsed vd = [] ∧ vd < 80 ∧
      ∀ y ∈ s.threads, y.2.loop.stage ≠ .replay) ∧
    (∃ (root off haddr size cls base slots n : Nat) (y first : BitVec 64) (len : Nat), root % 4096 = 0 ∧ root < 2 ^ 56 ∧ off + size ≤ 2 ^ 39 ∧ haddr + size ≤ 2 ^ 64 ∧
      0 < size ∧ cls < 6 ∧ y.toNat < 2 ^ 22 ∧ y.toNat / 2 ^ 16 % 4 ≠ 3 ∧ y.toNat / 2 ^ 18 % 4 ≠ 3 ∧ y.toNat / 2 ^ 20 ≠ 3 ∧ slots ≠ 0 ∧
      base + 16 * slots ≤ 2 ^ 64 ∧ base % 4096 = 0 ∧ base + n * 0x41000 ≤ 2 ^ 48 ∧ base < 2 ^ 48 ∧ n ≤ 65536 ∧ first.toNat % 4096 = 0 ∧ len % 4096 = 0 ∧
      4096 ≤ len ∧ first.toNat + len ≤ 2 ^ 48) ∧
    (∃ (s : State) (vd : Nat) (v : VDev) (va : BitVec 64) (pa place : Nat), Free s ∧ s.vdevAt vd = some v ∧
      s.locateFor (vd / 4) vd .load va.toNat 64 = .ok (.dram pa place) ∧ ((s.physBytes pa 64).getD 2 0).getLsbD 2 = true) :=
  ⟨⟨managed (place thread0), 0, 2, _, free_place _, rfl, by omega, rfl, by decide⟩,
    ⟨managed bare, 0, _, ⟨rfl, rfl, rfl⟩, rfl, by decide⟩,
    ⟨0x1000, 0, 0x1000, 0x2000, 5, 0x200000, 4, 2, 0x250001, 0x30000, 0x1000, by decide⟩,
    ⟨managed (placeBytes thread0 0x30000 [1, 0, 4]), 0, _, 0x30000, 0x30000, 0, ⟨rfl, rfl, rfl⟩, rfl, dramAt (by decide +kernel), by decide +kernel⟩⟩

/-- A finite number of the formats, one or minus one, and zero of either sign. -/
theorem real_one (neg : Bool) : IsReal (.fin neg 1 0) neg (if neg then -1 else 1) := ⟨1, 0, rfl, by simp⟩

theorem real_zero (neg : Bool) : IsReal (.fin neg 0 0) neg 0 := ⟨0, 0, rfl, by simp⟩

/-- FloatingPointValues: in FP32 an infinity, a NaN, a subnormal and a normal pattern, in E4M3, which has no infinity, the NaN; numbers of
either sign and zeros for the operations; operands whose product is infinite; a power of two with a whole exponent. -/
theorem witness_FloatingPointValues :
    (∃ f ∈ formatRows, f.code = 0x11 ∧ f.inf = some 0x7F800000 ∧ ∀ x ∈ [0x7F800000, 0xFFC00001, 0x80000001, 0x3F800000], x < 2 ^ f.bits) ∧
    (∃ f ∈ formatRows, f.inf = none ∧ ∃ x, x < 2 ^ f.bits ∧ x / 2 ^ f.sb % 2 ^ f.eb = 2 ^ f.eb - 1 ∧ x % 2 ^ f.sb = 2 ^ f.sb - 1) ∧
    (∀ neg, ∃ a y, IsReal a neg y ∧ y ≠ 0) ∧ (∀ neg, ∃ a, IsReal a neg 0) ∧ (∃ a y, IsReal a true y ∧ y < 0) ∧
    (∃ a b : FVal, a.isNan = true ∧ b.isNan = false) ∧
    (∃ (a b : FVal) (m n : Bool) (y : ℝ), y ≠ 0 ∧ a = .inf m ∧ IsReal b n y) ∧
    (∃ c p, c = 0x11 ∧ ∃ y, IsReal (decF c p) false y ∧ y = (2 : ℝ) ^ (1 : Int)) :=
  ⟨⟨⟨0x11, 32, 8, 127, 23, some 0x7F800000, 0x7FC00000, 0x7F7FFFFF⟩, by decide, rfl, rfl, by decide⟩,
   ⟨⟨0x14, 8, 4, 7, 3, none, 0x7F, 0x7E⟩, by decide, rfl, 0xFF, by decide⟩,
   fun neg => ⟨_, _, real_one neg, by cases neg <;> simp⟩, fun neg => ⟨_, real_zero neg⟩, ⟨_, _, real_one true, by simp⟩,
   ⟨.nan true, .inf false, rfl, rfl⟩, ⟨_, _, true, _, _, one_ne_zero, rfl, real_one false⟩,
   ⟨0x11, 0x40000000, rfl, 2, ⟨2 ^ 23, -22, by decide, by norm_num⟩, by norm_num⟩⟩

/-- ConversionsAndComparisons: an integer and a number that stand for something; an infinity, a NaN; elements on either side of one another. -/
theorem witness_ConversionsAndComparisons :
    (∃ c x neg y, StandsFor c x neg y ∧ c ≤ 8) ∧ (∃ c x neg y, StandsFor c x neg y ∧ 0x10 ≤ c) ∧
    (∃ c x n, 0x10 ≤ c ∧ c ≤ 0x15 ∧ decF c x = .inf n) ∧ (∃ c x sig, 0x10 ≤ c ∧ c ≤ 0x15 ∧ decF c x = .nan sig) ∧
    (∃ (d : Word) (x : Nat) (p : EReal), 0x10 ≤ dAfmt d ∧ IsExt (decF (dAfmt d) x) p) ∧
    (∃ a b, Below a b) ∧ ∃ a b, ¬Below a b :=
  ⟨⟨1, 0xFF, true, -1, .inl ⟨by decide, by decide, by rw [show readInt 1 0xFF = -1 by decide]; norm_num, by decide⟩, by decide⟩,
   ⟨0x11, 0x40000000, false, 2, .inr ⟨by decide, by decide, 2 ^ 23, -22, by decide, by norm_num⟩, by decide⟩,
   ⟨0x13, 0xFC00, true, by decide⟩, ⟨0x13, 0x7C01, true, by decide⟩,
   ⟨0x111111, 0x7F800000, ⊤, by decide, .inr (.inr ⟨by decide, rfl⟩)⟩,
   ⟨_, _, .inr ⟨real_zero true, real_zero false⟩⟩,
   ⟨.nan true, .nan true, by rintro (⟨y, z, (⟨n, w, ⟨m, e, h, _⟩, _⟩ | ⟨h, _⟩ | ⟨h, _⟩), _⟩ | ⟨⟨m, e, h, _⟩, _⟩) <;> cases h⟩⟩

/-- QuantiserAndDraws: a block with a NaN, and one without. -/
theorem witness_QuantiserAndDraws :
    (∃ (c : Nat) (p : Nat → Nat), c = 0x11 ∧ ∃ i < 32, (decF c (p i)).isNan = true) ∧
    (∃ (c : Nat) (p : Nat → Nat), c = 0x12 ∧ ∀ i < 32, (decF c (p i)).isNan = false) :=
  ⟨⟨0x11, fun _ => 0x7FC00000, rfl, 3, by decide, by decide⟩, ⟨0x12, fun i => i, rfl, by decide⟩⟩

/-- FencesAndBarriers: at a barrier with no count, with one above the core's slots, and with one that is not the open generation's; in a
partition of a pod beside one more package, which can be reached or not, with a count of 0, 1, 2 and one above the slots. -/
theorem witness_FencesAndBarriers_2 :
    (∀ n ∈ [0, 3], ∃ s h t, Ready s h t ∧ t.queue = [] ∧ Settled s h ∧ Trappable s t ∧ t.arrivalHere 1 = none ∧ t.reg 5 = BitVec.ofNat 64 n) ∧
    (∃ (s : State) (h : Nat) (t : Thread), Ready s h t ∧ t.queue = [] ∧ Settled s h ∧ Trappable s t ∧ t.arrivalHere 2 = none ∧ (t.reg 5).toNat = 2 ∧
      ∃ b ∈ s.bars, (b.part = t.part ∧ b.task = t.task ∧ b.scope = 2 ∧ b.inst = instOf s.pkg t.core 2) ∧ b.count ≠ 2) ∧
    (∀ n ∈ [0, 1, 2, 4097], ∀ state ∈ [2, 4], ∃ (s : State) (h : Nat) (t : Thread) (p : Partition) (x : Share), Ready s h t ∧ t.queue = [] ∧ Settled s h ∧
      Trappable s t ∧ t.arrivalHere 5 = none ∧ s.partAt t.part = some p ∧ p.pod = 9 ∧ s.bars = [] ∧ t.reg 5 = BitVec.ofNat 64 n ∧ s.shares = [x] ∧ x.pod = 9 ∧
      x.pkg ≠ s.pkg ∧ s.podLost = [] ∧ s.links = [(2, ⟨state, 1, 1, 1, 2, 2⟩)]) := by
  refine ⟨fun n hn => ⟨_, 0, _, ready_reg 5 (BitVec.ofNat 64 n), rfl, ⟨rfl, rfl⟩, ⟨rfl, show (0x20000 : Word) ≠ 0 by decide, isOk (by revert n; decide +kernel)⟩, rfl, rfl⟩,
    ⟨{ place (withReg 5 2) with bars := [⟨0, 0, 2, 0, 3, [7]⟩] }, 0, _, ready_of rfl rfl (by decide), rfl, ⟨rfl, rfl⟩,
      ⟨rfl, by decide, isOk (by decide +kernel)⟩, rfl, by decide, _, .head _, ⟨rfl, rfl, rfl, by decide⟩, by decide⟩,
    fun n hn state hs => ⟨{ place (withReg 5 (BitVec.ofNat 64 n)) with parts := (place thread0).parts.map fun x => (x.1, { x.2 with pod := 9 }), shares := [⟨1, 0, 9, 2, [], []⟩], links := [(2, ⟨state, 1, 1, 1, 2, 2⟩)] },
      0, withReg 5 (BitVec.ofNat 64 n), _, _, ready_of rfl rfl (show Calm thread0 = true by decide), rfl, ⟨rfl, rfl⟩,
      ⟨rfl, show (0x20000 : Word) ≠ 0 by decide, isOk (by revert n state; decide +kernel)⟩, rfl, rfl, rfl, rfl, rfl, rfl, rfl, show 1 ≠ 0 by decide, rfl, rfl⟩⟩

/-- A thread with an address in s5 and a value in s6. -/
def addressed (va x : Word) : Thread := { thread0 with regs := setAt 0 (setAt 0 thread0.regs 5 va) 6 x }

/-- Core 0 with its bank 0 in a mode, as a FIFO from 0 to 64. -/
def windowed (mode : Nat) (t : Thread) : State :=
  { place t with cores := [(0, { (place t).coreAt 0 with bankMode := BitVec.ofNat 24 mode, fifoTail := [(0, 64)] })] }

theorem ready_windowed (mode : Nat) (va x : Word) : Ready (windowed mode (addressed va x)) 0 (addressed va x) :=
  ready_of rfl rfl (show Calm thread0 = true by decide)

/-- CoreStoreAccesses: an address in bank 0 in each of its modes. -/
theorem witness_CoreStoreAccesses : ∀ mode ∈ [0, 1, 2], ∃ s h t, Ready s h t ∧ t.queue = [] ∧ Trappable s t ∧ t.vwaiting = false ∧
    s.unflipped h = false ∧ s.fenceDone h t 1 = true ∧ (t.reg 5 + (0 : BitVec 12).signExtend 64).toNat = 0xFF0000000000 + 64 ∧
    (s.coreAt t.core).mode (64 / 65536) = mode ∧ (s.coreAt t.core).banks.wf = true := by
  intro mode hm
  refine ⟨windowed mode (addressed 0xFF0000000040 0), 0, addressed 0xFF0000000040 0, ready_windowed _ _ _, rfl, ⟨rfl, show (0x20000 : Word) ≠ 0 by decide, isOk ?_⟩,
    rfl, rfl, rfl, by decide, ?_, ?_⟩
  all_goals revert mode; decide +kernel

/-- CoreStoreAccesses: HEAD and TAIL of bank 0 in FIFO mode, with a value that HEAD takes, one above TAIL and one that is no multiple of 16; a
counter. -/
theorem witness_CoreStoreAccesses_2 : (∀ va ∈ [0xFF0000100000, 0xFF0000100008], ∀ x ∈ [16, 24, 80], ∃ s h t, Ready s h t ∧
      t.queue = [] ∧ Trappable s t ∧ t.vwaiting = false ∧ s.unflipped h = false ∧ t.reg 5 + (0 : BitVec 12).signExtend 64 = BitVec.ofNat 64 va ∧ t.reg 6 = BitVec.ofNat 64 x ∧
      (s.coreAt t.core).mode 0 = 2 ∧ (s.coreAt t.core).head 0 = 0 ∧ (s.coreAt t.core).tail 0 = 64) ∧
    ∃ s h t, Ready s h t ∧ t.vwaiting = false ∧ s.unflipped h = false ∧ (t.reg 5 + (0 : BitVec 12).signExtend 64).toNat = 0xFF0000200010 := by
  refine ⟨fun va hva x hx => ?_, ⟨_, 0, _, ready_windowed 1 0xFF0000200010 0, rfl, rfl, by decide⟩⟩
  refine ⟨windowed 2 (addressed (BitVec.ofNat 64 va) (BitVec.ofNat 64 x)), 0, addressed (BitVec.ofNat 64 va) (BitVec.ofNat 64 x), ready_windowed _ _ _, rfl, ⟨rfl, show (0x20000 : Word) ≠ 0 by decide, isOk ?_⟩,
    rfl, rfl, ?_, ?_, ?_, ?_, ?_⟩
  all_goals revert va x; decide +kernel

/-- CoreStoreAccesses: a load and a store of two elements in a bank in SCRATCH mode. -/
theorem witness_CoreStoreAccesses_3 : ∀ i ∈ ([.vld 8 5 0, .vst 8 5 0] : List Instr), ∃ s h t e r, AtVcp s h t e r i ∧ Shaped t e ∧ 8 % e.lmul = 0 ∧
    e.op 0 = BitVec.ofNat 64 (0xFF0000000000 + 64) ∧ 64 % e.w = 0 ∧ 64 + e.vl * e.w ≤ 0xC0000 ∧ s.sending h = false ∧ s.unflipped h = false ∧
    e.bundle = none ∧ (∀ n, takesPart t e.vl (act e t 0) n → (s.coreAt t.core).mode ((64 + n * e.w) / 65536) = 1) ∧
    (s.coreAt t.core).banks.wf = true := by
  intro i hi
  have hw : (entry i [0xFF0000000040]).w = 4 := show 2 ^ bitsN (2 : BitVec 14).toNat 0 3 = 4 by decide
  refine ⟨windowed 1 (queued i [0xFF0000000040]), 0, queued i [0xFF0000000040], entry i [0xFF0000000040], [],
    ⟨rfl, rfl, rfl, rfl, by revert i; decide +kernel, rfl, rfl, rfl, show featD 0 = false by decide, show featPop 0 = 0 by decide, show featPush 0 = 0 by decide, rfl, rfl, rfl, rfl⟩,
    shaped_queued _ _, by simp [lmul_entry], show (0xFF0000000040 : Word) = _ by decide, by rw [hw], ?_, rfl, rfl, rfl, ?_, ?_⟩
  · rw [hw]; show 64 + 2 * 4 ≤ 0xC0000; decide
  · intro n hn
    have h2 : n < 2 := hn.2.1
    clear hn
    rw [hw]
    revert i n; decide +kernel
  · revert i; decide +kernel

/-- A thread whose bundle 7 is open, and an address in s5 that stands for DRAM; and P of the state. -/
def InBundle (s0 : State) (t0 : Thread) (x : Bundle) (pa place : Nat) (P : State → Prop) : Prop :=
  let t := { t0 with bopen := true, bdead := false, bcur := some 7 }
  let s := s0.setTh 0 t
  let va := (t.reg 5 + (0 : BitVec 12).signExtend 64).toNat
  Ready s0 0 t0 ∧ t.vwaiting = false ∧ t.queue = [] ∧ Trappable s t ∧ tget s.bundles 7 = some x ∧ x.h = 0 ∧ x.stage = .open_ ∧ s.mem.wf = true ∧
    s.checkAccess t .S .load va 4 = .ok (.dram pa place) ∧ s.checkAccess t .S .store va 4 = .ok (.dram pa place) ∧ pa % 4 = 0 ∧ s.routed pa = true ∧
    s.ownerOf (pa / 128) = none ∧ s.memErr.contains (pa / 128) = false ∧ s.tagsOf (pa / 128) = [] ∧ P s

/-- An access is performed. -/
def okAcc {α : Type} (x : Acc α) : Bool :=
  match x with
  | .ok _ => true
  | _ => false

theorem okAcc_ok {α : Type} {x : Acc α} (h : okAcc x = true) : ∃ y, x = .ok y := by
  cases x with
  | ok y => exact ⟨y, rfl⟩
  | trap c => cases h
  | hold => cases h

/-- An access is answered by DRAM at pa, of placement pl. -/
def dramIs (x : Except Nat Loc) (pa pl : Nat) : Bool :=
  match x with
  | .ok (.dram a b) => a == pa && b == pl
  | _ => false

theorem dramIs_at {x : Except Nat Loc} {pa pl : Nat} (h : dramIs x pa pl = true) : x = .ok (.dram pa pl) := by
  unfold dramIs at h
  split at h
  · simp at h; simp [h]
  · cases h

/-- The thread of the next test, its bundle 7 with some lines, and other bundles. -/
def bundling (va : Word) (lines : List BLine) (others : List (Nat × Bundle)) : State :=
  { place (withReg 5 va) with bundles := [(7, bundle0 .open_ none lines)] ++ others, nextB := 20 }

/-- n lines of home slice 0, from one on. -/
def linesFrom (k n : Nat) : List BLine := (List.range n).map fun i => ⟨0x800000 + 1024 * (k + i), [], false⟩

theorem inBundle {va : Word} {lines : List BLine} {others : List (Nat × Bundle)} {pa : Nat} {P : State → Prop}
    (h : (let t := { withReg 5 va with bopen := true, bdead := false, bcur := some 7 }
      let s := (bundling va lines others).setTh 0 t
      let a := (t.reg 5 + (0 : BitVec 12).signExtend 64).toNat
      okAcc (s.putImage t []) && s.mem.wf && s.routed pa && decide (pa % 4 = 0) &&
      dramIs (s.checkAccess t .S .load a 4) pa 0 &&
      dramIs (s.checkAccess t .S .store a 4) pa 0 && (s.tagsOf (pa / 128)).isEmpty) = true)
    (hP : P ((bundling va lines others).setTh 0 { withReg 5 va with bopen := true, bdead := false, bcur := some 7 })) :
    InBundle (bundling va lines others) (withReg 5 va) (bundle0 .open_ none lines) pa 0 P := by
  simp only [Bool.and_eq_true] at h
  obtain ⟨⟨⟨⟨⟨⟨h1, h2⟩, h3⟩, h4⟩, h5⟩, h6⟩, h7⟩ := h
  exact ⟨ready_of rfl rfl (show Calm thread0 = true by decide), rfl, rfl, ⟨rfl, show (0x20000 : Word) ≠ 0 by decide, okAcc_ok h1⟩, rfl, rfl, rfl, h2,
    dramIs_at h5, dramIs_at h6, of_decide_eq_true h4, h3, rfl, rfl, List.isEmpty_iff.1 h7, hP⟩

/-- BundleStores: the line of the address is pending in the thread's own bundle; in none, with room, at a bundle of 64 lines, at a home
slice with 256 pending lines; in another bundle, sealing or committed; sealed. -/
theorem witness_BundleStores :
    (∃ s0 t0 x pa place, InBundle s0 t0 x pa place fun s => ∃ l, s.pendingOf (pa / 128) = some (7, x, l)) ∧
    (∃ s0 t0 x pa place, InBundle s0 t0 x pa place fun s => s.pendingOf (pa / 128) = none ∧ x.lines.length = 63 ∧ s.pendingAt (s.homeSlice pa) < 256 ∧
      place ≠ 4 ∧ pkgOf pa = s.pkg ∧ s.sealCount (pa / 128) = 0) ∧
    (∃ s0 t0 x pa place, InBundle s0 t0 x pa place fun s => s.pendingOf (pa / 128) = none ∧ x.lines.length = 64) ∧
    (∃ s0 t0 x pa place, InBundle s0 t0 x pa place fun s => s.pendingOf (pa / 128) = none ∧ x.lines.length < 64 ∧ s.pendingAt (s.homeSlice pa) = 256) ∧
    (∀ stage ∈ [BundleStage.sealing, .committed], ∃ s0 t0 x pa place, InBundle s0 t0 x pa place fun s => ∃ y l,
      s.pendingOf (pa / 128) = some (9, y, l) ∧ y.stage = stage) := by
  refine ⟨⟨_, _, _, 0x30000, 0, inBundle (va := 0x30000) (lines := [⟨0x600, [(0x30000, 5)], false⟩]) (others := []) (by decide +kernel) ⟨_, rfl⟩⟩,
    ⟨_, _, _, 0x40000, 0, inBundle (va := 0x40000) (lines := linesFrom 0 63) (others := []) (by decide +kernel) ?_⟩,
    ⟨_, _, _, 0x40000, 0, inBundle (va := 0x40000) (lines := linesFrom 0 64) (others := []) (by decide +kernel) ?_⟩,
    ⟨_, _, _, 0x40000, 0, inBundle (va := 0x40000) (lines := [])
      (others := (List.range 4).map fun i => (9 + i, bundle0 .open_ none (linesFrom (64 * i) 64))) (by decide +kernel) ?_⟩,
    fun stage hs => ⟨_, _, _, 0x30000, 0, inBundle (va := 0x30000) (lines := []) (others := [(9, bundle0 stage none [⟨0x600, [], false⟩])])
      (by revert stage; decide +kernel) ⟨bundle0 stage none [⟨0x600, [], false⟩], ⟨0x600, [], false⟩, by revert stage; decide +kernel, rfl⟩⟩⟩
  all_goals decide +kernel

/-- BundleStores: a page of the commons, and one of another package that a pod port reaches without the feature for bundles. -/
theorem witness_BundleStores_2 : ∀ k ∈ [(0x40000000, 2 ^ 30, 4), (0x80000000, 2 ^ 45, 0)], ∃ (s : State) (t : Thread), Ready s 0 t ∧ t.vwaiting = false ∧
    t.reg 5 = BitVec.ofNat 64 k.1 ∧ s.checkAccess t .S .store k.1 4 = .ok (.dram k.2.1 k.2.2) ∧ k.2.1 % 4 = 0 ∧ s.routed k.2.1 = true ∧
    (k.2.2 = 4 ∨ pkgOf k.2.1 ≠ s.pkg ∧ s.podFeature 0 = false) := by
  intro k hk
  refine ⟨{ place (withReg 5 (BitVec.ofNat 64 k.1)) with mem := msetN (msetN (place thread0).mem 0x2008 (leBytes 8 (2 ^ 30 + 0x1F + 4 * 64))) 0x2010 (leBytes 8 (2 ^ 45 + 0x1F)), regions := tset (tset (place thread0).regions 1 ⟨.commons, 4, 0⟩) (2 ^ 15) ⟨.part 0, 0, 0⟩, parts := (place thread0).parts.map fun x => (x.1, { x.2 with pod := 9 }), shares := [⟨1, 0, 9, 2, [], []⟩], links := [(2, ⟨2, 1, 1, 1, 0, 0⟩)] },
    withReg 5 (BitVec.ofNat 64 k.1), ready_of rfl rfl (show Calm thread0 = true by decide), rfl, rfl, dramAt ?_, ?_, ?_, ?_⟩
  all_goals (simp only [List.mem_cons, List.not_mem_nil, or_false] at hk; rcases hk with rfl | rfl <;> decide +kernel)

/-- BundleStores: a vector store of two elements in the entry's bundle. -/
theorem witness_BundleStores_3 : ∃ (s : State) (t : Thread) (e : QEntry) (x : Bundle) (pa : Nat → Nat), AtVcp s 0 t e [] (.vst 8 5 0) ∧ Shaped t e ∧ 8 % e.lmul = 0 ∧
    e.bundle = some 7 ∧ tget s.bundles 7 = some x ∧ x.h = 0 ∧ x.stage = .open_ ∧ s.mem.wf = true ∧ pkgOf (0x600 * 128) = s.pkg ∧ s.routed (0x600 * 128) = true ∧
    s.sealCount 0x600 = 0 ∧ s.ownerOf 0x600 = none ∧ s.pendingOf 0x600 = none ∧ x.lines.length < 64 ∧ s.pendingAt (s.homeSlice (0x600 * 128)) < 256 ∧
    (∀ n, takesPart t e.vl (act e t 0) n → s.checkAccess t .V .store (e.op 0 + BitVec.ofNat 64 (n * e.w)).toNat e.w = .ok (.dram (pa n) 0) ∧
      pa n % e.w = 0 ∧ pa n / 128 = 0x600) ∧
    ∀ i j, takesPart t e.vl (act e t 0) i → takesPart t e.vl (act e t 0) j → pa i = pa j → i = j := by
  refine ⟨placeBundle (queuedAs id { entry (.vst 8 5 0) [0x30000] with bundle := some 7 }) (bundle0 .open_ none []), _, _, _, fun n => 0x30000 + 4 * n,
    at_vcp rfl rfl (by decide +kernel) (by decide), shaped 1 (by decide), by decide, rfl, rfl, rfl, rfl, by decide +kernel, by decide, by decide +kernel, by decide,
    by decide, by decide, by decide, by decide +kernel, ?_, fun i j _ _ h => by have h : 0x30000 + 4 * i = 0x30000 + 4 * j := h; omega⟩
  intro n hn
  have h2 : n < 2 := hn.2.1
  clear hn
  match n, h2 with
  | 0, _ => exact ⟨dramAt (by decide +kernel), by decide, by decide⟩
  | 1, _ => exact ⟨dramAt (by decide +kernel), by decide, by decide⟩

/-- DispatchOfLoopAndLeaseWords: the last lend of a core run, with words in the queue and without. -/
theorem witness_DispatchOfLoopAndLeaseWords_2 : ∀ q ∈ [[], [entry (.zclr 0) []]], ∃ s h t, State.cur s = h ∧ s.th h = some t ∧ t.res = .resident ∧
    t.handler = false ∧ t.pend = none ∧ t.loop.stage = .coreRun ∧ t.loop.open_ = true ∧ t.loop.iter + 1 = t.loop.trip ∧ t.storesOk = true ∧ t.queue = q :=
  fun q _ => ⟨place { thread0 with queue := q, loop := { thread0.loop with stage := .coreRun, open_ := true, iter := 2, trip := 3 } }, 0, _,
    rfl, rfl, rfl, rfl, rfl, rfl, rfl, rfl, show thread0.storesOk = true by decide, rfl⟩

/-- PairWordsAtVcp: halves that pass their checks, both a sum of the anchor and a register or a scalar; and one whose shift has no format. -/
theorem witness_PairWordsAtVcp : ∀ k ∈ [(0x050505, true), (0x111111, false)], ∃ s t e, AtVcp s 0 t e [] (.cp 0x110 0x145) ∧ Shaped t e ∧
    e.anchor = some 8 ∧ t.vstart = 0 ∧ TrapReady s t ∧
    ((halfEntry e 8 0x110 0).toList ++ (halfEntry e 8 0x145 0).toList).length = 2 ∧
    ((halfEntry e 8 0x110 0).toList ++ (halfEntry e 8 0x145 0).toList).all (fun y => descOk y.1 e.sew e.desc && groupsOk y.2.1) = k.2 := by
  intro k hk
  refine ⟨place (queuedAs id { entry (.cp 0x110 0x145) [7, BitVec.ofNat 64 k.1] with anchor := some 8 }), queuedAs id { entry (.cp 0x110 0x145) [7, BitVec.ofNat 64 k.1] with anchor := some 8 }, _,
    ⟨rfl, rfl, rfl, rfl, show decode (entry (.cp 0x110 0x145) []).word = some (.cp 0x110 0x145) by decide +kernel, rfl, rfl, rfl, show featD 0 = false by decide,
      show featPop 0 = 0 by decide, show featPush 0 = 0 by decide, rfl, rfl, rfl, rfl⟩,
    ⟨show (2 : BitVec 14).toNat % 8 < 4 by decide, ⟨1, by decide, by decide,
      show 64 * 2 ^ bitsN (2 : BitVec 14).toNat 0 3 = 1 * 256 * 2 ^ bitsN (2 : BitVec 14).toNat 3 2 by decide⟩, show 2 ≤ 64 by decide,
      show thread0.storesOk = true by decide⟩, rfl, rfl,
    ⟨rfl, show (0x20000 : Word) ≠ 0 by decide, rfl, rfl, fun z hz => by simp [queuedAs, Thread.setQueue] at hz; rw [hz]; rfl, isOk ?_⟩, ?_, ?_⟩
  all_goals (simp only [List.mem_cons, List.not_mem_nil, or_false] at hk; rcases hk with rfl | rfl <;> decide +kernel)

/-- A thread whose queue holds an exit region of one word and its vexit, which compares v8 and v16 for equality. -/
def exiting (i : Instr) (ops : List Word) (desc : Word) (v : Memory := []) : Thread :=
  (thread0.setVregs v).setQueue [{ entry i ops with region := true }, { entry (.vexit 0 8 16 0 3) [desc] with region := true }]

theorem at_vexit {i : Instr} {ops : List Word} {desc : Word} {v : Memory} :
    AtVexit (place (exiting i ops desc v)) 0 (exiting i ops desc v) [{ entry i ops with region := true }]
      { entry (.vexit 0 8 16 0 3) [desc] with region := true } [] (.vexit 0 8 16 0 3) :=
  ⟨rfl, rfl, rfl, rfl, show decode (entry (.vexit 0 8 16 0 3) []).word = some (.vexit 0 8 16 0 3) by decide +kernel,
    fun e he => by
      simp only [List.mem_cons, List.not_mem_nil, or_false] at he
      rcases he with rfl | rfl
      · exact ⟨rfl, rfl, rfl, show featPop 0 = 0 by decide, show featPush 0 = 0 by decide, rfl⟩
      · exact ⟨rfl, rfl, rfl, show featPop 0 = 0 by decide, show featPush 0 = 0 by decide, rfl⟩, rfl, rfl, rfl⟩

theorem shaped_exiting {i : Instr} {ops : List Word} {desc : Word} {v : Memory} (hv : (thread0.setVregs v).storesOk = true) (e : QEntry)
    (he : e.vcfg = 2 ∧ e.vl = 2 ∧ e.vlmax = 64) : Shaped (exiting i ops desc v) e := by
  obtain ⟨h1, h2, h3⟩ := he
  refine ⟨by rw [h1]; decide, ⟨1, by decide, by decide, ?_⟩, by rw [h2, h3]; decide, ?_⟩
  · rw [QEntry.w, QEntry.lmul, h1, h3]; decide
  · exact hv

/-- ExitRegionsAtVcp: an element-wise word that commits alone, and the cut where every element's condition holds (all are zeros). -/
theorem witness_ExitRegionsAtVcp : ∃ s t es x sf uf, AtVexit s 0 t es x [] (.vexit 0 8 16 0 3) ∧ descOk .cmpX x.sew x.desc = true ∧
    groupsOk [(8, x.lmul), (16, x.lmul)] = true ∧ Shaped t x ∧ (∀ e ∈ es, ∃ i, decode e.word = some i ∧ ElementWord i) ∧
    commits 0 es.length (s.setTh 0 { t with queue := (es.map fun e => { e with region := false, vl := e.vl, met := e.vl }) ++ [x] }) sf ∧
    sf.th 0 = some uf ∧ uf.queue = [x] ∧ uf.handler = t.handler ∧
    CutAfter (act x uf 0) (fun n => (exitCond x 0 (el x uf 8 x.w n) (el x uf 16 x.w n)).1) x.vl 0 := by
  have hc : ∃ sf uf, exec (.vectorCommit 0) ((place (exiting (.vadd 8 16 24 0 3 false) [0x050505] 0x050505)).setTh 0
      { exiting (.vadd 8 16 24 0 3 false) [0x050505] 0x050505 with
        queue := [{ entry (.vadd 8 16 24 0 3 false) [0x050505] with met := 2 }, { entry (.vexit 0 8 16 0 3) [0x050505] with region := true }] }) = .next sf ∧
      sf.th 0 = some uf ∧ uf.queue = [{ entry (.vexit 0 8 16 0 3) [0x050505] with region := true }] ∧ uf.handler = false ∧
      (exitCond { entry (.vexit 0 8 16 0 3) [0x050505] with region := true } 0 (el { entry (.vexit 0 8 16 0 3) [0x050505] with region := true } uf 8 4 0)
        (el { entry (.vexit 0 8 16 0 3) [0x050505] with region := true } uf 16 4 0)).1 = true :=
    ⟨_, _, rfl, rfl, by decide +kernel, by decide +kernel, by decide +kernel⟩
  obtain ⟨sf, uf, h1, h2, h3, h4, h5⟩ := hc
  exact ⟨_, _, _, _, sf, uf, at_vexit (i := .vadd 8 16 24 0 3 false) (ops := [0x050505]) (desc := 0x050505), by decide, by decide, shaped_exiting (by decide) _ ⟨rfl, rfl, rfl⟩,
    fun e he => by
      simp only [List.mem_cons, List.not_mem_nil, or_false] at he
      subst he
      exact ⟨.vadd 8 16 24 0 3 false, by decide +kernel, 8, 16, 24, 0, 3, false, .head _⟩,
    ⟨sf, h1, rfl⟩, h2, h3, h4, by decide, rfl, h5, fun j hj => absurd hj (Nat.not_lt_zero j)⟩

/-- ExitRegionsAtVcp: a load of two elements, both mapped or the second not, whose condition holds at the first, or at none, where the load's
trap can be taken. -/
theorem witness_ExitRegionsAtVcp_2 : ∀ k ∈ [(0x30000, 2), (0x3FFFFFFC, 1)], ∀ v ∈ ([[], [(16 * 16384, 7), (16 * 16384 + 4, 7)]] : List Memory), ∃ s t es x e,
    AtVexit s 0 t es x [] (.vexit 0 8 16 0 3) ∧ es = [e] ∧ descOk .cmpX x.sew x.desc = true ∧ groupsOk [(8, x.lmul), (16, x.lmul)] = true ∧ Shaped t x ∧
    Shaped t e ∧ decode e.word = some (.vld 8 5 0) ∧ featD e.feat = false ∧ e.vcfg = x.vcfg ∧ e.vl = x.vl ∧ e.vlmax = x.vlmax ∧ e.vl = 2 ∧
    (let addr := fun n => e.op 0 + BitVec.ofNat 64 (n * e.w)
     let mem := fun n => leNat (s.physBytes (k.1 + 4 * n) e.w)
     let held := fun (g : BitVec 6) n => if g = 8 then leaves e t (act e t 0 n) n (el e t 8 e.w n) (mem n) else el e t g e.w n
     (∀ n < 2, if n < k.2 then s.checkAccess t .V .load (addr n).toNat e.w = .ok (.dram (k.1 + 4 * n) 0)
        else s.checkAccess t .V .load (addr n).toNat e.w = .error 4) ∧
      ∀ n < 2, act x t 0 n = true ∧ ((exitCond x 0 (held 8 n) (held 16 n)).1 = true ↔ v = [])) ∧
    let t1 := { t with vstop := BitVec.ofNat 21 (t.vstop.toNat % 2 ^ 15 + 2 ^ 15 + x.met % 32 * 2 ^ 16), vstopPast := some t.vstop }
    TrapReady (s.setTh 0 t1) t1 := by
  intro k hk v hv
  refine ⟨_, _, _, _, _, at_vexit (i := .vld 8 5 0) (ops := [BitVec.ofNat 64 k.1]) (desc := 0x050505) (v := v), rfl, by decide, by decide,
    shaped_exiting (by revert v; decide) _ ⟨rfl, rfl, rfl⟩, shaped_exiting (by revert v; decide) _ ⟨rfl, rfl, rfl⟩,
    show decode (entry (.vld 8 5 0) []).word = some (.vld 8 5 0) by decide +kernel, show featD 0 = false by decide, rfl, rfl, rfl, rfl, ⟨?_, ?_⟩,
    rfl, show (0x20000 : Word) ≠ 0 by decide, rfl, rfl, fun z hz => ?_, isOk ?_⟩
  · simp only [List.mem_cons, List.not_mem_nil, or_false] at hk hv
    rcases hk with rfl | rfl <;> rcases hv with rfl | rfl <;> intro n hn <;> match n, hn with
      | 0, _ => exact dramAt (by decide +kernel)
      | 1, _ => first | exact dramAt (by decide +kernel) | exact errorAt (by decide +kernel)
  · simp only [List.mem_cons, List.not_mem_nil, or_false] at hk hv
    rcases hk with rfl | rfl <;> rcases hv with rfl | rfl <;> decide +kernel
  · simp [exiting, Thread.setQueue] at hz
    rcases hz with rfl | rfl <;> rfl
  · simp only [List.mem_cons, List.not_mem_nil, or_false] at hk hv
    rcases hk with rfl | rfl <;> rcases hv with rfl | rfl <;> decide +kernel

/-- A thread with some groups bound to streams, whose queue holds one entry. -/
def streaming (i : Instr) (ops : List Word) (l : List Bind) : Thread := { queued i ops with binds := l }

/-- The hypotheses of StreamsAtVcp on a word in a state. -/
def AtStream (s : State) (i : Instr) (ops : List Word) (l : List Bind) : Prop :=
  let t := streaming i ops l
  s.th 0 = some t ∧ AtVcp (s.setTh 0 { t with binds := [] }) 0 { t with binds := [] } (entry i ops) [] i ∧ Shaped t (entry i ops) ∧
    (entry i ops).lmul = 1 ∧ TrapReady s t

theorem atStream {s : State} {i : Instr} {ops : List Word} {l : List Bind} (hs : s.threads = [(0, streaming i ops l)]) (hm : s.memErr = [])
    (hw : decode (entry i ops).word = some i) (hp : (match s.putImage (streaming i ops l) (streaming i ops l).queue with
      | .ok _ => true
      | _ => false) = true) : AtStream s i ops l := by
  have ht : s.th 0 = some (streaming i ops l) := by rw [State.th, hs]; rfl
  have ht' : (s.setTh 0 { streaming i ops l with binds := [] }).th 0 = some { streaming i ops l with binds := [] } := by
    rw [State.th, State.setTh, hs]; rfl
  refine ⟨ht, ⟨ht', rfl, rfl, rfl, hw, rfl, rfl, rfl, show featD 0 = false by decide, show featPop 0 = 0 by decide,
    show featPush 0 = 0 by decide, rfl, rfl, rfl, if_pos hm⟩, ⟨show (2 : BitVec 14).toNat % 8 < 4 by decide, ⟨1, by decide, by decide,
      show 64 * 2 ^ bitsN (2 : BitVec 14).toNat 0 3 = 1 * 256 * 2 ^ bitsN (2 : BitVec 14).toNat 3 2 by decide⟩, show 2 ≤ 64 by decide,
      show thread0.storesOk = true by decide⟩, lmul_entry _ _,
    rfl, show (0x20000 : Word) ≠ 0 by decide, rfl, rfl, fun z hz => ?_, ?_⟩
  · simp [streaming, queued, Thread.setQueue] at hz
    rw [hz]; rfl
  · generalize s.putImage (streaming i ops l) (streaming i ops l).queue = x at hp
    cases x with
    | ok y => exact ⟨y, rfl⟩
    | trap c => cases hp
    | hold => cases hp

/-- StreamsAtVcp: a stream record of each kind, of none, and with the group bound; one that is not mapped; vunbind; a group that is not
aligned. -/
theorem witness_StreamsAtVcp :
    (∀ kind ∈ [0, 1, 2], ∀ l ∈ ([[], [⟨8, 1, 0, 0x40000, 8, 4, 0⟩]] : List (List Bind)), ∃ s ops pa place, AtStream s (.vbind 8 5) ops l ∧
      groupsOk [(8, 1)] = true ∧ s.checkAccess (streaming (.vbind 8 5) ops l) .V .load ((entry (.vbind 8 5) ops).op 0).toNat 32 = .ok (.dram pa place) ∧
      pa % 32 = 0 ∧ Quiet s (pa / 128) ∧ leNat (s.physBytes pa 1) = kind ∧ leNat (s.physBytes (pa + 1) 7) = 0) ∧
    (∃ s ops, AtStream s (.vbind 8 5) ops [] ∧
      s.checkAccess (streaming (.vbind 8 5) ops []) .V .load ((entry (.vbind 8 5) ops).op 0).toNat 32 = .error 4) ∧
    (∃ s ops l, AtStream s (.vunbind 8) ops l) ∧ groupsOk [((9 : BitVec 6).toNat, 2)] = false := by
  refine ⟨fun kind hk l hl => ⟨placeBytes (streaming (.vbind 8 5) [0x30000] l) 0x30000 [BitVec.ofNat 8 kind], [0x30000], 0x30000, 0,
      atStream rfl rfl (by decide +kernel) ?_, by decide, dramAt ?_, by decide, ⟨rfl, rfl, rfl, rfl, rfl, rfl⟩, ?_, ?_⟩,
    ⟨place (streaming (.vbind 8 5) [0x40000000] []), [0x40000000], atStream rfl rfl (by decide +kernel) (by decide +kernel), errorAt (by decide +kernel)⟩,
    ⟨place (streaming (.vunbind 8) [] []), [], [], atStream rfl rfl (by decide +kernel) (by decide +kernel)⟩, by decide⟩
  all_goals (simp only [List.mem_cons, List.not_mem_nil, or_false] at hk hl; rcases hk with rfl | rfl | rfl <;> rcases hl with rfl | rfl <;> decide +kernel)

/-- StreamsAtVcp: a word that reads v16, bound to a stream in memory with a group left, at its end, with a group that is not mapped, or to the
inbox; and one that writes it. -/
theorem witness_StreamsAtVcp_2 :
    (∀ base ∈ [0x30000, 0x3FFFFFFC], ∀ n ∈ [0, 4], ∃ s b, AtStream s (.vmv 8 16 0) [] [b] ∧ b.kind = 0 ∧ b.vd = 16 ∧ b.lmul = 1 ∧ b.next = n ∧ b.count = 4 ∧
      [b].Nodup ∧ (n = 0 → ∀ k < 2, s.checkAccess (streaming (.vmv 8 16 0) [] [b]) .V .load (b.base + BitVec.ofNat 64 b.next * b.stride + BitVec.ofNat 64 (k * 4)).toNat 4 =
        if base = 0x30000 ∨ k = 0 then .ok (.dram (base + 4 * k) 0) else .error 4) ∧ ∀ k < 2, Quiet s ((base + 4 * k) / 128)) ∧
    (∀ fifo : Bool, ∃ s b, AtStream s (.vmv 8 16 0) [] [b] ∧ b.kind = 1 ∧ b.vd = 16 ∧ b.lmul = 1 ∧
      (fifo = true → (s.coreAt 0).inbox = some 0 ∧ 16 * 2 ≤ (s.coreAt 0).tail 0 - (s.coreAt 0).head 0) ∧ (fifo = false → (s.coreAt 0).inbox = none)) ∧
    (∃ s b, AtStream s (.vmv 16 8 0) [] [b] ∧ b.vd = 16 ∧ b.lmul = 1) := by
  refine ⟨fun base hb n hn => ?_, fun fifo => ?_,
    ⟨place (streaming (.vmv 16 8 0) [] [⟨16, 1, 0, 0x30000, 8, 4, 0⟩]), _, atStream rfl rfl (by decide +kernel) (by decide +kernel), rfl, rfl⟩⟩
  · refine ⟨place (streaming (.vmv 8 16 0) [] [⟨16, 1, 0, BitVec.ofNat 64 base, 8, 4, n⟩]), _, atStream rfl rfl (by decide +kernel) ?_, rfl, rfl, rfl, rfl, rfl,
      List.nodup_singleton _, fun h0 k hk => ?_, fun k hk => quiet_place _ _ ?_⟩
    · simp only [List.mem_cons, List.not_mem_nil, or_false] at hb hn
      rcases hb with rfl | rfl <;> rcases hn with rfl | rfl <;> decide +kernel
    · subst h0
      simp only [List.mem_cons, List.not_mem_nil, or_false] at hb
      rcases hb with rfl | rfl <;> match k, hk with
        | 0, _ => exact dramAt (by decide +kernel)
        | 1, _ => first | exact dramAt (by decide +kernel) | exact errorAt (by decide +kernel)
    · revert base k; decide
  · cases fifo
    · exact ⟨place (streaming (.vmv 8 16 0) [] [⟨16, 1, 1, 0, 0, 0, 0⟩]), _, atStream rfl rfl (by decide +kernel) (by decide +kernel), rfl, rfl, rfl, by decide, by decide⟩
    · exact ⟨placeFifo (streaming (.vmv 8 16 0) [] [⟨16, 1, 1, 0, 0, 0, 0⟩]), _, atStream rfl rfl (by decide +kernel) (by decide +kernel), rfl, rfl, rfl, by decide, by decide⟩

/-- The thread that waits in the next state, of the second task, considered at a level; and a service thread on slot 1. -/
def waiter (c : Nat) : Thread := { thread0 with task := 1, res := .waiting, core := 1, considered := c }

def busy : Thread := { thread0 with slot := 1, svc := true, tid := 1 }

/-- The crowd, with slot 1 of core 0 free or taken. -/
def crowded (t : Thread) (full : Bool) (c : Nat := 0) : State :=
  { crowd t 60000000 with threads := [(0, t), (1, waiter c)] ++ if full then [(2, busy)] else [] }

theorem crowded_th {t : Thread} {full : Bool} {c : Nat} {g : Nat} {u : Thread} (h : (crowded t full c).th g = some u) :
    (g = 0 ∧ u = t) ∨ (g = 1 ∧ u = waiter c) ∨ (g = 2 ∧ u = busy ∧ full = true) := by
  cases full <;> simp [State.th, crowded, tget] at h <;> grind

/-- The two tasks of the crowd: the second one's account is 1. -/
def first : Task where
  part := 0
  num := 0
  vdev := 0
  place := 0
  inst := 0
  threads := 1
  entry := 0x10000
  lanes := 8
  prio := 0
  account := 0
  done := 0
  hostmsg := false
  cue := false
  cueslot := 0
  svc := false
  retired := 0
  ended := 0
  firstTid := none
  start := 0
  finish := 0
  lanecyc := 0
  order := 0

def second : Task := { first with num := 1, account := 1, place := 5, order := 1 }

theorem crowded_tasks {t : Thread} {full : Bool} {c : Nat} : (crowded t full c).tasks = [first, second] := rfl

theorem awaits_crowded {t : Thread} {full : Bool} {c : Nat} (ht : t.res = .resident) {k : Task} {h : Nat} {u : Thread} (ha : Awaits (crowded t full c) 0 0 k h u) :
    k = second ∧ h = 1 ∧ u = waiter c := by
  rcases crowded_th ha.th with ⟨rfl, rfl⟩ | ⟨rfl, rfl⟩ | ⟨rfl, rfl, _⟩
  · have := ha.waits; rw [ht] at this; simp at this
  · refine ⟨?_, rfl, rfl⟩
    have h1 := ha.task
    rw [crowded_tasks] at h1
    simp only [List.mem_cons, List.not_mem_nil, or_false] at h1
    rcases h1 with rfl | rfl
    · have h2 : (1 : Nat) = 0 := ha.own.2
      omega
    · rfl
  · have : (Residence.resident = .waiting ∨ Residence.resident = .saved) := ha.waits
    simp at this

theorem awaits_waiter {t : Thread} {full : Bool} {c : Nat} (ht : t.res = .resident) : Awaits (crowded t full c) 0 0 second 1 (waiter c) where
  task := by rw [crowded_tasks]; simp
  part := rfl
  place := .inl (by decide)
  th := rfl
  own := ⟨rfl, rfl⟩
  waits := .inl rfl
  first := fun g u hg _ _ hw hne => by
    rcases crowded_th hg with ⟨rfl, rfl⟩ | ⟨rfl, rfl⟩ | ⟨rfl, rfl, _⟩
    · rw [ht] at hw; simp at hw
    · exact absurd rfl hne
    · have : (Residence.resident = .waiting ∨ Residence.resident = .saved) := hw
      simp at this

/-- The crowd's partition. -/
def crowdPart : Partition where
  cores := [0]
  groups := List.range 64
  inter := [0]
  saveRegions := [5]
  pod := 0
  params := Params.default
  deficit := [(1, 5)]
  pointer := []
  nextTask := 1
  registry := []
  chorus := []
  chorusWritten := []
  objects := []
  meters := []
  partEnergy := 0
  snapSeq := 0
  apertures := []
  budget := (List.range 8).map fun d => (d, 108000)

theorem crowded_same {t : Thread} {full : Bool} {c : Nat} : (crowded t full c).parts = (crowded thread0 false).parts := rfl

theorem crowded_parts : (crowded thread0 false).parts = [(0, crowdPart)] := by decide +kernel

theorem crowded_part {t : Thread} {full : Bool} {c : Nat} : (crowded t full c).partAt 0 = some crowdPart :=
  (congrArg (tget · 0) (crowded_same.trans crowded_parts)).trans rfl

theorem schedulable_crowded {t : Thread} {full : Bool} {c : Nat} (ht : t = thread0 ∨ t = { thread0 with residentAt := 60000000 }) :
    Schedulable (crowded t full c) crowdPart 0 where
  threads := by cases full <;> rfl
  tids := fun g u g' u' h h' _ _ he ht' => by
    have h1 : t.task = 0 ∧ t.tid = 0 := by rcases ht with rfl | rfl <;> decide
    have h2 : (waiter c).task = 1 := rfl
    have h3 : busy.task = 0 ∧ busy.tid = 1 := by decide
    rcases crowded_th h with ⟨rfl, rfl⟩ | ⟨rfl, rfl⟩ | ⟨rfl, rfl, _⟩ <;> rcases crowded_th h' with ⟨rfl, rfl⟩ | ⟨rfl, rfl⟩ | ⟨rfl, rfl, _⟩ <;>
      first | rfl | omega
  part := crowded_part
  age := by decide
  quantum := fun a => by
    have h : ∀ x : Nat, tgetD crowdPart.params.quantum a x = x := fun x => rfl
    rw [h]; norm_num
  deficit := fun a => by
    have : crowdPart.deficit = [(1, 5)] := rfl
    rw [this, tgetD]
    simp only [tget]
    split <;> norm_num

theorem level_crowded {t : Thread} {full : Bool} {c : Nat} : levelOf (crowded t full c) crowdPart second (waiter c) = 1 :=
  show min 31 (0 + (60000000 - 0) / 60000000) = 1 by decide

theorem chosen_crowded {t : Thread} {full : Bool} {c : Nat} (ht : t.res = .resident) : Chosen (crowded t full c) crowdPart 0 0 second 1 (waiter c) 1 [1] 0 where
  awaits := awaits_waiter ht
  level := level_crowded
  highest := fun k g u h => by obtain ⟨rfl, rfl, rfl⟩ := awaits_crowded ht h; exact Nat.le_of_eq level_crowded
  robin := ⟨List.nodup_singleton _, fun a => by
    constructor
    · intro h
      exact ⟨second, 1, waiter c, awaits_waiter ht, level_crowded, by simp at h; rw [h]; rfl⟩
    · rintro ⟨k, g, u, h, _, rfl⟩
      obtain ⟨rfl, rfl, rfl⟩ := awaits_crowded ht h
      decide, List.pairwise_singleton _ _⟩
  before := fun i h => absurd h (Nat.not_lt_zero i)
  found := by decide
  account := rfl
  oldest := fun k g u h _ _ hne => absurd (awaits_crowded ht h).1 hne

theorem fits_crowded {t : Thread} {full : Bool} {c : Nat} (ht : t = thread0 ∨ t = { thread0 with residentAt := 60000000 }) (hw : c = 0 ∨ c = 2) (i j : Nat) :
    Fits (crowded t full c) crowdPart second (waiter c) i j ↔ i = 0 ∧ j = 1 ∧ full = false := by
  have hc : crowdPart.cores = [0] := rfl
  constructor
  · rintro ⟨hi, _, hj, hs, _⟩
    rw [hc] at hi
    simp at hi
    subst hi
    match j, hj with
    | 0, _ =>
      exfalso; revert hs
      rcases ht with rfl | rfl <;> rcases hw with rfl | rfl <;> cases full <;> decide
    | 1, _ => cases full with
      | false => exact ⟨rfl, rfl, rfl⟩
      | true =>
        exfalso; revert hs
        rcases ht with rfl | rfl <;> rcases hw with rfl | rfl <;> decide
  · rintro ⟨rfl, rfl, rfl⟩
    refine ⟨by rw [hc]; simp, .inl (by decide), by decide, ?_, rfl⟩
    rcases ht with rfl | rfl <;> rfl

/-- ChoiceAndPlacement: a thread that is chosen, with one free slot; with none, a resident thread that yields, and one that has not been
resident long enough. -/
theorem witness_ChoiceAndPlacement :
    (∃ s x k h t L order m i j, Schedulable s x 0 ∧ Chosen s x 0 0 k h t L order m ∧ Fits s x k t i j ∧
      ∀ i' j', Fits s x k t i' j' → freeOf s i' = freeOf s i ∧ i = i' ∧ j ≤ j') ∧
    (∃ s x k h t L order m g w pa, Schedulable s x 0 ∧ Chosen s x 0 0 k h t L order m ∧ (∀ i j, ¬Fits s x k t i j) ∧ t.considered ≤ L ∧ Yields s x k L g w ∧
      t.savedBanks = [] ∧ w.slot < 2 ∧ s.canSave w = true ∧ s.freeSlot w.part = some pa ∧ (∀ o v, Yields s x k L o v → o = g) ∧
      ∀ o v, s.th o = some v → o ≠ g → (v.res = .resident ∨ v.res = .placed) → v.core = w.core → v.slot ≠ w.slot) ∧
    (∃ s x k h t L order m, Schedulable s x 0 ∧ Chosen s x 0 0 k h t L order m ∧ (∀ i j, ¬Fits s x k t i j) ∧ t.considered ≤ L ∧ ∀ g w, ¬Yields s x k L g w) := by
  refine ⟨⟨crowded thread0 false, crowdPart, second, 1, waiter 0, 1, [1], 0, 0, 1, schedulable_crowded (.inl rfl), chosen_crowded rfl,
      (fits_crowded (.inl rfl) (.inl rfl) 0 1).2 ⟨rfl, rfl, rfl⟩, fun i j h => ?_⟩,
    ⟨crowded thread0 true, crowdPart, second, 1, waiter 0, 1, [1], 0, 0, thread0, 5 * 2 ^ 30, schedulable_crowded (.inl rfl), chosen_crowded rfl,
      fun i j h => by have := ((fits_crowded (.inl rfl) (.inl rfl) i j).1 h).2.2; simp at this, by decide, ⟨rfl, rfl, by decide, .inl (by decide), rfl, by decide, by decide⟩,
      rfl, by decide, by decide +kernel, by decide +kernel, fun o v h => ?_, fun o v h hne hr hc => ?_⟩,
    ⟨crowded { thread0 with residentAt := 60000000 } true, crowdPart, second, 1, waiter 0, 1, [1], 0, schedulable_crowded (.inr rfl), chosen_crowded rfl,
      fun i j h => by have := ((fits_crowded (.inr rfl) (.inl rfl) i j).1 h).2.2; simp at this, by decide, fun g w h => ?_⟩⟩
  · obtain ⟨rfl, rfl, _⟩ := (fits_crowded (.inl rfl) (.inl rfl) i j).1 h
    exact ⟨rfl, rfl, Nat.le_refl 1⟩
  · rcases crowded_th h.1 with ⟨rfl, rfl⟩ | ⟨rfl, rfl⟩ | ⟨rfl, rfl, _⟩
    · rfl
    · exact absurd h.2.1 (by decide)
    · exact absurd h.2.2.2.2.1 (by decide)
  · rcases crowded_th h with ⟨rfl, rfl⟩ | ⟨rfl, rfl⟩ | ⟨rfl, rfl, _⟩
    · exact absurd rfl hne
    · revert hr; decide
    · decide
  · rcases crowded_th h.1 with ⟨rfl, rfl⟩ | ⟨rfl, rfl⟩ | ⟨rfl, rfl, _⟩
    · exact absurd h.2.2.2.2.2.2 (by decide)
    · exact absurd h.2.1 (by decide)
    · exact absurd h.2.2.2.2.1 (by decide)

/-- ChoiceAndPlacement: no slot is free and the thread that waits was considered at a higher level, or its level has risen since. -/
theorem witness_ChoiceAndPlacement_2 :
    (∃ s x, Schedulable s x 0 ∧ (∃ k h t, Awaits s 0 0 k h t) ∧ ∀ k h t, Awaits s 0 0 k h t → (∀ i j, ¬Fits s x k t i j) ∧ levelOf s x k t < t.considered) ∧
    (∃ s x, Schedulable s x 0 ∧ ∃ k h t, Awaits s 0 0 k h t ∧ k.prio < levelOf s x k t ∧ t.considered ≤ levelOf s x k t) := by
  refine ⟨⟨crowded thread0 true 2, crowdPart, schedulable_crowded (.inl rfl), ⟨second, 1, waiter 2, awaits_waiter rfl⟩, fun k h t ha => ?_⟩,
    ⟨crowded thread0 true, crowdPart, schedulable_crowded (.inl rfl), second, 1, waiter 0, awaits_waiter rfl, by rw [level_crowded]; decide, by rw [level_crowded]; decide⟩⟩
  obtain ⟨rfl, rfl, rfl⟩ := awaits_crowded rfl ha
  exact ⟨fun i j h => by have := ((fits_crowded (.inl rfl) (.inr rfl) i j).1 h).2.2; simp at this, by rw [level_crowded]; decide⟩

/-- HintsChangeNothing: an address that is not mapped, and one that is. -/
theorem witness_HintsChangeNothing :
    (∃ s h t c, Ready s h t ∧ s.checkAccess t .S .load (t.reg 5 + (0 : BitVec 12).signExtend 64).toNat 1 = .error c) ∧
    ∃ s h t pa place', Ready s h t ∧ s.checkAccess t .S .load (t.reg 5 + (0 : BitVec 12).signExtend 64).toNat 1 = .ok (.dram pa place') :=
  ⟨⟨_, 0, _, 4, ready_reg 5 0x40000000, errorAt (by decide +kernel)⟩, ⟨_, 0, _, 0x30000, 0, ready_reg 5 0x30000, dramAt (by decide +kernel)⟩⟩

/-- The partition with object k for each k below n. -/
def placeObjects (t : Thread) (n : Nat) (o : Obj) : State :=
  { place t with parts := (place t).parts.map fun x => (x.1, { x.2 with objects := (List.range n).map fun k => (k, o) }) }

theorem tget_range {α : Type} (o : α) (k : Nat) : ∀ n, k < n → tget ((List.range n).map fun j => (j, o)) k ≠ none := by
  have h : ∀ l : List Nat, k ∈ l → tget (l.map fun j => (j, o)) k ≠ none := by
    intro l
    induction l with
    | nil => simp
    | cons a r ih =>
      intro hk
      simp only [List.map, tget]
      split
      · simp
      · rename_i hne
        exact ih ((List.mem_cons.1 hk).resolve_left fun h => hne h.symm)
  exact fun n hn => h _ (List.mem_range.2 hn)

set_option maxRecDepth 20000 in
/-- ObjectsAtVcp: a core that caches no translation, before a shape record that is good and a table that is full, and before one whose VERSION
is 0; object 3 released without a reference, and sealed with one, before the cycles of its ounseal have passed. -/
theorem witness_ObjectsAtVcp_2 :
    (∃ s t e p pa y lines, AtVcp s 0 t e [] (.oshape 1 5) ∧ s.partAt t.part = some p ∧ s.checkAccess t .V .load (e.op 0).toNat 64 = .ok (.dram pa y) ∧
      pa % 64 = 0 ∧ Quiet s (pa / 128) ∧ (∀ va, s.cachedPage t.core t.vdev va = none) ∧ s.shapeBound t (s.physBytes pa 64) = some lines ∧
      ∀ j < 4096, tget p.objects j ≠ none) ∧
    (∃ s t e p pa y, AtVcp s 0 t e [] (.oshape 1 5) ∧ s.partAt t.part = some p ∧ s.checkAccess t .V .load (e.op 0).toNat 64 = .ok (.dram pa y) ∧
      pa % 64 = 0 ∧ Quiet s (pa / 128) ∧ (∀ va, s.cachedPage t.core t.vdev va = none) ∧ leNat (s.physBytes pa 2) ≠ 1) ∧
    (∃ s t e p o, AtVcp s 0 t e [] (.orel 5) ∧ s.partAt t.part = some p ∧ (e.op 0).toNat < 4096 ∧ tget p.objects (e.op 0).toNat = some o ∧ o.refs = 0) ∧
    (∃ s t e p o, AtVcp s 0 t e [] (.ounseal 1 5 6) ∧ s.partAt t.part = some p ∧ (e.op 0).toNat < 4096 ∧ tget p.objects (e.op 0).toNat = some o ∧
      o.isSealed = true ∧ o.refs = 1 ∧ s.time < e.since.getD s.time + (e.op 1).toNat) := by
  refine ⟨⟨{ placeObjects (queued (.oshape 1 5) [0x30000]) 4096 ⟨0, [], false, none, 0⟩ with
        mem := msetN (place thread0).mem 0x30000 ([1, 0, 5, 1, 0, 0, 0, 0] ++ leBytes 8 0x40000 ++ [1]) },
      queued (.oshape 1 5) [0x30000], entry (.oshape 1 5) [0x30000], _, 0x30000, 0, [0x800], at_vcp rfl rfl (by decide +kernel) (by decide), rfl, dramAt ?_, by decide,
      ⟨rfl, rfl, rfl, rfl, ?_, rfl⟩, fun va => rfl, ?_, fun j hj => tget_range _ j 4096 hj⟩,
    ⟨place (queued (.oshape 1 5) [0x30000]), _, _, _, 0x30000, 0, at_queued (by decide +kernel), rfl, dramAt (by decide +kernel), by decide, quiet_place _ _, fun va => rfl,
      by decide +kernel⟩,
    ⟨placeObject (queued (.orel 5) [3]) ⟨0, [], false, none, 0⟩, _, _, _, _, at_vcp (e := entry (.orel 5) [3]) rfl rfl (by decide +kernel) (by decide), rfl, by decide, rfl, rfl⟩,
    ⟨placeObject (queued (.ounseal 1 5 6) [3, 9]) ⟨0, [], true, none, 1⟩, _, _, _, _, at_vcp (e := entry (.ounseal 1 5 6) [3, 9]) rfl rfl (by decide +kernel) (by decide), rfl,
      by decide, rfl, rfl, rfl, by decide⟩⟩
  all_goals decide +kernel

/-- MessagesAndFlagWaits: flags that are late since the time noted. -/
theorem witness_MessagesAndFlagWaits_2 : ∃ s t e pa, AtVcp s 0 t e [] (.vwait 8 5 16 0 1) ∧ Shaped t e ∧ e.w = 8 ∧ e.since = some 0 ∧
    Reaches s t .load 8 (takesPart t e.vl (act e t 0)) (fun j => BitVec.ofNat 64 (el e t 8 8 j)) pa ∧
    (∃ j, takesPart t e.vl (act e t 0) j ∧ leNat (s.physBytes (pa j) 8) ≠ el e t 16 8 j) ∧ e.op 0 ≠ BitVec.allOnes 64 ∧ 0 + (e.op 0).toNat ≤ s.time :=
  ⟨_, queuedAs (fun t => t.setVregs [(16 * 16384, 7)]) { strip (entry (.vwait 8 5 16 0 1) [0]) 3 1 32 with since := some 0 }, _, fun _ => 0,
    at_place rfl (by decide +kernel) (by decide), shaped 1 (by decide), by decide, rfl, reaches 0 1 parts (by decide +kernel),
    ⟨0, ⟨by decide, by decide, by decide⟩, by decide +kernel⟩, by decide, by decide⟩

/-- ThreadEvents: a stale condition beside a line that a lost route keeps from its home; a write of BANKMODE that takes bank 0 out of SCRATCH
mode while a resident thread's copy command has bytes in it. -/
theorem witness_ThreadEvents_2 :
    (∃ (s : State) (h : Nat) (t : Thread) (x b : Nat) (w : Bundle) (l : BLine), s.th h = some t ∧ t.stale = some x ∧ tget s.bundles b = some w ∧
      w.stage = .committed ∧ w.opened ≤ x ∧ l ∈ w.lines ∧ l.flipped = false ∧ s.routed (l.line * 128) = false) ∧
    (∃ (s : State) (t : Thread) (x : BitVec 64) (r : CopyRun), Ready s 0 t ∧ (∀ b < 12, x.toNat / 2 ^ (2 * b) % 4 = 0) ∧ (s.coreAt t.core).mode 0 = 1 ∧
      (∀ b < 12, (s.coreAt t.core).mode b = 0 ∨ (s.coreAt t.core).bankOwner b = t.slot) ∧ t.slot < 2 ∧ (s.coreAt t.core).banks.wf = true ∧
      t.crun = some r ∧ r.cause = 0 ∧ (0, 0xFF0000000040) ∈ r.banks) :=
  ⟨⟨placeBundle { thread0 with stale := some 0 } (bundle0 .committed (some 3) [⟨2 ^ 38, [], false⟩]), 0, _, 0, 7, _, ⟨2 ^ 38, [], false⟩, rfl, rfl, rfl, rfl,
      Nat.le_refl 0, .head _, rfl, by decide⟩,
   ⟨placeBank { thread0 with crun := some ⟨1, 0, 2, [], [(0, 0xFF0000000040)]⟩ } [], { thread0 with crun := some ⟨1, 0, 2, [], [(0, 0xFF0000000040)]⟩ }, 0, _,
      ready_of rfl rfl (by decide), by decide, by decide, by decide, by decide, by decide, rfl, rfl, .head _⟩⟩

/-- TaskAndLeaseEvents: a task that asks for a host message, whose ring has room; one whose DONE is not mapped; a heavy word of a strip that
was dispatched before the thread's residence, with the lease asked for and not. -/
theorem witness_TaskAndLeaseEvents_2 :
    (∃ (s : State) (k : Task) (v : VDev) (ring : Ring), s.task 0 0 = some k ∧ k.hostmsg = true ∧ s.vdevAt k.vdev = some v ∧ v.ring = some ring ∧
      ring.written < ring.slots ∧ s.hostFeature 1 = true ∧ s.hostMem.wf = true ∧ k.threads ≤ k.retired + k.ended) ∧
    (∃ (s : State) (k : Task), s.task 0 0 = some k ∧ k.threads ≤ k.retired + k.ended ∧ s.locateFor k.part k.vdev .store k.done.toNat 64 = .error 4) ∧
    (∀ req : Bool, ∃ s t e, State.th s 0 = some t ∧ t.res = .resident ∧ t.loop.vtrap = false ∧ t.queue = [e] ∧ decode e.word = some (.zclr 1) ∧ e.region = false ∧
      e.failed = false ∧ e.heavy = some 1 ∧ e.at_ < t.residentAt ∧ (t.lease 1).held = false ∧ (t.lease 1).granted < t.residentAt ∧ (t.lease 1).req = req) := by
  refine ⟨⟨{ finished with tasks := finished.tasks.map (fun k => { k with hostmsg := true }), vdevs := finished.vdevs.map (fun x => (x.1, { x.2 with ring := some ⟨0x1000, 4, 0, 0⟩ })),
                           links := [(0, ⟨2, 1, 1, 1, 7, 7⟩)] }, _, _, _, rfl, rfl, rfl, rfl, by decide, by decide, by decide, by decide⟩,
    ⟨{ finished with tasks := finished.tasks.map fun k => { k with done := 0x40000000 } }, _, rfl, by decide, errorAt (by decide +kernel)⟩,
    fun req => ⟨place { (thread0.setQueue [{ entry (.zclr 1) [] with heavy := some 1 }]).setLease 1 ⟨false, req, false, 0, 0⟩ with residentAt := 5 }, _, _,
      rfl, rfl, rfl, rfl, by decide +kernel, rfl, rfl, rfl, by cases req <;> decide, by cases req <;> decide, by cases req <;> decide, by cases req <;> decide⟩⟩

/-- ManagementCommands: a region that is freed under a line of a bundle that is open and of one that has committed. -/
theorem witness_ManagementCommands_3 : ∀ stage ∈ [BundleStage.open_, .committed], ∃ (s : State) (y : Region) (w : Bundle), Free s ∧
    tget s.regions (s.regionKey 0) = some y ∧ y.place ≠ 8 ∧ keysRise (s.bundles.map (·.1)) = true ∧ tget s.bundles 7 = some w ∧ w.stage = stage ∧
    ∃ l ∈ w.lines, s.slotAddr 0 0 / 128 ≤ l.line ∧ l.line < s.slotAddr 0 0 / 128 + 2 ^ 23 ∧ l.flipped = false := by
  intro stage hs
  refine ⟨managed (placeBundle thread0 (bundle0 stage (some 3) [⟨0x600, [], false⟩])), ⟨.part 0, 0, 0⟩, bundle0 stage (some 3) [⟨0x600, [], false⟩], ⟨rfl, rfl, rfl⟩,
    ?_, by decide, rfl, rfl, rfl, ⟨0x600, [], false⟩, .head _, ?_, ?_, rfl⟩
  all_goals revert stage; decide +kernel

/-- EveryStepGoesOn: a thread that runs, and an event. -/
theorem witness_EveryStepGoesOn : (∃ s : State, s.running.isSome = true) ∧ encode (.save 0) = none := ⟨⟨place thread0, by decide⟩, by decide⟩

/-- StepRunsDecoded: the word of an add at pc, and one of R85, for the running thread of a machine with no event to come. -/
theorem witness_StepRunsDecoded :
    (∃ (s : State) (t : Thread) (pa place : Nat) (w : IWord) (i : Instr), s.phase = .up ∧ s.agenda = [] ∧ s.turn = .scalar ∧ s.th s.cur = some t ∧
      t.res = .resident ∧ t.wait = none ∧ s.checkAccess t .S .fetch t.pc.toNat 4 = .ok (.dram pa place) ∧ pa % 4 = 0 ∧ Quiet s (pa / 128) ∧
      s.physBytes pa 4 = wordBytes w ∧ decode w = some i) ∧
    (∃ (s : State) (t : Thread) (pa place : Nat) (w : IWord), s.phase = .up ∧ s.agenda = [] ∧ s.turn = .scalar ∧ s.th s.cur = some t ∧
      t.res = .resident ∧ t.wait = none ∧ s.checkAccess t .S .fetch t.pc.toNat 4 = .ok (.dram pa place) ∧ pa % 4 = 0 ∧ Quiet s (pa / 128) ∧
      s.physBytes pa 4 = wordBytes w ∧ decode w = none ∧ Ready s s.cur t ∧ t.queue = [] ∧
      Trappable ((({ s with turn := .vector } : State).cachePage t t.pc.toNat).recall (some t.core) (pa / 128)) t) := by
  refine ⟨⟨placeBytes thread0 0x10000 (wordBytes 0b0000000000_01001_01000_00111_0000001#32), thread0, 0x10000, 0, 0b0000000000_01001_01000_00111_0000001#32, .add 7 8 9, rfl, rfl, rfl, rfl, rfl, rfl,
      dramAt (by decide +kernel), by decide, ⟨rfl, rfl, rfl, rfl, rfl, rfl⟩, by decide +kernel, by decide⟩,
    ⟨placeBytes thread0 0x10000 (wordBytes 0xFFFFFFFF#32), thread0, 0x10000, 0, 0xFFFFFFFF#32, rfl, rfl, rfl, rfl, rfl, rfl,
      dramAt (by decide +kernel), by decide, ⟨rfl, rfl, rfl, rfl, rfl, rfl⟩, by decide +kernel, by decide, ready_of rfl rfl (by decide), rfl, rfl, by decide,
      isOk (by decide +kernel)⟩⟩

/-- DecodeOfEncode: a well-formed instruction with a word, and the word that decodes to it. -/
theorem witness_DecodeOfEncode : ∃ i w, i.wf = true ∧ encode i = some w ∧ decode w = some i :=
  ⟨.lmark 2 3 5 7 2, 0b010_000111_000101_00011_00010_0111110#32, by decide⟩

/-- StepsKeepStoresSound: the stores of the reset state are sound, and its step, bring-up, answers a next state. -/
theorem witness_StepsKeepStoresSound : ∃ s s', State.storesOk s = true ∧ step s = .next s' :=
  ⟨State.reset, _, by decide, rfl⟩

/-- Register n of thread 0 after instruction i, where the loaded thread holds x in s5 and y in s6. -/
def after (i : Instr) (x y : Word) (n : BitVec 5) : Option Word :=
  match exec i (place { thread0 with regs := setAt 0 (setAt 0 thread0.regs 5 x) 6 y }) with
  | .next s => (s.th 0).map (·.reg n)
  | _ => none

/-- R107, R110 and R112: a wrap, a destination that is also a source, s0, a shift count beyond 63, the high half of a signed product, a
negative immediate. -/
theorem test_scalar_corners : ∀ x ∈ ([(.add 7 5 6, 0xFFFFFFFFFFFFFFFF, 2, 7, 1), (.sub 5 5 6, 1, 2, 5, 0xFFFFFFFFFFFFFFFF), (.add 0 5 6, 3, 4, 0, 0),
    (.sra 7 5 6, 0x8000000000000000, 67, 7, 0xF000000000000000), (.mulh 7 5 6, 0xFFFFFFFFFFFFFFFF, 2, 7, 0xFFFFFFFFFFFFFFFF),
    (.addi 7 5 0x7FFF, 0, 0, 7, 0xFFFFFFFFFFFFFFFF)] : List (Instr × Word × Word × BitVec 5 × Word)),
    after x.1 x.2.1 x.2.2.1 x.2.2.2.1 = some x.2.2.2.2 := by decide +kernel

/-- R47: the borderline cases of division, as its table has them. -/
theorem test_division_corners : ∀ x ∈ ([(.div 7 5 6, 9, 0, 7, 0xFFFFFFFFFFFFFFFF), (.rem 7 5 6, 9, 0, 7, 9), (.divn 7 5 6, 9, 0, 7, 0xFFFFFFFFFFFFFFFF),
    (.remn 7 5 6, 9, 0, 7, 9), (.div 7 5 6, 0x8000000000000000, 0xFFFFFFFFFFFFFFFF, 7, 0x8000000000000000),
    (.rem 7 5 6, 0x8000000000000000, 0xFFFFFFFFFFFFFFFF, 7, 0), (.rem 7 5 6, 0xFFFFFFFFFFFFFFF9, 2, 7, 0xFFFFFFFFFFFFFFFF)] :
    List (Instr × Word × Word × BitVec 5 × Word)),
    after x.1 x.2.1 x.2.2.1 x.2.2.2.1 = some x.2.2.2.2 := by decide +kernel

theorem test_decode_scalar_1 : ∀ p ∈ ([
    (0b0000000000_11011_10011_01010_0000001#32, .add 10 19 27),
    (0b0000000001_11011_10011_01010_0000001#32, .sub 10 19 27),
    (0b0000000010_11011_10011_01010_0000001#32, .and 10 19 27),
    (0b0000000011_11011_10011_01010_0000001#32, .or 10 19 27),
    (0b0000000100_11011_10011_01010_0000001#32, .xor 10 19 27),
    (0b0000000101_11011_10011_01010_0000001#32, .sll 10 19 27),
    (0b0000000110_11011_10011_01010_0000001#32, .srl 10 19 27),
    (0b0000000111_11011_10011_01010_0000001#32, .sra 10 19 27),
    (0b0000001000_11011_10011_01010_0000001#32, .slt 10 19 27),
    (0b0000001001_11011_10011_01010_0000001#32, .sltn 10 19 27),
    (0b0000001010_11011_10011_01010_0000001#32, .min 10 19 27),
    (0b0000001011_11011_10011_01010_0000001#32, .max 10 19 27),
    (0b0000001100_11011_10011_01010_0000001#32, .minn 10 19 27),
    (0b0000001101_11011_10011_01010_0000001#32, .maxn 10 19 27),
    (0b0000001110_11011_10011_01010_0000001#32, .sel 10 19 27),
    (0b0000010000_11011_10011_01010_0000001#32, .mul 10 19 27),
    (0b0000010001_11011_10011_01010_0000001#32, .mulh 10 19 27),
    (0b0000010010_11011_10011_01010_0000001#32, .mulhn 10 19 27),
    (0b0000010100_11011_10011_01010_0000001#32, .div 10 19 27),
    (0b0000010101_11011_10011_01010_0000001#32, .divn 10 19 27),
    (0b0000010110_11011_10011_01010_0000001#32, .rem 10 19 27),
    (0b0000010111_11011_10011_01010_0000001#32, .remn 10 19 27),
    (0b000010000000000_11011_10011_0000001#32, .clz 19 27),
    (0b000010000100000_11011_10011_0000001#32, .ctz 19 27),
    (0b000010001000000_11011_10011_0000001#32, .popc 19 27)] : List (IWord × Instr)),
    decode p.1 = some p.2 := by decide +kernel

theorem test_decode_scalar_2 : ∀ p ∈ ([
    (0b101101010011011_10011_01010_0000010#32, .addi 10 19 23195),
    (0b101101010011011_10011_01010_0000011#32, .andi 10 19 23195),
    (0b101101010011011_10011_01010_0000100#32, .ori 10 19 23195),
    (0b101101010011011_10011_01010_0000101#32, .xori 10 19 23195),
    (0b101101010011011_10011_01010_0000110#32, .slti 10 19 23195),
    (0b000000000_011011_10011_01010_0000111#32, .slli 10 19 27),
    (0b000000001_011011_10011_01010_0000111#32, .srli 10 19 27),
    (0b000000010_011011_10011_01010_0000111#32, .srai 10 19 27),
    (0b000_001001_000101_01010_01101_0001000#32, .bfx 13 10 5 9),
    (0b000_001011_000111_01010_01101_0001001#32, .bfi 13 10 7 11),
    (0b00110101101010011011_10011_0001010#32, .lui 19 219803),
    (0b00110101101010011011_10011_0001011#32, .addpc 19 219803)] : List (IWord × Instr)),
    decode p.1 = some p.2 := by decide +kernel

theorem test_decode_memory_and_control_1 : ∀ p ∈ ([
    (0b000_101010011011_10011_01010_0010000#32, .ldb 10 19 2715),
    (0b001_101010011011_10011_01010_0010000#32, .ldh 10 19 2715),
    (0b010_101010011011_10011_01010_0010000#32, .ldw 10 19 2715),
    (0b011_101010011011_10011_01010_0010000#32, .ldd 10 19 2715),
    (0b100_101010011011_10011_01010_0010000#32, .ldbz 10 19 2715),
    (0b101_101010011011_10011_01010_0010000#32, .ldhz 10 19 2715),
    (0b110_101010011011_10011_01010_0010000#32, .ldwz 10 19 2715),
    (0b000_101010011011_10011_01010_0010001#32, .stb 10 19 2715),
    (0b001_101010011011_10011_01010_0010001#32, .sth 10 19 2715),
    (0b010_101010011011_10011_01010_0010001#32, .stw 10 19 2715),
    (0b011_101010011011_10011_01010_0010001#32, .std 10 19 2715),
    (0b1_011_1_1_0000_01101_10101_00110_0010010#32, .amoadd 6 21 13 true 3 true),
    (0b1_011_1_1_0001_01101_10101_00110_0010010#32, .amoand 6 21 13 true 3 true),
    (0b1_011_1_1_0010_01101_10101_00110_0010010#32, .amoor 6 21 13 true 3 true),
    (0b1_011_1_1_0011_01101_10101_00110_0010010#32, .amoxor 6 21 13 true 3 true),
    (0b1_011_1_1_0100_01101_10101_00110_0010010#32, .amomin 6 21 13 true 3 true),
    (0b1_011_1_1_0101_01101_10101_00110_0010010#32, .amomax 6 21 13 true 3 true),
    (0b1_011_1_1_0110_01101_10101_00110_0010010#32, .amominn 6 21 13 true 3 true),
    (0b1_011_1_1_0111_01101_10101_00110_0010010#32, .amomaxn 6 21 13 true 3 true),
    (0b1_011_1_1_1000_01101_10101_00110_0010010#32, .amoswp 6 21 13 true 3 true),
    (0b1_011_1_1_1001_01101_10101_00110_0010010#32, .amocas 6 21 13 true 3 true),
    (0b101101010011011_10011_01010_0011000#32, .beq 10 19 23195),
    (0b101101010011011_10011_01010_0011001#32, .bne 10 19 23195),
    (0b101101010011011_10011_01010_0011010#32, .blt 10 19 23195),
    (0b101101010011011_10011_01010_0011011#32, .bge 10 19 23195)] : List (IWord × Instr)),
    decode p.1 = some p.2 := by decide +kernel

theorem test_decode_memory_and_control_2 : ∀ p ∈ ([
    (0b101101010011011_10011_01010_0011100#32, .bltn 10 19 23195),
    (0b101101010011011_10011_01010_0011101#32, .bgen 10 19 23195),
    (0b00110101101010011011_10011_0011110#32, .jal 19 219803),
    (0b101101010011011_10011_01010_0011111#32, .jalr 10 19 23195),
    (0b00000000000000000_011_10011_0100000#32, .qpop 19 3),
    (0b00000000010000000_011_10011_0100000#32, .qcnt 19 3),
    (0b0000_101_000000000000000000_0100001#32, .fenceAcq 5),
    (0b0000_101_001000000000000000_0100001#32, .fenceRel 5),
    (0b0000_101_010000000000000000_0100001#32, .fenceFull 5),
    (0b0000000011000000000000000_0100001#32, .fenceSv),
    (0b0000_101_100000000000000000_0100001#32, .fenceAlias 5),
    (0b000000000000_011_10011_00000_0100010#32, .bar 19 3),
    (0b0000000000000000000000000_0100011#32, .exit),
    (0b00110101101010011011_00001_0100011#32, .syscall 219803),
    (0b0000000000000000000000010_0100011#32, .sret),
    (0b00110101101010011011_00011_0100011#32, .brk 219803),
    (0b000000000000000_11011_000_11_0100100#32, .launch 3 27),
    (0b000_000000010110_00000_10011_0100101#32, .sysrd 19 22),
    (0b001_000001000010_10011_00000_0100101#32, .syswr 19 66),
    (0b000_101010011011_10011_00_011_0100110#32, .pfh 3 19 2715)] : List (IWord × Instr)),
    decode p.1 = some p.2 := by decide +kernel

theorem test_decode_strips_and_vector_memory : ∀ p ∈ ([
    (0b000000000000000_11011_10011_0101000#32, .setvl 19 27),
    (0b000000000100000_11011_10011_0101000#32, .setcfg 19 27),
    (0b101101010011011_00000_10011_0101001#32, .setvli 19 23195),
    (0b00000_011_000000_10011_101010_0101010#32, .vld 42 19 3),
    (0b00001_011_0_10011_01010_101101_0101010#32, .vlds 45 10 19 3),
    (0b00010_011_010011_01010_101101_0101010#32, .vldx 45 10 19 3),
    (0b00011_011_010011_01010_101101_0101010#32, .vldxo 45 10 19 3),
    (0b00100_011_000_011_01010_101101_0101010#32, .vldff 45 10 3 3),
    (0b00101000000000_11011_010011_0101010#32, .vldw 19 27),
    (0b00000_011_000000_10011_101010_0101011#32, .vst 42 19 3),
    (0b00001_011_0_10011_01010_101101_0101011#32, .vsts 45 10 19 3),
    (0b00010_011_010011_01010_101101_0101011#32, .vstx 45 10 19 3),
    (0b00011_011_010011_01010_101101_0101011#32, .vstxo 45 10 19 3),
    (0b00101000000000_11011_010011_0101011#32, .vstw 19 27),
    (0b00000_011_010011_01010_101101_0101100#32, .vamoAdd 45 10 19 3),
    (0b00001_011_010011_01010_101101_0101100#32, .vamoAnd 45 10 19 3),
    (0b00010_011_010011_01010_101101_0101100#32, .vamoOr 45 10 19 3),
    (0b00011_011_010011_01010_101101_0101100#32, .vamoXor 45 10 19 3),
    (0b00100_011_010011_01010_101101_0101100#32, .vamoMin 45 10 19 3),
    (0b00101_011_010011_01010_101101_0101100#32, .vamoMax 45 10 19 3),
    (0b00110_011_010011_01010_101101_0101100#32, .vamoMinn 45 10 19 3),
    (0b00111_011_010011_01010_101101_0101100#32, .vamoMaxn 45 10 19 3),
    (0b01000_011_010011_01010_101101_0101100#32, .vamoSwp 45 10 19 3)] : List (IWord × Instr)),
    decode p.1 = some p.2 := by decide +kernel

theorem test_decode_masks_and_reductions_1 : ∀ p ∈ ([
    (0b0000000000_011_000_011_000_010_0110000#32, .kand 2 3 3),
    (0b0001000000_011_000_011_000_010_0110000#32, .kor 2 3 3),
    (0b0010000000_011_000_011_000_010_0110000#32, .kxor 2 3 3),
    (0b0011000000_011_000_011_000_010_0110000#32, .kandn 2 3 3),
    (0b0100000000000000_011_000_011_0110000#32, .knot 3 3),
    (0b0101000000000000_011_000_011_0110000#32, .kmv 3 3),
    (0b0000_011_000000000_101_000_010_0110001#32, .ksbf 2 5 3),
    (0b0001_011_000000000_101_000_010_0110001#32, .ksif 2 5 3),
    (0b0010_011_000000000_101_000_010_0110001#32, .ksof 2 5 3),
    (0b0011_011_000000000_011_0000_10_0110001#32, .kpop 2 3 3),
    (0b0100_011_000000000_011_0000_10_0110001#32, .kfirst 2 3 3),
    (0b00000000000000_11011_000_011_0110010#32, .kld 3 27),
    (0b00001000000000_11011_000_011_0110010#32, .kst 3 27),
    (0b00000_011_010011_0_1_101_110101_0110011#32, .vredsum 53 5 true 19 3),
    (0b00001_011_010011_0_1_101_110101_0110011#32, .vfredsum 53 5 true 19 3),
    (0b00010_011_010011_0_1_101_110101_0110011#32, .vredmin 53 5 true 19 3),
    (0b00011_011_010011_0_1_101_110101_0110011#32, .vredmax 53 5 true 19 3),
    (0b00100_011_010011_0_1_101_110101_0110011#32, .vfredmin 53 5 true 19 3),
    (0b00101_011_010011_0_1_101_110101_0110011#32, .vfredmax 53 5 true 19 3),
    (0b00110_011_010011_0_1_101_110101_0110011#32, .vargmax 53 5 true 19 3),
    (0b00111_011_010011_0_1_101_110101_0110011#32, .vargmin 53 5 true 19 3),
    (0b01000_011_010011_00_010_101101_0110011#32, .vgsum 45 2 19 3),
    (0b01001_011_010011_00_010_101101_0110011#32, .vfgsum 45 2 19 3),
    (0b01010_011_010011_0_1_101_110101_0110011#32, .vscan 53 5 true 19 3),
    (0b01011_011_010011_0_1_101_110101_0110011#32, .vfscan 53 5 true 19 3)] : List (IWord × Instr)),
    decode p.1 = some p.2 := by decide +kernel

theorem test_decode_masks_and_reductions_2 : ∀ p ∈ ([
    (0b01100_011_010011_00000_101010_0110011#32, .vcomp 42 19 3),
    (0b01101_011_010011_00000_101010_0110011#32, .vexpand 42 19 3),
    (0b00000_011_010011_01010_101101_0110100#32, .vslup 45 10 19 3),
    (0b00001_011_010011_01010_101101_0110100#32, .vsldn 45 10 19 3),
    (0b00010_011_010011_01010_101101_0110100#32, .vsl1up 45 10 19 3),
    (0b00011_011_010011_01010_101101_0110100#32, .vsl1dn 45 10 19 3),
    (0b0000_011_010011_101010_101101_0110101#32, .vgath 45 42 19 3),
    (0b00000000_011011_10011_101010_0110110#32, .vbsll 42 19 27),
    (0b00001000_011011_10011_101010_0110110#32, .vbsrl 42 19 27),
    (0b00010000_011011_10011_101010_0110110#32, .vbfsh 42 19 27),
    (0b0000000000000000000000000_0110111#32, .vxbeg),
    (0b1_011_011_101010_101101_011_000_0110111#32, .vexit 3 45 42 3 3)] : List (IWord × Instr)),
    decode p.1 = some p.2 := by decide +kernel

theorem test_decode_matrix_and_services_1 : ∀ p ∈ ([
    (0b00000000_011_010011_101010_01_0111000#32, .vopa 1 42 19 3),
    (0b00000001_011_010011_101010_01_0111000#32, .vops 1 42 19 3),
    (0b00000010000000000000000_11_0111000#32, .zclr 3),
    (0b000000110000_11011_0_10011_10_0111000#32, .zld 2 19 27),
    (0b000001000000_11011_0_10011_10_0111000#32, .zst 2 19 27),
    (0b00000101_011_0_10011_101010_01_0111000#32, .zrdv 1 42 19 3),
    (0b00000110_011_0_10011_101010_01_0111000#32, .zwrv 1 42 19 3),
    (0b0_011_011_000000_101010_101101_0111001#32, .vhad 45 42 3 3),
    (0b1_011_011_000000_101010_000000_0111001#32, .vhadC 42 3 3),
    (0b0_011_101_010011_101010_101101_0111010#32, .vcvtq 45 42 19 (3, 5)),
    (0b1_011_101_010011_000000_101010_0111010#32, .vcvtqC 42 19 (3, 5)),
    (0b00000_011_0_10011_01010_101101_0111011#32, .vrand 45 10 19 3),
    (0b00010_011_010011_00000_101010_0111011#32, .vsend 42 19 3),
    (0b001_11_011_101010_01101_110101_0111011#32, .vwait 53 13 42 3 3),
    (0b01000_011_0_10011_01010_101101_0111011#32, .vchorSum 45 10 19 3),
    (0b01001_011_0_10011_01010_101101_0111011#32, .vchorMin 45 10 19 3),
    (0b01010_011_0_10011_01010_101101_0111011#32, .vchorMax 45 10 19 3),
    (0b01011_011_0_10011_01010_101101_0111011#32, .vchorArgmax 45 10 19 3),
    (0b01100_011_0_10011_01010_101101_0111011#32, .vchorArgmin 45 10 19 3),
    (0b01101_011_0_10011_01010_101101_0111011#32, .vchorAnd 45 10 19 3),
    (0b01110_011_0_10011_01010_101101_0111011#32, .vchorOr 45 10 19 3),
    (0b01111_011_0_10011_01010_101101_0111011#32, .vchorXor 45 10 19 3),
    (0b0000000000_11011_10011_01010_0111100#32, .vclaim 10 19 27),
    (0b000000000100000_11011_10011_0111100#32, .rclaim 19 27),
    (0b000000001000000_11011_10011_0111100#32, .rfree 19 27)] : List (IWord × Instr)),
    decode p.1 = some p.2 := by decide +kernel

theorem test_decode_matrix_and_services_2 : ∀ p ∈ ([
    (0b0000010_100_10011_01010_01101_0111100#32, .cpdim 13 10 19 4),
    (0b0000100_101_10011_01010_00000_0111100#32, .cpgo 10 19 5),
    (0b00001100000000000000000_11_0111100#32, .cpstat 3),
    (0b0000_0101101010011011_00000_0111101#32, .bopen 23195),
    (0b000000000000000000_11_00001_0111101#32, .bseal 3),
    (0b0000000000000000000000010_0111101#32, .babort),
    (0b000000000000000000_01_00011_0111101#32, .pwlease 1),
    (0b000000000000000000_10_00100_0111101#32, .pwdrop 2),
    (0b0000000000000000000000101_0111101#32, .lend),
    (0b010_001001_000101_00100_00011_0111110#32, .lmark 3 4 5 9 2),
    (0b000000000000000_11011_000_11_0111111#32, .oshape 3 27),
    (0b000000000100000_11011_00000_0111111#32, .oseal 27),
    (0b0000000010_11011_10011_000_10_0111111#32, .ounseal 2 19 27),
    (0b000000001100000_11011_00000_0111111#32, .orel 27)] : List (IWord × Instr)),
    decode p.1 = some p.2 := by decide +kernel

theorem test_decode_moves : ∀ p ∈ ([
    (0b0000_011_000000_010011_101010_1000000#32, .vmv 42 19 3),
    (0b1000_011_0_10011_000000_101010_1000001#32, .vbcast 42 19 3),
    (0b10000000_11011_010011_0000_10_1000010#32, .vext 2 19 27),
    (0b10000000_11011_0_10011_101010_1000011#32, .vins 42 19 27),
    (0b0000_011_000000000000_010011_1000100#32, .vid 19 3),
    (0b0000_011_000000000_011_101010_1000101#32, .viota 42 3 3),
    (0b0000000000000000000_011011_1000110#32, .vrelease 27),
    (0b0000_011_010011_101010_101101_1000111#32, .vsel 45 42 19 3)] : List (IWord × Instr)),
    decode p.1 = some p.2 := by decide +kernel

theorem test_decode_integer : ∀ p ∈ ([
    (0b1_011_010_001101_110101_100110_1001000#32, .vadd 38 53 13 2 3 true),
    (0b1_011_010_001101_110101_100110_1001001#32, .vsub 38 53 13 2 3 true),
    (0b1_011_010_001101_110101_100110_1001010#32, .vmul 38 53 13 2 3 true),
    (0b1_011_010_001101_110101_100110_1001011#32, .vmulh 38 53 13 2 3 true),
    (0b1_011_010_001101_110101_100110_1001100#32, .vdiv 38 53 13 2 3 true),
    (0b1_011_010_001101_110101_100110_1001101#32, .vrem 38 53 13 2 3 true),
    (0b1_011_010_001101_110101_100110_1001110#32, .vmin 38 53 13 2 3 true),
    (0b1_011_010_001101_110101_100110_1001111#32, .vmax 38 53 13 2 3 true),
    (0b1_011_010_001101_110101_100110_1010000#32, .vand 38 53 13 2 3 true),
    (0b1_011_010_001101_110101_100110_1010001#32, .vor 38 53 13 2 3 true),
    (0b1_011_010_001101_110101_100110_1010010#32, .vxor 38 53 13 2 3 true),
    (0b1_011_010_001101_110101_100110_1010011#32, .vsll 38 53 13 2 3 true),
    (0b1_011_010_001101_110101_100110_1010100#32, .vsrl 38 53 13 2 3 true),
    (0b1_011_010_001101_110101_100110_1010101#32, .vsra 38 53 13 2 3 true),
    (0b1_011_010_001101_110101_100110_1010110#32, .vsadd 38 53 13 2 3 true),
    (0b1_011_010_001101_110101_100110_1010111#32, .vssub 38 53 13 2 3 true),
    (0b1_011_010_001101_110101_100110_1011000#32, .vabsd 38 53 13 2 3 true),
    (0b1_011_010_001101_110101_100_100_1011001#32, .vcmp 4 4 53 13 2 3 true),
    (0b0_011_011_000000_101010_101101_1011010#32, .vcvt 45 42 3 3)] : List (IWord × Instr)),
    decode p.1 = some p.2 := by decide +kernel

theorem test_decode_float : ∀ p ∈ ([
    (0b1_011_010_001101_110101_100110_1100000#32, .vfadd 38 53 13 2 3 true),
    (0b1_011_010_001101_110101_100110_1100001#32, .vfsub 38 53 13 2 3 true),
    (0b1_011_010_001101_110101_100110_1100010#32, .vfmul 38 53 13 2 3 true),
    (0b1_011_010_001101_110101_100110_1100011#32, .vfma 38 53 13 2 3 true),
    (0b1_011_010_001101_110101_100110_1100100#32, .vfnma 38 53 13 2 3 true),
    (0b1_011_010_001101_110101_100110_1100101#32, .vfms 38 53 13 2 3 true),
    (0b1_011_010_001101_110101_100110_1100110#32, .vfdiv 38 53 13 2 3 true),
    (0b0_011_011_000000_101010_101101_1100111#32, .vfsqrt 45 42 3 3),
    (0b0_011_011_000000_101010_101101_1101000#32, .vfrsqrt 45 42 3 3),
    (0b0_011_011_000000_101010_101101_1101001#32, .vfexp2 45 42 3 3),
    (0b0_011_011_000000_101010_101101_1101010#32, .vflog2 45 42 3 3),
    (0b0_011_011_000000_101010_101101_1101011#32, .vfexp 45 42 3 3),
    (0b1_011_010_001101_110101_100110_1101100#32, .vfmin 38 53 13 2 3 true),
    (0b1_011_010_001101_110101_100110_1101101#32, .vfmax 38 53 13 2 3 true),
    (0b0_011_011_101010_101101_110101_1101110#32, .vfsgn 53 45 42 3 3),
    (0b0_011_011_000000_101010_101101_1101111#32, .vfcls 45 42 3 3),
    (0b1_011_010_001101_110101_110_100_1110000#32, .vfcmp 4 6 53 13 2 3 true)] : List (IWord × Instr)),
    decode p.1 = some p.2 := by decide +kernel

theorem test_decode_prefix_and_pairs : ∀ p ∈ ([
    (0b000000_1100_1001_100101_1_101_1_1111100#32, .pfx true 5 true 37 9 12),
    (0b001001000101_000100100011_0_1111101#32, .cp 291 581),
    (0b00000000000000_11011_010011_1111110#32, .vbind 19 27),
    (0b0000100000000000000_011011_1111110#32, .vunbind 27)] : List (IWord × Instr)),
    decode p.1 = some p.2 := by decide +kernel

end Sys2Proof.Tests
end

section
/-!
Words of the scalar engine that a ready thread executes: a write of a register, a branch, a jump (R103, R104, R118).
-/
namespace Sys2Proof.Machine

/-- A word of the scalar engine that a handler may run and that needs no service mode (R84, R85, R329). -/
def PlainScalar (i : Instr) : Prop := engOf i = some .S ∧ opensStrip i = false ∧ i.serviceOnly = false

/-- No check of R85, R177, R219 or R329 stands against a plain scalar word, whatever the thread. -/
theorem PlainScalar.allowed {i : Instr} (p : PlainScalar i) (t : Thread) : Allowed t i := by
  obtain ⟨heng, hopens, hsvc⟩ := p
  refine ⟨fun ⟨_, hq⟩ => ?_, fun h => absurd h (by simp [hsvc]), ?_⟩
  · simp [queued, heng, hopens] at hq
  · split
    · cases heng
    · cases heng
    · trivial

/-- A write of a scalar register changes the register file alone. -/
theorem setReg_eq (t : Thread) (d : BitVec 5) (x : Word) : t.setReg d x = { t with regs := (t.setReg d x).regs } := by
  unfold Thread.setReg
  split <;> rfl

/-- Where nothing stands before a word, writing its own thread back leaves that so. -/
theorem Ready.setTh {s : State} {h : Nat} {t : Thread} (r : Ready s h t) : Ready (s.setTh h t) h t :=
  { r with cur := r.cur, th := th_setTh_same s h t }

/-- The pc of a thread that is ready but for its registers moves, with nothing else to do after the word. -/
theorem retireS_setReg {s : State} {h : Nat} {t : Thread} (r : Ready s h t) (i : Instr) (b : BodyRec) (next : Word) (d : BitVec 5)
    (x : Word) : (s.setTh h (t.setReg d x)).retireS h i b next = s.setTh h ((t.setReg d x).setPc next) := by
  refine retireS_quiet i b next ?_ ?_ ?_ <;> rw [setReg_eq]
  · exact r.pend
  · exact r.closed
  · exact r.region

theorem retireS_ready {s : State} {h : Nat} {t : Thread} (r : Ready s h t) (i : Instr) (b : BodyRec) (next : Word) :
    (s.setTh h t).retireS h i b next = s.setTh h (t.setPc next) := retireS_quiet i b next r.pend r.closed r.region

/-- A plain scalar word that only writes its destination does so with a value of which P holds (R104, R103). -/
theorem writesSome_of_writeStep {i : Instr} {d : BitVec 5} {f : Thread → Word} {P : Thread → Word → Prop} (p : PlainScalar i)
    (hexec : ∀ s, exec i s = writeStep i d f s) (hP : ∀ t, P t (f t)) : WritesSome i d P := by
  intro s h t r
  refine ⟨(t.setReg d (f t)).setPc (t.pc + 4), f t, ?_, hP t, ?_, fun n => reg_setReg t d (f t) n⟩
  · rw [hexec, writeStep_ready r (p.allowed t)]
  · rw [setReg_eq]; rfl

/-- As writesSome_of_writeStep, where the value is known. -/
theorem writes_of_writeStep {i : Instr} {d : BitVec 5} {f : Thread → Word} (p : PlainScalar i)
    (hexec : ∀ s, exec i s = writeStep i d f s) : Writes i d f :=
  writesSome_of_writeStep p hexec fun _ => rfl

/-- A plain scalar word whose body continues at pc f of the thread, changing nothing else, moves there (R104, R118). -/
theorem moves_of_scalarStep {i : Instr} {body : State → Nat → Thread → SRes} {f : Thread → Word} (p : PlainScalar i)
    (hexec : ∀ s, exec i s = scalarStep i body s)
    (hbody : ∀ s h t, t.loop.stage = .none →
      body s h t = .jump s (f t) ∨ body s h t = .done s ∧ f t = t.pc + 4) : Moves i f := by
  intro s h t r
  rw [hexec, scalarStep_ready r (p.allowed t)]
  rcases hbody (s.setTh h t) h t r.stage with hj | ⟨hd, hf⟩
  · rw [hj]; exact congrArg _ (retireS_ready r i _ _)
  · rw [hd, hf]; exact congrArg _ (retireS_ready r i _ _)

/-- Where a conditional branch continues (R118). -/
def branchTarget (o : BitVec 15) (t : Thread) (c : Bool) : Word := if c then t.pc + BitVec.ofInt 64 (4 * o.toInt) else t.pc + 4

/-- A conditional branch goes to its target where its condition holds of its two registers, else to the next word (R118). -/
theorem moves_of_branch {i : Instr} {c : Word → Word → Bool} {a b : BitVec 5} {o : BitVec 15} {v : Thread → Bool} (p : PlainScalar i)
    (hexec : ∀ s, exec i s = scalarStep i (branchBody i c a b o) s) (hv : ∀ t, c (t.reg a) (t.reg b) = v t) :
    Moves i fun t => branchTarget o t (v t) := by
  refine moves_of_scalarStep p hexec fun s h t hstage => ?_
  have hback : t.coreBack i = false := by simp [Thread.coreBack, hstage]
  rw [branchBody, hback, Bool.false_or, hv t, wordI, Int.mul_comm]
  cases v t
  · exact .inr ⟨rfl, rfl⟩
  · exact .inl rfl

/-- jal writes its link and goes to its target (R119). -/
theorem jal_ready (d : BitVec 5) (o : BitVec 20) {s : State} {h : Nat} {t : Thread} (r : Ready s h t) :
    exec (.jal d o) s = .next (s.setTh h ((t.setReg d (t.pc + 4)).setPc (t.pc + BitVec.ofInt 64 (4 * o.toInt)))) := by
  have hexec : exec (.jal d o) s = scalarStep (.jal d o)
      (fun s h t => .jump (s.setTh h (t.setReg d (t.pc + 4))) (t.pc + wordI (o.toInt * 4))) s := rfl
  rw [hexec, scalarStep_ready r (PlainScalar.allowed ⟨rfl, rfl, rfl⟩ t), setTh_setTh, wordI, Int.mul_comm]
  exact congrArg _ (retireS_setReg r _ _ _ d _)

end Sys2Proof.Machine
end

section
/-!
The bits of the values that the immediate forms write (R110-R112), and the immediate forms.
-/
namespace Sys2Proof.Machine

/-- slti's comparison with its sign-extended immediate is one of integers (R110). -/
theorem slt_signExtend (x : Word) (i : BitVec 15) : bitW (x.slt (i.signExtend 64)) = oneIf (x.toInt < i.toInt) := by
  have hi : (i.signExtend 64).toInt = i.toInt := BitVec.toInt_signExtend_of_le (by decide)
  simp [bitW, oneIf, BitVec.slt_eq_decide, hi]

/-- Bit k of an n-bit field of a word (R5). -/
theorem getLsbD_fieldW (x : Word) (p n k : Nat) :
    (word (fieldW x p n)).getLsbD k = (decide (k < 64) && decide (k < n) && x.getLsbD (p + k)) := by
  rw [word, BitVec.getLsbD_ofNat, fieldW, bitsN, Nat.testBit_mod_two_pow, Nat.testBit_div_two_pow, Nat.add_comm k p,
    BitVec.testBit_toNat, Bool.and_assoc]

/-- A number with its n-bit field at p exchanged is what stood above the field, the new field and what stood below it. -/
theorem exchange_field (x z p n : Nat) :
    x - bitsN x p n * 2 ^ p + z * 2 ^ p = 2 ^ p * (2 ^ n * (x / 2 ^ p / 2 ^ n) + z) + x % 2 ^ p := by
  have low := Nat.mod_add_div x (2 ^ p)
  have mid := Nat.mod_add_div (x / 2 ^ p) (2 ^ n)
  unfold bitsN
  have whole : x = x % 2 ^ p + (x / 2 ^ p % 2 ^ n * 2 ^ p + 2 ^ p * (2 ^ n * (x / 2 ^ p / 2 ^ n))) := by
    calc x = x % 2 ^ p + 2 ^ p * (x / 2 ^ p % 2 ^ n + 2 ^ n * (x / 2 ^ p / 2 ^ n)) := by rw [mid, low]
      _ = _ := by ring
  have cut : x - x / 2 ^ p % 2 ^ n * 2 ^ p = x % 2 ^ p + 2 ^ p * (2 ^ n * (x / 2 ^ p / 2 ^ n)) := by omega
  rw [cut]; ring

/-- Bit k of a word in which an n-bit field at p was replaced (R111). -/
theorem getLsbD_putField (x y : Word) (p n k : Nat) (hk : k < 64) :
    (putField x y p n).getLsbD k = if p ≤ k ∧ k < p + n then y.getLsbD (k - p) else x.getLsbD k := by
  have hz : bitsN y.toNat 0 n < 2 ^ n := Nat.mod_lt _ (Nat.two_pow_pos n)
  rw [putField, word, exchange_field, BitVec.getLsbD_ofNat, Nat.testBit_two_pow_mul_add _ (Nat.mod_lt _ (Nat.two_pow_pos p)),
    Nat.testBit_two_pow_mul_add _ hz]
  simp only [hk, decide_true, Bool.true_and]
  by_cases hlow : k < p
  · rw [if_pos hlow, if_neg (by omega)]
    simp [Nat.testBit_mod_two_pow, hlow, BitVec.testBit_toNat]
  · rw [if_neg hlow]
    by_cases hmid : k - p < n
    · rw [if_pos hmid, if_pos (by omega)]
      simp [bitsN, Nat.testBit_mod_two_pow, hmid, BitVec.testBit_toNat]
    · rw [if_neg hmid, if_neg (by omega), Nat.testBit_div_two_pow, Nat.testBit_div_two_pow]
      have hback : k - p - n + n + p = k := by omega
      rw [hback, BitVec.testBit_toNat]

/-- u of R112: the immediate above twelve zeros, sign-extended. -/
theorem upper_eq_append (u : BitVec 20) : upper u = (u ++ (0 : BitVec 12)).signExtend 64 := by
  have h : BitVec.ofNat 32 (u.toNat * 4096) = u ++ (0 : BitVec 12) := by
    have hu := u.isLt
    have happ : (u ++ (0 : BitVec 12)).toNat = u.toNat * 4096 := by
      rw [BitVec.toNat_append]
      simp [Nat.shiftLeft_eq]
    apply BitVec.eq_of_toNat_eq
    rw [BitVec.toNat_ofNat]
    refine Eq.trans ?_ happ.symm
    omega
  rw [upper, h]

/-- Settles O3, each word by what writeStep does and by the bits of its value. -/
theorem immediateForms : Obligations.ImmediateForms := by
  unfold Obligations.ImmediateForms
  intro d a i n p l u
  refine ⟨writes_of_writeStep ⟨rfl, rfl, rfl⟩ fun _ => rfl, writes_of_writeStep ⟨rfl, rfl, rfl⟩ fun _ => rfl,
    writes_of_writeStep ⟨rfl, rfl, rfl⟩ fun _ => rfl, writes_of_writeStep ⟨rfl, rfl, rfl⟩ fun _ => rfl, ?slti,
    writes_of_writeStep ⟨rfl, rfl, rfl⟩ fun _ => rfl, writes_of_writeStep ⟨rfl, rfl, rfl⟩ fun _ => rfl,
    writes_of_writeStep ⟨rfl, rfl, rfl⟩ fun _ => rfl, ?bfx, fun _ => ?bfi, ?lui, ?addpc⟩
  case slti => exact writesSome_of_writeStep ⟨rfl, rfl, rfl⟩ (fun _ => rfl) fun t => slt_signExtend (t.reg a) i
  case bfx =>
    refine writesSome_of_writeStep ⟨rfl, rfl, rfl⟩ (fun _ => rfl) fun t k => ?_
    have hl : k ≤ l.toNat → k < 64 := fun h => Nat.lt_of_le_of_lt h l.isLt
    rw [getLsbD_fieldW]
    by_cases hk : k ≤ l.toNat
    · simp [hk, hl hk, Nat.lt_succ_of_le hk]
    · simp [hk, Nat.lt_succ_iff]
  case bfi =>
    refine writesSome_of_writeStep ⟨rfl, rfl, rfl⟩ (fun _ => rfl) fun t k hk => ?_
    rw [getLsbD_putField _ _ _ _ _ hk, ← Nat.add_assoc]
    simp only [Nat.lt_succ_iff]
  case lui => exact writesSome_of_writeStep ⟨rfl, rfl, rfl⟩ (fun _ => rfl) fun _ => upper_eq_append u
  case addpc => exact writesSome_of_writeStep ⟨rfl, rfl, rfl⟩ (fun _ => rfl) fun t => congrArg (t.pc + ·) (upper_eq_append u)

end Sys2Proof.Machine
end

section
/-!
A trap of the scalar stream (R106, R325): what placing the image leaves unchanged, and what becomes of the thread.
-/
namespace Sys2Proof.Machine

/-- A table whose values are changed, its keys kept. -/
theorem tget_map {α : Type} (g : Nat × α → Nat × α) (hg : ∀ x, (g x).1 = x.1) (k : Nat) :
    ∀ l : List (Nat × α), tget (l.map g) k = (tget l k).map fun v => (g (k, v)).2
  | [] => rfl
  | (j, v) :: r => by
    have hj : (g (j, v)).1 = j := hg _
    simp only [List.map_cons, tget, hj]
    split
    · next h => subst h; rfl
    · exact tget_map g hg k r

/-- The threads, the host's memory and the banks of s' are those of s. -/
def StandsAside (s s' : State) : Prop :=
  s'.threads = s.threads ∧ s'.hostMem = s.hostMem ∧ ∀ c, (s'.coreAt c).banks = (s.coreAt c).banks

theorem StandsAside.refl (s : State) : StandsAside s s := ⟨rfl, rfl, fun _ => rfl⟩

theorem StandsAside.trans {a b c : State} (x : StandsAside a b) (y : StandsAside b c) : StandsAside a c := by
  obtain ⟨x1, x2, x3⟩ := x
  obtain ⟨y1, y2, y3⟩ := y
  exact ⟨y1.trans x1, y2.trans x2, fun k => (y3 k).trans (x3 k)⟩

/-- A recall drops dirty records of the cores and nothing else of them (R248). -/
theorem standsAside_recall (s : State) (keep : Option Nat) (line : Nat) : StandsAside s (s.recall keep line) := by
  refine ⟨rfl, rfl, fun c => ?_⟩
  unfold State.coreAt State.recall tgetD
  rw [tget_map _ fun x => by split <;> rfl]
  cases tget s.cores c with
  | none => rfl
  | some x => simp only [Option.map_some, Option.getD_some]; split <;> rfl

theorem standsAside_unmark (s : State) (line : Nat) : StandsAside s (s.unmark line) := by
  unfold State.unmark
  split
  · exact ⟨rfl, rfl, fun _ => rfl⟩
  · exact StandsAside.refl s

theorem standsAside_foldl {α : Type} {g : State → α → State} (hg : ∀ s x, StandsAside s (g s x)) :
    ∀ (l : List α) (s : State), StandsAside s (l.foldl g s)
  | [], s => StandsAside.refl s
  | x :: r, s => (hg s x).trans (standsAside_foldl hg r (g s x))

theorem standsAside_writeBlock (s : State) (pa n : Nat) (fields : List (Nat × Nat × Nat)) :
    StandsAside s (s.writeBlock pa n fields) :=
  (standsAside_foldl (fun s l => (standsAside_recall s none l).trans (standsAside_unmark _ l)) (linesOf pa n) s).trans
    ⟨rfl, rfl, fun _ => rfl⟩

/-- The one way in which an image is placed: a block of DRAM is overwritten (R325 step 2). -/
theorem putImage_ok {s s1 : State} {t : Thread} {q : List QEntry} (h : s.putImage t q = .ok s1) :
    ∃ pa, s1 = s.writeBlock pa 4096 (t.trapImage q) := by
  unfold State.putImage at h
  split at h
  · cases h
  · next pa place _ =>
    refine ⟨pa, ?_⟩
    split at h
    · cases h
    · split at h
      · cases h; rfl
      · cases hb : s.blockReady pa 4096 <;> rw [hb] at h <;> cases h
        rfl
  · cases h

theorem standsAside_putImage {s s1 : State} {t : Thread} {q : List QEntry} (h : s.putImage t q = .ok s1) : StandsAside s s1 := by
  obtain ⟨pa, rfl⟩ := putImage_ok h
  exact standsAside_writeBlock s pa 4096 (t.trapImage q)

/-- Placing an image does not look at the table of threads. -/
theorem writeBlock_setTh (s : State) (h : Nat) (u : Thread) (pa n : Nat) (fields : List (Nat × Nat × Nat)) :
    (s.setTh h u).writeBlock pa n fields = (s.writeBlock pa n fields).setTh h u := by
  have hstep : ∀ (s : State) (l : Nat), ((s.setTh h u).recall none l).unmark l = ((s.recall none l).unmark l).setTh h u := by
    intro s l
    unfold State.unmark
    have hc : ((s.setTh h u).recall none l).clearPending l = (s.recall none l).clearPending l := rfl
    rw [hc]
    split <;> rfl
  have hfold := List.foldl_hom (fun s : State => s.setTh h u) (g₁ := fun s l => (s.recall none l).unmark l)
    (g₂ := fun s l => (s.recall none l).unmark l) (l := linesOf pa n) (init := s) hstep
  unfold State.writeBlock
  simp only [hfold]
  rfl

theorem putImage_setTh (s : State) (h : Nat) (u t : Thread) (q : List QEntry) :
    (s.setTh h u).putImage t q = (s.putImage t q).bind fun s1 => .ok (s1.setTh h u) := by
  have hcheck : ∀ va n, (s.setTh h u).checkAccess t .S .store va n = s.checkAccess t .S .store va n := fun _ _ => rfl
  have hready : ∀ pa n, (s.setTh h u).blockReady pa n = s.blockReady pa n := fun _ _ => rfl
  have hrouted : ∀ pa, (s.setTh h u).routed pa = s.routed pa := fun _ => rfl
  unfold State.putImage
  simp only [hcheck, hready, hrouted, writeBlock_setTh]
  split
  · rfl
  · next pa place _ =>
    split
    · rfl
    · split
      · rfl
      · cases s.blockReady pa 4096 <;> rfl
  · rfl

/-- The thread as it enters its handler from a trap of its scalar stream, its queue empty (R325). -/
def Thread.inHandler (t : Thread) (r : TrapReq) : Thread :=
  { t with
    queue := [], imgq := [], pend := none, wait := none
    tcause := word (packN [(r.cause, 0), (boolN false, 8), (r.code, 12)])
    tpc := word (r.tpc.toNat % 2 ^ 48), trapPc := word (r.tpc.toNat % 2 ^ 48)
    taddr := word r.addr, telem := word (r.elem % 2 ^ 15)
    tqimg := word (packN [(0, 0), (boolN t.hasPend, 7)])
    handler := true, cfgDirty := false
    pc := t.tvec }

/-- A trap request of the scalar stream, which sets no VSTART and leaves the pending features standing (R106, R322). -/
def TrapReq.Scalar (r : TrapReq) : Prop := r.vside = false ∧ r.vstart = none ∧ r.unpend = false

/-- A trap of the scalar stream that finds a handler, an empty queue and a place for its image: what becomes of the state (R325). -/
theorem takeTrap_ready {s s1 : State} {h : Nat} {t : Thread} {r : TrapReq} (rdy : Ready s h t) (hr : r.Scalar) (hq : t.queue = [])
    (hhand : t.handler = false) (htvec : t.tvec ≠ 0) (hput : s.putImage t [] = .ok s1) :
    s.takeTrap h r = (s1.unseal h).setTh h (t.inHandler r) := by
  obtain ⟨hside, hstart, hunpend⟩ := hr
  have hof : r.of t = t := by unfold TrapReq.of; rw [hunpend]; rfl
  obtain ⟨hthreads, -, -⟩ := standsAside_putImage hput
  have hth : (s1.unseal h).th h = some t := by
    show tget s1.threads h = some t
    rw [hthreads]; exact rdy.th
  have hbundle : s1.trapBundle t = s1 := by simp [State.trapBundle, rdy.bundle, hq]
  have hloop : (s1.unseal h).refuseLoop h 0x0D = s1.unseal h := by simp [State.refuseLoop, hth, rdy.stage]
  simp only [State.takeTrap, rdy.th, hhand, htvec, hside, hof, Bool.false_eq_true, if_false, hput, hbundle, hloop, State.modTh, hth,
    hstart]
  rfl

/-- Such a trap is taken as R325 states it. -/
theorem takeTrap_taken {s : State} {h : Nat} {t : Thread} {r : TrapReq} (rdy : Ready s h t) (hr : r.Scalar) (hq : t.queue = [])
    (htrap : Trappable s t) : TrapTaken s (s.takeTrap h r) h t r.cause r.code r.addr r.elem r.tpc := by
  obtain ⟨hhand, htvec, s1, hput⟩ := htrap
  rw [takeTrap_ready rdy hr hq hhand htvec hput]
  obtain ⟨hthreads, hhost, hbanks⟩ := standsAside_putImage hput
  have hother : ∀ g, g ≠ h → ((s1.unseal h).setTh h (t.inHandler r)).th g = s.th g := fun g hg => by
    rw [th_setTh_other _ _ hg]; exact congrArg (tget · g) hthreads
  have hcause : packN [(r.cause, 0), (boolN false, 8), (r.code, 12)] = r.cause + r.code * 4096 := by simp [packN, boolN]
  refine ⟨fun s2 h2 => ?_, ⟨hhost, hbanks, hother⟩, t.inHandler r, th_setTh_same _ _ _, rfl, rfl, rfl, rfl, rfl,
    congrArg word hcause, rfl, rfl, rfl, rfl, rfl, rfl, rfl, rfl, rfl, rfl, rfl, rfl, rfl, rfl, rfl, rfl⟩
  cases hput.symm.trans h2
  exact ⟨rfl, rfl⟩

/-- Whether a trap can be taken does not depend on the table of threads. -/
theorem Trappable.setTh {s : State} {t : Thread} (k : Trappable s t) (h : Nat) (u : Thread) : Trappable (s.setTh h u) t := by
  obtain ⟨hhand, htvec, s1, hput⟩ := k
  exact ⟨hhand, htvec, s1.setTh h u, by rw [putImage_setTh, hput]; rfl⟩

/-- Nor does what the trap leaves, but for the record of the thread that takes it. -/
theorem TrapTaken.of_setTh {s s' : State} {h : Nat} {t u : Thread} {cause code addr elem : Nat} {tpc : Word}
    (k : TrapTaken (s.setTh h u) s' h t cause code addr elem tpc) : TrapTaken s s' h t cause code addr elem tpc := by
  obtain ⟨himage, ⟨hhost, hbanks, hother⟩, hthread⟩ := k
  refine ⟨fun s1 h1 => ?_, ⟨hhost, hbanks, fun g hg => (hother g hg).trans (th_setTh_other s u hg)⟩, hthread⟩
  exact himage (s1.setTh h u) (by rw [putImage_setTh, h1]; rfl)

/-- A plain scalar word whose body asks for a trap, in a thread with an empty queue, takes it at once (R106, R325). -/
theorem exec_traps {i : Instr} {body : State → Nat → Thread → SRes} {s : State} {h : Nat} {t : Thread} {r : TrapReq}
    (p : PlainScalar i) (hexec : exec i s = scalarStep i body s) (rdy : Ready s h t) (hq : t.queue = []) (htrap : Trappable s t)
    (hr : r.Scalar) (hbody : body (s.setTh h t) h t = .trap (s.setTh h t) r) :
    ∃ s', exec i s = .next s' ∧ TrapTaken s s' h t r.cause r.code r.addr r.elem r.tpc := by
  refine ⟨(s.setTh h t).takeTrap h r, ?_, (takeTrap_taken rdy.setTh hr hq (htrap.setTh h t)).of_setTh⟩
  rw [hexec, scalarStep_ready rdy (p.allowed t), hbody]
  exact congrArg _ (scalarTrap_ready rdy.setTh hq r)

/-- With older words queued it waits for them instead (R106). -/
theorem exec_waits_to_trap {i : Instr} {body : State → Nat → Thread → SRes} {s : State} {h : Nat} {t : Thread} {r : TrapReq}
    (p : PlainScalar i) (hexec : exec i s = scalarStep i body s) (rdy : Ready s h t) (hq : t.queue ≠ [])
    (hbody : body (s.setTh h t) h t = .trap (s.setTh h t) r) : exec i s = .next (s.setTh h { t with wait := some .drain }) := by
  rw [hexec, scalarStep_ready rdy (p.allowed t), hbody]
  simp only [scalarTrap_queued (th_setTh_same s h t) hq, setTh_setTh]

end Sys2Proof.Machine
end

section
/-!
The words of R118, R119 and R127, and the stray sret of R329.
-/
namespace Sys2Proof.Machine

/-- What jalr does in a thread that nothing stands before: its source is read before its link is written (R119). -/
def jalrBody (d a : BitVec 5) (i : BitVec 15) (s : State) (h : Nat) (t : Thread) : SRes :=
  if (t.reg a + i.signExtend 64).toNat % 4 ≠ 0 then .trap s (trapHere t 3 (t.reg a + i.signExtend 64).toNat)
  else .jump (s.setTh h (t.setReg d (t.pc + 4))) (t.reg a + i.signExtend 64)

theorem exec_jalr (d a : BitVec 5) (i : BitVec 15) (s : State) :
    exec (.jalr d a i) s = scalarStep (.jalr d a i) (jalrBody d a i) s := rfl

/-- jalr with a target that is a multiple of 4 writes its link and goes there (R119). -/
theorem jalr_aligned (d a : BitVec 5) (i : BitVec 15) {s : State} {h : Nat} {t : Thread} (r : Ready s h t)
    (htarget : (t.reg a + i.signExtend 64).toNat % 4 = 0) :
    exec (.jalr d a i) s = .next (s.setTh h ((t.setReg d (t.pc + 4)).setPc (t.reg a + i.signExtend 64))) := by
  have hbody : jalrBody d a i (s.setTh h t) h t = .jump (s.setTh h (t.setReg d (t.pc + 4))) (t.reg a + i.signExtend 64) := by
    rw [jalrBody, if_neg (not_not.2 htarget), setTh_setTh]
  rw [exec_jalr, scalarStep_ready r (PlainScalar.allowed ⟨rfl, rfl, rfl⟩ t), hbody]
  exact congrArg _ (retireS_setReg r _ _ _ d _)

/-- jalr with a misaligned target takes the alignment trap, its link unwritten (R119). -/
theorem jalr_misaligned (d a : BitVec 5) (i : BitVec 15) {s : State} {h : Nat} {t : Thread} (r : Ready s h t) (hq : t.queue = [])
    (htrap : Trappable s t) (htarget : (t.reg a + i.signExtend 64).toNat % 4 ≠ 0) :
    ∃ s', exec (.jalr d a i) s = .next s' ∧ TrapTaken s s' h t 3 0 (t.reg a + i.signExtend 64).toNat 0 t.pc :=
  exec_traps ⟨rfl, rfl, rfl⟩ (exec_jalr d a i s) r hq htrap ⟨rfl, rfl, rfl⟩ (if_pos htarget)

/-- Settles O4, each branch by its condition on its two registers, the jumps by the two outcomes of jalr. -/
theorem branchesAndJumps : Obligations.BranchesAndJumps := by
  unfold Obligations.BranchesAndJumps
  refine ⟨fun a b o => ⟨?beq, ?bne, ?blt, ?bge, ?bltn, ?bgen⟩, fun d o s h t r => jal_ready d o r,
    fun d a i s h t r => ⟨jalr_aligned d a i r, fun hmis hq htrap => jalr_misaligned d a i r hq htrap hmis⟩⟩
  case beq => exact moves_of_branch ⟨rfl, rfl, rfl⟩ (fun _ => rfl) fun t => beq_eq_decide _ _
  case bne => exact moves_of_branch ⟨rfl, rfl, rfl⟩ (fun _ => rfl) fun t => by rw [bne, beq_eq_decide, decide_not]
  case blt => exact moves_of_branch ⟨rfl, rfl, rfl⟩ (fun _ => rfl) fun t => BitVec.slt_eq_decide
  case bge => exact moves_of_branch ⟨rfl, rfl, rfl⟩ (fun _ => rfl) fun t => by simp only [BitVec.slt_eq_decide, ← decide_not, not_lt]
  case bltn => exact moves_of_branch ⟨rfl, rfl, rfl⟩ (fun _ => rfl) fun t => BitVec.ult_eq_decide
  case bgen => exact moves_of_branch ⟨rfl, rfl, rfl⟩ (fun _ => rfl) fun t => by simp only [BitVec.ult_eq_decide, ← decide_not, not_lt]

/-- Settles O8: syscall and brk always ask for their trap, sret where no handler runs. -/
theorem systemCallsAndStraySret : Obligations.SystemCallsAndStraySret := by
  unfold Obligations.SystemCallsAndStraySret
  refine ⟨fun c s h t r hq htrap => ⟨?syscall, ?brk⟩, fun c s h t r hq => ⟨?syscallWaits, ?brkWaits⟩, fun s h t r hq htrap => ?sret⟩
  case syscall =>
    exact exec_traps (r := { trapHere t 0x0C 0 with code := c.toNat, tpc := t.pc + 4 }) ⟨rfl, rfl, rfl⟩ rfl r hq htrap
      ⟨rfl, rfl, rfl⟩ rfl
  case brk =>
    exact exec_traps (r := { trapHere t 0x0B 0 with code := c.toNat }) ⟨rfl, rfl, rfl⟩ rfl r hq htrap ⟨rfl, rfl, rfl⟩ rfl
  case syscallWaits => exact exec_waits_to_trap ⟨rfl, rfl, rfl⟩ rfl r hq rfl
  case brkWaits => exact exec_waits_to_trap ⟨rfl, rfl, rfl⟩ rfl r hq rfl
  case sret =>
    have hbody : sretBody (s.setTh h t) h t = .trap (s.setTh h t) (trapHere t 1 0) := by simp [sretBody, htrap.1]
    exact exec_traps ⟨rfl, rfl, rfl⟩ rfl r hq htrap ⟨rfl, rfl, rfl⟩ hbody

end Sys2Proof.Machine
end
